-- ==== Sys2Proof/Word.lean ====
section
/-! DEFINITION. The word types of the machine and its plainest arithmetic. -/

namespace Sys2Proof

/-- One byte. -/
abbrev Byte := BitVec 8
/-- A lane word, an instruction word (R67, R158). -/
abbrev Word := BitVec 32
/-- A scalar register's value, an address (R186, R131). -/
abbrev DWord := BitVec 64
/-- One bit per lane: a lane set, EXEC, a predicate (R68). -/
abbrev Mask := BitVec 64
/-- A scalar register number `s0`-`s63` (R159). -/
abbrev SReg := BitVec 6
/-- A predicate register number `p0`-`p7` (R160). -/
abbrev PReg := BitVec 3
/-- A vector register number of Table 05-3. -/
abbrev VReg := BitVec 11
/-- The 64 lane words of one vector register. A list; a missing entry reads as zero. -/
abbrev Lanes := List Word

/-- All lanes. -/
def allLanes : Mask := BitVec.allOnes 64

/-- Bit `l` of a mask, for a lane number given as a `Nat`. -/
def laneBit (m : Mask) (l : Nat) : Bool := m.getLsbD l

/-- The lane numbers 0 to 63 (R67). -/
def laneNumbers : List Nat := List.range 64

/-- The number of lanes set in a mask. -/
def countLanes (m : Mask) : Nat := (laneNumbers.filter (laneBit m)).length

/-- The lowest lane set in a mask. -/
def lowestLane (m : Mask) : Option Nat := laneNumbers.find? (laneBit m)

/-- A mask from a predicate on lane numbers. -/
def maskOf (f : Nat → Bool) : Mask :=
  laneNumbers.foldl (fun m l => if f l then m ||| (BitVec.ofNat 64 (2 ^ l)) else m) 0

end Sys2Proof
end

