-- ==== Sys2Proof/Syntax.lean ====
section
/-! DEFINITION. The steps of the part as data: one constructor of `Instr` for each row of spec/opcode_table.json.
Rows 0 to 165 are the instructions of the S and W spaces (R158 to R173, R266); rows 166 to 272 are the package's other
indivisible steps (spec/95_what_each_step_holds.md). A constructor holds exactly the fields its row's encoding uses. -/

namespace Sys2Proof

/-- Format codes (Table 03-1). `nf n` is the narrow float described by `FMT`n. -/
inductive Fmt where
  | i8 | i16 | i32 | i64 | b8 | b16 | b32 | b64
  | f32 | bf16 | f16 | f64 | mxi8 | mxi4 | lns16 | lns8
  | tern2 | i8x4 | b8x4 | i16x2 | b16x2 | bf16x2 | f16x2
  | nf (n : BitVec 4)
  deriving DecidableEq, Repr

/-- Conditions of SCMP and VCMP (Table 11-5). -/
inductive Cond where
  | eq | ne | lt | le | gt | ge | ltu | leu | gtu | geu
  deriving DecidableEq, Repr

/-- Conditions of VFCMP (Table 11-5): `un` unordered, `od` ordered. -/
inductive FCond where
  | eq | ne | lt | le | gt | ge | un | od
  deriving DecidableEq, Repr

/-- ORD of atomics (Table 11-6). -/
inductive MemOrd where
  | rlx | acq | rel | ar
  deriving DecidableEq, Repr

/-- SCOPE (Table 11-6). -/
inductive Scope where
  | cluster | die | package | system
  deriving DecidableEq, Repr

/-- FSCOPE of FENCE (Table 11-6). -/
inductive FScope where
  | group | team | cluster | die | package | system
  deriving DecidableEq, Repr

/-- Kind of a FENCE (R214). -/
inductive FKind where
  | acq | rel | ar | sc
  deriving DecidableEq, Repr

/-- AOP (Table 11-6). -/
inductive Aop where
  | swap | add | band | bor | bxor | min | max
  deriving DecidableEq, Repr

/-- SIZE of scalar memory accesses (Table 13-4), by bytes. -/
inductive MSize where
  | one | two | four | eight
  deriving DecidableEq, Repr

/-- The rnd field (Table 11-4); `dyn` takes the RM field of MODE. -/
inductive Rnd where
  | dyn | rne | rtz | rup | rdn | rna | rst
  deriving DecidableEq, Repr

/-- The operand vb under its kind field (R162). -/
inductive Src where
  | vec (r : VReg)
  | sreg (r : SReg)
  | lit (v : Word)
  deriving DecidableEq, Repr

/-- The base of a W memory address (R169): a scalar, or the even register of a vector pair. -/
inductive MBase where
  | sreg (r : SReg)
  | pair (n : VReg)
  deriving DecidableEq, Repr

/-- The guard of a W instruction (R165). -/
structure Guard where
  neg : Bool
  p : PReg
  deriving DecidableEq, Repr

/-- TEST of BRP (R207). -/
inductive BrTest where
  | any | all | none
  deriving DecidableEq, Repr

/-- Target window of SPCAST (R205). -/
inductive Window where
  | global | priv | scratch | shared
  deriving DecidableEq, Repr

/-- Special registers (Table 11-7). -/
inductive SpecReg where
  | mode | flags | tags | govstat | time | classid | role | gotbase | drscale | outcnt | trapbase | exec | coreid
  | fmt (n : BitVec 4)
  | tctl (n : BitVec 3)
  | handler (n : BitVec 4)
  deriving DecidableEq, Repr

/-- Atomic types of VATOM (Table 11-9). -/
inductive AType where
  | i32 | b32 | i64 | b64 | f32 | bf16x2 | f16x2
  deriving DecidableEq, Repr

/-- Sub-operations of VRAND (R243) with the register each uses. -/
inductive RandOp where
  | draw (vd : VReg)
  | unit (vd : VReg)
  | seed (va : VReg)
  | state (vd : VReg)
  deriving DecidableEq, Repr

/-- Sub-operations of VFLG (R244). -/
inductive FlgOp where
  | get (vd : VReg)
  | set (va : VReg)
  | or (va : VReg)
  | clr (va : VReg)
  deriving DecidableEq, Repr

/-- Operations of VREDUCE and VSCAN (R249). -/
inductive RedOp where
  | add | min | max | band | bor | bxor
  deriving DecidableEq, Repr

/-- Matrix register codes (R266). -/
inductive MReg where
  | tile (t : BitVec 3)
  | acc (a : Bool)
  deriving DecidableEq, Repr

/-- Metrics of TMMA (R280). -/
inductive Metric where
  | dot | l1 | l2sq
  deriving DecidableEq, Repr

/-- Sub-operations of TMOV (Table 17-5); `n1` is n minus one. -/
inductive TMovOp where
  | tt (d a : BitVec 3)
  | vt (d : BitVec 3) (a : VReg) (n1 : BitVec 7) (j : SReg)
  | tv (d : VReg) (a : BitVec 3) (n1 : BitVec 7) (j : SReg)
  deriving DecidableEq, Repr

/-- Forms of TDRAIN (R282); `n1` is n minus one. -/
inductive DrainDest where
  | mem (f : Fmt)
  | tile (d : BitVec 3)
  | vec (d : VReg) (n1 : BitVec 6) (f : Fmt)
  deriving DecidableEq, Repr

/-- A cache in which an error is found: the L1 part of a core, or a die cache. -/
inductive CacheSite where
  | l1 (core : Nat)
  | die (d : Nat)
  deriving DecidableEq, Repr

/-- What the check of the images that a die starts with finds (R382): the engine firmware of the die, the emulation firmware of all dies. -/
inductive DieImages where
  | verified
  | engineFails
  | emulationFails
  deriving DecidableEq, Repr

/-- What sends a wait-cycle probe (R128): a strand, or the record that a launch queue holds. -/
inductive Waiter where
  | strand (team group sid : Nat)
  | launch (q : Nat)
  deriving DecidableEq, Repr

/-- Which of the two sends. -/
inductive WaiterSort where
  | strand
  | launch
  deriving DecidableEq, Repr

/-- The sender of a sort that a number names: the strand at a place (group, strand number) of a team, or a launch queue's record. -/
def WaiterSort.sender (k : WaiterSort) (n : Nat) (place : Nat × Nat) : Waiter :=
  match k with
  | .strand => .strand n place.1 place.2
  | .launch => .launch n

/-- The team of a sender. -/
def Waiter.team : Waiter → Option Nat
  | .strand t _ _ => some t
  | .launch _ => none

/-- Where an uncorrectable error is found (Table 21-9). -/
inductive ErrSite where
  | queueSram (taskUid : Nat)
  | counterOneCopy (n : Nat)
  | counterBoth (n : Nat) (asid : Nat)
  | coreRow (team row : Nat)
  | tile (team t : Nat)
  | accumulator (team a : Nat)
  | cache (site : CacheSite) (line : Nat)
  | memoryLine (line : Nat)
  | linkFlit (die : Nat)
  | check (place line : Nat)
  | contextFatal (asid : Nat)
  deriving DecidableEq, Repr

/-- A request of another package over UALink (R379); addresses are offsets of this package's device memory. -/
inductive RemoteReq where
  | read (off n : Nat)
  | write (off : Nat) (data : List Byte) (poisoned : Bool)
  | atomic (op : Aop) (ty : AType) (off : Nat) (operand : DWord)
  | cas (off n : Nat) (expected new : DWord)
  deriving DecidableEq, Repr

/-- Every step of spec/opcode_table.json. `la` is a lookahead, `g` the guard, `eph` the ephemeral bit, `ty` a type. -/
inductive Instr where
  -- integer and address arithmetic (R189 to R194)
  | nop
  | sadd (d a b : SReg)
  | ssub (d a b : SReg)
  | smul (d a b : SReg)
  | smulh (u : Bool) (d a b : SReg)
  | sdiv (u : Bool) (d a b : SReg)
  | srem (u : Bool) (d a b : SReg)
  | sand (d a b : SReg)
  | sor (d a b : SReg)
  | sxor (d a b : SReg)
  | sandn (d a b : SReg)
  | sshl (d a b : SReg)
  | sshr (d a b : SReg)
  | ssar (d a b : SReg)
  | smin (u : Bool) (d a b : SReg)
  | smax (u : Bool) (d a b : SReg)
  | sclz (d a : SReg)
  | spopc (d a : SReg)
  | sbfx (sx : Bool) (d a b : SReg)
  | sbfi (d a b : SReg)
  | slea (k : BitVec 4) (d a b : SReg)
  | scmp (c : Cond) (d a b : SReg)
  | ssel (neg : Bool) (p : PReg) (d a b : SReg)
  | saddi (d a : SReg) (imm : BitVec 10)
  | sandi (d a : SReg) (imm : BitVec 10)
  | sori (d a : SReg) (imm : BitVec 10)
  | sxori (d a : SReg) (imm : BitVec 10)
  | sshli (d a : SReg) (k : BitVec 6)
  | sshri (d a : SReg) (k : BitVec 6)
  | ssari (d a : SReg) (k : BitVec 6)
  | smovi (d : SReg) (imm : BitVec 16)
  | smovhi (d : SReg) (imm : BitVec 16)
  -- predicates (R195)
  | pand (d a b : PReg)
  | por (d a b : PReg)
  | pxor (d a b : PReg)
  | pandn (d a b : PReg)
  | pcnt (d : SReg) (a : PReg)
  | pfroms (d : PReg) (a : SReg)
  | ptos (d : SReg) (a : PReg)
  -- scalar memory (R196 to R205)
  | sld (la : BitVec 4) (sz : MSize) (acq : Bool) (sc : Scope) (d a : SReg)
  | sst (la : BitVec 4) (sz : MSize) (rel : Bool) (sc : Scope) (d a : SReg)
  | sldc (d a : SReg) (imm : BitVec 10)
  | sldgot (d : SReg) (imm : BitVec 16)
  | satom (la : BitVec 4) (op : Aop) (dbl : Bool) (sc : Scope) (d a : SReg)
  | scas (la : BitVec 4) (dbl : Bool) (ord : MemOrd) (sc : Scope) (d a : SReg)
  | cwb (la : BitVec 4) (sc : Scope) (a b : SReg)
  | cinv (la : BitVec 4) (sc : Scope) (a b : SReg)
  | cwbinv (la : BitVec 4) (sc : Scope) (a b : SReg)
  | sptest (d a : SReg)
  | spcast (w : Window) (d a b : SReg)
  -- control transfer (R206 to R211)
  | bra (off : BitVec 16)
  | brp (t : BrTest) (neg : Bool) (p : PReg) (off : BitVec 16)
  | brd (neg : Bool) (p : PReg) (off : BitVec 16)
  | split (off : BitVec 16)
  | rejoin
  | jmps (a : SReg)
  | call (n : SReg) (off : BitVec 16)
  | calls (d a : SReg)
  | ret (a : SReg)
  | exit
  -- system (R212 to R220)
  | sread (d : SReg) (r : SpecReg)
  | swrite (r : SpecReg) (d : SReg)
  | fence (k : FKind) (sc : FScope)
  | bar (b : BitVec 4) (n1 : BitVec 5)
  | trap (t : BitVec 8)
  | brk (v : BitVec 16)
  | rett
  | xlock
  | xfree
  | waitcnt (c : BitVec 6)
  -- vector integer (R228 to R232)
  | vadd (g : Guard) (eph sat : Bool) (ty : Fmt) (vd va : VReg) (vb : Src)
  | vsub (g : Guard) (eph sat : Bool) (ty : Fmt) (vd va : VReg) (vb : Src)
  | vmul (g : Guard) (eph sat : Bool) (ty : Fmt) (vd va : VReg) (vb : Src)
  | vmulh (g : Guard) (eph sat : Bool) (ty : Fmt) (vd va : VReg) (vb : Src)
  | vmad (g : Guard) (eph sat : Bool) (ty : Fmt) (vd va : VReg) (vb : Src)
  | vand (g : Guard) (eph : Bool) (ty : Fmt) (vd va : VReg) (vb : Src)
  | vor (g : Guard) (eph : Bool) (ty : Fmt) (vd va : VReg) (vb : Src)
  | vxor (g : Guard) (eph : Bool) (ty : Fmt) (vd va : VReg) (vb : Src)
  | vandn (g : Guard) (eph : Bool) (ty : Fmt) (vd va : VReg) (vb : Src)
  | vshl (g : Guard) (eph : Bool) (ty : Fmt) (vd va : VReg) (vb : Src)
  | vshr (g : Guard) (eph : Bool) (ty : Fmt) (vd va : VReg) (vb : Src)
  | vsar (g : Guard) (eph : Bool) (ty : Fmt) (vd va : VReg) (vb : Src)
  | vmin (g : Guard) (eph : Bool) (ty : Fmt) (vd va : VReg) (vb : Src)
  | vmax (g : Guard) (eph : Bool) (ty : Fmt) (vd va : VReg) (vb : Src)
  | vabsd (g : Guard) (eph sat : Bool) (ty : Fmt) (vd va : VReg) (vb : Src)
  | vcmp (g : Guard) (c : Cond) (ty : Fmt) (pd : PReg) (va : VReg) (vb : Src)
  | vsel (g : Guard) (eph neg : Bool) (p : PReg) (ty : Fmt) (vd va : VReg) (vb : Src)
  | vmov (g : Guard) (eph : Bool) (ty : Fmt) (vd : VReg) (vb : Src)
  | vclz (g : Guard) (eph : Bool) (ty : Fmt) (vd va : VReg)
  | vpopc (g : Guard) (eph : Bool) (ty : Fmt) (vd va : VReg)
  | vbfx (g : Guard) (eph : Bool) (ty : Fmt) (vd va : VReg) (vb : Src)
  | vbfi (g : Guard) (eph : Bool) (ty : Fmt) (vd va : VReg) (vb : Src)
  | vdot4 (g : Guard) (eph : Bool) (ty : Fmt) (vd va : VReg) (vb : Src)
  -- vector float (R233 to R237)
  | vfadd (g : Guard) (eph sat : Bool) (rnd : Rnd) (ty : Fmt) (vd va : VReg) (vb : Src)
  | vfsub (g : Guard) (eph sat : Bool) (rnd : Rnd) (ty : Fmt) (vd va : VReg) (vb : Src)
  | vfmul (g : Guard) (eph sat : Bool) (rnd : Rnd) (ty : Fmt) (vd va : VReg) (vb : Src)
  | vfma (g : Guard) (eph sat : Bool) (rnd : Rnd) (ty : Fmt) (vd va : VReg) (vb : Src)
  | vfmin (g : Guard) (eph sat : Bool) (rnd : Rnd) (ty : Fmt) (vd va : VReg) (vb : Src)
  | vfmax (g : Guard) (eph sat : Bool) (rnd : Rnd) (ty : Fmt) (vd va : VReg) (vb : Src)
  | vfcmp (g : Guard) (c : FCond) (ty : Fmt) (pd : PReg) (va : VReg) (vb : Src)
  | vfclass (g : Guard) (eph : Bool) (ty : Fmt) (vd va : VReg)
  | vfrnd (g : Guard) (eph : Bool) (rnd : Rnd) (ty : Fmt) (vd va : VReg)
  | vfdiv (g : Guard) (la : BitVec 4) (sat : Bool) (rnd : Rnd) (ty : Fmt) (vd va : VReg) (vb : Src)
  | vexp2 (g : Guard) (la : BitVec 4) (sat : Bool) (rnd : Rnd) (ty : Fmt) (vd va : VReg)
  | vlog2 (g : Guard) (la : BitVec 4) (sat : Bool) (rnd : Rnd) (ty : Fmt) (vd va : VReg)
  | vrcp (g : Guard) (la : BitVec 4) (sat : Bool) (rnd : Rnd) (ty : Fmt) (vd va : VReg)
  | vrsq (g : Guard) (la : BitVec 4) (sat : Bool) (rnd : Rnd) (ty : Fmt) (vd va : VReg)
  | vsqrt (g : Guard) (la : BitVec 4) (sat : Bool) (rnd : Rnd) (ty : Fmt) (vd va : VReg)
  -- conversions, LNS, random state, flags (R238 to R244)
  | vcvt (g : Guard) (eph sat : Bool) (rnd : Rnd) (src dst : Fmt) (vd va : VReg)
  | vpack (g : Guard) (eph sat : Bool) (rnd : Rnd) (src dst : Fmt) (vd va : VReg)
  | vunpack (g : Guard) (eph : Bool) (src dst : Fmt) (vd va : VReg)
  | vlns (g : Guard) (eph : Bool) (rnd : Rnd) (ty : Fmt) (vd va : VReg) (vb : Src)
  | vlin (g : Guard) (eph : Bool) (ty : Fmt) (vd va : VReg) (vb : Src)
  | vlmul (g : Guard) (eph : Bool) (ty : Fmt) (vd va : VReg) (vb : Src)
  | vladd (g : Guard) (eph : Bool) (ty : Fmt) (vd va : VReg) (vb : Src)
  | vrand (g : Guard) (eph : Bool) (op : RandOp)
  | vflg (g : Guard) (eph : Bool) (op : FlgOp)
  -- lane movement, reductions, keys (R245 to R253)
  | vshuf (g : Guard) (eph : Bool) (ty : Fmt) (vd va : VReg) (vb : Src)
  | vbcast (g : Guard) (eph : Bool) (ty : Fmt) (vd va : VReg) (vb : Src)
  | vrdlane (g : Guard) (ty : Fmt) (sd : SReg) (va : VReg) (vb : Src)
  | vwrlane (g : Guard) (eph : Bool) (ty : Fmt) (vd : VReg) (sa : SReg) (vb : Src)
  | vreduce (g : Guard) (la : BitVec 4) (rnd : Rnd) (ty : Fmt) (op : RedOp) (vd va : VReg)
  | vscan (g : Guard) (la : BitVec 4) (rnd : Rnd) (ty : Fmt) (op : RedOp) (vd va : VReg)
  | vmatch (g : Guard) (la : BitVec 4) (ty : Fmt) (vd va vb : VReg)
  | vcompact (g : Guard) (eph : Bool) (vd va : VReg)
  | tsort (g : Guard) (la : BitVec 4) (ty : Fmt) (desc : Bool) (k : BitVec 4) (vd va : VReg)
  | assertu (g : Guard) (ty : Fmt) (va : VReg)
  -- vector memory (R254 to R261)
  | vld (g : Guard) (la : BitVec 4) (acq : Bool) (sc : Scope) (ty : Fmt) (vd : VReg) (base : MBase) (off : Src)
  | vst (g : Guard) (la : BitVec 4) (rel : Bool) (sc : Scope) (ty : Fmt) (vd : VReg) (base : MBase) (off : Src)
  | vlds (g : Guard) (la : BitVec 4) (acq : Bool) (sc : Scope) (ty : Fmt) (vd : VReg) (base : MBase) (off : Src)
  | vsts (g : Guard) (la : BitVec 4) (rel : Bool) (sc : Scope) (ty : Fmt) (vd : VReg) (base : MBase) (off : Src)
  | vldt (g : Guard) (la : BitVec 4) (acq : Bool) (sc : Scope) (view : Fmt) (vd : VReg) (base : MBase) (off : Src)
  | vatom (g : Guard) (la : BitVec 4) (ord : MemOrd) (sc : Scope) (op : Aop) (ty : AType) (vd : VReg) (base : MBase) (off : Src)
  | vcas (g : Guard) (la : BitVec 4) (ord : MemOrd) (sc : Scope) (vd : VReg) (base : MBase) (off : Src)
  | vpref (g : Guard) (level : BitVec 2) (base : MBase) (off : Src)
  -- matrix engine (R273 to R288)
  | tcfg (t : BitVec 3) (v : Src)
  | tld (la : BitVec 4) (sat : Bool) (rnd : Rnd) (m : MReg) (card : SReg)
  | tst (la : BitVec 4) (sat : Bool) (rnd : Rnd) (t : BitVec 3) (card : SReg)
  | tldr (la : BitVec 4) (pk : Bool) (t : BitVec 3) (ring : BitVec 3)
  | tmov (la : BitVec 4) (op : TMovOp)
  | tzero (la : BitVec 4) (m : MReg)
  | tmma (la : BitVec 4) (m : Metric) (acc : Bool) (a b : BitVec 3) (card : SReg)
  | tdrain (la : BitVec 4) (sat : Bool) (rnd : Rnd) (clr : Bool) (acc : Bool) (dest : DrainDest) (card : SReg)
  | tbest (la : BitVec 4) (sat : Bool) (rnd : Rnd) (acc tie two max clr : Bool) (dist : Option Fmt) (vd : VReg) (par : SReg)
  | tcupd (la : BitVec 4) (acc : Bool) (t : BitVec 3) (vi : VReg)
  | tcfin (la : BitVec 4) (sat : Bool) (rnd : Rnd) (t : BitVec 3) (acc clr : Bool)
  | twait (la : BitVec 4)
  -- copies, tags, rings, queues (R289 to R301)
  | cpy (la : BitVec 4) (sat : Bool) (rnd : Rnd) (card : SReg)
  | coll (la : BitVec 4) (sat : Bool) (rnd : Rnd) (card : SReg)
  | tagwait (all : Bool) (m : SReg)
  | tagff (done : Bool) (d m : SReg)
  | tagclr (m : SReg)
  | rinit (ring : BitVec 3) (b g : SReg)
  | racq (d : SReg) (ring : BitVec 3)
  | rcommit (ring : BitVec 3) (m : SReg)
  | rwait (d : SReg) (ring : BitVec 3)
  | rrel (ring : BitVec 3)
  | rsub (out sat : Bool) (rnd : Rnd) (ring : BitVec 3) (t g : SReg)
  | runsub (ring : BitVec 3) (g : SReg)
  | qcfg (st : Bool) (q : BitVec 4) (b g : SReg)
  -- schedules and tasks (R302 to R306)
  | schrd (la : BitVec 4) (d : SReg) (k : BitVec 4)
  | schwr (la : BitVec 4) (a : SReg) (k : BitVec 4)
  | nexttile (la : BitVec 4) (d : SReg)
  | atomdone (la : BitVec 4) (d a : SReg)
  | spawn (la : BitVec 4) (a : SReg)
  | join
  -- completion, debug stops, the governor, jobs, rings and streams
  | longLatencyComplete (team group idx : Nat)
  | breakpointStop (bp : Nat)
  | debugHaltStop (team group : Nat)
  | governorWindow (die budget : Nat)
  | jobAccept (job : Nat)
  | jobStart (job : Nat)
  | jobComplete (job : Nat)
  | jobFail (team : Nat)
  | expanderWatchdog (job : Nat)
  | commitPush (team ring : Nat)
  | stagerPush (team ring : Nat)
  | stagerSlotWriteback (team ring : Nat)
  | runsubComplete (team ring : Nat)
  | queueStreamFill (core q : Nat)
  | queueStreamWrite (core q : Nat)
  -- launch queues and dispatch
  | launchDoorbell (q : Nat) (t : DWord)
  | lqstatStopClear (q : Nat)
  | lqstatRead (q : Nat)
  | recordRead (q : Nat)
  | recordAdmit (q : Nat)
  | teamToGallery (die : Nat)
  | teamPlace (core : Nat)
  | taskSteal (core : Nat)
  | teamEnd (team : Nat)
  | gridComplete (grid : Nat)
  | gridFail (grid : Nat)
  | loaderLoad (asid : Nat)
  | loadComplete
  | loaderUnload (asid : Nat)
  | waitProbeSend (sort : WaiterSort) (n : Nat) (place : Nat × Nat)
  | waitProbeArrive (idx : Nat)
  -- translation
  | pageResponse (va : DWord) (asid : Nat) (success : Bool)
  | hostPageResponse (va : DWord) (asid : Nat) (success : Bool)
  | migrationCountDecay
  | invalidateRange (asid : Nat)
  | invalidateAsid (asid : Nat)
  | invalidateAll
  | atsInvalidation (va : DWord) (len : Nat) (asid : Nat)
  | invalidationComplete
  -- pre-emption, failures
  | preemptGo (asid : Nat) (deadline : BitVec 32)
  | preemptSwitch (asid : Nat) (deadline : BitVec 32)
  | preemptResume (asid : Nat)
  | preemptDeadline (team : Nat)
  | teamSave (team : Nat)
  | teamFlush (team : Nat)
  | teamRestore (team core : Nat)
  | dieFailure (die : Nat)
  | linkModulesLost (die n : Nat)
  | ualinkPortLost (port pkg : Nat)
  | errorCorrectable (source : Nat)
  | errorUncorrectable (site : ErrSite)
  -- coherence messages (Table 19-6): the die whose link delivers, or receives, its oldest message
  | rds (die : Nat)
  | rdx (die : Nat)
  | upg (die : Nat)
  | wb (die : Nat)
  | wt (die : Nat)
  | ack (die : Nat)
  | fdata (die : Nat)
  | writtenBack (die : Nat)
  | data (die : Nat)
  | grant (die : Nat)
  | inv (die : Nat)
  | upd (die : Nat)
  | fwds (die : Nat)
  | fwdx (die : Nat)
  | wback (die : Nat)
  | wtack (die : Nat)
  | homeQueueServe (line : Nat)
  | homeFillData (line : Nat)
  | homeTransientRecord (line : Nat)
  | persistentRequest (core line : Nat) (write : Bool)
  -- host accesses, register writes, mailbox commands
  | hostBar2Read (off n : Nat)
  | hostBar2Write (off : Nat) (bytes : List Byte) (ep : Bool)
  | ualinkRemoteAccess (r : RemoteReq)
  | registerWrite (off : Nat) (v : DWord)
  | setTrapbase
  | dbgSet
  | dbgResume
  | dbgRead
  | dbgWrite
  | acctRead
  | acctClear
  | bbRead
  | mrExtend
  | mrRead
  | timeSet
  | windowLengthChange
  | tsyncChange (ok : Bool)
  -- SPDM requests (R384); `i3c` names the transport
  | getVersion (i3c : Bool)
  | getCapabilities (i3c : Bool)
  | negotiateAlgorithms (i3c : Bool)
  | getDigests (i3c : Bool)
  | getCertificate (i3c : Bool) (slot : Nat)
  | challenge (i3c : Bool) (slot : Nat)
  | getMeasurements (i3c : Bool) (block : Nat) (signed : Bool)
  -- reset, readiness, tokens, ATS, stacks
  | coldReset
  | warmReset
  | toardReady (verified : Bool)
  | atriumReady (verified : Bool)
  | stackReady (stack : Nat)
  | stackWaitTimeout
  | dieReady (die : Nat) (images : DieImages)
  | dieReadyTimeout (die : Nat)
  | ualinkPortTrained (port : Nat)
  | tokenRequest (core line : Nat) (write : Bool)
  | atsTranslation (va : DWord) (asid : Nat) (answer : Option Nat)
  | stackFailure (stack : Nat)
  deriving DecidableEq, Repr

end Sys2Proof
end

