-- ==== Sys2Proof/Machine/RegUse.lean ====
section
/-! DEFINITION. Which vector registers an instruction names (Table 05-3, R163 and the runs and pairs of R169, R241, R252,
R275, R282, R285), which scalars and predicates it reads and writes, and which instructions are long-latency
(Tables 11-8, 11-9). The loader (R75, R93, R175), the role and register faults (R81, R345) and the issue rules use these. -/

namespace Sys2Proof

/-- The three 64-bit element types (R163). -/
def Fmt.is64 : Fmt → Bool
  | .i64 | .b64 | .f64 => true
  | _ => false

/-- The registers of one operand of an element type: the pair for a 64-bit type (R163). -/
def regsOf (ty : Fmt) (r : VReg) : List Nat :=
  if ty.is64 then [r.toNat, r.toNat + 1] else [r.toNat]

/-- A run of `n` registers from `r`. -/
def regRun (r : VReg) (n : Nat) : List Nat := (List.range n).map (r.toNat + ·)

/-- The vector registers a vb operand of an element type names. -/
def Src.regs (ty : Fmt) : Src → List Nat
  | .vec r => regsOf ty r
  | .sreg _ => []
  | .lit _ => []

/-- The vector register a vb operand read as one lane word names (shifts' amounts excepted: R230, R245 to R247, R169). -/
def Src.reg1 : Src → List Nat
  | .vec r => [r.toNat]
  | .sreg _ => []
  | .lit _ => []

/-- The base pair of a W memory operand (R169). -/
def MBase.regs : MBase → List Nat
  | .sreg _ => []
  | .pair n => [n.toNat, n.toNat + 1]

/-- Registers of one element in VPACK and VUNPACK (Table 15-5). -/
def packCount : Fmt → Nat
  | .i8x4 => 4
  | .b8x4 => 4
  | _ => 2

/-- Whether a VATOM type is 64 bits wide. -/
def AType.is64 : AType → Bool
  | .i64 => true
  | .b64 => true
  | _ => false

/-- The operand registers of a VATOM. -/
def AType.regs (ty : AType) (r : VReg) : List Nat :=
  if ty.is64 then [r.toNat, r.toNat + 1] else [r.toNat]

/-- The vector registers that an instruction reads, in the order va, vb, vd (R223). A 64-bit operand that names a queue names both
registers of its pair, so that a read pops one vector of each of the two queues and a write pushes one to each (log entry 19). -/
def Instr.vreads : Instr → List Nat
  | .vadd _ _ _ ty _ va vb | .vsub _ _ _ ty _ va vb | .vmul _ _ _ ty _ va vb | .vmulh _ _ _ ty _ va vb
  | .vabsd _ _ _ ty _ va vb => regsOf ty va ++ vb.regs ty
  | .vmad _ _ _ ty vd va vb => regsOf ty va ++ vb.regs ty ++ regsOf ty vd
  | .vand _ _ ty _ va vb | .vor _ _ ty _ va vb | .vxor _ _ ty _ va vb | .vandn _ _ ty _ va vb
  | .vshl _ _ ty _ va vb | .vshr _ _ ty _ va vb | .vsar _ _ ty _ va vb
  | .vmin _ _ ty _ va vb | .vmax _ _ ty _ va vb => regsOf ty va ++ vb.regs ty
  | .vcmp _ _ ty _ va vb | .vfcmp _ _ ty _ va vb => regsOf ty va ++ vb.regs ty
  | .vsel _ _ _ _ ty _ va vb => regsOf ty va ++ vb.regs ty
  | .vmov _ _ ty _ vb => vb.regs ty
  | .vclz _ _ ty _ va | .vpopc _ _ ty _ va => regsOf ty va
  | .vbfx _ _ ty _ va vb => regsOf ty va ++ vb.reg1
  | .vbfi _ _ ty vd va vb => regsOf ty va ++ vb.reg1 ++ regsOf ty vd
  | .vdot4 _ _ ty vd va vb => regsOf ty va ++ vb.regs ty ++ regsOf ty vd
  | .vfadd _ _ _ _ ty _ va vb | .vfsub _ _ _ _ ty _ va vb | .vfmul _ _ _ _ ty _ va vb
  | .vfmin _ _ _ _ ty _ va vb | .vfmax _ _ _ _ ty _ va vb => regsOf ty va ++ vb.regs ty
  | .vfma _ _ _ _ ty vd va vb => regsOf ty va ++ vb.regs ty ++ regsOf ty vd
  | .vfclass _ _ ty _ va | .vfrnd _ _ _ ty _ va => regsOf ty va
  | .vfdiv _ _ _ _ ty _ va vb => regsOf ty va ++ vb.regs ty
  | .vexp2 _ _ _ _ ty _ va | .vlog2 _ _ _ _ ty _ va | .vrcp _ _ _ _ ty _ va | .vrsq _ _ _ _ ty _ va
  | .vsqrt _ _ _ _ ty _ va => regsOf ty va
  | .vcvt _ _ _ _ src _ _ va => regsOf src va
  | .vpack _ _ _ _ _ dst _ va => regRun va (packCount dst)
  | .vunpack _ _ src _ _ va => regsOf src va
  | .vlns _ _ _ ty _ va vb => regsOf ty va ++ vb.regs ty
  | .vlin _ _ ty _ va vb | .vlmul _ _ ty _ va vb | .vladd _ _ ty _ va vb => regsOf ty va ++ vb.regs ty
  | .vrand _ _ (.seed va) => regRun va 4
  | .vflg _ _ (.set va) | .vflg _ _ (.or va) | .vflg _ _ (.clr va) => [va.toNat]
  | .vshuf _ _ ty _ va vb | .vbcast _ _ ty _ va vb => regsOf ty va ++ vb.reg1
  | .vrdlane _ ty _ va vb => regsOf ty va ++ vb.reg1
  | .vwrlane _ _ _ _ _ vb => vb.reg1
  | .vreduce _ _ _ ty _ _ va | .vscan _ _ _ ty _ _ va => regsOf ty va
  | .vmatch _ _ ty _ va vb => regsOf ty va ++ regsOf ty vb
  | .vcompact _ _ _ va => [va.toNat]
  | .tsort _ _ _ _ k _ va => regRun va (k.toNat + 1)
  | .assertu _ ty va => regsOf ty va
  | .vld _ _ _ _ _ _ base off | .vlds _ _ _ _ _ _ base off | .vldt _ _ _ _ _ _ base off => base.regs ++ off.reg1
  | .vst _ _ _ _ ty vd base off | .vsts _ _ _ _ ty vd base off => base.regs ++ off.reg1 ++ regsOf ty vd
  | .vatom _ _ _ _ _ ty vd base off => base.regs ++ off.reg1 ++ ty.regs vd
  | .vcas _ _ _ _ vd base off => base.regs ++ off.reg1 ++ [vd.toNat, vd.toNat + 1]
  | .vpref _ _ base off => base.regs ++ off.reg1
  | .tmov _ (.vt _ a n1 _) => regRun a (n1.toNat + 1)
  | .tcupd _ _ _ vi => regRun vi 2
  | _ => []

/-- The vector registers that an instruction writes. -/
def Instr.vwrites : Instr → List Nat
  | .vadd _ _ _ ty vd _ _ | .vsub _ _ _ ty vd _ _ | .vmul _ _ _ ty vd _ _ | .vmulh _ _ _ ty vd _ _
  | .vabsd _ _ _ ty vd _ _ | .vmad _ _ _ ty vd _ _ => regsOf ty vd
  | .vand _ _ ty vd _ _ | .vor _ _ ty vd _ _ | .vxor _ _ ty vd _ _ | .vandn _ _ ty vd _ _
  | .vshl _ _ ty vd _ _ | .vshr _ _ ty vd _ _ | .vsar _ _ ty vd _ _
  | .vmin _ _ ty vd _ _ | .vmax _ _ ty vd _ _ => regsOf ty vd
  | .vsel _ _ _ _ ty vd _ _ => regsOf ty vd
  | .vmov _ _ ty vd _ => regsOf ty vd
  | .vclz _ _ ty vd _ | .vpopc _ _ ty vd _ => regsOf ty vd
  | .vbfx _ _ ty vd _ _ | .vbfi _ _ ty vd _ _ | .vdot4 _ _ ty vd _ _ => regsOf ty vd
  | .vfadd _ _ _ _ ty vd _ _ | .vfsub _ _ _ _ ty vd _ _ | .vfmul _ _ _ _ ty vd _ _ | .vfma _ _ _ _ ty vd _ _
  | .vfmin _ _ _ _ ty vd _ _ | .vfmax _ _ _ _ ty vd _ _ => regsOf ty vd
  | .vfclass _ _ ty vd _ | .vfrnd _ _ _ ty vd _ => regsOf ty vd
  | .vfdiv _ _ _ _ ty vd _ _ => regsOf ty vd
  | .vexp2 _ _ _ _ ty vd _ | .vlog2 _ _ _ _ ty vd _ | .vrcp _ _ _ _ ty vd _ | .vrsq _ _ _ _ ty vd _
  | .vsqrt _ _ _ _ ty vd _ => regsOf ty vd
  | .vcvt _ _ _ _ _ dst vd _ => regsOf dst vd
  | .vpack _ _ _ _ _ _ vd _ => [vd.toNat]
  | .vunpack _ _ src _ vd _ => regRun vd (packCount src)
  | .vlns _ _ _ _ vd _ _ | .vlin _ _ _ vd _ _ | .vlmul _ _ _ vd _ _ | .vladd _ _ _ vd _ _ => [vd.toNat]
  | .vrand _ _ (.draw vd) | .vrand _ _ (.unit vd) => [vd.toNat]
  | .vrand _ _ (.state vd) => regRun vd 4
  | .vflg _ _ (.get vd) => [vd.toNat]
  | .vshuf _ _ ty vd _ _ | .vbcast _ _ ty vd _ _ => regsOf ty vd
  | .vwrlane _ _ ty vd _ _ => regsOf ty vd
  | .vreduce _ _ _ _ _ vd _ | .vscan _ _ _ _ _ vd _ => [vd.toNat]
  | .vmatch _ _ _ vd _ _ => [vd.toNat]
  | .vcompact _ _ vd _ => [vd.toNat]
  | .tsort _ _ _ _ k vd _ => regRun vd (k.toNat + 1)
  | .vld _ _ _ _ ty vd _ _ | .vlds _ _ _ _ ty vd _ _ => regsOf ty vd
  | .vldt _ _ _ _ _ vd _ _ => [vd.toNat]
  | .vatom _ _ _ _ _ ty vd _ _ => ty.regs vd
  | .vcas _ _ _ _ vd _ _ => [vd.toNat]
  | .tmov _ (.tv d _ n1 _) => regRun d (n1.toNat + 1)
  | .tdrain _ _ _ _ _ (.vec d n1 f) _ => regRun d (if f.is64 then 2 * (n1.toNat + 1) else n1.toNat + 1)
  | .tbest _ _ _ _ _ two _ _ dist vd _ => regRun vd (1 + (if two then 1 else 0) + (if dist.isSome then 1 else 0))
  | _ => []

/-- The registers that must be even because they hold the low word of a 64-bit element (R163), the base pair of R169, and
the even `d` of VCAS (R260). -/
def Instr.evenRegs : Instr → List Nat
  | .vcas _ _ _ _ vd base _ => vd.toNat :: base.regs.take 1
  | .vatom _ _ _ _ _ ty vd base _ => (if ty.is64 then [vd.toNat] else []) ++ base.regs.take 1
  | .vld _ _ _ _ ty vd base _ | .vst _ _ _ _ ty vd base _ | .vlds _ _ _ _ ty vd base _ | .vsts _ _ _ _ ty vd base _ =>
    (if ty.is64 then [vd.toNat] else []) ++ base.regs.take 1
  | .vldt _ _ _ _ _ _ base _ => base.regs.take 1
  | .vpref _ _ base _ => base.regs.take 1
  | .vadd _ _ _ ty vd va vb | .vsub _ _ _ ty vd va vb | .vmul _ _ _ ty vd va vb | .vmulh _ _ _ ty vd va vb
  | .vmad _ _ _ ty vd va vb | .vabsd _ _ _ ty vd va vb =>
    if ty.is64 then [vd.toNat, va.toNat] ++ vb.reg1 else []
  | .vand _ _ ty vd va vb | .vor _ _ ty vd va vb | .vxor _ _ ty vd va vb | .vandn _ _ ty vd va vb
  | .vshl _ _ ty vd va vb | .vshr _ _ ty vd va vb | .vsar _ _ ty vd va vb
  | .vmin _ _ ty vd va vb | .vmax _ _ ty vd va vb => if ty.is64 then [vd.toNat, va.toNat] ++ vb.reg1 else []
  | .vsel _ _ _ _ ty vd va vb => if ty.is64 then [vd.toNat, va.toNat] ++ vb.reg1 else []
  | .vcmp _ _ ty _ va vb => if ty.is64 then va.toNat :: vb.reg1 else []
  | .vmov _ _ ty vd vb => if ty.is64 then vd.toNat :: vb.reg1 else []
  | .vclz _ _ ty vd va | .vpopc _ _ ty vd va => if ty.is64 then [vd.toNat, va.toNat] else []
  | .vbfx _ _ ty vd va _ | .vbfi _ _ ty vd va _ => if ty.is64 then [vd.toNat, va.toNat] else []
  | .vshuf _ _ ty vd va _ | .vbcast _ _ ty vd va _ => if ty.is64 then [vd.toNat, va.toNat] else []
  | .vrdlane _ ty _ va _ => if ty.is64 then [va.toNat] else []
  | .vwrlane _ _ ty vd _ _ => if ty.is64 then [vd.toNat] else []
  | .vcvt _ _ _ _ src dst vd va => (if src.is64 then [va.toNat] else []) ++ (if dst.is64 then [vd.toNat] else [])
  | .vmatch _ _ ty _ va vb => if ty.is64 then [va.toNat, vb.toNat] else []
  | .assertu _ ty va => if ty.is64 then [va.toNat] else []
  | .tdrain _ _ _ _ _ (.vec d _ f) _ => if f.is64 then [d.toNat] else []
  | _ => []

/-- The scalar an Src operand reads. -/
def Src.sregs : Src → List Nat
  | .sreg r => [r.toNat]
  | .vec _ => []
  | .lit _ => []

/-- The scalar a memory base reads. -/
def MBase.sregs : MBase → List Nat
  | .sreg r => [r.toNat]
  | .pair _ => []

/-- A run of scalar registers. -/
def sregRun (r : SReg) (n : Nat) : List Nat := (List.range n).map (r.toNat + ·)

/-- The scalar registers that an instruction reads (used by the lookahead check of R93). -/
def Instr.sreads : Instr → List Nat
  | .sadd _ a b | .ssub _ a b | .smul _ a b | .sand _ a b | .sor _ a b | .sxor _ a b | .sandn _ a b
  | .sshl _ a b | .sshr _ a b | .ssar _ a b | .slea _ _ a b | .scmp _ _ a b | .ssel _ _ _ a b
  | .smulh _ _ a b | .sdiv _ _ a b | .srem _ _ a b | .smin _ _ a b | .smax _ _ a b | .sbfx _ _ a b => [a.toNat, b.toNat]
  | .sbfi d a b => [a.toNat, b.toNat, d.toNat]
  | .sclz _ a | .spopc _ a | .saddi _ a _ | .sandi _ a _ | .sori _ a _ | .sxori _ a _
  | .sshli _ a _ | .sshri _ a _ | .ssari _ a _ | .pfroms _ a | .sldc _ a _ | .sptest _ a => [a.toNat]
  | .smovhi d _ => [d.toNat]
  | .sld _ _ _ _ _ a => [a.toNat]
  | .sst _ _ _ _ d a => [a.toNat, d.toNat]
  | .satom _ _ _ _ d a => [a.toNat, d.toNat]
  | .scas _ _ _ _ d a => [a.toNat, d.toNat, d.toNat + 1]
  | .cwb _ _ a b | .cinv _ _ a b | .cwbinv _ _ a b | .spcast _ _ a b => [a.toNat, b.toNat]
  | .jmps a | .calls _ a | .ret a => [a.toNat]
  | .swrite _ d => [d.toNat]
  | .vadd _ _ _ _ _ _ vb | .vsub _ _ _ _ _ _ vb | .vmul _ _ _ _ _ _ vb | .vmulh _ _ _ _ _ _ vb
  | .vmad _ _ _ _ _ _ vb | .vabsd _ _ _ _ _ _ vb => vb.sregs
  | .vand _ _ _ _ _ vb | .vor _ _ _ _ _ vb | .vxor _ _ _ _ _ vb | .vandn _ _ _ _ _ vb
  | .vshl _ _ _ _ _ vb | .vshr _ _ _ _ _ vb | .vsar _ _ _ _ _ vb | .vmin _ _ _ _ _ vb | .vmax _ _ _ _ _ vb
  | .vbfx _ _ _ _ _ vb | .vbfi _ _ _ _ _ vb | .vdot4 _ _ _ _ _ vb | .vlin _ _ _ _ _ vb | .vlmul _ _ _ _ _ vb
  | .vladd _ _ _ _ _ vb | .vshuf _ _ _ _ _ vb | .vbcast _ _ _ _ _ vb => vb.sregs
  | .vcmp _ _ _ _ _ vb | .vfcmp _ _ _ _ _ vb => vb.sregs
  | .vsel _ _ _ _ _ _ _ vb => vb.sregs
  | .vmov _ _ _ _ vb => vb.sregs
  | .vfadd _ _ _ _ _ _ _ vb | .vfsub _ _ _ _ _ _ _ vb | .vfmul _ _ _ _ _ _ _ vb | .vfma _ _ _ _ _ _ _ vb
  | .vfmin _ _ _ _ _ _ _ vb | .vfmax _ _ _ _ _ _ _ vb | .vfdiv _ _ _ _ _ _ _ vb => vb.sregs
  | .vlns _ _ _ _ _ _ vb => vb.sregs
  | .vrdlane _ _ _ _ vb => vb.sregs
  | .vwrlane _ _ _ _ sa vb => sa.toNat :: vb.sregs
  | .vld _ _ _ _ _ _ base off | .vst _ _ _ _ _ _ base off | .vlds _ _ _ _ _ _ base off | .vsts _ _ _ _ _ _ base off
  | .vldt _ _ _ _ _ _ base off => base.sregs ++ off.sregs
  | .vatom _ _ _ _ _ _ _ base off => base.sregs ++ off.sregs
  | .vcas _ _ _ _ _ base off => base.sregs ++ off.sregs
  | .vpref _ _ base off => base.sregs ++ off.sregs
  | .tcfg _ v => v.sregs
  | .tld _ _ _ _ c | .tst _ _ _ _ c => [c.toNat]
  | .tmov _ (.vt _ _ _ j) | .tmov _ (.tv _ _ _ j) => [j.toNat]
  | .tmma _ _ _ _ _ c => [c.toNat]
  | .tdrain _ _ _ _ _ _ c => [c.toNat]
  | .tbest _ _ _ _ _ _ _ _ _ _ p => [p.toNat]
  | .cpy _ _ _ c | .coll _ _ _ c => [c.toNat]
  | .tagwait _ m | .tagff _ _ m | .tagclr m | .rcommit _ m => [m.toNat]
  | .rinit _ b g => [b.toNat, g.toNat]
  | .rsub _ _ _ _ t g => [t.toNat, g.toNat]
  | .runsub _ g => [g.toNat]
  | .qcfg _ _ b g => [b.toNat, g.toNat]
  | .schwr _ a _ => [a.toNat]
  | .atomdone _ _ a => sregRun a 4
  | .spawn _ a => sregRun a 4
  | _ => []

/-- The scalar registers that an instruction writes. -/
def Instr.swrites : Instr → List Nat
  | .sadd d _ _ | .ssub d _ _ | .smul d _ _ | .sand d _ _ | .sor d _ _ | .sxor d _ _ | .sandn d _ _
  | .sshl d _ _ | .sshr d _ _ | .ssar d _ _ | .slea _ d _ _ | .scmp _ d _ _ | .ssel _ _ d _ _
  | .smulh _ d _ _ | .sdiv _ d _ _ | .srem _ d _ _ | .smin _ d _ _ | .smax _ d _ _ | .sbfx _ d _ _ | .sbfi d _ _ => [d.toNat]
  | .sclz d _ | .spopc d _ | .saddi d _ _ | .sandi d _ _ | .sori d _ _ | .sxori d _ _
  | .sshli d _ _ | .sshri d _ _ | .ssari d _ _ | .smovi d _ | .smovhi d _ | .pcnt d _ | .ptos d _
  | .sldc d _ _ | .sldgot d _ | .sptest d _ | .spcast _ d _ _ => [d.toNat]
  | .sld _ _ _ _ d _ | .satom _ _ _ _ d _ | .scas _ _ _ _ d _ => [d.toNat]
  | .call n _ | .calls n _ => [n.toNat]
  | .sread d _ => [d.toNat]
  | .vrdlane _ _ sd _ _ => [sd.toNat]
  | .tagff _ d _ | .racq d _ | .rwait d _ => [d.toNat]
  | .schrd _ d _ => [d.toNat]
  | .nexttile _ d => sregRun d 5
  | .atomdone _ d _ => [d.toNat]
  | _ => []

/-- The lookahead of a long-latency instruction; `none` for a short-latency one (Tables 11-8, 11-9, 17-3). -/
def Instr.lookahead : Instr → Option (BitVec 4)
  | .sld la _ _ _ _ _ | .sst la _ _ _ _ _ | .satom la _ _ _ _ _ | .scas la _ _ _ _ _
  | .cwb la _ _ _ | .cinv la _ _ _ | .cwbinv la _ _ _ => some la
  | .vfdiv _ la _ _ _ _ _ _ | .vexp2 _ la _ _ _ _ _ | .vlog2 _ la _ _ _ _ _ | .vrcp _ la _ _ _ _ _
  | .vrsq _ la _ _ _ _ _ | .vsqrt _ la _ _ _ _ _ => some la
  | .vreduce _ la _ _ _ _ _ | .vscan _ la _ _ _ _ _ | .vmatch _ la _ _ _ _ | .tsort _ la _ _ _ _ _ => some la
  | .vld _ la _ _ _ _ _ _ | .vst _ la _ _ _ _ _ _ | .vlds _ la _ _ _ _ _ _ | .vsts _ la _ _ _ _ _ _
  | .vldt _ la _ _ _ _ _ _ => some la
  | .vatom _ la _ _ _ _ _ _ _ => some la
  | .vcas _ la _ _ _ _ _ => some la
  | .tld la _ _ _ _ | .tst la _ _ _ _ | .tldr la _ _ _ | .tmov la _ | .tzero la _ | .tmma la _ _ _ _ _
  | .tdrain la _ _ _ _ _ _ | .tbest la _ _ _ _ _ _ _ _ _ _ | .tcupd la _ _ _ | .tcfin la _ _ _ _ _ | .twait la
  | .cpy la _ _ _ | .coll la _ _ _ | .schrd la _ _ | .schwr la _ _ | .nexttile la _ | .atomdone la _ _ | .spawn la _ =>
    some la
  | _ => none

/-- Control-transfer instructions of S space 0x40-0x49 (R93). -/
def Instr.isTransfer : Instr → Bool
  | .bra _ | .brp _ _ _ _ | .brd _ _ _ | .split _ | .rejoin | .jmps _ | .call _ _ | .calls _ _ | .ret _ | .exit => true
  | _ => false

end Sys2Proof
end

