-- ==== Sys2Proof/WellFormed.lean ====
section
/-! DEFINITION. Which terms of `Instr` have an encoding (R160 to R170, R173, R225, R91): every check that the loader makes on
one instruction alone (Table 11-11, codes 0x0010 to 0x0018, 0x0022 and 0x0023). The steps of rows 166 to 272 are no words
and have nothing to check. -/

namespace Sys2Proof

/-- A finding about one instruction (Table 11-11). -/
inductive Finding where
  | lengthCode | opcode | field | kind | rounding | type | eph | truncated | specialReg | regNumber | oddReg
  deriving DecidableEq, Repr

/-- The diagnostic code of a finding (Table 11-11). -/
def Finding.code : Finding → Nat
  | .lengthCode => 0x0010
  | .opcode => 0x0011
  | .field => 0x0012
  | .kind => 0x0013
  | .rounding => 0x0014
  | .type => 0x0015
  | .eph => 0x0016
  | .truncated => 0x0017
  | .specialReg => 0x0018
  | .regNumber => 0x0022
  | .oddReg => 0x0023

/-- The first finding of a list of checks, each given as (it holds, what is found if it does not). -/
def firstFinding : List (Bool × Finding) → Option Finding
  | [] => none
  | (true, _) :: rest => firstFinding rest
  | (false, f) :: _ => some f

/-- INT (Table 15-2). -/
def Fmt.isInt : Fmt → Bool
  | .i8x4 | .b8x4 | .i16x2 | .b16x2 | .i32 | .b32 | .i64 | .b64 => true
  | _ => false

/-- RAW (Table 15-2). -/
def Fmt.isRaw : Fmt → Bool
  | .b32 | .b64 => true
  | _ => false

/-- FLT (Table 15-2). -/
def Fmt.isFlt : Fmt → Bool
  | .f32 | .bf16x2 | .f16x2 => true
  | _ => false

/-- KEY (Table 15-2). -/
def Fmt.isKey : Fmt → Bool
  | .i32 | .b32 | .f32 | .i64 | .b64 => true
  | _ => false

/-- The types of VSHL, VSHR, VCLZ and VPOPC (R228, R230). -/
def Fmt.isUnsignedShift : Fmt → Bool
  | .b8x4 | .b16x2 | .b32 | .b64 => true
  | _ => false

/-- The types of VSAR (R228). -/
def Fmt.isSignedShift : Fmt → Bool
  | .i8x4 | .i16x2 | .i32 | .i64 => true
  | _ => false

/-- The integer types of one whole element (VCMP, VBFX: R230, R231). -/
def Fmt.isWhole : Fmt → Bool
  | .i32 | .b32 | .i64 | .b64 => true
  | _ => false

/-- The element formats of R238: codes 000000 to 010000 and 10nnnn. -/
def Fmt.isElement : Fmt → Bool
  | .i8x4 | .b8x4 | .i16x2 | .b16x2 | .bf16x2 | .f16x2 => false
  | _ => true

/-- The types of VLD and VST (R256): codes 000000 to 000111. -/
def Fmt.isMem : Fmt → Bool
  | .i8 | .i16 | .i32 | .i64 | .b8 | .b16 | .b32 | .b64 => true
  | _ => false

/-- The view formats (R258, R323). -/
def Fmt.isView : Fmt → Bool
  | .bf16 | .f16 | .lns16 | .lns8 => true
  | .nf _ => true
  | _ => false

/-- LNS types (R242). -/
def Fmt.isLns : Fmt → Bool
  | .lns16 | .lns8 => true
  | _ => false

/-- The pairs of Table 15-5: packed type, wide type. -/
def packPair : Fmt → Fmt → Bool
  | .bf16x2, .f32 | .f16x2, .f32 | .i16x2, .i32 | .b16x2, .b32 | .i8x4, .i32 | .b8x4, .b32 => true
  | _, _ => false

/-- The operations of VREDUCE and VSCAN on a type (R249). -/
def redOk : Fmt → RedOp → Bool
  | .i32, _ | .b32, _ => true
  | .f32, .add | .f32, .min | .f32, .max => true
  | _, _ => false

/-- The operations of VATOM on a type (R259). -/
def atomOk : AType → Aop → Bool
  | .f32, .band | .f32, .bor | .f32, .bxor | .bf16x2, .band | .bf16x2, .bor | .bf16x2, .bxor
  | .f16x2, .band | .f16x2, .bor | .f16x2, .bxor => false
  | _, _ => true

/-- The type codes that an instruction accepts (R225 and each description). -/
def Instr.typeOk : Instr → Bool
  | .vadd _ _ _ ty _ _ _ | .vsub _ _ _ ty _ _ _ | .vmul _ _ _ ty _ _ _ | .vmulh _ _ _ ty _ _ _ | .vmad _ _ _ ty _ _ _
  | .vabsd _ _ _ ty _ _ _ => ty.isInt
  | .vmin _ _ ty _ _ _ | .vmax _ _ ty _ _ _ => ty.isInt
  | .vand _ _ ty _ _ _ | .vor _ _ ty _ _ _ | .vxor _ _ ty _ _ _ | .vandn _ _ ty _ _ _ => ty.isRaw
  | .vshl _ _ ty _ _ _ | .vshr _ _ ty _ _ _ => ty.isUnsignedShift
  | .vsar _ _ ty _ _ _ => ty.isSignedShift
  | .vcmp _ _ ty _ _ _ => ty.isWhole
  | .vsel _ _ _ _ ty _ _ _ => ty.isRaw
  | .vmov _ _ ty _ _ => ty.isRaw
  | .vclz _ _ ty _ _ | .vpopc _ _ ty _ _ => ty.isUnsignedShift
  | .vbfx _ _ ty _ _ _ => ty.isWhole
  | .vbfi _ _ ty _ _ _ => ty.isRaw
  | .vdot4 _ _ ty _ _ _ => ty == .i8x4 || ty == .b8x4
  | .vfadd _ _ _ _ ty _ _ _ | .vfsub _ _ _ _ ty _ _ _ | .vfmul _ _ _ _ ty _ _ _ | .vfma _ _ _ _ ty _ _ _
  | .vfmin _ _ _ _ ty _ _ _ | .vfmax _ _ _ _ ty _ _ _ => ty.isFlt
  | .vfcmp _ _ ty _ _ _ => ty == .f32
  | .vfclass _ _ ty _ _ => ty.isFlt
  | .vfrnd _ _ _ ty _ _ => ty.isFlt
  | .vfdiv _ _ _ _ ty _ _ _ => ty.isFlt
  | .vexp2 _ _ _ _ ty _ _ | .vlog2 _ _ _ _ ty _ _ | .vrcp _ _ _ _ ty _ _ | .vrsq _ _ _ _ ty _ _
  | .vsqrt _ _ _ _ ty _ _ => ty.isFlt
  | .vcvt _ _ _ _ src dst _ _ => src.isElement && dst.isElement
  | .vpack _ _ _ _ src dst _ _ => packPair dst src
  | .vunpack _ _ src dst _ _ => packPair src dst
  | .vlns _ _ _ ty _ _ _ => ty.isLns
  | .vlin _ _ ty _ _ _ | .vlmul _ _ ty _ _ _ | .vladd _ _ ty _ _ _ => ty.isLns
  | .vshuf _ _ ty _ _ _ | .vbcast _ _ ty _ _ _ => ty.isRaw
  | .vrdlane _ ty _ _ _ => ty.isRaw || ty == .i32
  | .vwrlane _ _ ty _ _ _ => ty.isRaw
  | .vreduce _ _ _ ty op _ _ | .vscan _ _ _ ty op _ _ => redOk ty op
  | .vmatch _ _ ty _ _ _ => ty.isKey
  | .tsort _ _ ty _ _ _ _ => ty == .i32 || ty == .b32 || ty == .f32
  | .assertu _ ty _ => ty.isRaw
  | .vld _ _ _ _ ty _ _ _ | .vst _ _ _ _ ty _ _ _ | .vlds _ _ _ _ ty _ _ _ | .vsts _ _ _ _ ty _ _ _ => ty.isMem
  | .vldt _ _ _ _ v _ _ _ => v.isView
  | .vatom _ _ _ _ op ty _ _ _ => atomOk ty op
  | .tdrain _ _ _ _ _ (.mem f) _ => f.isElement
  | .tdrain _ _ _ _ _ (.vec _ _ f) _ => f.isElement
  | .tbest _ _ _ _ _ _ _ _ (some f) _ _ => f.isElement
  | _ => true

/-- A pair base has a number from 0 to 1022 (R169). -/
def MBase.ok : MBase → Bool
  | .sreg _ => true
  | .pair n => n.toNat < 1024

/-- The starts of the scalar runs of NEXTTILE, ATOMDONE and SPAWN (R267), the level of VPREF (R261), the count of WAITCNT,
the link register of CALL (Table 11-8), and the pair bases of R169. -/
def Instr.fieldOk : Instr → Bool
  | .nexttile _ d => 1 ≤ d.toNat && d.toNat ≤ 59
  | .atomdone _ _ a | .spawn _ a => 1 ≤ a.toNat && a.toNat ≤ 60
  | .waitcnt c => c.toNat ≤ 32
  | .call n _ => n != 0
  | .vld _ _ _ _ _ _ b _ | .vst _ _ _ _ _ _ b _ | .vlds _ _ _ _ _ _ b _ | .vsts _ _ _ _ _ _ b _
  | .vldt _ _ _ _ _ _ b _ => b.ok
  | .vatom _ _ _ _ _ _ _ b _ => b.ok
  | .vcas _ _ _ _ _ b _ => b.ok
  | .vpref _ l b _ => l != 3 && b.ok
  | _ => true

/-- The operand kinds (R162, Tables 11-9, 17-3): no literal where the L form is not legal, no register for TCFG. -/
def Instr.kindOk : Instr → Bool
  | .vlns _ _ _ _ _ _ (.lit _) | .vlin _ _ _ _ _ (.lit _) | .vlmul _ _ _ _ _ (.lit _) | .vladd _ _ _ _ _ (.lit _) => false
  | .tcfg _ (.vec _) => false
  | _ => true

/-- The rounding field of VREDUCE and VSCAN excludes stochastic (R249); rnd and sat of a TBEST without `.dist` are zero
(R285). -/
def Instr.roundOk : Instr → Bool
  | .vreduce _ _ rnd _ _ _ _ | .vscan _ _ rnd _ _ _ _ => rnd != .rst
  | .tbest _ sat rnd _ _ _ _ _ none _ _ => sat == false && rnd == .dyn
  | _ => true

/-- Whether the eph bit of the instruction is set. -/
def Instr.isEph : Instr → Bool
  | .vadd _ e _ _ _ _ _ | .vsub _ e _ _ _ _ _ | .vmul _ e _ _ _ _ _ | .vmulh _ e _ _ _ _ _ | .vmad _ e _ _ _ _ _
  | .vabsd _ e _ _ _ _ _ | .vand _ e _ _ _ _ | .vor _ e _ _ _ _ | .vxor _ e _ _ _ _ | .vandn _ e _ _ _ _
  | .vshl _ e _ _ _ _ | .vshr _ e _ _ _ _ | .vsar _ e _ _ _ _ | .vmin _ e _ _ _ _ | .vmax _ e _ _ _ _
  | .vsel _ e _ _ _ _ _ _ | .vmov _ e _ _ _ | .vclz _ e _ _ _ | .vpopc _ e _ _ _ | .vbfx _ e _ _ _ _
  | .vbfi _ e _ _ _ _ | .vdot4 _ e _ _ _ _ | .vfadd _ e _ _ _ _ _ _ | .vfsub _ e _ _ _ _ _ _ | .vfmul _ e _ _ _ _ _ _
  | .vfma _ e _ _ _ _ _ _ | .vfmin _ e _ _ _ _ _ _ | .vfmax _ e _ _ _ _ _ _ | .vfclass _ e _ _ _ | .vfrnd _ e _ _ _ _
  | .vcvt _ e _ _ _ _ _ _ | .vpack _ e _ _ _ _ _ _ | .vunpack _ e _ _ _ _ | .vlns _ e _ _ _ _ _ | .vlin _ e _ _ _ _
  | .vlmul _ e _ _ _ _ | .vladd _ e _ _ _ _ | .vrand _ e _ | .vflg _ e _ | .vshuf _ e _ _ _ _ | .vbcast _ e _ _ _ _
  | .vwrlane _ e _ _ _ _ | .vcompact _ e _ _ => e
  | _ => false

/-- The operand is the literal of an L form (R162). -/
def Src.isLit : Src → Bool
  | .lit _ => true
  | _ => false

/-- The instruction is in the L form, among those that have an eph bit (Table 11-9). -/
def Instr.isLong : Instr → Bool
  | .vadd _ _ _ _ _ _ vb | .vsub _ _ _ _ _ _ vb | .vmul _ _ _ _ _ _ vb | .vmulh _ _ _ _ _ _ vb | .vmad _ _ _ _ _ _ vb
  | .vabsd _ _ _ _ _ _ vb => vb.isLit
  | .vand _ _ _ _ _ vb | .vor _ _ _ _ _ vb | .vxor _ _ _ _ _ vb | .vandn _ _ _ _ _ vb | .vshl _ _ _ _ _ vb
  | .vshr _ _ _ _ _ vb | .vsar _ _ _ _ _ vb | .vmin _ _ _ _ _ vb | .vmax _ _ _ _ _ vb => vb.isLit
  | .vsel _ _ _ _ _ _ _ vb => vb.isLit
  | .vmov _ _ _ _ vb => vb.isLit
  | .vbfx _ _ _ _ _ vb | .vbfi _ _ _ _ _ vb | .vdot4 _ _ _ _ _ vb => vb.isLit
  | .vfadd _ _ _ _ _ _ _ vb | .vfsub _ _ _ _ _ _ _ vb | .vfmul _ _ _ _ _ _ _ vb | .vfma _ _ _ _ _ _ _ vb
  | .vfmin _ _ _ _ _ _ _ vb | .vfmax _ _ _ _ _ _ _ vb => vb.isLit
  | .vshuf _ _ _ _ _ vb | .vbcast _ _ _ _ _ vb | .vwrlane _ _ _ _ _ vb => vb.isLit
  | _ => false

/-- The eph bit only on a W form, and only with vector destinations below 1536 (R91). -/
def Instr.ephOk (i : Instr) : Bool :=
  !i.isEph || (!i.isLong && !i.vwrites.isEmpty && i.vwrites.all (· < 1536))

/-- Special registers that SWRITE may name (Table 11-7). -/
def SpecReg.writable : SpecReg → Bool
  | .mode | .flags | .tags | .drscale | .exec => true
  | .fmt _ => true
  | _ => false

/-- SWRITE names a writable register (R170). -/
def Instr.specOk : Instr → Bool
  | .swrite r _ => r.writable
  | _ => true

/-- No write of 1 552 to 1 554 and no number of 1 555 or more (R75). -/
def Instr.regNumOk (i : Instr) : Bool :=
  i.vwrites.all (fun n => n < 1552) && i.vreads.all (fun n => n < 1555)

/-- Even numbers where R163, R169, R199 and R260 ask for them. -/
def Instr.evenOk (i : Instr) : Bool :=
  i.evenRegs.all (fun n => n % 2 == 0) && (match i with | .scas _ _ _ _ d _ => d.toNat % 2 == 0 | _ => true)

/-- The first finding about the encoding of an instruction term, in the order of the codes (R178): 0x0012 to 0x0016. -/
def Instr.formFinding (i : Instr) : Option Finding :=
  firstFinding [(i.fieldOk, .field), (i.kindOk, .kind), (i.roundOk, .rounding), (i.typeOk, .type), (i.ephOk, .eph)]

/-- The first finding about the registers that an instruction names: 0x0018, 0x0022 and 0x0023. -/
def Instr.useFinding (i : Instr) : Option Finding :=
  firstFinding [(i.specOk, .specialReg), (i.regNumOk, .regNumber), (i.evenOk, .oddReg)]

/-- The first finding about an instruction term, in the order of the codes (R178). -/
def Instr.finding (i : Instr) : Option Finding := i.formFinding.or i.useFinding

/-- Every check passes. -/
def Instr.wf (i : Instr) : Bool := i.finding.isNone

end Sys2Proof
end

