-- ==== Sys2Proof/Decode.lean ====
section
/-! DEFINITION. The decoder and the encoder of the S and W spaces (R158 to R170, R266, R267). Three layers: words, the fields
of a word (`SRaw`, `WRaw`), and terms of `Instr`. The decoder refuses every other encoding by the name of the finding
(Table 11-11), the lowest code first (R178). -/

namespace Sys2Proof

/-! ## Fields -/

/-- The fields of an S instruction word in the order of subformat S-R (Table 11-2). -/
structure SRaw where
  m : BitVec 4
  b : BitVec 6
  a : BitVec 6
  d : BitVec 6
  op : BitVec 8
  deriving DecidableEq, Repr

/-- The fields of a W or L instruction (Table 11-3). -/
structure WRaw where
  op : BitVec 8
  long : Bool
  vd : BitVec 11
  va : BitVec 11
  la : BitVec 4
  sat : Bool
  rnd : BitVec 3
  eph : Bool
  pneg : Bool
  pred : BitVec 3
  kind : BitVec 2
  ty : BitVec 6
  vb : BitVec 11
  lit : Word
  deriving DecidableEq, Repr

/-- The word of an S instruction (Table 11-2). -/
def packS (r : SRaw) : Word := r.m ++ r.b ++ r.a ++ r.d ++ r.op ++ (0 : BitVec 2)

/-- The fields of an S instruction word. -/
def unpackS (w : Word) : SRaw where
  m := w.extractLsb' 28 4
  b := w.extractLsb' 22 6
  a := w.extractLsb' 16 6
  d := w.extractLsb' 10 6
  op := w.extractLsb' 2 8

/-- The words of a W or L instruction (Table 11-3). -/
def packW (r : WRaw) : List Word :=
  let w0 : Word := r.va ++ r.vd ++ r.op ++ (if r.long then (2 : BitVec 2) else 1)
  let w1 : Word := r.la ++ BitVec.ofBool r.sat ++ r.rnd ++ BitVec.ofBool r.eph ++ BitVec.ofBool r.pneg ++ r.pred
    ++ r.kind ++ r.ty ++ r.vb
  if r.long then [w0, w1, r.lit] else [w0, w1]

/-- The fields of a W or L instruction; the literal of a W form is zero. -/
def unpackW (long : Bool) (w0 w1 lit : Word) : WRaw where
  op := w0.extractLsb' 2 8
  long := long
  vd := w0.extractLsb' 10 11
  va := w0.extractLsb' 21 11
  la := w1.extractLsb' 28 4
  sat := w1.getLsbD 27
  rnd := w1.extractLsb' 24 3
  eph := w1.getLsbD 23
  pneg := w1.getLsbD 22
  pred := w1.extractLsb' 19 3
  kind := w1.extractLsb' 17 2
  ty := w1.extractLsb' 11 6
  vb := w1.extractLsb' 0 11
  lit := if long then lit else 0

/-! ## Codes of the small fields -/

/-- Table 03-1. -/
def Fmt.ofCode (c : BitVec 6) : Option Fmt :=
  if c.getLsbD 5 then (if c.getLsbD 4 then none else some (.nf (c.extractLsb' 0 4))) else
  match c.toNat with
  | 0 => some .i8 | 1 => some .i16 | 2 => some .i32 | 3 => some .i64
  | 4 => some .b8 | 5 => some .b16 | 6 => some .b32 | 7 => some .b64
  | 8 => some .f32 | 9 => some .bf16 | 10 => some .f16 | 11 => some .f64
  | 12 => some .mxi8 | 13 => some .mxi4 | 14 => some .lns16 | 15 => some .lns8
  | 16 => some .tern2 | 17 => some .i8x4 | 18 => some .b8x4 | 19 => some .i16x2
  | 20 => some .b16x2 | 21 => some .bf16x2 | 22 => some .f16x2
  | _ => none

/-- Table 03-1. -/
def Fmt.toCode : Fmt → BitVec 6
  | .i8 => 0 | .i16 => 1 | .i32 => 2 | .i64 => 3 | .b8 => 4 | .b16 => 5 | .b32 => 6 | .b64 => 7
  | .f32 => 8 | .bf16 => 9 | .f16 => 10 | .f64 => 11 | .mxi8 => 12 | .mxi4 => 13 | .lns16 => 14 | .lns8 => 15
  | .tern2 => 16 | .i8x4 => 17 | .b8x4 => 18 | .i16x2 => 19 | .b16x2 => 20 | .bf16x2 => 21 | .f16x2 => 22
  | .nf n => (2 : BitVec 2) ++ n

/-- Table 11-4; code 111 is refused before. -/
def Rnd.ofCode (c : BitVec 3) : Rnd :=
  match c.toNat with
  | 1 => .rne | 2 => .rtz | 3 => .rup | 4 => .rdn | 5 => .rna | 6 => .rst | _ => .dyn

/-- Table 11-4. -/
def Rnd.toCode : Rnd → BitVec 3
  | .dyn => 0 | .rne => 1 | .rtz => 2 | .rup => 3 | .rdn => 4 | .rna => 5 | .rst => 6

/-- Table 11-5, SCMP and VCMP; codes 1010 to 1111 are refused before. -/
def Cond.ofCode (c : BitVec 4) : Cond :=
  match c.toNat with
  | 1 => .ne | 2 => .lt | 3 => .le | 4 => .gt | 5 => .ge | 6 => .ltu | 7 => .leu | 8 => .gtu | 9 => .geu | _ => .eq

/-- Table 11-5, SCMP and VCMP. -/
def Cond.toCode : Cond → BitVec 4
  | .eq => 0 | .ne => 1 | .lt => 2 | .le => 3 | .gt => 4 | .ge => 5 | .ltu => 6 | .leu => 7 | .gtu => 8 | .geu => 9

/-- Table 11-5, VFCMP; codes 1000 to 1111 are refused before. -/
def FCond.ofCode (c : BitVec 4) : FCond :=
  match c.toNat with
  | 1 => .ne | 2 => .lt | 3 => .le | 4 => .gt | 5 => .ge | 6 => .un | 7 => .od | _ => .eq

/-- Table 11-5, VFCMP. -/
def FCond.toCode : FCond → BitVec 4
  | .eq => 0 | .ne => 1 | .lt => 2 | .le => 3 | .gt => 4 | .ge => 5 | .un => 6 | .od => 7

/-- ORD (Table 11-6). -/
def MemOrd.ofCode (c : BitVec 2) : MemOrd :=
  match c.toNat with
  | 1 => .acq | 2 => .rel | 3 => .ar | _ => .rlx

/-- ORD (Table 11-6). -/
def MemOrd.toCode : MemOrd → BitVec 2
  | .rlx => 0 | .acq => 1 | .rel => 2 | .ar => 3

/-- SCOPE (Table 11-6). -/
def Scope.ofCode (c : BitVec 2) : Scope :=
  match c.toNat with
  | 1 => .die | 2 => .package | 3 => .system | _ => .cluster

/-- SCOPE (Table 11-6). -/
def Scope.toCode : Scope → BitVec 2
  | .cluster => 0 | .die => 1 | .package => 2 | .system => 3

/-- FSCOPE (Table 11-6); codes 110 and 111 are refused before. -/
def FScope.ofCode (c : BitVec 3) : FScope :=
  match c.toNat with
  | 1 => .team | 2 => .cluster | 3 => .die | 4 => .package | 5 => .system | _ => .group

/-- FSCOPE (Table 11-6). -/
def FScope.toCode : FScope → BitVec 3
  | .group => 0 | .team => 1 | .cluster => 2 | .die => 3 | .package => 4 | .system => 5

/-- Kind of a FENCE (Table 11-8); codes 100 to 111 are refused before. -/
def FKind.ofCode (c : BitVec 3) : FKind :=
  match c.toNat with
  | 1 => .rel | 2 => .ar | 3 => .sc | _ => .acq

/-- Kind of a FENCE (Table 11-8). -/
def FKind.toCode : FKind → BitVec 3
  | .acq => 0 | .rel => 1 | .ar => 2 | .sc => 3

/-- AOP (Table 11-6); code 111 is refused before. -/
def Aop.ofCode (c : BitVec 3) : Aop :=
  match c.toNat with
  | 1 => .add | 2 => .band | 3 => .bor | 4 => .bxor | 5 => .min | 6 => .max | _ => .swap

/-- AOP (Table 11-6). -/
def Aop.toCode : Aop → BitVec 3
  | .swap => 0 | .add => 1 | .band => 2 | .bor => 3 | .bxor => 4 | .min => 5 | .max => 6

/-- SIZE of SLD and SST (Table 11-8, 13-4). -/
def MSize.ofCode (c : BitVec 2) : MSize :=
  match c.toNat with
  | 1 => .two | 2 => .four | 3 => .eight | _ => .one

/-- SIZE of SLD and SST. -/
def MSize.toCode : MSize → BitVec 2
  | .one => 0 | .two => 1 | .four => 2 | .eight => 3

/-- Atomic types of VATOM (Table 11-9); code 111 is not an instruction. -/
def AType.ofCode (c : BitVec 3) : Option AType :=
  match c.toNat with
  | 0 => some .i32 | 1 => some .b32 | 2 => some .i64 | 3 => some .b64 | 4 => some .f32 | 5 => some .bf16x2
  | 6 => some .f16x2 | _ => none

/-- Atomic types of VATOM (Table 11-9). -/
def AType.toCode : AType → BitVec 3
  | .i32 => 0 | .b32 => 1 | .i64 => 2 | .b64 => 3 | .f32 => 4 | .bf16x2 => 5 | .f16x2 => 6

/-- Operations of VREDUCE and VSCAN (R249); codes 110 and 111 are refused before. -/
def RedOp.ofCode (c : BitVec 3) : RedOp :=
  match c.toNat with
  | 1 => .min | 2 => .max | 3 => .band | 4 => .bor | 5 => .bxor | _ => .add

/-- Operations of VREDUCE and VSCAN (R249). -/
def RedOp.toCode : RedOp → BitVec 3
  | .add => 0 | .min => 1 | .max => 2 | .band => 3 | .bor => 4 | .bxor => 5

/-- TEST of BRP (Table 11-8); code 11 is refused before. -/
def BrTest.ofCode (c : BitVec 2) : BrTest :=
  match c.toNat with
  | 1 => .all | 2 => .none | _ => .any

/-- TEST of BRP. -/
def BrTest.toCode : BrTest → BitVec 2
  | .any => 0 | .all => 1 | .none => 2

/-- Target windows of SPCAST (Table 11-8); other codes are refused before. -/
def Window.ofCode (c : BitVec 4) : Window :=
  match c.toNat with
  | 10 => .priv | 11 => .scratch | 12 => .shared | _ => .global

/-- Target windows of SPCAST. -/
def Window.toCode : Window → BitVec 4
  | .global => 0 | .priv => 10 | .scratch => 11 | .shared => 12

/-- Special-register numbers (Table 11-7). -/
def SpecReg.ofCode (c : BitVec 16) : Option SpecReg :=
  let n := c.toNat
  if 0x10 ≤ n ∧ n < 0x20 then some (.fmt (BitVec.ofNat 4 n))
  else if 0x20 ≤ n ∧ n < 0x28 then some (.tctl (BitVec.ofNat 3 n))
  else if 0x40 ≤ n ∧ n < 0x50 then some (.handler (BitVec.ofNat 4 n))
  else match n with
  | 0 => some .mode | 1 => some .flags | 2 => some .tags | 3 => some .govstat | 4 => some .time | 5 => some .classid
  | 6 => some .role | 7 => some .gotbase | 8 => some .drscale | 9 => some .outcnt | 10 => some .trapbase
  | 11 => some .exec | 12 => some .coreid
  | _ => none

/-- Special-register numbers (Table 11-7). -/
def SpecReg.toCode : SpecReg → BitVec 16
  | .mode => 0 | .flags => 1 | .tags => 2 | .govstat => 3 | .time => 4 | .classid => 5 | .role => 6 | .gotbase => 7
  | .drscale => 8 | .outcnt => 9 | .trapbase => 10 | .exec => 11 | .coreid => 12
  | .fmt n => 0x10#16 ||| n.setWidth 16
  | .tctl n => 0x20#16 ||| n.setWidth 16
  | .handler n => 0x40#16 ||| n.setWidth 16

/-- Matrix register codes (R266); codes 1010 to 1111 are refused before. -/
def MReg.ofCode (c : BitVec 4) : MReg :=
  if c.getLsbD 3 then .acc (c.getLsbD 0) else .tile (c.extractLsb' 0 3)

/-- Matrix register codes (R266). -/
def MReg.toCode : MReg → BitVec 4
  | .tile t => t.setWidth 4
  | .acc a => 8#4 ||| (BitVec.ofBool a).setWidth 4

/-- Metrics of TMMA (R280); code 11 is refused before. -/
def Metric.ofCode (c : BitVec 2) : Metric :=
  match c.toNat with
  | 1 => .l1 | 2 => .l2sq | _ => .dot

/-- Metrics of TMMA. -/
def Metric.toCode : Metric → BitVec 2
  | .dot => 0 | .l1 => 1 | .l2sq => 2

/-! ## The S space -/

/-- imm16 and off16 of subformats S-X and S-B. -/
def SRaw.imm16 (r : SRaw) : BitVec 16 := r.m ++ r.b ++ r.a
/-- imm10 of subformat S-I. -/
def SRaw.imm10 (r : SRaw) : BitVec 10 := r.m ++ r.b
/-- A predicate field: its low 3 bits (R160). -/
def predOf (f : BitVec 6) : PReg := f.extractLsb' 0 3
/-- The higher bits of a predicate field are zero (R160). -/
def predFieldOk (f : BitVec 6) : Bool := f.toNat < 8

/-- The SCOPE code in the low two bits of a field. -/
def scopeOf (f : BitVec 6) : Scope := Scope.ofCode (f.extractLsb' 0 2)

/-- An instruction whose field checks hold, or the finding `field`. -/
def okIf (c : Bool) (i : Instr) : Except Finding Instr := if c then .ok i else .error .field

/-- The instruction of an S word's fields (Table 11-8), with the checks of R160 on them. -/
def buildS (r : SRaw) : Except Finding Instr :=
  let m0 := r.m == 0
  let b0 := r.b == 0
  let a0 := r.a == 0
  let d0 := r.d == 0
  let u := r.m.getLsbD 0
  let mU := r.m.toNat < 2
  match r.op.toNat with
  | 0x00 => okIf (m0 && b0 && a0 && d0) .nop
  | 0x01 => okIf m0 (.sadd r.d r.a r.b)
  | 0x02 => okIf m0 (.ssub r.d r.a r.b)
  | 0x03 => okIf m0 (.smul r.d r.a r.b)
  | 0x04 => okIf mU (.smulh u r.d r.a r.b)
  | 0x05 => okIf mU (.sdiv u r.d r.a r.b)
  | 0x06 => okIf mU (.srem u r.d r.a r.b)
  | 0x07 => okIf m0 (.sand r.d r.a r.b)
  | 0x08 => okIf m0 (.sor r.d r.a r.b)
  | 0x09 => okIf m0 (.sxor r.d r.a r.b)
  | 0x0A => okIf m0 (.sandn r.d r.a r.b)
  | 0x0B => okIf m0 (.sshl r.d r.a r.b)
  | 0x0C => okIf m0 (.sshr r.d r.a r.b)
  | 0x0D => okIf m0 (.ssar r.d r.a r.b)
  | 0x0E => okIf mU (.smin u r.d r.a r.b)
  | 0x0F => okIf mU (.smax u r.d r.a r.b)
  | 0x10 => okIf (m0 && b0) (.sclz r.d r.a)
  | 0x11 => okIf (m0 && b0) (.spopc r.d r.a)
  | 0x12 => okIf mU (.sbfx u r.d r.a r.b)
  | 0x13 => okIf m0 (.sbfi r.d r.a r.b)
  | 0x14 => .ok (.slea r.m r.d r.a r.b)
  | 0x15 => okIf (r.m.toNat < 10) (.scmp (Cond.ofCode r.m) r.d r.a r.b)
  | 0x16 => .ok (.ssel (r.m.getLsbD 3) (r.m.extractLsb' 0 3) r.d r.a r.b)
  | 0x17 => .ok (.saddi r.d r.a r.imm10)
  | 0x18 => .ok (.sandi r.d r.a r.imm10)
  | 0x19 => .ok (.sori r.d r.a r.imm10)
  | 0x1A => .ok (.sxori r.d r.a r.imm10)
  | 0x1B => okIf m0 (.sshli r.d r.a r.b)
  | 0x1C => okIf m0 (.sshri r.d r.a r.b)
  | 0x1D => okIf m0 (.ssari r.d r.a r.b)
  | 0x1E => .ok (.smovi r.d r.imm16)
  | 0x1F => .ok (.smovhi r.d r.imm16)
  | 0x20 => okIf (m0 && predFieldOk r.d && predFieldOk r.a && predFieldOk r.b) (.pand (predOf r.d) (predOf r.a) (predOf r.b))
  | 0x21 => okIf (m0 && predFieldOk r.d && predFieldOk r.a && predFieldOk r.b) (.por (predOf r.d) (predOf r.a) (predOf r.b))
  | 0x22 => okIf (m0 && predFieldOk r.d && predFieldOk r.a && predFieldOk r.b) (.pxor (predOf r.d) (predOf r.a) (predOf r.b))
  | 0x23 => okIf (m0 && predFieldOk r.d && predFieldOk r.a && predFieldOk r.b) (.pandn (predOf r.d) (predOf r.a) (predOf r.b))
  | 0x24 => okIf (m0 && b0 && predFieldOk r.a) (.pcnt r.d (predOf r.a))
  | 0x25 => okIf (m0 && b0 && predFieldOk r.d) (.pfroms (predOf r.d) r.a)
  | 0x26 => okIf (m0 && b0 && predFieldOk r.a) (.ptos r.d (predOf r.a))
  | 0x30 => okIf (!r.b.getLsbD 3) (.sld r.m (MSize.ofCode (r.b.extractLsb' 4 2)) (r.b.getLsbD 2) (scopeOf r.b) r.d r.a)
  | 0x31 => okIf (!r.b.getLsbD 2) (.sst r.m (MSize.ofCode (r.b.extractLsb' 4 2)) (r.b.getLsbD 3) (scopeOf r.b) r.d r.a)
  | 0x32 => .ok (.sldc r.d r.a r.imm10)
  | 0x33 => .ok (.sldgot r.d r.imm16)
  | 0x34 => okIf (r.b.extractLsb' 3 3 != 7) (.satom r.m (Aop.ofCode (r.b.extractLsb' 3 3)) (r.b.getLsbD 2) (scopeOf r.b) r.d r.a)
  | 0x35 => if r.b.getLsbD 5 then
      .ok (.scas r.m (r.b.getLsbD 4) (MemOrd.ofCode (r.b.extractLsb' 2 2)) (scopeOf r.b) r.d r.a) else .error .type
  | 0x36 => okIf (r.d.toNat < 4) (.cwb r.m (scopeOf r.d) r.a r.b)
  | 0x37 => okIf (r.d.toNat < 4) (.cinv r.m (scopeOf r.d) r.a r.b)
  | 0x38 => okIf (r.d.toNat < 4) (.cwbinv r.m (scopeOf r.d) r.a r.b)
  | 0x39 => okIf (m0 && b0) (.sptest r.d r.a)
  | 0x3A => okIf (r.m == 0 || r.m == 10 || r.m == 11 || r.m == 12) (.spcast (Window.ofCode r.m) r.d r.a r.b)
  | 0x40 => okIf d0 (.bra r.imm16)
  | 0x41 => okIf (r.d.extractLsb' 4 2 != 3) (.brp (BrTest.ofCode (r.d.extractLsb' 4 2)) (r.d.getLsbD 3) (predOf r.d) r.imm16)
  | 0x42 => okIf (r.d.extractLsb' 4 2 == 0) (.brd (r.d.getLsbD 3) (predOf r.d) r.imm16)
  | 0x43 => okIf d0 (.split r.imm16)
  | 0x44 => okIf (m0 && b0 && a0 && d0) .rejoin
  | 0x45 => okIf (m0 && b0 && d0) (.jmps r.a)
  | 0x46 => .ok (.call r.d r.imm16)
  | 0x47 => okIf (m0 && b0) (.calls r.d r.a)
  | 0x48 => okIf (m0 && b0 && d0) (.ret r.a)
  | 0x49 => okIf (m0 && b0 && a0 && d0) .exit
  | 0x60 => match SpecReg.ofCode r.imm16 with | some q => .ok (.sread r.d q) | none => .error .specialReg
  | 0x61 => match SpecReg.ofCode r.imm16 with | some q => .ok (.swrite q r.d) | none => .error .specialReg
  | 0x62 => okIf (d0 && r.imm16.toNat < 0x20 && (r.imm16.extractLsb' 0 3).toNat < 6)
      (.fence (FKind.ofCode (r.imm16.extractLsb' 3 3)) (FScope.ofCode (r.imm16.extractLsb' 0 3)))
  | 0x63 => okIf (d0 && r.imm16.toNat < 0x200) (.bar (r.imm16.extractLsb' 0 4) (r.imm16.extractLsb' 4 5))
  | 0x64 => okIf (d0 && r.imm16.toNat < 0x100) (.trap (r.imm16.extractLsb' 0 8))
  | 0x65 => okIf d0 (.brk r.imm16)
  | 0x66 => okIf (m0 && b0 && a0 && d0) .rett
  | 0x67 => okIf (m0 && b0 && a0 && d0) .xlock
  | 0x68 => okIf (m0 && b0 && a0 && d0) .xfree
  | 0x69 => okIf (d0 && r.imm16.toNat < 0x40) (.waitcnt (r.imm16.extractLsb' 0 6))
  | _ => .error .opcode

/-! ## The W space -/

/-- What an opcode's vb field is (Tables 11-9 and 17-3). -/
inductive VbUse where
  | op | opW | vec | card | value | none
  | ctl (bits : Nat)
  deriving DecidableEq, Repr

/-- What word 1 bits 31:28 are: a lookahead, zero, or a modifier. -/
inductive LaUse where
  | long | zero | cond | fcond | sel
  deriving DecidableEq, Repr

/-- The field use of one W opcode. -/
structure WUse where
  vb : VbUse
  la : LaUse := .zero
  /-- rnd is used -/
  rnd : Bool := false
  /-- sat is used -/
  sat : Bool := false
  /-- word 1 bits 27:24 are MEMCTL -/
  mem : Bool := false
  /-- the guard is used (every opcode below 0xC0: R173) -/
  guard : Bool := true
  deriving DecidableEq, Repr

/-- An engine or task opcode's use: no guard (R266). -/
def engUse (vb : VbUse) (la : LaUse) (rs : Bool) : WUse := { vb := vb, la := la, rnd := rs, sat := rs, guard := false }

/-- Tables 11-9 and 17-3. -/
def wUse (op : Nat) : Option WUse :=
  match op with
  | 0x00 | 0x01 | 0x02 | 0x03 | 0x04 | 0x0E => some { vb := .op, sat := true }
  | 0x05 | 0x06 | 0x07 | 0x08 | 0x09 | 0x0A | 0x0B | 0x0C | 0x0D => some { vb := .op }
  | 0x0F => some { vb := .op, la := .cond }
  | 0x10 => some { vb := .op, la := .sel }
  | 0x11 | 0x14 | 0x15 | 0x16 => some { vb := .op }
  | 0x12 | 0x13 => some { vb := .none }
  | 0x40 | 0x41 | 0x42 | 0x43 | 0x44 | 0x45 => some { vb := .op, rnd := true, sat := true }
  | 0x46 => some { vb := .op, la := .fcond }
  | 0x47 => some { vb := .none }
  | 0x48 => some { vb := .none, rnd := true }
  | 0x49 => some { vb := .op, la := .long, rnd := true, sat := true }
  | 0x4A | 0x4B | 0x4C | 0x4D | 0x4E => some { vb := .none, la := .long, rnd := true, sat := true }
  | 0x4F | 0x50 => some { vb := .ctl 6, rnd := true, sat := true }
  | 0x51 => some { vb := .ctl 6 }
  | 0x52 => some { vb := .opW, rnd := true }
  | 0x53 | 0x54 | 0x55 => some { vb := .opW }
  | 0x56 | 0x57 => some { vb := .ctl 2 }
  | 0x80 | 0x81 | 0x82 | 0x83 => some { vb := .op }
  | 0x84 | 0x85 => some { vb := .ctl 3, la := .long, rnd := true }
  | 0x86 => some { vb := .vec, la := .long }
  | 0x87 => some { vb := .none }
  | 0x88 => some { vb := .ctl 5, la := .long }
  | 0x89 => some { vb := .none }
  | 0xA0 | 0xA1 | 0xA2 | 0xA3 | 0xA4 | 0xA5 | 0xA6 => some { vb := .op, la := .long, mem := true }
  | 0xA7 => some { vb := .op, mem := true }
  | 0xC0 => some (engUse .value .zero false)
  | 0xC1 | 0xC2 => some (engUse .card .long true)
  | 0xC3 => some (engUse (.ctl 3) .long false)
  | 0xC4 => some (engUse .card .long false)
  | 0xC5 => some (engUse .none .long false)
  | 0xC6 => some (engUse .card .long false)
  | 0xC7 | 0xC8 => some (engUse .card .long true)
  | 0xC9 => some (engUse .vec .long false)
  | 0xCA => some (engUse .none .long true)
  | 0xCB => some (engUse .none .long false)
  | 0xE0 | 0xE1 => some (engUse .card .long true)
  | 0xE2 | 0xE3 | 0xE4 | 0xE5 => some (engUse .card .zero false)
  | 0xE6 => some (engUse (.ctl 3) .zero false)
  | 0xE7 => some (engUse .card .zero false)
  | 0xE8 | 0xE9 => some (engUse (.ctl 3) .zero false)
  | 0xEA => some (engUse .card .zero true)
  | 0xEB | 0xEC => some (engUse .card .zero false)
  | 0xED | 0xEE => some (engUse (.ctl 4) .long false)
  | 0xEF | 0xF0 | 0xF1 => some (engUse .none .long false)
  | 0xF2 => some (engUse .none .zero false)
  | _ => none

/-- vb as a kind-01 operand has its scalar in the low 6 bits (R162). -/
def vbScalarOk (r : WRaw) : Bool := r.vb.toNat < 64

/-- The field part of a vb use (code 0x0012). -/
def vbFieldOk (u : VbUse) (r : WRaw) : Bool :=
  match u with
  | .op | .opW | .value | .card | .vec => r.kind != 1 || vbScalarOk r
  | .none => r.vb == 0
  | .ctl n => r.vb.toNat < 2 ^ n

/-- The kind part of a vb use (code 0x0013): the kinds that Tables 11-9 and 17-3 list, and R162's rules of kind 10. -/
def vbKindOk (u : VbUse) (r : WRaw) : Bool :=
  r.kind != 3 && (r.kind == 2) == r.long && (r.kind != 2 || r.vb == 0) &&
  (match u with
   | .op => true
   | .opW => r.kind != 2
   | .value => r.kind != 0
   | .card => r.kind == 1
   | .vec | .none | .ctl _ => r.kind == 0)

/-- Word 1 bits 31:28 under their use (R166). -/
def laOk (u : LaUse) (la : BitVec 4) : Bool :=
  match u with
  | .long | .sel => true
  | .zero => la == 0
  | .cond => la.toNat < 10
  | .fcond => la.toNat < 8

/-- rnd, sat and the guard under their use (code 0x0014); 110 is excluded in VREDUCE and VSCAN (R249). -/
def rsOk (op : Nat) (u : WUse) (r : WRaw) : Bool :=
  (u.mem || (r.rnd == 6 && (op == 0x84 || op == 0x85)) == false) &&
  (u.mem || (r.rnd != 7 && (u.rnd || r.rnd == 0) && (u.sat || !r.sat))) && (u.guard || (r.pred == 0 && !r.pneg))

/-- ORD of a W memory instruction: MEMCTL bits 27:26. -/
def WRaw.ord (r : WRaw) : BitVec 2 := BitVec.ofBool r.sat ++ r.rnd.extractLsb' 2 1
/-- SCOPE of a W memory instruction: MEMCTL bits 25:24. -/
def WRaw.scope (r : WRaw) : BitVec 2 := r.rnd.extractLsb' 0 2
/-- A scalar address selector has va[9:6] zero (R169). -/
def WRaw.baseOk (r : WRaw) : Bool := !r.va.getLsbD 10 || r.va.toNat < 1088

/-- The fields that an opcode uses in its own way, or not at all (Tables 11-9, 17-3 and each description). -/
def wFieldOk (op : Nat) (r : WRaw) : Bool :=
  let va0 := r.va == 0
  let vd0 := r.vd == 0
  let ty0 := r.ty == 0
  let v := r.vd.toNat
  let a := r.va.toNat
  match op with
  | 0x0F | 0x46 => v < 8
  | 0x11 => va0
  | 0x56 => ty0 && (if r.vb == 1 || r.vb == 0 || r.vb == 3 then va0 else vd0)
  | 0x57 => ty0 && (if r.vb == 0 then va0 else vd0)
  | 0x82 => v < 64
  | 0x83 => a < 64
  | 0x84 | 0x85 => r.vb.toNat < 6
  | 0x89 => vd0
  | 0xA0 | 0xA2 | 0xA4 => r.baseOk && !r.ord.getLsbD 1
  | 0xA1 | 0xA3 => r.baseOk && !r.ord.getLsbD 0
  | 0xA5 => r.baseOk && r.ty.extractLsb' 3 3 != 7
  | 0xA6 => r.baseOk
  | 0xA7 => r.baseOk && vd0 && ty0 && r.ord == 0 && r.scope != 3
  | 0xC0 => v < 8 && va0 && ty0
  | 0xC1 => v < 10 && va0 && ty0
  | 0xC2 => v < 8 && va0 && ty0
  | 0xC3 => v < 8 && va0 && r.ty.toNat < 2
  | 0xC4 => match r.ty.toNat with
    | 0 => v < 8 && a < 8 && (r.kind != 0 || r.vb == 0)
    | 1 => v < 1024
    | 2 => a < 1024
    | _ => false
  | 0xC5 => v < 10 && va0 && ty0
  | 0xC6 => v < 2 && a < 64 && r.ty.toNat < 3
  | 0xC7 => match (r.va.extractLsb' 8 2).toNat with
    | 0 => vd0 && r.va.extractLsb' 1 7 == 0
    | 1 => v < 8 && ty0 && r.va.extractLsb' 1 7 == 0
    | 2 => !r.va.getLsbD 7
    | _ => false
  | 0xC8 => a < 64 && (r.va.getLsbD 3 || ty0)
  | 0xC9 => v < 2 && a < 8 && ty0
  | 0xCA => v < 8 && a < 4 && ty0
  | 0xCB => vd0 && va0 && ty0
  | 0xE0 | 0xE1 => vd0 && va0 && ty0
  | 0xE2 => vd0 && va0 && r.ty.toNat < 2
  | 0xE3 => v < 64 && va0 && r.ty.toNat < 2
  | 0xE4 => vd0 && va0 && ty0
  | 0xE5 => v < 8 && a < 64 && ty0
  | 0xE6 | 0xE8 => v < 64 && va0 && ty0
  | 0xE7 => v < 8 && va0 && ty0
  | 0xE9 => vd0 && va0 && ty0
  | 0xEA => v < 8 && a < 64 && r.ty.toNat < 2
  | 0xEB => v < 8 && va0 && ty0
  | 0xEC => v < 32 && a < 64 && ty0
  | 0xED => v < 64 && va0 && ty0
  | 0xEE => vd0 && a < 64 && ty0
  | 0xEF => 1 ≤ v && v ≤ 59 && va0 && ty0
  | 0xF0 => v < 64 && 1 ≤ a && a ≤ 60 && ty0
  | 0xF1 => vd0 && 1 ≤ a && a ≤ 60 && ty0
  | 0xF2 => vd0 && va0 && ty0
  | _ => true

/-- The vb use of TMOV depends on its sub-operation (Table 17-5). -/
def vbUseOf (op : Nat) (u : WUse) (r : WRaw) : VbUse :=
  if op = 0xC4 ∧ r.ty = 0 then .none else u.vb

/-- The findings of codes 0x0012 to 0x0014 on the fields of a W or L instruction. -/
def rawFinding (op : Nat) (u : WUse) (r : WRaw) : Option Finding :=
  firstFinding [(laOk u.la r.la && vbFieldOk (vbUseOf op u r) r && wFieldOk op r, .field),
    (vbKindOk (vbUseOf op u r) r, .kind), (rsOk op u r, .rounding)]

/-- The guard (R165). -/
def WRaw.g (r : WRaw) : Guard := ⟨r.pneg, r.pred⟩
/-- The rounding mode. -/
def WRaw.rm (r : WRaw) : Rnd := Rnd.ofCode r.rnd
/-- The operand vb (R162). -/
def WRaw.src (r : WRaw) : Src :=
  match r.kind.toNat with
  | 0 => .vec r.vb
  | 1 => .sreg (r.vb.extractLsb' 0 6)
  | _ => .lit r.lit
/-- The scalar of a kind-01 vb. -/
def WRaw.sb (r : WRaw) : SReg := r.vb.extractLsb' 0 6
/-- The scalar named in va. -/
def WRaw.sa (r : WRaw) : SReg := r.va.extractLsb' 0 6
/-- The scalar named in vd. -/
def WRaw.sd (r : WRaw) : SReg := r.vd.extractLsb' 0 6
/-- The memory base (R169). -/
def WRaw.base (r : WRaw) : MBase := if r.va.getLsbD 10 then .sreg r.sa else .pair r.va
/-- SCOPE. -/
def WRaw.sc (r : WRaw) : Scope := Scope.ofCode r.scope
/-- A ring or tile number in vd. -/
def WRaw.d3 (r : WRaw) : BitVec 3 := r.vd.extractLsb' 0 3
/-- A ring number in vb. -/
def WRaw.b3 (r : WRaw) : BitVec 3 := r.vb.extractLsb' 0 3
/-- A schedule register in vb. -/
def WRaw.b4 (r : WRaw) : BitVec 4 := r.vb.extractLsb' 0 4

/-- The sub-operation of VRAND (R243). -/
def WRaw.rand (r : WRaw) : RandOp :=
  match r.vb.toNat with
  | 0 => .draw r.vd | 1 => .unit r.vd | 2 => .seed r.va | _ => .state r.vd
/-- The sub-operation of VFLG (R244). -/
def WRaw.flg (r : WRaw) : FlgOp :=
  match r.vb.toNat with
  | 0 => .get r.vd | 1 => .set r.va | 2 => .or r.va | _ => .clr r.va
/-- The sub-operation of TMOV (Table 17-5). -/
def WRaw.tmov (r : WRaw) : TMovOp :=
  match r.ty.toNat with
  | 0 => .tt r.d3 (r.va.extractLsb' 0 3)
  | 1 => .vt r.d3 r.va (r.vd.extractLsb' 3 7) r.sb
  | _ => .tv r.vd (r.va.extractLsb' 0 3) (r.va.extractLsb' 3 7) r.sb

/-- The instruction of a W or L instruction's fields; `none` for a type code that no instruction accepts (code 0x0015). -/
def buildW (op : Nat) (r : WRaw) : Option Instr :=
  let ty := Fmt.ofCode r.ty
  match op with
  | 0x00 => ty.map fun t => .vadd r.g r.eph r.sat t r.vd r.va r.src
  | 0x01 => ty.map fun t => .vsub r.g r.eph r.sat t r.vd r.va r.src
  | 0x02 => ty.map fun t => .vmul r.g r.eph r.sat t r.vd r.va r.src
  | 0x03 => ty.map fun t => .vmulh r.g r.eph r.sat t r.vd r.va r.src
  | 0x04 => ty.map fun t => .vmad r.g r.eph r.sat t r.vd r.va r.src
  | 0x05 => ty.map fun t => .vand r.g r.eph t r.vd r.va r.src
  | 0x06 => ty.map fun t => .vor r.g r.eph t r.vd r.va r.src
  | 0x07 => ty.map fun t => .vxor r.g r.eph t r.vd r.va r.src
  | 0x08 => ty.map fun t => .vandn r.g r.eph t r.vd r.va r.src
  | 0x09 => ty.map fun t => .vshl r.g r.eph t r.vd r.va r.src
  | 0x0A => ty.map fun t => .vshr r.g r.eph t r.vd r.va r.src
  | 0x0B => ty.map fun t => .vsar r.g r.eph t r.vd r.va r.src
  | 0x0C => ty.map fun t => .vmin r.g r.eph t r.vd r.va r.src
  | 0x0D => ty.map fun t => .vmax r.g r.eph t r.vd r.va r.src
  | 0x0E => ty.map fun t => .vabsd r.g r.eph r.sat t r.vd r.va r.src
  | 0x0F => ty.map fun t => .vcmp r.g (Cond.ofCode r.la) t (r.vd.extractLsb' 0 3) r.va r.src
  | 0x10 => ty.map fun t => .vsel r.g r.eph (r.la.getLsbD 3) (r.la.extractLsb' 0 3) t r.vd r.va r.src
  | 0x11 => ty.map fun t => .vmov r.g r.eph t r.vd r.src
  | 0x12 => ty.map fun t => .vclz r.g r.eph t r.vd r.va
  | 0x13 => ty.map fun t => .vpopc r.g r.eph t r.vd r.va
  | 0x14 => ty.map fun t => .vbfx r.g r.eph t r.vd r.va r.src
  | 0x15 => ty.map fun t => .vbfi r.g r.eph t r.vd r.va r.src
  | 0x16 => ty.map fun t => .vdot4 r.g r.eph t r.vd r.va r.src
  | 0x40 => ty.map fun t => .vfadd r.g r.eph r.sat r.rm t r.vd r.va r.src
  | 0x41 => ty.map fun t => .vfsub r.g r.eph r.sat r.rm t r.vd r.va r.src
  | 0x42 => ty.map fun t => .vfmul r.g r.eph r.sat r.rm t r.vd r.va r.src
  | 0x43 => ty.map fun t => .vfma r.g r.eph r.sat r.rm t r.vd r.va r.src
  | 0x44 => ty.map fun t => .vfmin r.g r.eph r.sat r.rm t r.vd r.va r.src
  | 0x45 => ty.map fun t => .vfmax r.g r.eph r.sat r.rm t r.vd r.va r.src
  | 0x46 => ty.map fun t => .vfcmp r.g (FCond.ofCode r.la) t (r.vd.extractLsb' 0 3) r.va r.src
  | 0x47 => ty.map fun t => .vfclass r.g r.eph t r.vd r.va
  | 0x48 => ty.map fun t => .vfrnd r.g r.eph r.rm t r.vd r.va
  | 0x49 => ty.map fun t => .vfdiv r.g r.la r.sat r.rm t r.vd r.va r.src
  | 0x4A => ty.map fun t => .vexp2 r.g r.la r.sat r.rm t r.vd r.va
  | 0x4B => ty.map fun t => .vlog2 r.g r.la r.sat r.rm t r.vd r.va
  | 0x4C => ty.map fun t => .vrcp r.g r.la r.sat r.rm t r.vd r.va
  | 0x4D => ty.map fun t => .vrsq r.g r.la r.sat r.rm t r.vd r.va
  | 0x4E => ty.map fun t => .vsqrt r.g r.la r.sat r.rm t r.vd r.va
  | 0x4F => ty.bind fun t => (Fmt.ofCode (r.vb.extractLsb' 0 6)).map fun u => .vcvt r.g r.eph r.sat r.rm t u r.vd r.va
  | 0x50 => ty.bind fun t => (Fmt.ofCode (r.vb.extractLsb' 0 6)).map fun u => .vpack r.g r.eph r.sat r.rm t u r.vd r.va
  | 0x51 => ty.bind fun t => (Fmt.ofCode (r.vb.extractLsb' 0 6)).map fun u => .vunpack r.g r.eph t u r.vd r.va
  | 0x52 => ty.map fun t => .vlns r.g r.eph r.rm t r.vd r.va r.src
  | 0x53 => ty.map fun t => .vlin r.g r.eph t r.vd r.va r.src
  | 0x54 => ty.map fun t => .vlmul r.g r.eph t r.vd r.va r.src
  | 0x55 => ty.map fun t => .vladd r.g r.eph t r.vd r.va r.src
  | 0x56 => some (.vrand r.g r.eph r.rand)
  | 0x57 => some (.vflg r.g r.eph r.flg)
  | 0x80 => ty.map fun t => .vshuf r.g r.eph t r.vd r.va r.src
  | 0x81 => ty.map fun t => .vbcast r.g r.eph t r.vd r.va r.src
  | 0x82 => ty.map fun t => .vrdlane r.g t r.sd r.va r.src
  | 0x83 => ty.map fun t => .vwrlane r.g r.eph t r.vd r.sa r.src
  | 0x84 => ty.map fun t => .vreduce r.g r.la r.rm t (RedOp.ofCode (r.vb.extractLsb' 0 3)) r.vd r.va
  | 0x85 => ty.map fun t => .vscan r.g r.la r.rm t (RedOp.ofCode (r.vb.extractLsb' 0 3)) r.vd r.va
  | 0x86 => ty.map fun t => .vmatch r.g r.la t r.vd r.va r.vb
  | 0x87 => if r.ty = 6 then some (.vcompact r.g r.eph r.vd r.va) else none
  | 0x88 => ty.map fun t => .tsort r.g r.la t (r.vb.getLsbD 4) r.b4 r.vd r.va
  | 0x89 => ty.map fun t => .assertu r.g t r.va
  | 0xA0 => ty.map fun t => .vld r.g r.la (r.ord.getLsbD 0) r.sc t r.vd r.base r.src
  | 0xA1 => ty.map fun t => .vst r.g r.la (r.ord.getLsbD 1) r.sc t r.vd r.base r.src
  | 0xA2 => ty.map fun t => .vlds r.g r.la (r.ord.getLsbD 0) r.sc t r.vd r.base r.src
  | 0xA3 => ty.map fun t => .vsts r.g r.la (r.ord.getLsbD 1) r.sc t r.vd r.base r.src
  | 0xA4 => ty.map fun t => .vldt r.g r.la (r.ord.getLsbD 0) r.sc t r.vd r.base r.src
  | 0xA5 => (AType.ofCode (r.ty.extractLsb' 0 3)).map fun t =>
      .vatom r.g r.la (MemOrd.ofCode r.ord) r.sc (Aop.ofCode (r.ty.extractLsb' 3 3)) t r.vd r.base r.src
  | 0xA6 => if r.ty = 6 then some (.vcas r.g r.la (MemOrd.ofCode r.ord) r.sc r.vd r.base r.src) else none
  | 0xA7 => some (.vpref r.g r.scope r.base r.src)
  | 0xC0 => some (.tcfg r.d3 r.src)
  | 0xC1 => some (.tld r.la r.sat r.rm (MReg.ofCode (r.vd.extractLsb' 0 4)) r.sb)
  | 0xC2 => some (.tst r.la r.sat r.rm r.d3 r.sb)
  | 0xC3 => some (.tldr r.la (r.ty.getLsbD 0) r.d3 r.b3)
  | 0xC4 => some (.tmov r.la r.tmov)
  | 0xC5 => some (.tzero r.la (MReg.ofCode (r.vd.extractLsb' 0 4)))
  | 0xC6 => some (.tmma r.la (Metric.ofCode (r.ty.extractLsb' 0 2)) (r.vd.getLsbD 0) (r.va.extractLsb' 0 3) (r.va.extractLsb' 3 3) r.sb)
  | 0xC7 => match (r.va.extractLsb' 8 2).toNat with
    | 0 => ty.map fun t => .tdrain r.la r.sat r.rm (r.va.getLsbD 10) (r.va.getLsbD 0) (.mem t) r.sb
    | 1 => some (.tdrain r.la r.sat r.rm (r.va.getLsbD 10) (r.va.getLsbD 0) (.tile r.d3) r.sb)
    | _ => ty.map fun t => .tdrain r.la r.sat r.rm (r.va.getLsbD 10) (r.va.getLsbD 0) (.vec r.vd (r.va.extractLsb' 1 6) t) r.sb
  | 0xC8 => if r.va.getLsbD 3 then
      ty.map fun t => .tbest r.la r.sat r.rm (r.va.getLsbD 0) (r.va.getLsbD 1) (r.va.getLsbD 2) (r.va.getLsbD 4) (r.va.getLsbD 5)
        (some t) r.vd r.sb
    else some (.tbest r.la r.sat r.rm (r.va.getLsbD 0) (r.va.getLsbD 1) (r.va.getLsbD 2) (r.va.getLsbD 4) (r.va.getLsbD 5)
        none r.vd r.sb)
  | 0xC9 => some (.tcupd r.la (r.vd.getLsbD 0) (r.va.extractLsb' 0 3) r.vb)
  | 0xCA => some (.tcfin r.la r.sat r.rm r.d3 (r.va.getLsbD 0) (r.va.getLsbD 1))
  | 0xCB => some (.twait r.la)
  | 0xE0 => some (.cpy r.la r.sat r.rm r.sb)
  | 0xE1 => some (.coll r.la r.sat r.rm r.sb)
  | 0xE2 => some (.tagwait (r.ty.getLsbD 0) r.sb)
  | 0xE3 => some (.tagff (r.ty.getLsbD 0) r.sd r.sb)
  | 0xE4 => some (.tagclr r.sb)
  | 0xE5 => some (.rinit r.d3 r.sa r.sb)
  | 0xE6 => some (.racq r.sd r.b3)
  | 0xE7 => some (.rcommit r.d3 r.sb)
  | 0xE8 => some (.rwait r.sd r.b3)
  | 0xE9 => some (.rrel r.b3)
  | 0xEA => some (.rsub (r.ty.getLsbD 0) r.sat r.rm r.d3 r.sa r.sb)
  | 0xEB => some (.runsub r.d3 r.sb)
  | 0xEC => some (.qcfg (r.vd.getLsbD 4) (r.vd.extractLsb' 0 4) r.sa r.sb)
  | 0xED => some (.schrd r.la r.sd r.b4)
  | 0xEE => some (.schwr r.la r.sa r.b4)
  | 0xEF => some (.nexttile r.la r.sd)
  | 0xF0 => some (.atomdone r.la r.sd r.sa)
  | 0xF1 => some (.spawn r.la r.sa)
  | 0xF2 => some .join
  | _ => none

/-! ## Decoding -/

/-- The instruction whose first word is `w0` and whose later words are given (zero where absent in a shorter form), whatever
registers it names, or the finding of the lowest code about its encoding. A special-register number that Table 11-7 does not list
is refused here, since `Instr` has no name for it. -/
def decodeForm (w0 w1 w2 : Word) : Except Finding Instr :=
  match (w0.extractLsb' 0 2).toNat with
  | 0 => match buildS (unpackS w0) with
    | .error f => .error f
    | .ok i => match i.formFinding with
      | some f => .error f
      | none => .ok i
  | 3 => .error .lengthCode
  | n =>
    let r := unpackW (n == 2) w0 w1 w2
    match wUse r.op.toNat with
    | none => .error .opcode
    | some u => match rawFinding r.op.toNat u r with
      | some f => .error f
      | none => match buildW r.op.toNat r with
        | none => .error .type
        | some i => match i.formFinding with
          | some f => .error f
          | none => if r.eph && !i.isEph then .error .eph else .ok i

/-- The registers that an instruction names are allowed too. -/
def allowed (i : Instr) : Except Finding Instr :=
  match i.useFinding with
  | some f => .error f
  | none => .ok i

/-- The instruction whose words are given, or the finding of the lowest code that refuses it. -/
def decodeFields (w0 w1 w2 : Word) : Except Finding Instr := (decodeForm w0 w1 w2).bind allowed

/-- The number of words of an instruction by bits [1:0] of its first word (Table 11-1); `none` for code 11. -/
def lengthOf (w0 : Word) : Option Nat :=
  match (w0.extractLsb' 0 2).toNat with
  | 0 => some 1
  | 1 => some 2
  | 2 => some 3
  | _ => none

/-- The four bytes of a little-endian word (R158). -/
def wordOfBytes (b0 b1 b2 b3 : Byte) : Word := b3 ++ b2 ++ b1 ++ b0

/-- The bytes of a word, lowest address first. -/
def bytesOfWord (w : Word) : List Byte := (List.range 4).map fun k => w.extractLsb' (8 * k) 8

/-- The words of a list of bytes; a trailing part of a word is dropped. -/
def wordsOfBytes : List Byte → List Word
  | b0 :: b1 :: b2 :: b3 :: rest => wordOfBytes b0 b1 b2 b3 :: wordsOfBytes rest
  | _ => []

/-- No second word makes the fields of a first word of the W space legal: for every type code and every control field that an
opcode distinguishes, a field of the first word is at fault. -/
def firstWordBad (w0 : Word) : Bool :=
  let r := unpackW false w0 0 0
  !((List.range 64).any fun t => [0, 1, 2].any fun b => wFieldOk r.op.toNat { r with ty := BitVec.ofNat 6 t, vb := BitVec.ofNat 11 b })

/-- The finding of the lowest code about an instruction whose words end inside it: one that its present words show, or
`truncated`. -/
def truncatedFinding (w0 : Word) (rest : List Word) : Finding :=
  match wUse (unpackW false w0 0 0).op.toNat with
  | none => .opcode
  | some _ =>
    if rest.isEmpty then (if firstWordBad w0 then .field else .truncated)
    else match decodeForm w0 (rest.getD 0 0) 0 with
      | .error f => f
      | .ok _ => .truncated

/-- The instruction at the start of a list of words, whatever registers it names, with the words after it. -/
def formOfWords : List Word → Except Finding (Instr × List Word)
  | [] => .error .truncated
  | w0 :: rest =>
    match lengthOf w0 with
    | none => .error .lengthCode
    | some n =>
      if n ≤ rest.length + 1 then
        (decodeForm w0 (rest.getD 0 0) (rest.getD 1 0)).map fun i => (i, rest.drop (n - 1))
      else .error (truncatedFinding w0 rest)

/-- The instruction at the start of a list of words with the words after it (R158). -/
def decodeWords (ws : List Word) : Except Finding (Instr × List Word) :=
  (formOfWords ws).bind fun p => (allowed p.1).map fun i => (i, p.2)

/-- The instruction at the start of any bytes (R158), or the finding that refuses them. -/
def decode (bytes : List Byte) : Except Finding (Instr × List Word) := decodeWords (wordsOfBytes bytes)

/-- The instruction whose words, first word lowest, are the bits of `w`, every bit from `nbits` up being zero. -/
def decodeTableWord (nbits w : Nat) : Option Instr :=
  let v := BitVec.ofNat 96 (w % 2 ^ nbits)
  match decodeWords [v.extractLsb' 0 32, v.extractLsb' 32 32, v.extractLsb' 64 32] with
  | .ok (i, _) => some i
  | .error _ => none

/-! ## Encoding -/

/-- The words of an S instruction from its fields. -/
def sWord (op : BitVec 8) (m : BitVec 4) (b a d : BitVec 6) : List Word := [packS ⟨m, b, a, d, op⟩]

/-- An S-X or S-B word. -/
def sImm16 (op : BitVec 8) (imm : BitVec 16) (d : BitVec 6) : List Word :=
  [packS ⟨imm.extractLsb' 12 4, imm.extractLsb' 6 6, imm.extractLsb' 0 6, d, op⟩]

/-- An S-I word. -/
def sImm10 (op : BitVec 8) (imm : BitVec 10) (a d : BitVec 6) : List Word :=
  [packS ⟨imm.extractLsb' 6 4, imm.extractLsb' 0 6, a, d, op⟩]

/-- The modifier U or SX in bit 28. -/
def uBit (u : Bool) : BitVec 4 := (BitVec.ofBool u).setWidth 4

/-- A W instruction with every optional field zero. -/
def wBase (op : BitVec 8) (vd va : VReg) (ty : BitVec 6) : WRaw where
  op := op
  long := false
  vd := vd
  va := va
  la := 0
  sat := false
  rnd := 0
  eph := false
  pneg := false
  pred := 0
  kind := 0
  ty := ty
  vb := 0
  lit := 0

/-- Its operand vb (R162). -/
def WRaw.withSrc (r : WRaw) : Src → WRaw
  | .vec n => { r with kind := 0, vb := n }
  | .sreg n => { r with kind := 1, vb := n.setWidth 11 }
  | .lit v => { r with kind := 2, long := true, vb := 0, lit := v }
/-- A control field in vb. -/
def WRaw.withCtl (r : WRaw) (vb : VReg) : WRaw := { r with vb := vb }
/-- Its guard and eph bit. -/
def WRaw.withGuard (r : WRaw) (g : Guard) (eph : Bool) : WRaw := { r with pneg := g.neg, pred := g.p, eph := eph }
/-- Its saturation and rounding fields. -/
def WRaw.withRound (r : WRaw) (sat : Bool) (rnd : Rnd) : WRaw := { r with sat := sat, rnd := rnd.toCode }
/-- Word 1 bits 31:28. -/
def WRaw.withLa (r : WRaw) (la : BitVec 4) : WRaw := { r with la := la }
/-- MEMCTL. -/
def WRaw.withMem (r : WRaw) (ord sc : BitVec 2) : WRaw :=
  { r with sat := ord.getLsbD 1, rnd := BitVec.ofBool (ord.getLsbD 0) ++ sc }
/-- ORD with acquire in its low and release in its high bit. -/
def ordBits (rel acq : Bool) : BitVec 2 := BitVec.ofBool rel ++ BitVec.ofBool acq
/-- The address selector (R169). -/
def MBase.va : MBase → VReg
  | .sreg r => 1024#11 ||| r.setWidth 11
  | .pair n => n

/-- The words of an integer or logic instruction of Table 15-3 and of the float ones. -/
def wArith (op : BitVec 8) (g : Guard) (eph sat : Bool) (rnd : Rnd) (ty : Fmt) (vd va : VReg) (vb : Src) : List Word :=
  packW ((((wBase op vd va ty.toCode).withGuard g eph).withRound sat rnd).withSrc vb)

/-- The words of an instruction with no operand vb. -/
def wUnary (op : BitVec 8) (g : Guard) (eph : Bool) (la : BitVec 4) (sat : Bool) (rnd : Rnd) (ty : BitVec 6) (vd va : VReg)
    (ctl : VReg) : List Word :=
  packW (((((wBase op vd va ty).withGuard g eph).withRound sat rnd).withLa la).withCtl ctl)

/-- The words of a W memory instruction. -/
def wMem (op : BitVec 8) (g : Guard) (la : BitVec 4) (ord sc : BitVec 2) (ty : BitVec 6) (vd : VReg) (base : MBase) (off : Src) :
    List Word :=
  packW (((((wBase op vd base.va ty).withGuard g false).withMem ord sc).withLa la).withSrc off)

/-- The words of an engine or task instruction with a kind-01 operand. -/
def wEng (op : BitVec 8) (la : BitVec 4) (sat : Bool) (rnd : Rnd) (vd va : VReg) (ty : BitVec 6) (vb : SReg) : List Word :=
  packW ((((wBase op vd va ty).withRound sat rnd).withLa la).withSrc (.sreg vb))

/-- The words of an engine or task instruction with a control field or nothing in vb. -/
def wEngCtl (op : BitVec 8) (la : BitVec 4) (sat : Bool) (rnd : Rnd) (vd va : VReg) (ty : BitVec 6) (vb : VReg) : List Word :=
  packW ((((wBase op vd va ty).withRound sat rnd).withLa la).withCtl vb)

/-- va of TDRAIN (Table 17-3). -/
def drainVa (acc clr : Bool) (dest : BitVec 2) (n1 : BitVec 7) : VReg := BitVec.ofBool clr ++ dest ++ n1 ++ BitVec.ofBool acc

/-- The words of an S instruction, and of nothing else. -/
def encodeS : Instr → List Word
  | .nop => sWord 0x00 0 0 0 0
  | .sadd d a b => sWord 0x01 0 b a d
  | .ssub d a b => sWord 0x02 0 b a d
  | .smul d a b => sWord 0x03 0 b a d
  | .smulh u d a b => sWord 0x04 (uBit u) b a d
  | .sdiv u d a b => sWord 0x05 (uBit u) b a d
  | .srem u d a b => sWord 0x06 (uBit u) b a d
  | .smin u d a b => sWord 0x0E (uBit u) b a d
  | .smax u d a b => sWord 0x0F (uBit u) b a d
  | .sbfx u d a b => sWord 0x12 (uBit u) b a d
  | .sand d a b => sWord 0x07 0 b a d
  | .sor d a b => sWord 0x08 0 b a d
  | .sxor d a b => sWord 0x09 0 b a d
  | .sandn d a b => sWord 0x0A 0 b a d
  | .sshl d a b => sWord 0x0B 0 b a d
  | .sshr d a b => sWord 0x0C 0 b a d
  | .ssar d a b => sWord 0x0D 0 b a d
  | .sclz d a => sWord 0x10 0 0 a d
  | .spopc d a => sWord 0x11 0 0 a d
  | .sbfi d a b => sWord 0x13 0 b a d
  | .slea k d a b => sWord 0x14 k b a d
  | .scmp c d a b => sWord 0x15 c.toCode b a d
  | .ssel n p d a b => sWord 0x16 (BitVec.ofBool n ++ p) b a d
  | .saddi d a i => sImm10 0x17 i a d
  | .sandi d a i => sImm10 0x18 i a d
  | .sori d a i => sImm10 0x19 i a d
  | .sxori d a i => sImm10 0x1A i a d
  | .sshli d a k => sWord 0x1B 0 k a d
  | .sshri d a k => sWord 0x1C 0 k a d
  | .ssari d a k => sWord 0x1D 0 k a d
  | .smovi d i => sImm16 0x1E i d
  | .smovhi d i => sImm16 0x1F i d
  | .pand d a b => sWord 0x20 0 (b.setWidth 6) (a.setWidth 6) (d.setWidth 6)
  | .por d a b => sWord 0x21 0 (b.setWidth 6) (a.setWidth 6) (d.setWidth 6)
  | .pxor d a b => sWord 0x22 0 (b.setWidth 6) (a.setWidth 6) (d.setWidth 6)
  | .pandn d a b => sWord 0x23 0 (b.setWidth 6) (a.setWidth 6) (d.setWidth 6)
  | .pcnt d a => sWord 0x24 0 0 (a.setWidth 6) d
  | .pfroms d a => sWord 0x25 0 0 a (d.setWidth 6)
  | .ptos d a => sWord 0x26 0 0 (a.setWidth 6) d
  | .sld la sz acq sc d a => sWord 0x30 la (sz.toCode ++ ordBits false acq ++ sc.toCode) a d
  | .sst la sz rel sc d a => sWord 0x31 la (sz.toCode ++ ordBits rel false ++ sc.toCode) a d
  | .sldc d a i => sImm10 0x32 i a d
  | .sldgot d i => sImm16 0x33 i d
  | .satom la op dbl sc d a => sWord 0x34 la (op.toCode ++ BitVec.ofBool dbl ++ sc.toCode) a d
  | .scas la dbl ord sc d a => sWord 0x35 la ((1 : BitVec 1) ++ BitVec.ofBool dbl ++ ord.toCode ++ sc.toCode) a d
  | .cwb la sc a b => sWord 0x36 la b a (sc.toCode.setWidth 6)
  | .cinv la sc a b => sWord 0x37 la b a (sc.toCode.setWidth 6)
  | .cwbinv la sc a b => sWord 0x38 la b a (sc.toCode.setWidth 6)
  | .sptest d a => sWord 0x39 0 0 a d
  | .spcast w d a b => sWord 0x3A w.toCode b a d
  | .bra o => sImm16 0x40 o 0
  | .brp t n p o => sImm16 0x41 o (t.toCode ++ BitVec.ofBool n ++ p)
  | .brd n p o => sImm16 0x42 o ((0 : BitVec 2) ++ BitVec.ofBool n ++ p)
  | .split o => sImm16 0x43 o 0
  | .rejoin => sWord 0x44 0 0 0 0
  | .jmps a => sWord 0x45 0 0 a 0
  | .call n o => sImm16 0x46 o n
  | .calls d a => sWord 0x47 0 0 a d
  | .ret a => sWord 0x48 0 0 a 0
  | .exit => sWord 0x49 0 0 0 0
  | .sread d r => sImm16 0x60 r.toCode d
  | .swrite r d => sImm16 0x61 r.toCode d
  | .fence k sc => sImm16 0x62 ((0 : BitVec 10) ++ k.toCode ++ sc.toCode) 0
  | .bar b n1 => sImm16 0x63 ((0 : BitVec 7) ++ n1 ++ b) 0
  | .trap t => sImm16 0x64 (t.setWidth 16) 0
  | .brk v => sImm16 0x65 v 0
  | .rett => sWord 0x66 0 0 0 0
  | .xlock => sWord 0x67 0 0 0 0
  | .xfree => sWord 0x68 0 0 0 0
  | .waitcnt c => sImm16 0x69 (c.setWidth 16) 0
  | _ => []

/-- The words of a W or L instruction, and of nothing else. -/
def encodeW : Instr → List Word
  | .vadd g e sat ty vd va vb => wArith 0x00 g e sat .dyn ty vd va vb
  | .vsub g e sat ty vd va vb => wArith 0x01 g e sat .dyn ty vd va vb
  | .vmul g e sat ty vd va vb => wArith 0x02 g e sat .dyn ty vd va vb
  | .vmulh g e sat ty vd va vb => wArith 0x03 g e sat .dyn ty vd va vb
  | .vmad g e sat ty vd va vb => wArith 0x04 g e sat .dyn ty vd va vb
  | .vand g e ty vd va vb => wArith 0x05 g e false .dyn ty vd va vb
  | .vor g e ty vd va vb => wArith 0x06 g e false .dyn ty vd va vb
  | .vxor g e ty vd va vb => wArith 0x07 g e false .dyn ty vd va vb
  | .vandn g e ty vd va vb => wArith 0x08 g e false .dyn ty vd va vb
  | .vshl g e ty vd va vb => wArith 0x09 g e false .dyn ty vd va vb
  | .vshr g e ty vd va vb => wArith 0x0A g e false .dyn ty vd va vb
  | .vsar g e ty vd va vb => wArith 0x0B g e false .dyn ty vd va vb
  | .vmin g e ty vd va vb => wArith 0x0C g e false .dyn ty vd va vb
  | .vmax g e ty vd va vb => wArith 0x0D g e false .dyn ty vd va vb
  | .vabsd g e sat ty vd va vb => wArith 0x0E g e sat .dyn ty vd va vb
  | .vcmp g c ty pd va vb => packW ((((wBase 0x0F (pd.setWidth 11) va ty.toCode).withGuard g false).withLa c.toCode).withSrc vb)
  | .vsel g e n p ty vd va vb => packW ((((wBase 0x10 vd va ty.toCode).withGuard g e).withLa (BitVec.ofBool n ++ p)).withSrc vb)
  | .vmov g e ty vd vb => wArith 0x11 g e false .dyn ty vd 0 vb
  | .vclz g e ty vd va => wUnary 0x12 g e 0 false .dyn ty.toCode vd va 0
  | .vpopc g e ty vd va => wUnary 0x13 g e 0 false .dyn ty.toCode vd va 0
  | .vbfx g e ty vd va vb => wArith 0x14 g e false .dyn ty vd va vb
  | .vbfi g e ty vd va vb => wArith 0x15 g e false .dyn ty vd va vb
  | .vdot4 g e ty vd va vb => wArith 0x16 g e false .dyn ty vd va vb
  | .vfadd g e sat rnd ty vd va vb => wArith 0x40 g e sat rnd ty vd va vb
  | .vfsub g e sat rnd ty vd va vb => wArith 0x41 g e sat rnd ty vd va vb
  | .vfmul g e sat rnd ty vd va vb => wArith 0x42 g e sat rnd ty vd va vb
  | .vfma g e sat rnd ty vd va vb => wArith 0x43 g e sat rnd ty vd va vb
  | .vfmin g e sat rnd ty vd va vb => wArith 0x44 g e sat rnd ty vd va vb
  | .vfmax g e sat rnd ty vd va vb => wArith 0x45 g e sat rnd ty vd va vb
  | .vfcmp g c ty pd va vb => packW ((((wBase 0x46 (pd.setWidth 11) va ty.toCode).withGuard g false).withLa c.toCode).withSrc vb)
  | .vfclass g e ty vd va => wUnary 0x47 g e 0 false .dyn ty.toCode vd va 0
  | .vfrnd g e rnd ty vd va => wUnary 0x48 g e 0 false rnd ty.toCode vd va 0
  | .vfdiv g la sat rnd ty vd va vb => packW (((((wBase 0x49 vd va ty.toCode).withGuard g false).withRound sat rnd).withLa la).withSrc vb)
  | .vexp2 g la sat rnd ty vd va => wUnary 0x4A g false la sat rnd ty.toCode vd va 0
  | .vlog2 g la sat rnd ty vd va => wUnary 0x4B g false la sat rnd ty.toCode vd va 0
  | .vrcp g la sat rnd ty vd va => wUnary 0x4C g false la sat rnd ty.toCode vd va 0
  | .vrsq g la sat rnd ty vd va => wUnary 0x4D g false la sat rnd ty.toCode vd va 0
  | .vsqrt g la sat rnd ty vd va => wUnary 0x4E g false la sat rnd ty.toCode vd va 0
  | .vcvt g e sat rnd src dst vd va => wUnary 0x4F g e 0 sat rnd src.toCode vd va (dst.toCode.setWidth 11)
  | .vpack g e sat rnd src dst vd va => wUnary 0x50 g e 0 sat rnd src.toCode vd va (dst.toCode.setWidth 11)
  | .vunpack g e src dst vd va => wUnary 0x51 g e 0 false .dyn src.toCode vd va (dst.toCode.setWidth 11)
  | .vlns g e rnd ty vd va vb => wArith 0x52 g e false rnd ty vd va vb
  | .vlin g e ty vd va vb => wArith 0x53 g e false .dyn ty vd va vb
  | .vlmul g e ty vd va vb => wArith 0x54 g e false .dyn ty vd va vb
  | .vladd g e ty vd va vb => wArith 0x55 g e false .dyn ty vd va vb
  | .vrand g e (.draw r) => wUnary 0x56 g e 0 false .dyn 0 r 0 0
  | .vrand g e (.unit r) => wUnary 0x56 g e 0 false .dyn 0 r 0 1
  | .vrand g e (.seed r) => wUnary 0x56 g e 0 false .dyn 0 0 r 2
  | .vrand g e (.state r) => wUnary 0x56 g e 0 false .dyn 0 r 0 3
  | .vflg g e (.get r) => wUnary 0x57 g e 0 false .dyn 0 r 0 0
  | .vflg g e (.set r) => wUnary 0x57 g e 0 false .dyn 0 0 r 1
  | .vflg g e (.or r) => wUnary 0x57 g e 0 false .dyn 0 0 r 2
  | .vflg g e (.clr r) => wUnary 0x57 g e 0 false .dyn 0 0 r 3
  | .vshuf g e ty vd va vb => wArith 0x80 g e false .dyn ty vd va vb
  | .vbcast g e ty vd va vb => wArith 0x81 g e false .dyn ty vd va vb
  | .vrdlane g ty sd va vb => wArith 0x82 g false false .dyn ty (sd.setWidth 11) va vb
  | .vwrlane g e ty vd sa vb => wArith 0x83 g e false .dyn ty vd (sa.setWidth 11) vb
  | .vreduce g la rnd ty op vd va => wUnary 0x84 g false la false rnd ty.toCode vd va (op.toCode.setWidth 11)
  | .vscan g la rnd ty op vd va => wUnary 0x85 g false la false rnd ty.toCode vd va (op.toCode.setWidth 11)
  | .vmatch g la ty vd va vb => wUnary 0x86 g false la false .dyn ty.toCode vd va vb
  | .vcompact g e vd va => wUnary 0x87 g e 0 false .dyn 6 vd va 0
  | .tsort g la ty desc k vd va => wUnary 0x88 g false la false .dyn ty.toCode vd va ((BitVec.ofBool desc ++ k).setWidth 11)
  | .assertu g ty va => wUnary 0x89 g false 0 false .dyn ty.toCode 0 va 0
  | .vld g la o sc ty vd base off => wMem 0xA0 g la (ordBits false o) sc.toCode ty.toCode vd base off
  | .vst g la o sc ty vd base off => wMem 0xA1 g la (ordBits o false) sc.toCode ty.toCode vd base off
  | .vlds g la o sc ty vd base off => wMem 0xA2 g la (ordBits false o) sc.toCode ty.toCode vd base off
  | .vsts g la o sc ty vd base off => wMem 0xA3 g la (ordBits o false) sc.toCode ty.toCode vd base off
  | .vldt g la o sc ty vd base off => wMem 0xA4 g la (ordBits false o) sc.toCode ty.toCode vd base off
  | .vatom g la ord sc op ty vd base off => wMem 0xA5 g la ord.toCode sc.toCode (op.toCode ++ ty.toCode) vd base off
  | .vcas g la ord sc vd base off => wMem 0xA6 g la ord.toCode sc.toCode 6 vd base off
  | .vpref g l base off => wMem 0xA7 g 0 0 l 0 0 base off
  | .tcfg t v => packW ((wBase 0xC0 (t.setWidth 11) 0 0).withSrc v)
  | .tld la sat rnd m c => wEng 0xC1 la sat rnd (m.toCode.setWidth 11) 0 0 c
  | .tst la sat rnd t c => wEng 0xC2 la sat rnd (t.setWidth 11) 0 0 c
  | .tldr la pk t ring => wEngCtl 0xC3 la false .dyn (t.setWidth 11) 0 ((BitVec.ofBool pk).setWidth 6) (ring.setWidth 11)
  | .tmov la (.tt d a) => wEngCtl 0xC4 la false .dyn (d.setWidth 11) (a.setWidth 11) 0 0
  | .tmov la (.vt d a n1 j) => wEng 0xC4 la false .dyn ((n1 ++ d).setWidth 11) a 1 j
  | .tmov la (.tv d a n1 j) => wEng 0xC4 la false .dyn d ((n1 ++ a).setWidth 11) 2 j
  | .tzero la m => wEngCtl 0xC5 la false .dyn (m.toCode.setWidth 11) 0 0 0
  | .tmma la m acc a b c => wEng 0xC6 la false .dyn ((BitVec.ofBool acc).setWidth 11) ((b ++ a).setWidth 11) (m.toCode.setWidth 6) c
  | .tdrain la sat rnd clr acc (.mem f) c => wEng 0xC7 la sat rnd 0 (drainVa acc clr 0 0) f.toCode c
  | .tdrain la sat rnd clr acc (.tile d) c => wEng 0xC7 la sat rnd (d.setWidth 11) (drainVa acc clr 1 0) 0 c
  | .tdrain la sat rnd clr acc (.vec d n1 f) c => wEng 0xC7 la sat rnd d (drainVa acc clr 2 (n1.setWidth 7)) f.toCode c
  | .tbest la sat rnd acc tie two max clr dist vd par => wEng 0xC8 la sat rnd vd
      ((BitVec.ofBool clr ++ BitVec.ofBool max ++ BitVec.ofBool dist.isSome ++ BitVec.ofBool two ++ BitVec.ofBool tie
        ++ BitVec.ofBool acc).setWidth 11)
      (match dist with | some f => f.toCode | none => 0) par
  | .tcupd la acc t vi => wEngCtl 0xC9 la false .dyn ((BitVec.ofBool acc).setWidth 11) (t.setWidth 11) 0 vi
  | .tcfin la sat rnd t acc clr => wEngCtl 0xCA la sat rnd (t.setWidth 11) ((BitVec.ofBool clr ++ BitVec.ofBool acc).setWidth 11) 0 0
  | .twait la => wEngCtl 0xCB la false .dyn 0 0 0 0
  | .cpy la sat rnd c => wEng 0xE0 la sat rnd 0 0 0 c
  | .coll la sat rnd c => wEng 0xE1 la sat rnd 0 0 0 c
  | .tagwait all m => wEng 0xE2 0 false .dyn 0 0 ((BitVec.ofBool all).setWidth 6) m
  | .tagff done d m => wEng 0xE3 0 false .dyn (d.setWidth 11) 0 ((BitVec.ofBool done).setWidth 6) m
  | .tagclr m => wEng 0xE4 0 false .dyn 0 0 0 m
  | .rinit n b g => wEng 0xE5 0 false .dyn (n.setWidth 11) (b.setWidth 11) 0 g
  | .racq d n => wEngCtl 0xE6 0 false .dyn (d.setWidth 11) 0 0 (n.setWidth 11)
  | .rcommit n m => wEng 0xE7 0 false .dyn (n.setWidth 11) 0 0 m
  | .rwait d n => wEngCtl 0xE8 0 false .dyn (d.setWidth 11) 0 0 (n.setWidth 11)
  | .rrel n => wEngCtl 0xE9 0 false .dyn 0 0 0 (n.setWidth 11)
  | .rsub out sat rnd n t g => wEng 0xEA 0 sat rnd (n.setWidth 11) (t.setWidth 11) ((BitVec.ofBool out).setWidth 6) g
  | .runsub n g => wEng 0xEB 0 false .dyn (n.setWidth 11) 0 0 g
  | .qcfg st q b g => wEng 0xEC 0 false .dyn ((BitVec.ofBool st ++ q).setWidth 11) (b.setWidth 11) 0 g
  | .schrd la d k => wEngCtl 0xED la false .dyn (d.setWidth 11) 0 0 (k.setWidth 11)
  | .schwr la a k => wEngCtl 0xEE la false .dyn 0 (a.setWidth 11) 0 (k.setWidth 11)
  | .nexttile la d => wEngCtl 0xEF la false .dyn (d.setWidth 11) 0 0 0
  | .atomdone la d a => wEngCtl 0xF0 la false .dyn (d.setWidth 11) (a.setWidth 11) 0 0
  | .spawn la a => wEngCtl 0xF1 la false .dyn 0 (a.setWidth 11) 0 0
  | .join => wEngCtl 0xF2 0 false .dyn 0 0 0 0
  | _ => []

/-- The words of an instruction, first word first; none for the steps that are no words. -/
def encode (i : Instr) : List Word :=
  match encodeS i with
  | [] => encodeW i
  | ws => ws

/-- Whether a step of the table is an instruction with words (rows 0 to 165). -/
def Instr.hasWords (i : Instr) : Bool := !(encode i).isEmpty

end Sys2Proof
end

