-- ==== Sys2Proof/Config.lean ====
section
/-! DEFINITION. What the spec leaves open and no definition here fixes. An opaque constant has no body that Lean can see: a
statement about the machine holds whatever its value is. Each is named in a log entry (notes/assumptions/4.md). -/

namespace Sys2Proof

/-- A fresh free value of a width; the argument is the counter `freeN` of the state. -/
opaque Config.freeValue (w : Nat) (n : Nat) : BitVec w

/-- A fresh free truth value. -/
opaque Config.freeBool (n : Nat) : Bool

/-- How far pod time has moved on between two readings of TIME (R338, R380), in its units of 1 ns. -/
opaque Config.timeAdvance (n : Nat) : Nat

/-- RoundTo's argument where the enclosure of an exact 2ˣ or log₂x does not decide it (R63, R237): the first 96 significant
bits of the exact value. No operand of a format of the spec is known for which this is reached. -/
opaque Config.undecided (m : Nat) (e : Int) : Nat

/-- The implementation-chosen threshold of migration counts (R157). -/
opaque Config.migrationThreshold (n : Nat) : Nat

/-- The set of a cache in which a line lies (R141; the spec gives no set function): 0 to 11 a die cache, 12 the LLC, 16 + c the L1 part of
core c. -/
opaque Config.cacheSet (cache line : Nat) : Nat

/-- The energy estimate added to an account (R387). -/
opaque Config.energyEstimate (n : Nat) : DWord

/-- Toard's LMS signatures (R383): the signature that a leaf gives the n-th signed message, whose transcript the spec does not lay out. -/
opaque Config.lmsSignature (leaf n : Nat) : List Byte

/-- The digest of the image measured into a register at boot (Table 23-5a). -/
opaque Config.imageDigest (mr : Nat) : List Byte

/-- The X.509 chain of slot 0 (R384). -/
opaque Config.certificateChain : List Byte

/-- The kind that byte 13 of a record gives a sort of source (Table 23-6b states the byte, not its codes). -/
opaque Config.sourceKind (sort : Nat) : BitVec 8

/-- The place and the width, in bytes, of a field among the DATA bytes of a record of a type (Table 23-6b names the fields, not their
places). -/
opaque Config.recordField (type field : Nat) : Nat × Nat

/-- The clocks, less one, in which a matrix job occupies the array of its core (R389): timing. -/
opaque Config.occupancy (job : Nat) : Nat

end Sys2Proof
end

