-- ==== Sys2Proof/Machine/Exact.lean ====
section
/-! DEFINITION. Exact numbers and the choice between neighbours (R52, R53, R55). A finite number is
(-1)^neg * (m + d) * 2^e with d = 0 when it is exact and 0 < d < 1 otherwise; every operation that makes an inexact one gives
it at least 96 significant bits, so that each rounding below is decided exactly. -/

namespace Sys2Proof

/-- The five flags in the order NV, DZ, OF, UF, NX of Table 03-13. -/
abbrev Flags := BitVec 5
/-- Invalid. -/
def fNV : Flags := 16
/-- Divide by zero. -/
def fDZ : Flags := 8
/-- Overflow. -/
def fOF : Flags := 4
/-- Underflow. -/
def fUF : Flags := 2
/-- Inexact. -/
def fNX : Flags := 1

/-- A rounding mode with the draw that a stochastic one uses (Table 03-7, R55). -/
inductive RMode where
  | rne | rtz | rup | rdn | rna
  | sto (z : Word)
  deriving DecidableEq, Repr

/-- A value (R53): NaN, infinity or a finite number. -/
inductive Num where
  | nan (signalling : Bool)
  | inf (neg : Bool)
  | fin (neg : Bool) (m : Nat) (e : Int) (more : Bool)
  deriving DecidableEq, Repr

/-- An exact finite number. -/
def Num.exact (neg : Bool) (m : Nat) (e : Int) : Num := .fin neg m e false
/-- A zero with a sign. -/
def Num.zero (neg : Bool) : Num := .fin neg 0 0 false
/-- An integer. -/
def Num.ofInt (i : Int) : Num := .fin (i < 0) i.natAbs 0 false
/-- The sign. -/
def Num.neg : Num → Bool
  | .nan _ => false
  | .inf n => n
  | .fin n _ _ _ => n
/-- A zero. -/
def Num.isZero : Num → Bool
  | .fin _ 0 _ false => true
  | _ => false
/-- A NaN. -/
def Num.isNaN : Num → Bool
  | .nan _ => true
  | _ => false
/-- A signalling NaN. -/
def Num.isSNaN : Num → Bool
  | .nan true => true
  | _ => false
/-- A finite number. -/
def Num.isFin : Num → Bool
  | .fin _ _ _ _ => true
  | _ => false
/-- The other sign. -/
def Num.negate : Num → Num
  | .nan s => .nan s
  | .inf n => .inf (!n)
  | .fin n m e d => .fin (!n) m e d

/-- The number of bits of a natural number: 0 for 0. -/
def bitLen (n : Nat) : Nat := if n = 0 then 0 else n.log2 + 1

/-- Newton's steps toward the square root from above. -/
def isqrtGo (n : Nat) : Nat → Nat → Nat
  | 0, x => x
  | fuel + 1, x =>
    let y := (x + n / x) / 2
    if y < x then isqrtGo n fuel y else x

/-- The integer square root. -/
def isqrt (n : Nat) : Nat :=
  if n = 0 then 0 else isqrtGo n (2 * Nat.log2 (bitLen n) + 16) (2 ^ ((bitLen n + 1) / 2))

/-- The `2^k`-th root, rounded down. -/
def iroot2 : Nat → Nat → Nat
  | 0, n => n
  | k + 1, n => iroot2 k (isqrt n)

/-- `m * 2^k` for a `k` of either sign, rounded down. -/
def shiftNat (m : Nat) (k : Int) : Nat := if 0 ≤ k then m <<< k.toNat else m >>> (-k).toNat

/-- Whether the upper neighbour of |x| is chosen (Table 03-7, R55). |x| lies between `k` and `k + 1` units: its part above
`k` is `rem / 2^sh`, and a little more if `more`; it is not zero. `even` says that `k` has an even last digit. -/
def roundUp (mode : RMode) (neg even : Bool) (rem sh : Nat) (more : Bool) : Bool :=
  let half := 2 ^ sh
  match mode with
  | .rne => 2 * rem > half || (2 * rem == half && (more || !even))
  | .rtz => false
  | .rup => !neg
  | .rdn => neg
  | .rna => 2 * rem ≥ half
  | .sto z =>
    let l := z.toNat <<< sh
    if neg then !(l < (half - rem) <<< 32) else (l < rem <<< 32 || (more && l ≤ rem <<< 32))

/-- |x| = (m + d) * 2^e rounded to a multiple of 2^q: the multiple and whether it differs from |x|. `par` is the parity that
the unit's neighbours add to the last digit (R53). -/
def roundAt (mode : RMode) (neg : Bool) (m : Nat) (e : Int) (more : Bool) (q : Int) (par : Bool) : Nat × Bool :=
  if q ≤ e then (if more then (shiftNat m (e - q), true) else (shiftNat m (e - q), false))
  else
    let sh := (q - e).toNat
    let k := m >>> sh
    let rem := m % 2 ^ sh
    if rem = 0 ∧ more = false then (k, false)
    else if roundUp mode neg ((k % 2 == 0) != par) rem sh more then (k + 1, true) else (k, true)

/-- RoundOdd (R57): 24 bits, the last one set when the value has more. -/
def Num.roundOdd : Num → Num
  | .fin neg m e more =>
    let n := bitLen m
    if n ≤ 24 ∧ more = false then .fin neg m e false
    else
      let sh := n - 24
      let k := m >>> sh
      if m % 2 ^ sh = 0 ∧ more = false then .fin neg k (e + sh) false
      else .fin neg (if k % 2 = 0 then k + 1 else k) (e + sh) false
  | x => x

/-- The product of exact numbers, as in IEEE 754 (R57, R233): 0 * ∞ is NaN with NV, a signalling NaN raises NV. -/
def Num.mul (a b : Num) : Num × Flags :=
  let fl := if a.isSNaN || b.isSNaN then fNV else 0
  match a, b with
  | .nan _, .inf _ => (.nan false, fl)
  | .nan _, _ => (.nan false, fl)
  | _, .nan _ => (.nan false, fl)
  | .inf s, .inf t => (.inf (s != t), fl)
  | .inf s, .fin t m e d => if (Num.fin t m e d).isZero then (.nan false, fl ||| fNV) else (.inf (s != t), fl)
  | .fin t m e d, .inf s => if (Num.fin t m e d).isZero then (.nan false, fl ||| fNV) else (.inf (s != t), fl)
  | .fin s m e d, .fin t n f d' => (.fin (s != t) (m * n) (e + f) (d || d'), fl)

/-- The exact value as an integer multiple of 2^k, for exact numbers whose exponent is at least `k`. -/
def signedUnits (neg : Bool) (m : Nat) (e k : Int) : Int :=
  let v : Int := (shiftNat m (e - k) : Nat)
  if neg then -v else v

/-- The sum of exact numbers (R233): ∞ - ∞ is NaN with NV; an exact zero sum is +0, or -0 under RDN; two zeros of one sign
keep it. -/
def Num.add (rdn : Bool) (a b : Num) : Num × Flags :=
  let fl := if a.isSNaN || b.isSNaN then fNV else 0
  match a, b with
  | .nan _, _ => (.nan false, fl)
  | _, .nan _ => (.nan false, fl)
  | .inf s, .inf t => if s == t then (.inf s, fl) else (.nan false, fl ||| fNV)
  | .inf s, .fin _ _ _ _ => (.inf s, fl)
  | .fin _ _ _ _, .inf s => (.inf s, fl)
  | .fin s m e _, .fin t n f _ =>
    let k := min e f
    let v := signedUnits s m e k + signedUnits t n f k
    if v = 0 then
      if m = 0 ∧ n = 0 ∧ s = t then (.zero s, fl) else (.zero rdn, fl)
    else (.fin (v < 0) v.natAbs k false, fl)

/-- Significant bits of inexact quotients and roots. -/
def precBits : Nat := 128

/-- The quotient of two positive exact magnitudes. -/
def divMag (neg : Bool) (m : Nat) (e : Int) (n : Nat) (f : Int) : Num :=
  let sh := precBits + bitLen n
  let q := (m <<< sh) / n
  .fin neg q (e - f - sh) ((m <<< sh) % n != 0)

/-- The quotient (R233, R237): 0/0 and ∞/∞ are NaN with NV; a finite nonzero value by zero is ∞ with DZ. -/
def Num.div (a b : Num) : Num × Flags :=
  let fl := if a.isSNaN || b.isSNaN then fNV else 0
  match a, b with
  | .nan _, _ => (.nan false, fl)
  | _, .nan _ => (.nan false, fl)
  | .inf _, .inf _ => (.nan false, fl ||| fNV)
  | .inf s, .fin t _ _ _ => (.inf (s != t), fl)
  | .fin s _ _ _, .inf t => (.zero (s != t), fl)
  | .fin s m e _, .fin t n f _ =>
    if n = 0 then (if m = 0 then (.nan false, fl ||| fNV) else (.inf (s != t), fl ||| fDZ))
    else if m = 0 then (.zero (s != t), fl) else (divMag (s != t) m e n f, fl)

/-- Magnitudes: (m, e) as (m', e') with the same exponent for comparison. -/
def magLt (m : Nat) (e : Int) (n : Nat) (f : Int) : Bool :=
  let k := min e f
  shiftNat m (e - k) < shiftNat n (f - k)

/-- Numeric order of exact numbers that are not NaN: -0 equals +0. -/
def Num.lt (a b : Num) : Bool :=
  match a, b with
  | .nan _, _ => false
  | _, .nan _ => false
  | .inf s, .inf t => s && !t
  | .inf s, .fin _ _ _ _ => s
  | .fin _ _ _ _, .inf t => !t
  | .fin s m e _, .fin t n f _ => signedUnits s m e (min e f) < signedUnits t n f (min e f)

/-- Numeric equality of exact numbers: -0 equals +0, a NaN equals nothing. -/
def Num.eqv (a b : Num) : Bool := !a.isNaN && !b.isNaN && !a.lt b && !b.lt a

end Sys2Proof
end

