-- ==== Sys2Proof/Machine/Formats.lean ====
section
/-! DEFINITION. Formats, their values, RoundTo and conversions (R36 to R59). -/

namespace Sys2Proof

/-- SPEC of a narrow descriptor (Table 03-4), and the IEEE formats. -/
inductive FloatSpec where
  | ieee | oneNaN | finiteOnly
  deriving DecidableEq, Repr

/-- A float-like format: `e` exponent and `m` mantissa bits. `narrow` says that it is described by an `FMT` register, whose
OVF 0 is `ovfSat`. -/
structure FloatFmt where
  e : Nat
  m : Nat
  bias : Int
  sign : Bool
  spec : FloatSpec
  narrow : Bool
  ovfSat : Bool
  deriving DecidableEq, Repr

/-- FP32 (Table 03-2). -/
def fmtFp32 : FloatFmt := ⟨8, 23, 127, true, .ieee, false, false⟩
/-- BF16. -/
def fmtBf16 : FloatFmt := ⟨8, 7, 127, true, .ieee, false, false⟩
/-- FP16. -/
def fmtFp16 : FloatFmt := ⟨5, 10, 15, true, .ieee, false, false⟩
/-- FP64. -/
def fmtFp64 : FloatFmt := ⟨11, 52, 1023, true, .ieee, false, false⟩

/-- Width of a float code. -/
def FloatFmt.width (f : FloatFmt) : Nat := (if f.sign then 1 else 0) + f.e + f.m
/-- The largest magnitude code that is not a special (R43). -/
def FloatFmt.maxCode (f : FloatFmt) : Nat :=
  match f.spec with
  | .ieee => 2 ^ (f.e + f.m) - 2 ^ f.m - 1
  | .oneNaN => 2 ^ (f.e + f.m) - 2
  | .finiteOnly => 2 ^ (f.e + f.m) - 1
/-- The magnitude code of an infinity of an IEEE-like format. -/
def FloatFmt.infCode (f : FloatFmt) : Nat := 2 ^ (f.e + f.m) - 2 ^ f.m
/-- The canonical NaN (R39, R43); formats without one give 0. -/
def FloatFmt.nanCode (f : FloatFmt) : Nat :=
  match f.spec with
  | .ieee => f.infCode + 2 ^ (f.m - 1)
  | .oneNaN => 2 ^ (f.e + f.m) - 1
  | .finiteOnly => 0
/-- The exponent of the smallest unit: 1 - BIAS - M. -/
def FloatFmt.qMin (f : FloatFmt) : Int := 1 - f.bias - f.m
/-- A magnitude code with a sign. -/
def FloatFmt.withSign (f : FloatFmt) (neg : Bool) (c : Nat) : Nat := if neg && f.sign then c + 2 ^ (f.e + f.m) else c

/-- The finite value of a magnitude code (R43). -/
def FloatFmt.magValue (f : FloatFmt) (neg : Bool) (c : Nat) : Num :=
  let x := c / 2 ^ f.m
  let q := c % 2 ^ f.m
  if x = 0 then .exact neg q f.qMin else .exact neg (q + 2 ^ f.m) (f.qMin + (x - 1))

/-- The value of a code (R38, R39, R43). Narrow NaNs are quiet. -/
def FloatFmt.value (f : FloatFmt) (code : Nat) : Num :=
  let c := code % 2 ^ (f.e + f.m)
  let neg := f.sign && code / 2 ^ (f.e + f.m) % 2 == 1
  if c ≤ f.maxCode then f.magValue neg c
  else match f.spec with
    | .ieee => if c = f.infCode then .inf neg else .nan (!f.narrow && c % 2 ^ f.m < 2 ^ (f.m - 1))
    | _ => .nan false

/-- A format that a code of Table 03-1 names, its narrow descriptor resolved. -/
inductive NumFmt where
  | int (signed : Bool) (n : Nat)
  | float (f : FloatFmt)
  | mx (n : Nat)
  | lns (n : Nat)
  | tern
  deriving DecidableEq, Repr

/-- A narrow descriptor (Table 03-4). -/
def descFmt (d : DWord) : FloatFmt where
  e := (d.extractLsb' 3 3).toNat
  m := (d.extractLsb' 6 3).toNat
  bias := (d.extractLsb' 9 8).toInt
  sign := d.getLsbD 2
  spec := match (d.extractLsb' 17 2).toNat with | 0 => .ieee | 1 => .oneNaN | _ => .finiteOnly
  narrow := true
  ovfSat := !d.getLsbD 19

/-- Every finite value of the format is exactly an FP32 value (R42). -/
def FloatFmt.inFp32 (f : FloatFmt) : Bool :=
  (List.range (f.maxCode + 1)).all fun c =>
    match f.magValue false c with
    | .fin _ m e _ =>
      m == 0 || ((bitLen m : Int) + e ≤ 128 && (-149 ≤ e || (m % 2 ^ (-149 - e).toNat == 0)))
    | _ => true

/-- A valid descriptor (R42). -/
def descValid (d : DWord) : Bool :=
  let f := descFmt d
  let sp := (d.extractLsb' 17 2).toNat
  1 ≤ f.width && f.width ≤ 8 && 1 ≤ f.e + f.m && sp != 3 && (sp != 0 || (2 ≤ f.e && 1 ≤ f.m)) &&
  (sp != 1 || 1 ≤ f.e) && (f.e != 0 || sp == 2) && f.inFp32

/-- The bits of a descriptor that hold a value (Table 03-4). -/
def descMask : DWord := 0xFFFFC

/-- Reset value of `FMT`n (Table 03-5). -/
def fmtReset (n : Nat) : DWord :=
  match n with
  | 1 => 0x81EAC | 2 => 0x4069C | 3 => 0x402D4 | 4 => 0x40254 | _ => 0x20EE4

/-- The element format of a code, with the group's descriptors. Packed codes give their element. -/
def Fmt.num (fmts : List DWord) : Fmt → NumFmt
  | .i8 | .i8x4 => .int true 8
  | .i16 | .i16x2 => .int true 16
  | .i32 => .int true 32
  | .i64 => .int true 64
  | .b8 | .b8x4 => .int false 8
  | .b16 | .b16x2 => .int false 16
  | .b32 => .int false 32
  | .b64 => .int false 64
  | .f32 => .float fmtFp32
  | .bf16 | .bf16x2 => .float fmtBf16
  | .f16 | .f16x2 => .float fmtFp16
  | .f64 => .float fmtFp64
  | .mxi8 => .mx 8
  | .mxi4 => .mx 4
  | .lns16 => .lns 16
  | .lns8 => .lns 8
  | .tern2 => .tern
  | .nf n => .float (descFmt (fmts.getD n.toNat (fmtReset n.toNat)))

/-- Container width of an element in memory (Table 03-1, R44, R51). -/
def NumFmt.bits : NumFmt → Nat
  | .int _ n => n
  | .float f => if f.narrow then (if f.width ≤ 4 then 4 else 8) else f.width
  | .mx n => n
  | .lns n => n
  | .tern => 2

/-- Bytes of memory that a failed job leaves whole for an element (R270). -/
def NumFmt.unit (t : NumFmt) : Nat := max 1 (t.bits / 8)

/-- Whether the format has shared scales. -/
def NumFmt.isMx : NumFmt → Bool
  | .mx _ => true
  | _ => false

/-- Fraction bits of an LNS format (Table 03-6). -/
def lnsFrac (n : Nat) : Nat := if n = 16 then 9 else 3
/-- The largest L of a nonzero LNS code (Table 03-6). -/
def lnsMax (n : Nat) : Int := 2 ^ (n - 2) - 1

/-- A signed reading of the low `n` bits. -/
def signedOf (n v : Nat) : Int :=
  let c := v % 2 ^ n
  if c < 2 ^ (n - 1) then c else (c : Int) - 2 ^ n

/-- The exact value of 2^(l / 2^f) times an exact positive magnitude (m, e): the `2^f`-th root of 2^l * (m * 2^e)^(2^f),
with at least 128 significant bits. -/
def pow2Frac (neg : Bool) (l : Int) (f : Nat) (m : Nat) (e : Int) : Num :=
  let r : Int := l % 2 ^ f
  let q : Int := l / 2 ^ f
  if r = 0 then .exact neg m (e + q)
  else
    let k := precBits
    .fin neg (iroot2 f (2 ^ (r.toNat + k * 2 ^ f) * m ^ (2 ^ f))) (e + q - k) true

/-- The source value of a conversion (R57): a number, or the exact value of a nonzero LNS code. -/
inductive SrcVal where
  | num (x : Num)
  | log (neg : Bool) (l : Int) (f : Nat)
  deriving DecidableEq, Repr

/-- Value(code, S) of R57 and R277. `scale` is the MX block's scale code. -/
def NumFmt.srcVal (f : NumFmt) (code scale : Nat) : SrcVal :=
  match f with
  | .int true n => .num (.ofInt (signedOf n code))
  | .int false n => .num (.ofInt (code % 2 ^ n))
  | .float g => .num (g.value code)
  | .mx n =>
    if scale = 0xFF then .num (.nan false)
    else
      let q := signedOf n code
      .num (.exact (q < 0) q.natAbs ((scale : Int) - 127 - (if n = 8 then 6 else 2)))
  | .lns n =>
    let neg := code / 2 ^ (n - 1) % 2 == 1
    let l := signedOf (n - 1) code
    if l = -(2 ^ (n - 2)) then .num (.zero neg) else .log neg l (lnsFrac n)
  | .tern => match code % 4 with
    | 1 => .num (.ofInt 1)
    | 3 => .num (.ofInt (-1))
    | _ => .num (.zero false)

/-- Whether R57 forms the intermediate by RoundOdd: FP64, 32- and 64-bit integers, LNS, and MX values beyond FP32. -/
def NumFmt.wide : NumFmt → Bool
  | .int _ n => 32 ≤ n
  | .float f => 52 ≤ f.m
  | .mx _ => true
  | .lns _ => true
  | .tern => false

/-- The number of a source value. -/
def SrcVal.toNum : SrcVal → Num
  | .num x => x
  | .log neg l f => pow2Frac neg l f 1 0

/-- v * c of R57 for a source value and an exact scale. -/
def SrcVal.times (v : SrcVal) (c : Num) : Num × Flags :=
  match v, c with
  | .num x, c => x.mul c
  | .log neg l f, .fin s m e _ =>
    if m = 0 then (.zero (neg != s), 0) else (pow2Frac (neg != s) l f m e, 0)
  | .log neg l f, c => (pow2Frac neg l f 1 0).mul c

/-! ## Encodings and RoundTo -/

/-- Results and flags of a rounding. -/
abbrev Coded := Nat × Flags

/-- An integer as the code of an integer format or of TERN2. -/
def intCode (n : Nat) (v : Int) : Nat := (v % 2 ^ n).toNat

/-- The least and the greatest value of a target of integers (R53, R51). -/
def intRange (signed : Bool) (n : Nat) : Int × Int :=
  if signed then (-(2 ^ (n - 1)), 2 ^ (n - 1) - 1) else (0, 2 ^ n - 1)

/-- Whether saturation is in effect (R54). -/
def FloatFmt.satEff (f : FloatFmt) (sat : Bool) : Bool := sat || (f.narrow && f.ovfSat)

/-- The overflow columns of Table 03-9 for a float target. -/
def FloatFmt.overflow (f : FloatFmt) (neg : Bool) (mode : RMode) (sat : Bool) : Nat :=
  let top := f.withSign neg f.maxCode
  if f.satEff sat then top
  else match f.spec with
    | .finiteOnly => top
    | .oneNaN => f.nanCode
    | .ieee =>
      if f.narrow then f.withSign neg f.infCode
      else match mode with
        | .rtz => top
        | .rup => if neg then top else f.withSign neg f.infCode
        | .rdn => if neg then f.withSign neg f.infCode else top
        | _ => f.withSign neg f.infCode

/-- RoundTo to a float-like format (R53, Table 03-9). -/
def FloatFmt.roundTo (f : FloatFmt) (x : Num) (mode : RMode) (sat : Bool) : Coded :=
  match x with
  | .nan s =>
    let fl := if s then fNV else 0
    match f.spec with
    | .finiteOnly => (0, fl ||| fNV)
    | _ => (f.nanCode, fl)
  | .inf neg =>
    if neg && !f.sign then (0, fNV)
    else match f.spec with
      | .ieee => (f.withSign neg f.infCode, 0)
      | .oneNaN => if f.satEff sat then (f.withSign neg f.maxCode, fNV) else (f.nanCode, fNV)
      | .finiteOnly => (f.withSign neg f.maxCode, fNV)
  | .fin neg m e more =>
    if m = 0 ∧ more = false then (f.withSign neg 0, 0)
    else if neg && !f.sign then (0, if f.satEff sat then fNX else fNV)
    else
      let top : Int := (bitLen m : Int) - 1 + e
      let q := max (top - f.m) f.qMin
      let off := (q - f.qMin).toNat * 2 ^ f.m
      let (k, inx) := roundAt mode neg m e more q (off % 2 == 1)
      let c := k + off
      if c > f.maxCode then (f.overflow neg mode sat, fOF ||| fNX)
      else
        let fl := (if inx then fNX else 0) ||| (if inx && c < 2 ^ f.m then fUF else 0)
        (f.withSign neg c, fl)

/-- RoundTo to integers and TERN2 (R53, R51, Table 03-9). `clamped` are the flags of a clamped finite value. -/
def roundToInt (lo hi : Int) (n : Nat) (x : Num) (mode : RMode) (clamped : Flags) : Coded :=
  match x with
  | .nan _ => (0, fNV)
  | .inf neg => (intCode n (if neg then lo else hi), fNV)
  | .fin neg m e more =>
    let (k, inx) := roundAt mode neg m e more 0 false
    let v : Int := if neg then -(k : Int) else k
    let fl : Flags := if inx then fNX else 0
    if v < lo then (intCode n lo, fl ||| clamped)
    else if hi < v then (intCode n hi, fl ||| clamped)
    else (intCode n v, fl)

/-- RoundTo to an integer format. A negative value to an unsigned target gives 0 with NV (Table 03-9). -/
def roundToIntFmt (signed : Bool) (n : Nat) (x : Num) (mode : RMode) : Coded :=
  let (lo, hi) := intRange signed n
  match x with
  | .fin true m e more =>
    if !signed && (m != 0 || more) then (0, fNV) else roundToInt lo hi n (.fin true m e more) mode fNV
  | .inf true => if signed then roundToInt lo hi n (.inf true) mode fNV else (0, fNV)
  | x => roundToInt lo hi n x mode fNV

/-- RoundTo to TERN2 (R51). -/
def roundToTern (x : Num) (mode : RMode) : Coded := roundToInt (-1) 1 2 x mode (fOF ||| fNX)

/-- An LNS code from a sign and an L, or the zero code. -/
def lnsCode (n : Nat) (neg : Bool) (l : Option Int) : Nat :=
  (if neg then 2 ^ (n - 1) else 0) + (match l with | some l => intCode (n - 1) l | none => 2 ^ (n - 2))

/-- The integer nearest to 2^f * log2 of a positive exact magnitude (R50). -/
def nearestLog (f m : Nat) (e : Int) : Int :=
  let t := (Nat.log2 (m ^ 2 ^ (f + 1)) : Int)
  (t + 1) / 2 + e * 2 ^ f

/-- Relog (R50) of an FP32 value; `sat` says whether saturation is in effect. -/
def relog (n : Nat) (x : Num) (sat : Bool) : Coded :=
  match x with
  | .nan _ => (lnsCode n false none, fNV)
  | .inf neg => (lnsCode n neg (some (lnsMax n)), fNV)
  | .fin neg m e _ =>
    if m = 0 then (lnsCode n neg none, 0)
    else
      let l := nearestLog (lnsFrac n) m e
      let inx : Flags := if m = 2 ^ Nat.log2 m then 0 else fNX
      if lnsMax n < l then (lnsCode n neg (some (lnsMax n)), inx ||| fOF ||| fNX)
      else if l < -(lnsMax n) then (lnsCode n neg (if sat then some (-(lnsMax n)) else none), inx ||| fUF ||| fNX)
      else (lnsCode n neg (some l), inx)

/-- Lin (R49): the FP32 code, with NX where the logarithm is no integer. -/
def lin (neg : Bool) (l : Int) (f : Nat) : Coded :=
  let r := fmtFp32.roundTo (pow2Frac neg l f 1 0) .rne false
  (r.1, if l % 2 ^ f = 0 then 0 else fNX)

/-- The FP32 value of an LNS code by Lin (R49), as terms and `TCUPD` use it. -/
def lnsLin (n code : Nat) : Num × Flags :=
  match (NumFmt.lns n).srcVal code 0 with
  | .num x => (x, 0)
  | .log neg l f => let r := lin neg l f; (fmtFp32.value r.1, r.2)

/-- Convert (R57, Table 03-10) to a format that is not an MX format: `v` the source value, `wide` whether its format is one of
the wider sources, `c` the scale. -/
def convert (t : NumFmt) (v : SrcVal) (wide : Bool) (c : Option Num) (mode : RMode) (sat : Bool) : Coded :=
  let direct := match c with | none => (v.toNum, 0) | some s => v.times s
  let i := if wide then v.toNum.roundOdd else v.toNum
  let viaI := match c with | none => (i, 0) | some s => i.mul s
  match t with
  | .int signed n => let r := roundToIntFmt signed n direct.1 mode; (r.1, r.2 ||| direct.2)
  | .float f =>
    let x := if f.m ≤ 21 then viaI else direct
    let r := f.roundTo x.1 mode sat
    (r.1, r.2 ||| x.2)
  | .lns n =>
    let r := fmtFp32.roundTo direct.1 mode sat
    let q := relog n (fmtFp32.value r.1) sat
    (q.1, direct.2 ||| r.2 ||| q.2)
  | .tern => let r := roundToTern viaI.1 mode; (r.1, r.2 ||| viaI.2)
  | .mx _ => (0, 0)

/-- The yk of R47 with the flags of forming it. -/
def mxValue (v : SrcVal) (wide : Bool) (c : Option Num) : Num × Flags :=
  let i := if wide then v.toNum.roundOdd else v.toNum
  let fl : Flags := if i.isSNaN then fNV else 0
  match c with | none => (i, fl) | some s => let r := i.mul s; (r.1, r.2 ||| fl)

/-- Floor(Log2) of a nonzero magnitude. -/
def floorLog2 (m : Nat) (e : Int) : Int := (Nat.log2 m : Int) + e

/-- The block exponent E of R47: of the largest magnitude, or none when every value is zero. -/
def mxExp (ys : List Num) : Option Int :=
  ys.foldl (fun acc y => match y with
    | .fin _ m e _ => if m = 0 then acc else
        let l := floorLog2 m e
        some (match acc with | none => l | some a => max a l)
    | _ => acc) none

/-- One element of R47: the code and its flags. -/
def mxElem (n : Nat) (e : Int) (y : Num) (mode : RMode) : Coded :=
  let g : Int := if n = 8 then 6 else 2
  match y with
  | .fin neg m x more =>
    let (k, inx) := roundAt mode neg m (x - e + g) more 0 false
    let v : Int := if neg then -(k : Int) else k
    let fl : Flags := (if inx then fNX else 0) ||| (if inx && k == 0 then fUF else 0)
    let (lo, hi) := intRange true n
    if v < lo then (intCode n lo, fl ||| fOF ||| fNX)
    else if hi < v then (intCode n hi, fl ||| fOF ||| fNX)
    else (intCode n v, fl)
  | _ => (0, 0)

/-- R47: the scale code of a block and each element's code and flags. Each entry is the pair of its value with the flags of
forming it and its rounding mode. -/
def mxBlock (n : Nat) (ys : List ((Num × Flags) × RMode)) : Nat × List Coded :=
  if ys.any (fun y => !y.1.1.isFin) then (0xFF, ys.map fun y => (0, y.1.2 ||| fNV))
  else match mxExp (ys.map fun y => y.1.1) with
    | none => (0, ys.map fun y => (0, y.1.2))
    | some e0 =>
      let e := max (-127) (min 127 e0)
      ((e + 127).toNat, ys.map fun y => let r := mxElem n e y.1.1 y.2; (r.1, r.2 ||| y.1.2))

/-- The lane word of an element code, extended as Table 15-1. -/
def extendCode (t : NumFmt) (code : Nat) : Nat :=
  match t with
  | .int true n => if n < 32 ∧ 2 ^ (n - 1) ≤ code then code + 2 ^ 32 - 2 ^ n else code
  | _ => code

/-- The lane word of an MX code and its scale (Table 15-1). -/
def mxWord (n code scale : Nat) : Nat :=
  scale * 256 + (if n = 4 ∧ 8 ≤ code then code + 0xF0 else code)

/-- Render (R321): the conversion of R57 with c = 1.0 under RNE, saturation only where a narrow descriptor's OVF is 0. -/
def render (t : NumFmt) (w : Word) : Nat := (convert t (.num (fmtFp32.value w.toNat)) false none .rne false).1

end Sys2Proof
end

