-- ==== Sys2Proof/Machine/Special.lean ====
section
/-! DEFINITION. Square roots, 2ˣ and log₂x as exact numbers with at least 96 significant bits (R63, R237, Table 15-4). 2ˣ and
log₂x are enclosed between two fixed-point bounds; where the bounds do not decide the leading bits the opaque
`Config.undecided` stands for them. -/

namespace Sys2Proof

/-- √x. -/
def sqrtMag (m : Nat) (e : Int) : Num :=
  let e2 : Int := e - 2 * precBits - (e % 2)
  let v := shiftNat m (e - e2)
  let q := isqrt v
  .fin false q (e2 / 2) (q * q != v)

/-- 1/√x. -/
def rsqrtMag (m : Nat) (e : Int) : Num :=
  -- x = m * 2^e with e even; 2^k / sqrt m with k large
  let m' := if e % 2 = 0 then m else 2 * m
  let e' := if e % 2 = 0 then e else e - 1
  let k := precBits + bitLen m'
  let t := 2 ^ (2 * k)
  let q := isqrt (t / m')
  .fin false q (-(e' / 2) - k) (q * q * m' != t)

/-- Fraction bits of the fixed-point enclosures. -/
def fixBits : Nat := 448

/-- The enclosures of 2^(2^-1), 2^(2^-2), ... as fixed-point pairs: each the square root of the one before. -/
def exp2Step (p : Nat × Nat) : Nat × Nat :=
  (isqrt (p.1 * 2 ^ fixBits), isqrt (p.2 * 2 ^ fixBits) + 1)

/-- The enclosure of 2^(f / 2^n) for f < 2^n: the bits of f from the highest down; `p` encloses 2^(2^-i). -/
def exp2Go (f : Nat) : Nat → (Nat × Nat) → (Nat × Nat) → Nat × Nat
  | 0, _, acc => acc
  | n + 1, p, acc =>
    let p' := exp2Step p
    let acc' := if f.testBit n then (acc.1 * p'.1 / 2 ^ fixBits, acc.2 * p'.2 / 2 ^ fixBits + 1) else acc
    exp2Go f n p' acc'

/-- 2^x for a finite exact x that is no integer: x = i + f / 2^n. -/
def exp2Frac (i : Int) (f n : Nat) : Num :=
  let b := exp2Go f n (2 ^ (fixBits + 1), 2 ^ (fixBits + 1)) (2 ^ fixBits, 2 ^ fixBits)
  let sh := fixBits - precBits
  if b.1 / 2 ^ sh = (b.2 - 1) / 2 ^ sh then .fin false (b.1 / 2 ^ sh) (i - precBits) true
  else .fin false (Config.undecided f (i * 2 ^ n)) (i - precBits) true

/-- The bound on exponents beyond which 2^x overflows or underflows every format in the same way. -/
def exp2Limit : Int := 20000

/-- 2^x (R237) of an exact number. -/
def exp2Num (neg : Bool) (m : Nat) (e : Int) : Num :=
  let x : Int := if neg then -(m : Int) else m
  if 0 ≤ e then
    let v := x * 2 ^ e.toNat
    .exact false 1 (max (-exp2Limit) (min exp2Limit v))
  else
    let n := (-e).toNat
    let i := x / 2 ^ n
    let f := (x % 2 ^ n).toNat
    let i' := max (-exp2Limit) (min exp2Limit i)
    if f = 0 then .exact false 1 i' else exp2Frac i' f n

/-- The digits of log₂ y for y in [1, 2) enclosed by fixed-point bounds: at each step square, and give a one when the square
is 2 or more. `none` when the bounds disagree. -/
def log2Go : Nat → Nat → Nat → Nat → Option Nat
  | 0, _, _, acc => some acc
  | n + 1, lo, hi, acc =>
    let l := lo * lo / 2 ^ fixBits
    let h := hi * hi / 2 ^ fixBits + 1
    let two := 2 ^ (fixBits + 1)
    if two ≤ l then log2Go n (l / 2) (h / 2 + 1) (2 * acc + 1)
    else if h < two then log2Go n l h (2 * acc)
    else none

/-- log₂ of a positive exact number that is no power of two (R237): the integer part and 160 digits of the fraction. -/
def log2Frac (m : Nat) (e : Int) : Num :=
  let n := Nat.log2 m
  let y := m * 2 ^ fixBits / 2 ^ n
  let k : Int := n + e
  match log2Go 160 y (if m * 2 ^ fixBits % 2 ^ n = 0 then y else y + 1) 0 with
  | none => .fin (k < 0) (Config.undecided m e) (-160) true
  | some d =>
    let v : Int := k * 2 ^ 160 + d
    if 0 ≤ v then .fin false v.toNat (-160) true
    else .fin true ((-v).toNat - 1) (-160) true

/-- log₂ of a positive exact number. -/
def log2Num (m : Nat) (e : Int) : Num :=
  if m = 2 ^ Nat.log2 m then .ofInt ((Nat.log2 m : Int) + e) else log2Frac m e

/-- The special functions of R237. -/
inductive SpecialFn where
  | exp2 | log2 | rcp | rsq | sqrt
  deriving DecidableEq, Repr

/-- The exact result of a special function (Table 15-4) with NV and DZ. -/
def SpecialFn.eval (g : SpecialFn) (x : Num) : Num × Flags :=
  match x with
  | .nan s => (.nan false, if s then fNV else 0)
  | .inf neg => match g with
    | .exp2 => (if neg then .zero false else .inf false, 0)
    | .rcp => (.zero neg, 0)
    | .rsq => if neg then (.nan false, fNV) else (.zero false, 0)
    | .log2 | .sqrt => if neg then (.nan false, fNV) else (.inf false, 0)
  | .fin neg m e _ =>
    if m = 0 then match g with
      | .exp2 => (.exact false 1 0, 0)
      | .log2 => (.inf true, fDZ)
      | .rcp | .rsq => (.inf neg, fDZ)
      | .sqrt => (.zero neg, 0)
    else match g with
      | .exp2 => (exp2Num neg m e, 0)
      | .rcp => (divMag neg 1 0 m e, 0)
      | .log2 => if neg then (.nan false, fNV) else (log2Num m e, 0)
      | .rsq => if neg then (.nan false, fNV) else (rsqrtMag m e, 0)
      | .sqrt => if neg then (.nan false, fNV) else (sqrtMag m e, 0)

end Sys2Proof
end

