-- ==== Sys2Proof/Machine/Elements.lean ====
section
/-! DEFINITION. Element arithmetic of the vector instructions: integer, float, logarithmic and key operations on the codes of
one element, and their placement in a lane (R224, R228 to R242, R250). -/

namespace Sys2Proof

/-! ## Elements in a lane (Table 15-1) -/

/-- Elements per lane of a type. -/
def Fmt.count : Fmt → Nat
  | .i8x4 | .b8x4 => 4
  | .i16x2 | .b16x2 | .bf16x2 | .f16x2 => 2
  | _ => 1

/-- Width of the element that an integer or float arithmetic instruction works on. -/
def Fmt.elemBits : Fmt → Nat
  | .i8x4 | .b8x4 | .i8 | .b8 | .mxi8 | .lns8 => 8
  | .i16x2 | .b16x2 | .bf16x2 | .f16x2 | .i16 | .b16 | .bf16 | .f16 | .lns16 => 16
  | .i64 | .b64 | .f64 => 64
  | .mxi4 => 4
  | .tern2 => 2
  | _ => 32

/-- Whether the elements of an integer type are signed. -/
def Fmt.isSigned : Fmt → Bool
  | .i8 | .i16 | .i32 | .i64 | .i8x4 | .i16x2 => true
  | _ => false

/-- Element `k` of a lane value (a word, or the 64 bits of a pair). -/
def elemOf (ty : Fmt) (v : DWord) (k : Nat) : Nat := (v.toNat >>> (k * ty.elemBits)) % 2 ^ ty.elemBits

/-- A lane value from the codes of its elements. -/
def laneOfElems (ty : Fmt) (cs : List Nat) : DWord :=
  BitVec.ofNat 64 ((cs.zip (List.range cs.length)).foldl
    (fun acc p => acc ||| (p.1 % 2 ^ ty.elemBits) <<< (p.2 * ty.elemBits)) 0)

/-- An operation applied to each element of up to three lane values. -/
def mapElems (ty : Fmt) (f : Nat → Nat → Nat → Nat) (a b c : DWord) : DWord :=
  laneOfElems ty ((List.range ty.count).map fun k => f (elemOf ty a k) (elemOf ty b k) (elemOf ty c k))

/-! ## Integer elements (R228 to R230) -/

/-- Operations of Table 15-3 that compute an exact integer. -/
inductive IntOp where
  | add | sub | mul | mulh | mad | min | max | absd
  deriving DecidableEq, Repr

/-- An element's integer under a type's signedness. -/
def elemInt (ty : Fmt) (c : Nat) : Int := if ty.isSigned then signedOf ty.elemBits c else (c % 2 ^ ty.elemBits : Nat)

/-- Op(a, b) of Table 15-3, exact. -/
def IntOp.exact (op : IntOp) (n : Nat) (a b c : Int) : Int :=
  match op with
  | .add => a + b
  | .sub => a - b
  | .mul => a * b
  | .mulh => a * b / 2 ^ n
  | .mad => a * b + c
  | .min => if a ≤ b then a else b
  | .max => if a ≤ b then b else a
  | .absd => (a - b).natAbs

/-- Clamp to a type's range, or wrap (R228). -/
def narrowInt (signed : Bool) (n : Nat) (sat : Bool) (x : Int) : Nat :=
  let r := intRange signed n
  if sat then intCode n (max r.1 (min r.2 x)) else intCode n x

/-- One integer lane operation (R228). -/
def intLane (op : IntOp) (ty : Fmt) (sat : Bool) (a b c : DWord) : DWord :=
  mapElems ty (fun x y z => narrowInt ty.isSigned ty.elemBits sat
    (op.exact ty.elemBits (elemInt ty x) (elemInt ty y) (elemInt ty z))) a b c

/-- Shifts of Table 15-3. -/
inductive ShiftOp where
  | shl | shr | sar
  deriving DecidableEq, Repr

/-- One shift of a lane's elements; the amount is b mod n, unsigned (R228). -/
def shiftLane (op : ShiftOp) (ty : Fmt) (a b : DWord) : DWord :=
  let n := ty.elemBits
  mapElems ty (fun x y _ =>
    let k := y % n
    match op with
    | .shl => x * 2 ^ k % 2 ^ n
    | .shr => x / 2 ^ k
    | .sar => intCode n (signedOf n x / 2 ^ k)) a b 0

/-- VDOT4 (R229). -/
def dot4 (ty : Fmt) (a b c : Word) : Word :=
  let s : Int := (List.range 4).foldl (fun acc k =>
    acc + elemInt ty (elemOf ty (a.setWidth 64) k) * elemInt ty (elemOf ty (b.setWidth 64) k)) (c.toNat : Int)
  BitVec.ofNat 32 (intCode 32 s)

/-- Leading zero bits of an `n`-bit code (R230). -/
def clz (n c : Nat) : Nat := n - bitLen (c % 2 ^ n)

/-- One bits of an `n`-bit code. -/
def popcount (n c : Nat) : Nat := ((List.range n).filter fun k => c.testBit k).length

/-- Width of a bit field (R230): the position and width minus one from an operand's low bits. -/
def fieldWidth (n pos w1 : Nat) : Nat := min (w1 + 1) (n - pos)

/-- VBFX (R230). -/
def bfx (signed : Bool) (n : Nat) (a ctl : Nat) : Nat :=
  let pos := ctl % 64
  let w := fieldWidth n pos (ctl / 256 % 64)
  let f := (a >>> pos) % 2 ^ w
  if signed && 0 < w then intCode n (signedOf w f) else f

/-- VBFI (R230). -/
def bfi (n : Nat) (a ctl d : Nat) : Nat :=
  let pos := ctl % 64
  let w := fieldWidth n pos (ctl / 256 % 64)
  let old := (d >>> pos) % 2 ^ w
  d - old * 2 ^ pos + ((a % 2 ^ w) * 2 ^ pos)

/-! ## Comparison (R231, Table 11-5) -/

/-- VCMP and SCMP conditions on `n`-bit codes. -/
def Cond.holds (c : Cond) (n a b : Nat) : Bool :=
  let x := signedOf n a
  let y := signedOf n b
  match c with
  | .eq => a == b
  | .ne => a != b
  | .lt => x < y
  | .le => x ≤ y
  | .gt => y < x
  | .ge => y ≤ x
  | .ltu => a < b
  | .leu => a ≤ b
  | .gtu => b < a
  | .geu => b ≤ a

/-- VFCMP conditions with NV (R231). -/
def FCond.holds (c : FCond) (a b : Num) : Bool × Flags :=
  let un := a.isNaN || b.isNaN
  let sig := a.isSNaN || b.isSNaN
  let lt := a.lt b
  let eq := a.eqv b
  let quietNV : Flags := if sig then fNV else 0
  let ordNV : Flags := if un then fNV else 0
  match c with
  | .eq => (eq, quietNV)
  | .ne => (un || !eq, quietNV)
  | .lt => (lt, ordNV)
  | .le => (lt || eq, ordNV)
  | .gt => (!un && !lt && !eq, ordNV)
  | .ge => (!un && !lt, ordNV)
  | .un => (un, quietNV)
  | .od => (!un, quietNV)

/-! ## Float elements (R233 to R237) -/

/-- Arithmetic of R233. -/
inductive FloatOp where
  | add | sub | mul | fma | div
  deriving DecidableEq, Repr

/-- The exact value of R233 with NV and DZ. -/
def FloatOp.exact (op : FloatOp) (rdn : Bool) (a b c : Num) : Num × Flags :=
  match op with
  | .add => a.add rdn b
  | .sub => a.add rdn b.negate
  | .mul => a.mul b
  | .div => a.div b
  | .fma =>
    let p := a.mul b
    let r := p.1.add rdn c
    (r.1, p.2 ||| r.2)

/-- One element of R233. -/
def floatElem (f : FloatFmt) (op : FloatOp) (mode : RMode) (sat : Bool) (a b c : Nat) : Coded :=
  let x := op.exact (mode == .rdn) (f.value a) (f.value b) (f.value c)
  let r := f.roundTo x.1 mode sat
  (r.1, r.2 ||| x.2)

/-- The order of VFMIN and VFMAX: numeric, with -0 below +0 (R234). -/
def minOrder (a b : Num) : Bool := a.lt b || (a.isZero && b.isZero && a.neg && !b.neg)

/-- VFMIN and VFMAX (R234). -/
def floatMin (f : FloatFmt) (isMax : Bool) (a b : Nat) : Coded :=
  let x := f.value a
  let y := f.value b
  let fl : Flags := if x.isSNaN || y.isSNaN then fNV else 0
  if x.isNaN && y.isNaN then (f.nanCode, fl)
  else if x.isNaN then (b, fl)
  else if y.isNaN then (a, fl)
  else if isMax then (if minOrder x y then b else a, fl)
  else (if minOrder y x then b else a, fl)

/-- VFCLASS (R235). -/
def floatClass (f : FloatFmt) (code : Nat) : Nat :=
  match f.value code with
  | .nan s => if s then 1 else 2
  | .inf neg => if neg then 4 else 512
  | .fin neg m _ _ =>
    if m = 0 then (if neg then 32 else 64)
    else if code % 2 ^ (f.e + f.m) < 2 ^ f.m then (if neg then 16 else 128)
    else (if neg then 8 else 256)

/-- VFRND (R236). -/
def floatRnd (f : FloatFmt) (mode : RMode) (code : Nat) : Coded :=
  match f.value code with
  | .nan s => (f.nanCode, if s then fNV else 0)
  | .inf neg => (f.withSign neg f.infCode, 0)
  | .fin neg m e more =>
    let (k, inx) := roundAt mode neg m e more 0 false
    let r := f.roundTo (.exact neg k 0) .rne false
    (r.1, if inx then fNX else 0)

/-- A special function's element (R237). -/
def specialElem (f : FloatFmt) (g : SpecialFn) (mode : RMode) (sat : Bool) (code : Nat) : Coded :=
  let x := g.eval (f.value code)
  let r := f.roundTo x.1 mode sat
  (r.1, r.2 ||| x.2)

/-- The float format of a type in FLT. -/
def Fmt.floatFmt : Fmt → FloatFmt
  | .bf16x2 => fmtBf16
  | .f16x2 => fmtFp16
  | _ => fmtFp32

/-! ## Random state and modes (R52, R55, R56) -/

/-- Rotation left of a word. -/
def rotl (x : Word) (k : Nat) : Word := x.rotateLeft k

/-- The four words of a lane's random state. -/
structure Rng where
  s0 : Word
  s1 : Word
  s2 : Word
  s3 : Word
  deriving DecidableEq, Repr

/-- NextRandom (R56): the value and the new state. -/
def Rng.next (r : Rng) : Word × Rng :=
  let z := rotl (r.s1 * 5) 7 * 9
  let t := r.s1 <<< 9
  let s2 := r.s2 ^^^ r.s0
  let s3 := r.s3 ^^^ r.s1
  let s1 := r.s1 ^^^ s2
  let s0 := r.s0 ^^^ s3
  (z, ⟨s0, s1, s2 ^^^ t, rotl s3 11⟩)

/-- The mode of an instruction: its rnd field, or RM (R52). -/
def Rnd.resolve (r : Rnd) (rm : BitVec 3) : Rnd :=
  match r with
  | .dyn => Rnd.ofCode rm
  | r => r

/-- A mode for one rounding, drawing once under stochastic (R55). -/
def drawMode (r : Rnd) (g : Rng) : RMode × Rng :=
  match r with
  | .rtz => (.rtz, g)
  | .rup => (.rup, g)
  | .rdn => (.rdn, g)
  | .rna => (.rna, g)
  | .rst => let d := g.next; (.sto d.1, d.2)
  | .rne | .dyn => (.rne, g)

/-- Modes for `n` roundings, element 0 first. -/
def drawModes (r : Rnd) : Nat → Rng → List RMode × Rng
  | 0, g => ([], g)
  | n + 1, g => let d := drawMode r g; let ds := drawModes r n d.2; (d.1 :: ds.1, ds.2)

/-- The mode of an engine, burin or stager: RNE in stochastic's place (R52). -/
def engineMode (r : Rnd) (rm : BitVec 3) : RMode :=
  match r.resolve rm with
  | .rtz => .rtz
  | .rup => .rup
  | .rdn => .rdn
  | .rna => .rna
  | .rne | .dyn | .rst => .rne

/-- The result of one lane: its value, its flags and its random state. -/
structure LaneRes where
  val : DWord
  flags : Flags
  rng : Rng
  deriving DecidableEq, Repr

/-- A float operation on the elements of a lane with one draw each (R55, R233): `f` gets the mode and the element number. -/
def floatLane (ty : Fmt) (r : Rnd) (g : Rng) (f : RMode → Nat → Coded) : LaneRes :=
  let ms := drawModes r ty.count g
  let rs := (ms.1.zip (List.range ty.count)).map fun p => f p.1 p.2
  ⟨laneOfElems ty (rs.map (·.1)), rs.foldl (fun acc c => acc ||| c.2) 0, ms.2⟩

/-! ## Logarithmic elements (R242) -/

/-- VLNS. -/
def vlnsElem (n : Nat) (mode : RMode) (a b : Nat) : Coded :=
  let x := (fmtFp32.value a).mul (fmtFp32.value b)
  let r := fmtFp32.roundTo x.1 mode false
  let q := relog n (fmtFp32.value r.1) false
  (q.1, x.2 ||| r.2 ||| q.2)

/-- VLIN. -/
def vlinElem (n : Nat) (a : Nat) (k : Int) : Coded :=
  match (NumFmt.lns n).srcVal a 0 with
  | .num x => (fmtFp32.withSign x.neg 0, 0)
  | .log neg l f => fmtFp32.roundTo (pow2Frac neg (l + k) f 1 0) .rne false

/-- VLMUL. -/
def vlmulElem (n : Nat) (a b : Nat) : Coded :=
  match (NumFmt.lns n).srcVal a 0, (NumFmt.lns n).srcVal b 0 with
  | .log s l _, .log t k _ =>
    let x := l + k
    if lnsMax n < x then (lnsCode n (s != t) (some (lnsMax n)), fOF ||| fNX)
    else if x < -(lnsMax n) then (lnsCode n (s != t) none, fUF ||| fNX)
    else (lnsCode n (s != t) (some x), 0)
  | .log s _ _, .num y => (lnsCode n (s != y.neg) none, 0)
  | .num x, .log t _ _ => (lnsCode n (x.neg != t) none, 0)
  | .num x, .num y => (lnsCode n (x.neg != y.neg) none, 0)

/-- VLADD. -/
def vladdElem (n : Nat) (a b : Nat) : Coded :=
  let x := lnsLin n a
  let y := lnsLin n b
  let s := x.1.add false y.1
  let r := fmtFp32.roundTo s.1 .rne false
  let q := relog n (fmtFp32.value r.1) false
  (q.1, x.2 ||| y.2 ||| s.2 ||| r.2 ||| q.2)

/-! ## Keys (R250) -/

/-- The key value of a lane value. -/
def keyValue (ty : Fmt) (v : Nat) : Nat :=
  match ty with
  | .f32 => match fmtFp32.value v with
    | .nan _ => 0x7FC00000
    | x => if x.isZero then 0 else v
  | _ => v

/-- A rank that orders keys: integers by value, `.f32` numerically with -0 below +0 and NaNs last. -/
def keyRank (ty : Fmt) (v : Nat) : Int :=
  match ty with
  | .f32 => if (fmtFp32.value v).isNaN then 2 ^ 40 else if v < 2 ^ 31 then (v : Int) else (2 ^ 31 - 1 : Int) - v
  | .i32 => signedOf 32 v
  | .i64 => signedOf 64 v
  | _ => v

/-- Whether a key is a NaN. -/
def keyNaN (ty : Fmt) (v : Nat) : Bool := ty == .f32 && (fmtFp32.value v).isNaN

/-- Insertion after every entry that does not come later: `before a b` says that `a` comes strictly before `b`. -/
def insertStable (before : Nat × Nat → Nat × Nat → Bool) (x : Nat × Nat) : List (Nat × Nat) → List (Nat × Nat)
  | [] => [x]
  | y :: ys => if before x y then x :: y :: ys else y :: insertStable before x ys

/-- The strict order of TSORT on (lane, key) pairs. -/
def sortBefore (ty : Fmt) (desc : Bool) (x y : Nat × Nat) : Bool :=
  if keyNaN ty x.2 then false
  else if keyNaN ty y.2 then true
  else if desc then keyRank ty y.2 < keyRank ty x.2 else keyRank ty x.2 < keyRank ty y.2

/-- P of R252: the lanes of (lane, key) pairs in ascending lane order, stably sorted. -/
def sortLanes (ty : Fmt) (desc : Bool) (xs : List (Nat × Nat)) : List Nat :=
  (xs.foldl (fun acc x => insertStable (sortBefore ty desc) x acc) []).map (·.1)

/-! ## Atomic combination (R198, R259) -/

/-- Integer Combine on `n`-bit codes. -/
def combineInt (op : Aop) (signed : Bool) (n : Nat) (old x : Nat) : Nat :=
  let a : Int := if signed then signedOf n old else old
  let b : Int := if signed then signedOf n x else x
  match op with
  | .swap => x % 2 ^ n
  | .add => (old + x) % 2 ^ n
  | .band => old &&& x
  | .bor => old ||| x
  | .bxor => (old ^^^ x) % 2 ^ n
  | .min => if b < a then x % 2 ^ n else old
  | .max => if a < b then x % 2 ^ n else old

/-- Float Combine on one element: add rounds once RNE, min and max follow R234. -/
def combineFloat (f : FloatFmt) (op : Aop) (old x : Nat) : Coded :=
  match op with
  | .add => floatElem f .add .rne false old x 0
  | .min => floatMin f false old x
  | .max => floatMin f true old x
  | _ => (x, 0)

/-- Combine of VATOM (R259) on a lane value. -/
def combine (ty : AType) (op : Aop) (old x : Nat) : Coded :=
  match ty with
  | .i32 => (combineInt op true 32 old x, 0)
  | .b32 => (combineInt op false 32 old x, 0)
  | .i64 => (combineInt op true 64 old x, 0)
  | .b64 => (combineInt op false 64 old x, 0)
  | .f32 => combineFloat fmtFp32 op old x
  | .bf16x2 =>
    let l := combineFloat fmtBf16 op (old % 65536) (x % 65536)
    let h := combineFloat fmtBf16 op (old / 65536) (x / 65536)
    (l.1 + h.1 * 65536, l.2 ||| h.2)
  | .f16x2 =>
    let l := combineFloat fmtFp16 op (old % 65536) (x % 65536)
    let h := combineFloat fmtFp16 op (old / 65536) (x / 65536)
    (l.1 + h.1 * 65536, l.2 ||| h.2)

end Sys2Proof
end

