-- ==== Sys2Proof/Machine/Sparse.lean ====
section
/-! DEFINITION. Sparse maps as plain data: pairs of a key and an entry, keys strictly rising. -/

namespace Sys2Proof

/-- Entries under rising keys. -/
abbrev SMap (α : Type) := List (Nat × α)

/-- The entry under a key. -/
def SMap.find {α : Type} : SMap α → Nat → Option α
  | [], _ => none
  | (k, v) :: rest, n => if k = n then some v else SMap.find rest n

/-- The entry under a key, or what an unlisted key reads as. -/
def SMap.get {α : Type} (m : SMap α) (d : α) (n : Nat) : α := (m.find n).getD d

/-- Puts an entry under a key. -/
def SMap.insert {α : Type} : SMap α → Nat → α → SMap α
  | [], n, v => [(n, v)]
  | (k, w) :: rest, n, v =>
    if n < k then (n, v) :: (k, w) :: rest
    else if n = k then (n, v) :: rest
    else (k, w) :: SMap.insert rest n v

/-- Removes the entry under a key. -/
def SMap.erase {α : Type} : SMap α → Nat → SMap α
  | [], _ => []
  | (k, w) :: rest, n => if n = k then SMap.erase rest n else (k, w) :: SMap.erase rest n

/-- Puts an entry under a key, keeping no entry equal to what an unlisted key reads as. -/
def SMap.put {α : Type} [DecidableEq α] (m : SMap α) (d : α) (n : Nat) (v : α) : SMap α :=
  if v = d then m.erase n else m.insert n v

/-- Changes the entry under a key. -/
def SMap.modify {α : Type} [DecidableEq α] (m : SMap α) (d : α) (n : Nat) (f : α → α) : SMap α :=
  m.put d n (f (m.get d n))

/-- Strictly rising keys. -/
def SMap.rising {α : Type} : SMap α → Bool
  | [] => true
  | [_] => true
  | (k, _) :: (l, w) :: rest => k < l && SMap.rising ((l, w) :: rest)

/-- A list of fixed length read at an index, with what a missing entry reads as. -/
def setAt {α : Type} (d : α) : List α → Nat → α → List α
  | [], 0, v => [v]
  | [], n + 1, v => d :: setAt d [] n v
  | _ :: rest, 0, v => v :: rest
  | x :: rest, n + 1, v => x :: setAt d rest n v

/-- A sorted set of numbers with one more. -/
def addNat (n : Nat) : List Nat → List Nat
  | [] => [n]
  | k :: rest => if n < k then n :: k :: rest else if n = k then k :: rest else k :: addNat n rest

end Sys2Proof
end

