-- ==== Sys2Proof/Machine/Parts.lean ====
section
/-! DEFINITION. The parts of the state as plain data: strands, groups, teams, grids, queues, translation, coherence and
management. Every piece of state that the spec names has a field here or in `State`; its rule and reset value stand in
INVENTORY.md. -/

namespace Sys2Proof.Machine

open Sys2Proof

/-! ## Strands (R85 to R92) -/

/-- A rejoin address with the SPLIT it descends from (R85, R88). -/
structure SplitEntry where
  addr : DWord
  id : Nat
  deriving DecidableEq, Repr

/-- What one instruction of the forwarding window wrote to a register: an ephemeral result with its mask, or (`none`) the
banks (R90). -/
structure FwdWrite where
  reg : Nat
  eph : Option (Mask × Lanes)
  deriving DecidableEq, Repr

/-- Lanes parked under R87. -/
structure Parked where
  lanes : Mask
  exec : Mask
  target : DWord
  entry : SplitEntry
  deriving DecidableEq, Repr

/-- The kind of an access (R155, R376). -/
inductive Access where
  | read | write | fetch
  deriving DecidableEq, Repr

/-- What holds a strand back (Tables 05-5, 05-7). -/
inductive Hold where
  | barrier (b : Nat)
  | rejoin (e : SplitEntry)
  | xlock
  | xfree
  | ringFull (ring : Nat)
  | ringFree (ring : Nat)
  | tags (all : Bool) (mask : DWord)
  | tagBusy (tag : Nat)
  | queueRead (q : Nat)
  | queueWrite (q : Nat)
  | queueDrain (q : Nat)
  | join
  | got (va : Nat) (asid : Nat)
  | count (n : Nat)
  | fence (sys : Bool)
  | page (pages : List Nat) (asid : Nat)
  | line (pages : List Nat) (asid : Nat)
  | busy (va n asid : Nat) (group : Bool)
  | claims
  | handler
  | drain
  | groupMem (limit : Nat)
  | trap (limit : Nat)
  deriving DecidableEq, Repr

/-- One strand. Its place in the strand table is its place in the group's list. `since` is the clock at which it became held,
`skipStop` the address it does not stop at again (R352), `arrived` the barrier and phase at which it has arrived. -/
structure Strand where
  sid : Nat
  lanes : Mask
  exec : Mask
  pc : DWord
  stack : List SplitEntry
  fwd : List (List FwdWrite)
  parked : List Parked
  hold : Option Hold
  refused : List Nat
  since : Nat
  skipStop : Option DWord
  waitCycle : Option (List DWord)
  arrived : Option (Nat × Nat)
  deriving DecidableEq, Repr

/-! ## Groups (R68, R69) -/

/-- A translated global address (R153 to R155): the physical byte, the memory type, the class, and whether the page is a HOST
page, whose bytes are host memory. -/
structure Xlat where
  pa : Nat
  mt : Nat
  cls : Nat
  host : Bool
  deriving DecidableEq, Repr

/-- Where an access goes (Table 09-1): global memory, or a byte of a team's run of core-store rows. -/
inductive Loc where
  | glob (x : Xlat)
  | store (team : Nat) (off : Nat)
  deriving DecidableEq, Repr

/-- A long-latency instruction issued and not completed, with its captured operands (R92, R343). `windows` says how many later
instructions each strand that waits for it may still issue; `more` further scalar operands; `stage` the
consumer count, the byte and the size of the stage of a TLDR; `locs` the lanes' translated addresses; `park` the pages that it waits for;
`through` the lines to which its store has been written through (R329); `acquire` and `release` its order; `job` the card job that must
enter the footprint table first. -/
structure Pending where
  id : Nat
  seq : Nat
  sid : Nat
  instr : Instr
  pc : DWord
  windows : SMap Nat
  mask : Mask
  sa : DWord
  sb : DWord
  sd : DWord
  more : List DWord
  stage : Nat × Nat × Nat
  vops : List Lanes
  rngs : List Rng
  rm : BitVec 3
  fmts : List DWord
  tctl : List DWord
  locs : SMap Loc
  job : Option Nat
  replayed : Bool
  park : Option (List Nat × Nat)
  refused : List Nat
  through : List Nat
  acquire : Bool
  release : Bool
  drscale : Word
  deriving DecidableEq, Repr

/-- The handler strand of a group (R350, R351): its banked `s56` to `s63`, HCAUSE, HPC, whether a fault made it, the strand
table as it stood, and the instructions that its replay entries re-issue (R353). `limit` is the first number given to an
instruction after the stop. -/
structure Handler where
  sid : Nat
  bank : List DWord
  cause : DWord
  hpc : DWord
  fault : Bool
  table : List Strand
  captured : List Pending
  limit : Nat
  deriving DecidableEq, Repr

/-- A group stopped for the debugger (R341, R355): the stopped strand, whether it is the handler strand (which has no frame of
its own for this stop), the address of the BRK or breakpoint that stopped it (R352), the strand table as it stood, and the instructions
that the replay entries re-issue. -/
structure DebugStop where
  sid : Nat
  inHandler : Bool
  mark : Option DWord
  table : List Strand
  captured : List Pending
  deriving DecidableEq, Repr

/-- One group with its slot state (R68, R76). `kind` is 0 COPY, 1 MATRIX, 2 VECTOR; `due` the next clock of its slot at
which it may issue; `rr` the place from which it chooses its next strand (R83). -/
structure Group where
  kind : Nat
  num : Nat
  barrel : Nat
  slot : Nat
  sregs : SMap DWord
  preds : List Mask
  rm : BitVec 3
  drscale : Word
  fmts : List DWord
  flags : List Flags
  rng : List Rng
  strands : List Strand
  rr : Nat
  pending : List Pending
  due : Nat
  handler : Option Handler
  dbg : Option DebugStop
  ended : Bool
  nextId : Nat
  deriving DecidableEq, Repr

/-! ## Jobs and queue streams (R145 to R150) -/

/-- Where a job stands (R147). -/
inductive JobPhase where
  | waiting | accepted | started
  deriving DecidableEq, Repr

/-- An engine job with all that it captured at issue (R145, R268). -/
structure Job where
  uid : Nat
  core : Nat
  team : Nat
  group : Nat
  sid : Nat
  instr : Instr
  pc : DWord
  card : DWord
  words : List DWord
  exec : Mask
  mode : RMode
  rm : BitVec 3
  drscale : Word
  fmts : List DWord
  tctl : List DWord
  tag : Option Nat
  scope : Nat
  phase : JobPhase
  edges : List Nat
  fail : Option Nat
  park : Option (List Nat × Nat)
  refused : List Nat
  deriving DecidableEq, Repr

/-- A vector that a load stream read ahead, with the lanes whose read failed and their codes (R301). -/
structure QVec where
  lanes : Lanes
  bad : List (Nat × Nat × DWord)
  deriving DecidableEq, Repr

/-- A queue register (R150, R301): its binding, its contents and its position. `pos` counts the vectors read or written, `taken`
those popped or pushed; `fault` is the lane, code and address of a write that failed. -/
structure QueueReg where
  team : Nat
  group : Nat
  store : Bool
  base : DWord
  count : Nat
  stride : Nat
  view : Option (BitVec 6)
  fmts : List DWord
  vecs : List QVec
  pos : Nat
  taken : Nat
  fault : Option (Nat × Nat × DWord)
  park : Option (List Nat × Nat)
  refused : List Nat
  deriving DecidableEq, Repr

/-! ## Teams (R69, R263, R144, R148) -/

/-- The fields of a kernel header (Table 07-5) with its address and its segment. -/
structure Header where
  addr : Nat
  base : Nat
  contract : Nat
  idem : Bool
  migr : Bool
  maxDepth : Nat
  vn : Nat
  vb : Nat
  vx : Nat
  mn : Nat
  mb : Nat
  mx : Nat
  cn : Nat
  cb : Nat
  cx : Nat
  coloc : Nat
  stack : Nat
  shared : Nat
  scratch : Nat
  entry : Nat
  deriving DecidableEq, Repr

/-- An accumulator entry (R60, R61): its specials, its exact sum in units of 2^-1200, and whether its initial value and
every term were -0. -/
structure AccEntry where
  nan : Bool
  pinf : Bool
  ninf : Bool
  sum : Int
  negZero : Bool
  deriving DecidableEq, Repr

/-- One accumulator with its count vector (R263). Entry (r, c) has key 256 r + c; an unlisted entry is +0. -/
structure Acc where
  entries : SMap AccEntry
  counts : SMap Nat
  poison : Bool
  deriving DecidableEq, Repr

/-- One tile register (R263): element storage and scale store, missing bytes zero, and `TCTL`. -/
structure Tile where
  bytes : List Byte
  scales : List Byte
  ctl : DWord
  poison : Bool
  deriving DecidableEq, Repr

/-- A pending RCOMMIT (R295): the jobs it awaits, its number, and the strand that issued it, whose earlier accesses its push releases
(Table 19-2). -/
structure Commit where
  jobs : List Nat
  seq : Nat
  group : Nat
  sid : Nat
  deriving DecidableEq, Repr

/-- A stager's subscription (R299, R300). `count` tiles from `first`; `pushed` and `written` count pushes and write-backs;
`rrels` the RRELs since it began; `ending` the tag word of an RUNSUB and `limit` the RRELs before it; `seq` its number. -/
structure Subscription where
  seq : Nat
  out : Bool
  desc : DWord
  words : List DWord
  first : Nat
  count : Nat
  pushed : Nat
  written : Nat
  rrels : Nat
  mode : RMode
  sat : Bool
  fmts : List DWord
  group : Nat
  sid : Nat
  ending : Option DWord
  limit : Nat
  park : Option (List Nat × Nat)
  refused : List Nat
  deriving DecidableEq, Repr

/-- A stage ring (Table 09-6) with its base and what works on it. -/
structure Ring where
  active : Bool
  stg : Bool
  stager : Nat
  fmt : BitVec 6
  nstg1 : Nat
  ssize : Nat
  pcur : Nat
  ccur : Nat
  phase : BitVec 16
  base : Nat
  commits : List Commit
  sub : Option Subscription
  deriving DecidableEq, Repr

/-- A numbered barrier (R215): its open phase and its group count; the groups that have arrived in the open phase, in order; and the
phases that have all their groups, with these, while memory accesses that the arrivals release are not performed. -/
structure Barrier where
  phase : Nat
  need : Nat
  groups : List Nat
  full : List (Nat × List Nat)
  deriving DecidableEq, Repr

/-- A failed job whose JOB_FAIL waits for a turn (R348). -/
structure JobFailure where
  group : Nat
  sid : Nat
  code : Nat
  tag : Nat
  card : DWord
  deriving DecidableEq, Repr

/-- What pre-emption does with a team (R357). -/
inductive TeamMode where
  | running | drain (deadline : Nat) | saving | flushing
  deriving DecidableEq, Repr

/-- What the dispatcher knows of a unit to place, queued or resident (R70, R115 to R118). -/
structure TaskInfo where
  uid : Nat
  grid : Nat
  number : Nat
  header : Header
  s1 : DWord
  s2 : DWord
  s3 : DWord
  depth : Nat
  parent : Option Nat
  admitted : Nat
  cls : Nat
  removed : BitVec 4
  deriving DecidableEq, Repr

/-- A resident or saved team. `rows` are its rows of the core store by number in its run, 64 words each, unlisted rows zero;
`frames` the trap frames, `openJobs` the
open jobs and `bound` the queue bindings of a saved team (R358), whose `started` is the time for which it has run. -/
structure Team where
  info : TaskInfo
  asid : Nat
  lq : Nat
  core : Nat
  groups : List Group
  rows : SMap Lanes
  rowPoison : List Nat
  tagsDone : DWord
  tagsFly : DWord
  jflags : Flags
  rings : SMap Ring
  tiles : List Tile
  accs : List Acc
  bars : SMap Barrier
  locks : SMap Nat
  spawned : Bool
  govStalls : Nat
  aliases : List Nat
  started : Nat
  fails : List JobFailure
  mode : TeamMode
  frames : SMap (List Byte)
  openJobs : List Job
  bound : SMap QueueReg
  deriving DecidableEq, Repr

/-! ## Dispatch (R101 to R130) -/

/-- A launch queue (Tables 07-1 to 07-3). `got` is a record read and checked, waiting for admission. -/
structure LaunchQueue where
  base : DWord
  size : Nat
  cfg : DWord
  head : BitVec 32
  tail : BitVec 32
  err : BitVec 4
  errIdx : BitVec 32
  stop : Bool
  got : Option (List DWord × List DWord)
  park : Option Nat
  refused : List Nat
  withheld : List Nat
  seen : SMap (List Byte)
  since : Nat
  deriving DecidableEq, Repr

/-- A loaded segment (R111, R177): its instruction starts as byte offsets, its headers, the 32 KiB pages of its bytes' keys (R112), and
whether its image carries a verified signature (R349). -/
structure Segment where
  asid : Nat
  base : Nat
  len : Nat
  starts : List Nat
  headers : List Header
  pages : List Nat
  signed : Bool
  deriving DecidableEq, Repr

/-- The loader (Table 07-1): its registers and the pass in progress, with the segment that LDBASE and LDLEN named when it began. -/
structure Loader where
  base : DWord
  len : DWord
  busy : Bool
  code : BitVec 16
  offset : BitVec 32
  asid : Nat
  unload : Bool
  atBase : DWord
  atLen : DWord
  park : Option Nat
  refused : List Nat
  deriving DecidableEq, Repr

/-- An open claim of a tiled grid (R124, R125): the linear numbers of its atoms by tile position. -/
structure Claim where
  team : Nat
  origin : List Nat
  gen : DWord
  mask : DWord
  sizes : List Nat
  deriving DecidableEq, Repr

/-- The schedule of a tiled grid (R121 to R127). -/
structure Sched where
  regs : List DWord
  staged : SMap DWord
  cursor : Nat
  claims : List Claim
  deriving DecidableEq, Repr

/-- An admitted grid (R70, R105 to R110). -/
structure Grid where
  uid : Nat
  lq : Nat
  record : Nat
  asid : Nat
  account : Nat
  header : Header
  sigEn : Bool
  sigCtr : Nat
  sigInc : Nat
  tiled : Bool
  high : Nat
  spawnedTeams : Nat
  cls : Nat
  removed : BitVec 4
  failed : Option Nat
  sched : Option Sched
  ended : Nat
  runTime : Nat
  deriving DecidableEq, Repr

/-- Where a queued task waits (R115). -/
inductive Place where
  | die (d : Nat)
  | gallery (d g : Nat)
  deriving DecidableEq, Repr

/-- A queued task (R115, R120, R362). -/
structure Task where
  info : TaskInfo
  place : Place
  poisoned : Bool
  deriving DecidableEq, Repr

/-- A unit of the wait-cycle probe that may block or be awaited (Table 05-7, R128). -/
inductive ProbeUnit where
  | strand (team group sid : Nat)
  | team (uid : Nat)
  | launch (q idx : Nat)
  | counter (n : Nat)
  | task (uid : Nat)
  | job (uid : Nat)
  | stream (key : Nat)
  deriving DecidableEq, Repr

/-- A copy of a wait-cycle probe on its way (R128): its probe's number, the unit that sent it, the copies that the probe has made,
the identities of the units visited, and the unit it reaches next. -/
structure Probe where
  id : Nat
  sender : Waiter
  copies : Nat
  path : List DWord
  target : ProbeUnit
  deriving DecidableEq, Repr

/-! ## Memory system (R139 to R157, R320 to R336) -/

/-- Caches that may hold MANUAL copies: a core's L1 part, a die cache, the LLC (for host memory), a constant cache. -/
inductive CacheLevel where
  | l1 (core : Nat)
  | die (d : Nat)
  | llc
  | const (core : Nat)
  deriving DecidableEq, Repr

/-- A copy of a line: its class (R141), its 128 bytes, its dirty mask and its poison (R142, R335, R336). -/
structure Copy where
  level : CacheLevel
  line : Nat
  cls : Nat
  bytes : List Byte
  dirty : BitVec 128
  poison : Bool
  deriving DecidableEq, Repr

/-- A leaf held by the translation caches (R155). -/
structure TlbEntry where
  asid : Nat
  base : Nat
  size : Nat
  leaf : DWord
  hostBase : Option Nat
  deriving DecidableEq, Repr

/-- A coalesced translation miss (R155, R376): whether its request has been written, whether it is a HOST page, whether the host has
refused its ATS translation, and whether only range instructions have missed it (R203). -/
structure Miss where
  asid : Nat
  page : Nat
  access : Access
  posted : Bool
  host : Bool
  denied : Bool
  ranged : Bool
  deriving DecidableEq, Repr

/-- An invalidation in progress (R156, R377). `limit` is the first sequence number issued after it began. -/
structure Inval where
  asid : Option Nat
  base : Nat
  len : Nat
  host : Bool
  limit : Nat
  deriving DecidableEq, Repr

/-- Directory states (Table 19-5). -/
inductive DirState where
  | i | s | e | o | m
  deriving DecidableEq, Repr

/-- A view (R320): the source format with its own descriptor where it is narrow, the view format and its descriptor. -/
structure View where
  src : BitVec 6
  srcDesc : DWord
  fmt : BitVec 6
  desc : DWord
  deriving DecidableEq, Repr

/-- Home transient states (Table 19-7). -/
inductive Transient where
  | stable | fill | fwd | fan | fwdFan
  deriving DecidableEq, Repr

/-- Die-to-home messages (Table 19-6). -/
inductive UpMsg where
  | rds (line : Nat) (view : Option View)
  | rdx (line : Nat)
  | upg (line : Nat)
  | wb (line : Nat)
  | wt (line : Nat) (cls : Nat) (cells : List (Nat × Byte))
  | ack (line : Nat)
  | fdata (line : Nat)
  | writtenBack (line : Nat)
  deriving DecidableEq, Repr

/-- The line of a message. -/
def UpMsg.line : UpMsg → Nat
  | .rds l _ | .rdx l | .upg l | .wb l | .wt l _ _ | .ack l | .fdata l | .writtenBack l => l

/-- Home-to-die messages (Table 19-6). -/
inductive DownMsg where
  | data (line : Nat) (grant : DirState) (view : Option View)
  | grant (line : Nat)
  | inv (line : Nat)
  | upd (line : Nat)
  | fwds (line : Nat)
  | fwdx (line : Nat)
  | wback (line : Nat)
  | wtack (line : Nat)
  deriving DecidableEq, Repr

/-- The line of a message. -/
def DownMsg.line : DownMsg → Nat
  | .data l _ _ | .grant l | .inv l | .upd l | .fwds l | .fwdx l | .wback l | .wtack l => l

/-- A directory entry (R328, R331): the state and view of each die that is not I, the VS bit, the transient state, the
requests that wait, each with the atrium clock in which it arrived, the request in service, the owner that a request was forwarded to, the
ACKs owed (true for an INV), and when the line became transient. A request of 12, which is no die, is a store of the atrium or of an agent
outside the package. -/
structure DirLine where
  dies : SMap (DirState × Option View)
  vs : Bool
  trans : Transient
  queue : List (Nat × Nat × UpMsg)
  serving : Option (Nat × UpMsg)
  owner : Option Nat
  acks : List (Nat × Bool)
  since : Nat
  reported : Bool
  deriving DecidableEq, Repr

/-- Tokens of a line on a die (R326): what each core's L1 part holds (the die cache has the rest of 128), and where the
owner token is. -/
structure Tokens where
  cores : SMap Nat
  owner : Option Nat
  deriving DecidableEq, Repr

/-- A die's own knowledge of its lines (R326, R330, R332): the state it was granted, its outstanding request, its write-back
buffer. -/
structure DieLine where
  state : DirState
  view : Option View
  want : Option UpMsg
  inBuffer : Bool
  tokens : Tokens
  deriving DecidableEq, Repr

/-- A persistent request (R327). -/
structure Persistent where
  core : Nat
  line : Nat
  write : Bool
  deriving DecidableEq, Repr

/-- The coherence machinery and the governor of one die: by core the line that it asks tokens of and how often that failed, the persistent
requests, the core whose slot is served and the last one served (R327); the budget of the window of 256 clocks numbered `window`, the last
one that has been begun (R389). -/
structure DieState where
  modules : Nat
  up : List UpMsg
  down : List DownMsg
  lines : SMap DieLine
  tries : SMap (Nat × Nat)
  persistent : List Persistent
  served : Option Nat
  lastServed : Nat
  budget : Nat
  window : Nat
  deriving DecidableEq, Repr

/-! ## Contexts and management (R370 to R389) -/

/-- A context block (Table 23-3) with what Toard keeps for the context (Tables 21-5, 21-7, 21-8). -/
structure Ctx where
  root : DWord
  got : DWord
  frame : DWord
  save : DWord
  saveLen : DWord
  pasid : DWord
  trapBase : DWord
  dbgCtl : DWord
  dbgBp : List DWord
  out : Bool
  deriving DecidableEq, Repr

/-- The mailbox (R385). -/
structure Mailbox where
  cmd : Option (BitVec 8)
  args : List DWord
  buf : DWord
  result : BitVec 16
  deriving DecidableEq, Repr

/-- Sorts of source of a black-box record (Table 23-6b; log entry 4). -/
inductive SourceSort where
  | toard | atrium | die | queue | core | stack | port | context | place | unit
  deriving DecidableEq, Repr

/-- The source of a black-box record: its sort and which one of that sort it is. -/
structure Source where
  sort : SourceSort
  id : Nat
  deriving DecidableEq, Repr

/-- A black-box record (Table 23-6b). -/
structure BbRecord where
  time : DWord
  seq : BitVec 32
  type : BitVec 8
  source : List Byte
  data : List Byte
  deriving DecidableEq, Repr

/-- Connection state of one SPDM transport (R384). -/
structure Spdm where
  version : Bool
  caps : Bool
  algs : Bool
  deriving DecidableEq, Repr

/-- What the SPDM responder answers (R384): the version; whether secure sessions are supported; the hash (SHA-256), the base and the
extended asymmetric algorithms; the digest and the bytes of slot 0's certificate chain; a challenge's leaf and signature; the
measurement blocks asked for, how many there are, and, when asked, the leaf and signature; an error. -/
inductive SpdmResponse where
  | version (major minor : Nat)
  | capabilities (sessions : Bool)
  | algorithms (sha256 : Bool) (baseAsym extAsym : List Nat)
  | digests (slot0 : List Byte)
  | certificate (chain : List Byte)
  | challengeAuth (leaf : Nat) (signature : List Byte)
  | measurements (count : Nat) (blocks : List (Nat × BitVec 256)) (signature : Option (Nat × List Byte))
  | error
  deriving DecidableEq, Repr

/-- The pre-emption unit (R357, R375): PSTAT, and the context and deadline of the request in progress. -/
structure Preempt where
  busy : Bool
  partialSave : Bool
  flushed : Nat
  saved : Nat
  asid : Nat
  switching : Bool
  deriving DecidableEq, Repr

/-- Toard and the host interface. -/
structure Manage where
  ready : DWord
  fenced : DWord
  memSize : Nat
  mapFormed : Bool
  chainStopped : Bool
  mbox : Mailbox
  evBase : DWord
  evSize : DWord
  evHead : DWord
  evTail : DWord
  preempt : Preempt
  invVa : DWord
  invLen : DWord
  prqBase : DWord
  prqSize : DWord
  prqHead : DWord
  prqTail : DWord
  prspVa : DWord
  wayq : List DWord
  subupd : DWord
  deriving DecidableEq, Repr

/-- Measurement, records, accounts, time and power. -/
structure Records where
  mr : List (BitVec 256)
  leaves : Nat
  spdmPcie : Spdm
  spdmI3c : Spdm
  bb : List BbRecord
  seq : BitVec 32
  accounts : SMap (List DWord)
  pwrcap : Nat
  time : DWord
  window : Nat
  nextWindow : Option (Nat × Nat)
  lostPackages : List Nat
  remote : List (Nat × Nat × List Nat)
  msix : List Nat
  lastRead : List Byte
  lastPoison : Bool
  response : Option SpdmResponse
  deriving DecidableEq, Repr

end Sys2Proof.Machine
end

