-- ==== Sys2Proof/Machine/State.lean ====
section
/-! DEFINITION. The machine's state, its faults and refusals, and the state after reset. -/

namespace Sys2Proof.Machine

open Sys2Proof

/-- Why the model stops with a fault. -/
inductive Fault where
  /-- An instruction is executed on behalf of no strand: `State.cur` names none. Raised by `State.withStrand`, for every
  instruction of rows 0 to 165. The part issues every instruction from a strand (R68, R83), so no step of it does this: safe. -/
  | noStrand
  deriving DecidableEq, Repr

/-- Why the model gives no meaning. -/
inductive Refusal where
  /-- An instruction of the table that has no meaning yet. Raised by `exec`. Safe: the machine stops. -/
  | notModelled (mnemonic : String)
  deriving DecidableEq, Repr

/-- Which agent moves next: an event of rows 166 to 272, the barrels' next issue, or a cache that gives up its copy of a MANUAL line (log
entries 3 and 8). -/
inductive Turn where
  | event (i : Instr)
  | issue
  | evict (level : CacheLevel) (line : Nat)
  deriving DecidableEq, Repr

/-- The strand on whose behalf an instruction is executed. -/
structure Cursor where
  team : Nat
  group : Nat
  sid : Nat
  deriving DecidableEq, Repr

/-- Memory: (address, byte) pairs, addresses strictly rising, no byte equal to what an unlisted address reads as. Device
memory and other packages' memory lie at their physical addresses, host memory at `hostBase` plus its address. -/
abbrev Memory := List Host.Cell

/-- Where host memory begins among the addresses of `Memory`. -/
def hostBase : Nat := 2 ^ 64

/-- What a byte that nothing has written reads as: the spec gives none (DESIGN CHOICE, log entry 2). -/
def unlisted : Byte := 0

/-- The canonical form of a memory. -/
def Memory.wf : Memory → Bool
  | [] => true
  | [c] => c.2 != unlisted
  | c :: d :: rest => c.2 != unlisted && c.1 < d.1 && Memory.wf (d :: rest)

/-- A GOT entry being bound (R129): its address and ASID, and its binder. -/
structure GotBinding where
  va : Nat
  asid : Nat
  team : Nat
  group : Nat
  sid : Nat
  deriving DecidableEq, Repr

/-- The whole package. -/
structure State where
  /-- core clocks since reset (R82) -/
  clock : Nat
  /-- resident teams, in order of placement -/
  teams : List Team
  /-- teams in save areas (R358) -/
  saved : List Team
  /-- engine jobs of all cores, in issue order (R147) -/
  jobs : List Job
  /-- admitted grids -/
  grids : List Grid
  /-- die queues and gallery queues, in queue order (R115) -/
  tasks : List Task
  /-- the model's own: task entries that queue SRAM holds (R115; log entry 5) -/
  taskCap : Nat
  /-- queue registers by 16 * core + number (R150) -/
  queues : SMap QueueReg
  /-- launch queues (R101) -/
  lqs : SMap LaunchQueue
  /-- the loader (Table 07-1) -/
  loader : Loader
  /-- loaded segments (R111) -/
  segs : List Segment
  /-- WCPROBE (Table 07-1) -/
  wcprobe : Nat
  /-- probes on their way (R128) -/
  probes : List Probe
  /-- GOT entries being bound (R129) -/
  binds : List GotBinding
  /-- event counters (R107); their two copies agree (R363) -/
  counters : SMap DWord
  /-- memory -/
  mem : Memory
  /-- poisoned 128-byte lines by line address (R335) -/
  poison : List Nat
  /-- copies of MANUAL lines (R142) -/
  copies : List Copy
  /-- leaves held by the translation caches (R155) -/
  tlb : List TlbEntry
  /-- coalesced misses (R155) -/
  misses : List Miss
  /-- invalidations in progress (R156) -/
  invals : List Inval
  /-- accesses to host memory by 256 * region + ASID, most recently used first (R157) -/
  migCounts : List (Nat × Nat)
  /-- the keys of `migCounts` with a migration request raised (R157) -/
  migAsked : List Nat
  /-- how often the counts have halved (R157) -/
  migDecays : Nat
  /-- the home directory by line address (R328) -/
  dir : SMap DirLine
  /-- the coherence machinery and governor of each die -/
  dies : List DieState
  /-- contexts by ASID (Table 23-3) -/
  ctxs : SMap Ctx
  /-- host interface -/
  manage : Manage
  /-- measurement, records, accounts, time -/
  records : Records
  /-- the model's own: which agent moves next (log entry 3) -/
  schedule : List Turn
  /-- the model's own: the strand being executed for -/
  cur : Option Cursor
  /-- the model's own: numbers already given to units, jobs and instructions -/
  uid : Nat
  /-- the model's own: free values already used (log entry 4) -/
  freeN : Nat
  deriving DecidableEq, Repr

/-- A launch queue at reset (R101). -/
def LaunchQueue.reset : LaunchQueue where
  base := 0
  size := 16
  cfg := 0
  head := 0
  tail := 0
  err := 0
  errIdx := 0
  stop := false
  got := none
  park := none
  refused := []
  withheld := []
  seen := []
  since := 0

/-- The loader at reset (R101). -/
def Loader.reset : Loader where
  base := 0
  len := 0
  busy := false
  code := 0
  offset := 0
  asid := 0
  unload := false
  atBase := 0
  atLen := 0
  park := none
  refused := []

/-- A context block at reset (log entry 1). -/
def Ctx.reset : Ctx where
  root := 0
  got := 0
  frame := 0
  save := 0
  saveLen := 0
  pasid := 0
  trapBase := 0
  dbgCtl := 0
  dbgBp := [0, 0, 0, 0]
  out := false

/-- A die's coherence machinery and governor at reset: 40 link modules (R21), no copy held, budget 256 (R389). -/
def DieState.reset : DieState where
  modules := 40
  up := []
  down := []
  lines := []
  tries := []
  persistent := []
  served := none
  lastServed := 0
  budget := 256
  window := 0

/-- A directory line that no die holds. -/
def DirLine.reset : DirLine where
  dies := []
  vs := false
  trans := .stable
  queue := []
  serving := none
  owner := none
  acks := []
  since := 0
  reported := false

/-- No connection (R384). -/
def Spdm.reset : Spdm := ⟨false, false, false⟩

/-- `WAYQ` at reset: 10000 in each field (Table 09-3). -/
def wayqReset : DWord := 0x84210

/-- The host interface at reset (R378, R376, Tables 23-1 and 23-2; log entry 1). -/
def Manage.reset : Manage where
  ready := 0
  fenced := 0
  memSize := 0
  mapFormed := false
  chainStopped := false
  mbox := ⟨none, [0, 0, 0, 0], 0, 0⟩
  evBase := 0
  evSize := 0
  evHead := 0
  evTail := 0
  preempt := ⟨false, false, 0, 0, 0, false⟩
  invVa := 0
  invLen := 0
  prqBase := 0
  prqSize := 64
  prqHead := 0
  prqTail := 0
  prspVa := 0
  wayq := List.replicate 13 wayqReset
  subupd := 0

/-- Records at a cold reset (R381, R386, R380; log entry 1): the measurement registers zero, the black box empty, windows of
2 µs, PWRCAP 3 600. -/
def Records.reset : Records where
  mr := List.replicate 24 0
  leaves := 1048576
  spdmPcie := Spdm.reset
  spdmI3c := Spdm.reset
  bb := []
  seq := 0
  accounts := []
  pwrcap := 3600
  time := 0
  window := 4
  nextWindow := none
  lostPackages := []
  remote := []
  msix := []
  lastRead := []
  lastPoison := false
  response := none

/-- The machine right after a cold reset. No team, grid, segment or context is live, memory lists nothing, and nothing is
ready yet (R378). -/
def State.reset : State where
  clock := 0
  teams := []
  saved := []
  jobs := []
  grids := []
  tasks := []
  taskCap := 1048576
  queues := []
  lqs := []
  loader := Loader.reset
  segs := []
  wcprobe := 65536
  probes := []
  binds := []
  counters := []
  mem := []
  poison := []
  copies := []
  tlb := []
  misses := []
  invals := []
  migCounts := []
  migAsked := []
  migDecays := 0
  dir := []
  dies := List.replicate 12 DieState.reset
  ctxs := []
  manage := Manage.reset
  records := Records.reset
  schedule := []
  cur := none
  uid := 0
  freeN := 0

end Sys2Proof.Machine
end

