-- ==== Sys2Proof/Machine/Here.lean ====
section
/-! DEFINITION. Finding and changing the parts of the state: teams, groups, strands, and the strand on whose behalf an
instruction is executed (`Here`), with its scalar, predicate and lane registers (R68, R76, R186, R350) and the retirement of
an instruction (R90, R92). -/

namespace Sys2Proof.Machine

open Sys2Proof

/-! ## Teams, groups, strands -/

/-- A resident team by its number. -/
def State.team? (s : State) (uid : Nat) : Option Team := s.teams.find? fun t => t.info.uid == uid

/-- Replaces the resident team that has the number of `t`. -/
def State.putTeam (s : State) (t : Team) : State :=
  { s with teams := s.teams.map fun x => if x.info.uid = t.info.uid then t else x }

/-- Changes a resident team. -/
def State.modTeam (s : State) (uid : Nat) (f : Team → Team) : State :=
  { s with teams := s.teams.map fun x => if x.info.uid = uid then f x else x }

/-- A group of a team by its number. -/
def Team.group? (t : Team) (n : Nat) : Option Group := t.groups.find? fun g => g.num == n

/-- Changes a group of a team. -/
def Team.modGroup (t : Team) (n : Nat) (f : Group → Group) : Team :=
  { t with groups := t.groups.map fun g => if g.num = n then f g else g }

/-- Replaces the group that has the number of `g`. -/
def Team.putGroup (t : Team) (g : Group) : Team := t.modGroup g.num fun _ => g

/-- A strand of a group. -/
def Group.strand? (g : Group) (sid : Nat) : Option Strand := g.strands.find? fun x => x.sid == sid

/-- A strand's place in the strand table. -/
def Group.place (g : Group) (sid : Nat) : Nat := g.strands.findIdx fun x => x.sid == sid

/-- Changes a strand of a group. -/
def Group.modStrand (g : Group) (sid : Nat) (f : Strand → Strand) : Group :=
  { g with strands := g.strands.map fun x => if x.sid = sid then f x else x }

/-- Changes every strand of a group. -/
def Group.modStrands (g : Group) (f : Strand → Strand) : Group := { g with strands := g.strands.map f }

/-- Changes a strand of a resident team. -/
def State.modStrand (s : State) (team group sid : Nat) (f : Strand → Strand) : State :=
  s.modTeam team fun t => t.modGroup group fun g => g.modStrand sid f

/-- Changes every strand of every resident team. -/
def State.modAllStrands (s : State) (f : Team → Group → Strand → Strand) : State :=
  { s with teams := s.teams.map fun t => { t with groups := t.groups.map fun g => g.modStrands (f t g) } }

/-- Changes every group of every resident team. -/
def State.modAllGroups (s : State) (f : Team → Group → Group) : State :=
  { s with teams := s.teams.map fun t => { t with groups := t.groups.map (f t) } }

/-- A grid by its number. -/
def State.grid? (s : State) (uid : Nat) : Option Grid := s.grids.find? fun g => g.uid == uid

/-- Changes a grid. -/
def State.modGrid (s : State) (uid : Nat) (f : Grid → Grid) : State :=
  { s with grids := s.grids.map fun g => if g.uid = uid then f g else g }

/-- A context (Table 23-3). -/
def State.ctx (s : State) (asid : Nat) : Ctx := s.ctxs.get Ctx.reset asid

/-- Changes a context. -/
def State.modCtx (s : State) (asid : Nat) (f : Ctx → Ctx) : State := { s with ctxs := s.ctxs.modify Ctx.reset asid f }

/-- An ASID is live while CTXROOT.V is 1 (R153). -/
def State.live (s : State) (asid : Nat) : Bool := (s.ctx asid).root.getLsbD 0

/-- A number never given before, and the state that has given it. -/
def State.fresh (s : State) : Nat × State := (s.uid, { s with uid := s.uid + 1 })

/-! ## Core identities (Table 01-2) and classes (Table 01-1) -/

/-- The die of a core. -/
def coreDie (c : Nat) : Nat := c / 128
/-- The gallery of a core. -/
def coreGallery (c : Nat) : Nat := c / 16 % 8
/-- The core within its gallery. -/
def coreMember (c : Nat) : Nat := c % 16
/-- The core identity of a die, a gallery and a member. -/
def coreId (d g m : Nat) : Nat := 128 * d + 16 * g + m
/-- A core identity that names a core (R14). -/
def coreNamed (c : Nat) : Bool := coreDie c < 12 && coreMember c < 12 && c < 2048

/-- The class of a die (R12): 0 M, 1 F, 2 L, 3 T. -/
def dieClass (d : Nat) : Nat := if d < 4 then 0 else if d < 7 then 1 else if d < 10 then 2 else 3

/-- The dies of a class. -/
def classDies (c : Nat) : List Nat := (List.range 12).filter fun d => dieClass d == c

/-! ## The layout of a team's rows (R71, R79, R114, R136) -/

/-- A group's role by its number: the MATRIX group is numbered first, then the COPY groups, then the VECTOR groups (R69). -/
def Header.kindOf (h : Header) (n : Nat) : Nat := if n < h.mn then 1 else if n < h.mn + h.cn then 0 else 2

/-- Groups of a team. -/
def Header.groups (h : Header) : Nat := h.cn + h.mn + h.vn

/-- B of a role, in registers. -/
def Header.bRegs (h : Header) (kind : Nat) : Nat := 16 * (match kind with | 0 => h.cb | 1 => h.mb | _ => h.vb)

/-- X of a role, in registers. -/
def Header.xRegs (h : Header) (kind : Nat) : Nat := 16 * (match kind with | 0 => h.cx | 1 => h.mx | _ => h.vx)

/-- The group that leads the extended set of group `n`: the even partner of an odd group of the same role (R79). -/
def Header.setOf (h : Header) (n : Nat) : Nat :=
  if n % 2 = 1 ∧ h.kindOf (n - 1) = h.kindOf n then n - 1 else n

/-- Rows of the extended set that group `n` leads. -/
def Header.setRows (h : Header) (n : Nat) : Nat := if h.setOf n = n then h.xRegs (h.kindOf n) else 0

/-- First row of group `n`'s base set. -/
def Header.baseAt (h : Header) (n : Nat) : Nat := ((List.range n).map fun i => h.bRegs (h.kindOf i)).sum

/-- First row of the extended set that group `n` leads. -/
def Header.extAt (h : Header) (n : Nat) : Nat := h.baseAt h.groups + ((List.range n).map h.setRows).sum

/-- First row of group `n`'s stack. -/
def Header.stackAt (h : Header) (n : Nat) : Nat := h.extAt h.groups + n * h.stack

/-- First row of the scratchpad. -/
def Header.scratchAt (h : Header) : Nat := h.stackAt h.groups

/-- Rows of a team's run. -/
def Header.rows (h : Header) : Nat := h.scratchAt + 4 * h.scratch

/-- The team's footprint in bytes (R114). -/
def Header.footprint (h : Header) : Nat := 256 * h.rows

/-- B of a group. -/
def regB (t : Team) (g : Group) : Nat := t.info.header.bRegs g.kind

/-- X of a group. -/
def regX (t : Team) (g : Group) : Nat := t.info.header.xRegs g.kind

/-- The row of vector register `n` of a group, for `n` below B + X (R75, R77). -/
def regRow (t : Team) (g : Group) (n : Nat) : Nat :=
  let b := regB t g
  if n < b then t.info.header.baseAt g.num + n
  else t.info.header.extAt (t.info.header.setOf g.num) + (n - b)

/-- A row that nothing has written. -/
def zeroRow : Lanes := List.replicate 64 0

/-- A row of a team's run. -/
def Team.row (t : Team) (n : Nat) : Lanes := t.rows.get zeroRow n

/-- Writes a whole row, which clears its poison (R362). -/
def Team.putRow (t : Team) (n : Nat) (v : Lanes) : Team :=
  { t with rows := t.rows.put zeroRow n v, rowPoison := t.rowPoison.filter (· != n) }

/-- Writes the words of a row in the lanes of a mask. -/
def Team.putRowMasked (t : Team) (n : Nat) (m : Mask) (v : Lanes) : Team :=
  if m = allLanes then t.putRow n v
  else
    let old := t.row n
    { t with rows := t.rows.put zeroRow n (laneNumbers.map fun l => if laneBit m l then v.getD l 0 else old.getD l 0) }

/-- The lock on a group's extended set is held by the group (R80, R81). -/
def Team.xHeld (t : Team) (g : Group) : Bool := t.locks.find (t.info.header.setOf g.num) == some g.num

/-! ## The strand executed for -/

/-- The strand on whose behalf an instruction is executed, with its group and team. -/
structure Here where
  team : Team
  group : Group
  strand : Strand
  deriving DecidableEq, Repr

/-- The strand that a cursor names. -/
def State.at (s : State) (c : Cursor) : Option Here := do
  let t ← s.team? c.team
  let g ← t.group? c.group
  let x ← g.strand? c.sid
  return ⟨t, g, x⟩

/-- The strand executed for. -/
def State.here (s : State) : Option Here := s.cur.bind s.at

/-- The group with the strand's present contents. -/
def Here.grp (h : Here) : Group := h.group.modStrand h.strand.sid fun _ => h.strand

/-- The team with the strand's and the group's present contents. -/
def Here.whole (h : Here) : Team := h.team.putGroup h.grp

/-- Puts the contents of a strand, its group and its team back. -/
def State.putHere (s : State) (h : Here) : State := s.putTeam h.whole

/-- Runs a meaning for the strand executed for. -/
def State.run (s : State) (f : Here → State) : Host.Outcome State Fault Refusal :=
  match s.here with
  | some h => .next (f h)
  | none => .fault .noStrand

/-- The strand is its group's handler strand (R350). -/
def Here.inHandler (h : Here) : Bool :=
  match h.group.handler with
  | some k => k.sid == h.strand.sid
  | none => false

/-- A group's scalar file without the handler's bank. -/
def Group.readS (g : Group) (r : SReg) : DWord := if r = 0 then 0 else g.sregs.get 0 r.toNat

/-- A group's scalar file written; `s0` ignores writes (R76). -/
def Group.writeS (g : Group) (r : SReg) (v : DWord) : Group :=
  if r = 0 then g else { g with sregs := g.sregs.put 0 r.toNat v }

/-- A scalar register as a strand of the group sees it: `s0` reads zero (R76), the handler strand has a bank of its own for
`s56` to `s63` (R350). -/
def Group.readSAs (g : Group) (sid : Nat) (r : SReg) : DWord :=
  match g.handler with
  | some k => if k.sid = sid ∧ 56 ≤ r.toNat then k.bank.getD (r.toNat - 56) 0 else g.readS r
  | none => g.readS r

/-- A scalar register written by a strand of the group. -/
def Group.writeSAs (g : Group) (sid : Nat) (r : SReg) (v : DWord) : Group :=
  match g.handler with
  | some k =>
    if k.sid = sid ∧ 56 ≤ r.toNat then { g with handler := some { k with bank := setAt 0 k.bank (r.toNat - 56) v } }
    else g.writeS r v
  | none => g.writeS r v

/-- A scalar register as the strand sees it. -/
def Here.readS (h : Here) (r : SReg) : DWord := h.group.readSAs h.strand.sid r

/-- A scalar register written for the strand. -/
def Here.writeS (h : Here) (r : SReg) (v : DWord) : Here := { h with group := h.group.writeSAs h.strand.sid r v }

/-- A predicate register; `p0` reads all ones (R76). -/
def Here.readP (h : Here) (p : PReg) : Mask := if p = 0 then allLanes else h.group.preds.getD p.toNat 0

/-- A predicate register written; `p0` ignores writes (R76). -/
def Here.writeP (h : Here) (p : PReg) (v : Mask) : Here :=
  if p = 0 then h else { h with group := { h.group with preds := setAt 0 h.group.preds p.toNat v } }

/-- The effective mask of a W instruction (R8, R165). -/
def Here.mask (h : Here) (g : Guard) : Mask :=
  (if g.neg then ~~~ h.readP g.p else h.readP g.p) &&& h.strand.exec

/-- Moves the strand. -/
def Here.setPc (h : Here) (a : DWord) : Here := { h with strand := { h.strand with pc := a } }

/-- The long-latency instructions issued and not completed, those that a debug stop captured included: strands that run on wait
for them (R92, R355). -/
def Group.outstanding (g : Group) : List Pending :=
  g.pending ++ (match g.dbg with | some d => d.captured | none => [])

/-- Changes every long-latency instruction of a group that is issued and not completed. -/
def Group.mapPending (g : Group) (f : Pending → Pending) : Group :=
  { g with
    pending := g.pending.map f
    dbg := g.dbg.map fun d => { d with captured := d.captured.map f } }

/-- One more instruction of a strand has issued: each window that it counts in is one shorter (R92). -/
def Group.shorten (g : Group) (sid : Nat) : Group :=
  g.mapPending fun p => match p.windows.find sid with
    | some n => { p with windows := p.windows.insert sid (n - 1) }
    | none => p

/-- A strand whose instruction of `n` words has issued: the next one follows it, it enters the forwarding window with the
registers it wrote (R90), and the strand is held by nothing. -/
def Strand.retired (x : Strand) (n : Nat) (w : List FwdWrite) : Strand :=
  { x with
    pc := x.pc + BitVec.ofNat 64 (4 * n)
    fwd := (w :: x.fwd).take 8
    hold := none
    refused := []
    skipStop := none
    waitCycle := none }

/-- The instruction of `n` words has issued. -/
def Here.retire (h : Here) (n : Nat) (w : List FwdWrite) : Here :=
  { h with
    group := h.group.shorten h.strand.sid
    strand := h.strand.retired n w }

/-- The instruction has issued and control goes to `a`. -/
def Here.jump (h : Here) (a : DWord) : Here := (h.retire 0 []).setPc a

/-- The strand is held before its instruction (R83, R221). -/
def Here.wait (h : Here) (clock : Nat) (k : Hold) : Here :=
  { h with strand := { h.strand with
      hold := some k
      since := if h.strand.hold = some k then h.strand.since else clock } }

/-- Long-latency operations of the group outstanding (R95, Table 05-6): a card job leaves the count when its card is
accepted. -/
def Group.outcnt (g : Group) : Nat := g.pending.length

/-- Words of an instruction: an S instruction has one, a W instruction two, an L form three (R158). -/
def Src.litWords : Src → Nat
  | .lit _ => 3
  | _ => 2

end Sys2Proof.Machine
end

