-- ==== Sys2Proof/Machine/Home.lean ====
section
/-! DEFINITION. Bytes: little-endian numbers (R3), memory at its home with poison (R335), the black box, the event ring, the
page-request ring and MSI-X (R371, R376, R386), and event counters (R107, R109, R110). -/

namespace Sys2Proof.Machine

open Sys2Proof

/-! ## Bytes -/

/-- A number from bytes, least significant first (R3). -/
def numOfBytes : List Byte → Nat
  | [] => 0
  | b :: bs => b.toNat + 256 * numOfBytes bs

/-- The `n` low bytes of a number, least significant first. -/
def bytesOfNum : Nat → Nat → List Byte
  | 0, _ => []
  | n + 1, v => BitVec.ofNat 8 v :: bytesOfNum n (v / 256)

/-- A list cut or filled with zeros to a length. -/
def fit (n : Nat) (bs : List Byte) : List Byte := (bs ++ List.replicate n 0).take n

/-- A doubleword from bytes. -/
def dwordOf (bs : List Byte) : DWord := BitVec.ofNat 64 (numOfBytes bs)

/-- The doublewords of a run of bytes. -/
def dwordsOf (bs : List Byte) : Nat → List DWord
  | 0 => []
  | n + 1 => dwordOf (bs.take 8) :: dwordsOf (bs.drop 8) n

/-- A bit field of a doubleword as a number. -/
def field (d : DWord) (lo n : Nat) : Nat := (d.extractLsb' lo n).toNat

/-! ## Memory at its home -/

/-- A byte of memory. -/
def Memory.byte (m : Memory) (k : Nat) : Byte := SMap.get m unlisted k

/-- A run of bytes of memory. -/
def Memory.read (m : Memory) (k n : Nat) : List Byte := (List.range n).map fun i => m.byte (k + i)

/-- Writes one byte. -/
def Memory.set (m : Memory) (k : Nat) (b : Byte) : Memory := SMap.put m unlisted k b

/-- Writes bytes one after another; a later one wins. -/
def Memory.setAll (m : Memory) (cs : List (Nat × Byte)) : Memory := cs.foldl (fun a c => Memory.set a c.1 c.2) m

/-- The cells of a run of bytes. -/
def cellsAt (k : Nat) (bs : List Byte) : List (Nat × Byte) := (List.range bs.length).map fun i => (k + i, bs.getD i 0)

/-- The line of a byte: 128 bytes. -/
def lineOf (k : Nat) : Nat := k / 128

/-- A line is poisoned at home. -/
def State.poisoned (s : State) (line : Nat) : Bool := s.poison.contains line

/-- Poisons a line at home, and the copy of it that its LLC slice holds (R335, R362). -/
def State.poisonLine (s : State) (line : Nat) : State :=
  { s with
    poison := addNat line s.poison
    copies := s.copies.map fun c => if c.level = .llc ∧ c.line = line then { c with poison := true } else c }

/-- Whether cells cover a whole line. -/
def coversLine (cs : List (Nat × Byte)) (line : Nat) : Bool :=
  (List.range 128).all fun i => cs.any fun c => c.1 == 128 * line + i

/-- The stores of one instruction or one job performed at home: on a poisoned line a store of all 128 bytes clears the poison,
and a partial one is discarded (R335). -/
def State.homeWrite (s : State) (cs : List (Nat × Byte)) : State :=
  let ok := fun (c : Nat × Byte) => !s.poisoned (lineOf c.1) || coversLine cs (lineOf c.1)
  let cs' := cs.filter ok
  { s with
    mem := s.mem.setAll cs'
    poison := s.poison.filter fun l => !(cs'.any fun c => lineOf c.1 == l) }

/-! ## Pod time -/

/-- The moment at which a release may end whose wait would pass a change of the window length at `sec` seconds (R380). -/
def duePast (sec n due : Nat) : Nat := if sec * 1000000000 < due then sec * 1000000000 + 2 * (n * 500) else due

/-- Pod time moved to a later moment; a window length set for a second that has come takes effect, also on the releases that wait (R380). -/
def State.timeTo (s : State) (t : Nat) : State :=
  let q := s.records
  let t := max q.time.toNat (min t (2 ^ 64 - 1))
  match q.nextWindow with
  | some (n, sec) =>
    if sec * 1000000000 ≤ t then { s with records := { q with
      time := BitVec.ofNat 64 t
      window := n
      nextWindow := none
      remote := q.remote.map fun p => (p.1, duePast sec n p.2.1, p.2.2) } }
    else { s with records := { q with time := BitVec.ofNat 64 t } }
  | none => { s with records := { q with time := BitVec.ofNat 64 t } }

/-- Reading pod time, which has moved on by an amount that the model leaves free (R338, R380). -/
def State.readTime (s : State) : DWord × State :=
  let s := s.timeTo (s.records.time.toNat + Config.timeAdvance s.freeN)
  (s.records.time, { s with freeN := s.freeN + 1 })

/-! ## Records -/

/-- Signals an MSI-X vector (R371). -/
def State.msixSignal (s : State) (v : Nat) : State :=
  { s with records := { s.records with msix := s.records.msix ++ [v] } }

/-- The bytes of a black-box record (Table 23-6b). -/
def BbRecord.bytes (r : BbRecord) : List Byte :=
  bytesOfNum 8 r.time.toNat ++ bytesOfNum 4 r.seq.toNat ++ [r.type] ++ fit 3 r.source ++ fit 16 r.data

/-- The number of a sort of source. -/
def SourceSort.number : SourceSort → Nat
  | .toard => 0
  | .atrium => 1
  | .die => 2
  | .queue => 3
  | .core => 4
  | .stack => 5
  | .port => 6
  | .context => 7
  | .place => 8
  | .unit => 9

/-- The SOURCE bytes of a record: the kind in byte 13, the identity in bytes 14 and 15, least significant byte first (R3, Table 23-6b). -/
def Source.bytes (x : Source) : List Byte := Config.sourceKind x.sort.number :: bytesOfNum 2 x.id

/-- The DATA bytes of a record: each field at its place, least significant byte first (R3), and zeros elsewhere. -/
def recordData (type : Nat) (fields : List Nat) : List Byte :=
  (List.range fields.length).foldl (fun bs k =>
    let p := Config.recordField type k
    fit 16 (fit p.1 bs ++ bytesOfNum p.2 (fields.getD k 0) ++ bs.drop (p.1 + p.2))) (List.replicate 16 0)

/-- Writes a record into the black box, which keeps the last 8 192, and copies it to the event ring unless the ring is full;
vector 0 signals it (R386, R371). Pod time has moved on by then. -/
def State.record (s : State) (type : Nat) (src : Source) (data : List Nat) : State :=
  let s := s.readTime.2
  let q := s.records
  let r : BbRecord := ⟨q.time, q.seq, BitVec.ofNat 8 type, src.bytes, recordData type data⟩
  let bb := q.bb ++ [r]
  let s1 := { s with records := { q with bb := bb.drop (bb.length - 8192), seq := q.seq + 1 } }
  let m := s.manage
  if (m.evTail - m.evHead).toNat < m.evSize.toNat then
    ({ s1 with
      mem := s1.mem.setAll (cellsAt (hostBase + (m.evBase.toNat + 32 * (m.evTail.toNat % m.evSize.toNat)) % 2 ^ 64) r.bytes)
      manage := { m with evTail := m.evTail + 1 } }).msixSignal 0
  else s1

/-- The page-request ring has room (R376). -/
def State.prqRoom (s : State) : Bool := (s.manage.prqTail - s.manage.prqHead).toNat < s.manage.prqSize.toNat

/-- Writes one page-request record (R376): type 0 a miss, 1 a migration. -/
def State.prqWrite (s : State) (page asid type access count : Nat) : State :=
  let m := s.manage
  let bs := bytesOfNum 8 page ++ bytesOfNum 1 asid ++ bytesOfNum 1 type ++ bytesOfNum 1 access ++ List.replicate 5 0 ++
    bytesOfNum 8 count ++ List.replicate 8 0
  ({ s with
    mem := s.mem.setAll (cellsAt (hostBase + (m.prqBase.toNat + 32 * (m.prqTail.toNat % m.prqSize.toNat)) % 2 ^ 64) bs)
    manage := { m with prqTail := m.prqTail + 1 } }).msixSignal 2

/-- The code of an access in a page request. -/
def Access.code : Access → Nat
  | .read => 0
  | .write => 1
  | .fetch => 2

/-! ## Event counters -/

/-- An event counter (R107). -/
def State.counter (s : State) (n : Nat) : DWord := s.counters.get 0 n

/-- Writes an event counter. -/
def State.putCounter (s : State) (n : Nat) (v : DWord) : State := { s with counters := s.counters.put 0 n v }

/-- The signal of a grid's completion (R109) or failure (R110): SIGINC added to bits 62:0, FAIL set on failure. -/
def State.signal (s : State) (n inc : Nat) (failed : Bool) : State :=
  let v := s.counter n
  let low := (v.toNat % 2 ^ 63 + inc) % 2 ^ 63
  let high := failed || v.getLsbD 63
  s.putCounter n (BitVec.ofNat 64 (low + (if high then 2 ^ 63 else 0)))

/-! ## Accounts (R387) -/

/-- Adds to one counter of an account. -/
def State.account (s : State) (acct k : Nat) (v : DWord) : State :=
  let row := s.records.accounts.get (List.replicate 32 0) acct
  { s with records := { s.records with
      accounts := s.records.accounts.put (List.replicate 32 0) acct (row.set k (row.getD k 0 + v)) } }

/-- The account of a team: that of its grid's queue. -/
def State.accountOf (s : State) (t : Team) : Nat :=
  match s.grid? t.info.grid with
  | some g => g.account
  | none => 0

/-! ## Remote writes (R338, R339) -/

/-- The number of the present window (R338). -/
def State.windowNow (s : State) : Nat := s.records.time.toNat / (s.records.window * 500)

/-- The packages to which a team's writes have gone that no release has covered. -/
def State.remoteOf (s : State) (team : Nat) : List Nat :=
  match s.records.remote.find? (fun p => p.1 == team) with
  | some (_, _, ps) => ps
  | none => []

/-- Notes a write sent to another package in the present window N: a release that covers it ends at the start of window N + 2 (R338,
R339). -/
def State.noteRemote (s : State) (team pkg : Nat) : State :=
  let s := s.readTime.2
  { s with records := { s.records with
      remote := (s.records.remote.filter fun p => p.1 != team) ++
        [(team, (s.windowNow + 2) * (s.records.window * 500), addNat pkg (s.remoteOf team))] } }

/-- A write that no release has covered went to a package that is lost (R367). -/
def State.remoteLost (s : State) (team : Nat) : Bool := (s.remoteOf team).any s.records.lostPackages.contains

/-- A SYSTEM-scope release of a team completes at the start of window N + 2, where N is the window of its last remote write; or,
where that wait would pass the second S of a TIME_SET, at the start of the second window after S (R339, R380). -/
def State.awaitRemote (s : State) (team : Nat) : State :=
  match s.records.remote.find? (fun p => p.1 == team) with
  | none => s
  | some (_, due, _) =>
    let s := { s with records := { s.records with remote := s.records.remote.filter fun p => p.1 != team } }
    match s.records.nextWindow with
    | some (k, sec) => s.timeTo (duePast sec k due)
    | none => s.timeTo due

/-- READY.TSYNC (Table 23-2). -/
def State.tsync (s : State) : Bool := s.manage.ready.getLsbD 30

end Sys2Proof.Machine
end

