-- ==== Sys2Proof/Machine/Hash.lean ====
section
/-! DEFINITION. CRC-32C (R105, R388) and SHA-256 (R381) of bytes. -/

namespace Sys2Proof.Machine

open Sys2Proof

/-! ## CRC-32C (R388) -/

/-- One bit of the reflected division by 0x1EDC_6F41. -/
def crcBit (c : Word) : Word := if c.getLsbD 0 then (c >>> 1) ^^^ 0x82F63B78 else c >>> 1

/-- One byte. -/
def crcByte (c : Word) (b : Byte) : Word := (List.range 8).foldl (fun c _ => crcBit c) (c ^^^ b.setWidth 32)

/-- The CRC-32C of some bytes. -/
def crc32c (bs : List Byte) : Word := bs.foldl crcByte 0xFFFFFFFF ^^^ 0xFFFFFFFF

/-! ## SHA-256

The constants are computed from what they are, the fractional parts of roots of the first primes, and the message schedule
is a window of 16 words that moves one word a round. -/

/-- Whether `n` has no divisor from 2 to `d` but itself. -/
def noDivisor (n : Nat) : Nat → Bool
  | 0 | 1 => true
  | d + 2 => n % (d + 2) != 0 && noDivisor n (d + 1)

/-- The first 64 primes: those below 312. -/
def firstPrimes : List Nat := (List.range 312).filter fun n => 2 ≤ n && noDivisor n (n - 1)

/-- The largest number of `b` bits above `r` whose `k`-th power is at most `n`, found from its highest bit down. -/
def rootBits (k n : Nat) : Nat → Nat → Nat
  | 0, r => r
  | b + 1, r => rootBits k n b (if (r + 2 ^ b) ^ k ≤ n then r + 2 ^ b else r)

/-- The first 32 bits of the fractional part of the `k`-th root of `p`. -/
def rootFraction (k p : Nat) : Word := BitVec.ofNat 32 (rootBits k (p * 2 ^ (32 * k)) 37 0)

/-- The eight chained values of the hash, and the eight working variables of a round. -/
structure Sha where
  a : Word
  b : Word
  c : Word
  d : Word
  e : Word
  f : Word
  g : Word
  h : Word
  deriving DecidableEq, Repr

/-- The chained values that eight words give. -/
def Sha.ofWords (w : Nat → Word) : Sha := ⟨w 0, w 1, w 2, w 3, w 4, w 5, w 6, w 7⟩

/-- The words of the chained values, in order. -/
def Sha.words (v : Sha) : List Word := [v.a, v.b, v.c, v.d, v.e, v.f, v.g, v.h]

/-- The values before the first block: from the square roots of the first eight primes. -/
def Sha.first : Sha := Sha.ofWords fun n => rootFraction 2 (firstPrimes.getD n 0)

/-- The exclusive or of a word rotated right by each of some amounts. -/
def turned (x : Word) (amounts : List Nat) : Word := amounts.foldl (fun acc n => acc ^^^ x.rotateRight n) 0

/-- Bit by bit, `x` where `m` is 1 and `y` where it is 0. -/
def mux (m x y : Word) : Word := y ^^^ (m &&& (x ^^^ y))

/-- Bit by bit, what at least two of three words hold. -/
def most (x y z : Word) : Word := mux (x ^^^ y) z x

/-- One round over the working variables, with its constant `k` and its schedule word `w`. -/
def Sha.round (v : Sha) (k w : Word) : Sha :=
  let t := v.h + turned v.e [6, 11, 25] + mux v.e v.f v.g + k + w
  { v with
    a := t + turned v.a [2, 13, 22] + most v.a v.b v.c, b := v.a, c := v.b, d := v.c
    e := v.d + t, f := v.e, g := v.f, h := v.g }

/-- The word of the schedule that follows the 16 of the window. -/
def scheduleNext (win : List Word) : Word :=
  let early := win.getD 1 0
  let late := win.getD 14 0
  win.getD 0 0 + (turned early [7, 18] ^^^ early >>> 3) + win.getD 9 0 + (turned late [17, 19] ^^^ late >>> 10)

/-- The rounds that some primes give, one constant each, over a window of the schedule. -/
def Sha.rounds : List Nat → List Word → Sha → Sha
  | [], _, v => v
  | p :: ps, win, v =>
    Sha.rounds ps (win.drop 1 ++ [scheduleNext win]) (v.round (rootFraction 3 p) (win.getD 0 0))

/-- One block of 16 words into the chained values. -/
def Sha.absorb (v : Sha) (block : List Word) : Sha :=
  let r := Sha.rounds firstPrimes block v
  ⟨v.a + r.a, v.b + r.b, v.c + r.c, v.d + r.d, v.e + r.e, v.f + r.f, v.g + r.g, v.h + r.h⟩

/-- The number that some bytes are, the first byte the most significant. -/
def bigEndian (bs : List Byte) : Nat := bs.foldl (fun n b => 256 * n + b.toNat) 0

/-- A message as one number of whole 64-byte blocks: its bytes, a one bit, zeros, and its length in bits. -/
def padded (bs : List Byte) : Nat :=
  let zeros := (119 - bs.length % 64) % 64
  (256 * bigEndian bs + 0x80) * 2 ^ (8 * zeros + 64) + 8 * bs.length

/-- How many blocks the padded message has. -/
def paddedBlocks (bs : List Byte) : Nat := (bs.length + 72) / 64

/-- The 16 words of block `n` from the end of the padded message. -/
def blockWords (m n : Nat) : List Word :=
  (List.range 16).map fun i => BitVec.ofNat 32 (m >>> (512 * n + 32 * (15 - i)))

/-- The last `n` blocks of a message, taken in one after another. -/
def Sha.message (m : Nat) : Nat → Sha → Sha
  | 0, v => v
  | n + 1, v => Sha.message m n (v.absorb (blockWords m n))

/-- The 32 bytes of the digest of some bytes. -/
def sha256 (bs : List Byte) : List Byte :=
  (Sha.message (padded bs) (paddedBlocks bs) Sha.first).words.flatMap fun w => (bytesOfNum 4 w.toNat).reverse

/-- A digest as the 256 bits of a measurement register: its first byte is the most significant. -/
def digestOf (bs : List Byte) : BitVec 256 := BitVec.ofNat 256 (numOfBytes bs.reverse)

/-- The bytes of a measurement register. -/
def digestBytes (d : BitVec 256) : List Byte := (bytesOfNum 32 d.toNat).reverse

end Sys2Proof.Machine
end

