-- ==== Sys2Proof/Machine/Flags.lean ====
section
/-! DEFINITION. Raising and merging flags (R64 to R66, Table 03-13). -/

namespace Sys2Proof.Machine

open Sys2Proof

/-- A lane's flags. -/
def Group.flagsOf (g : Group) (l : Nat) : Flags := g.flags.getD l 0

/-- Raises flags in the lanes of a mask; `f` gives each lane's flags. -/
def Group.raise (g : Group) (m : Mask) (f : Nat → Flags) : Group :=
  { g with flags := laneNumbers.map fun l => if laneBit m l then g.flagsOf l ||| f l else g.flagsOf l }

/-- Replaces flags in the lanes of a mask. -/
def Group.setFlags (g : Group) (m : Mask) (f : Nat → Flags → Flags) : Group :=
  { g with flags := laneNumbers.map fun l => if laneBit m l then f l (g.flagsOf l) else g.flagsOf l }

/-- A lane's random state. -/
def Group.rngOf (g : Group) (l : Nat) : Rng := g.rng.getD l ⟨0, 0, 0, 0⟩

/-- Replaces the random state in the lanes of a mask. -/
def Group.setRng (g : Group) (m : Mask) (f : Nat → Rng) : Group :=
  { g with rng := laneNumbers.map fun l => if laneBit m l then f l else g.rngOf l }

/-- Records flags in the job-level set of a team (R66). -/
def Team.record (t : Team) (f : Flags) : Team := { t with jflags := t.jflags ||| f }

/-- The NV and OF that transfers record (Table 17-4). -/
def transferFlags (f : Flags) : Flags := f &&& (fNV ||| fOF)

end Sys2Proof.Machine
end

