-- ==== Sys2Proof/Machine/Walk.lean ====
section
/-! DEFINITION. The page walk (R153, R154, R372, Table 09-8), and what it finds without holding a leaf or raising a request. -/

namespace Sys2Proof.Machine

open Sys2Proof

/-! ## The walk -/

/-- A page-table entry read at a physical address. -/
def State.pte (s : State) (pa : Nat) : DWord := dwordOf (s.mem.read pa 8)

/-- Reserved bits of an entry that are not zero (Table 09-8). -/
def pteReserved (e : DWord) : Bool := e &&& 0xFFF0000000007002 != 0
/-- V. -/
def pteV (e : DWord) : Bool := e.getLsbD 0
/-- LEAF. -/
def pteLeaf (e : DWord) : Bool := e.getLsbD 8
/-- HOST. -/
def pteHost (e : DWord) : Bool := e.getLsbD 9
/-- W. -/
def pteW (e : DWord) : Bool := e.getLsbD 2
/-- X. -/
def pteX (e : DWord) : Bool := e.getLsbD 3
/-- MT. -/
def pteMt (e : DWord) : Nat := field e 4 2
/-- CLS. -/
def pteCls (e : DWord) : Nat := field e 6 2
/-- SZ. -/
def pteSz (e : DWord) : Nat := field e 10 2
/-- FRAME as a byte address. -/
def pteFrame (e : DWord) : Nat := field e 15 37 * 32768

/-- Where BAR0 lies in the device physical address space (R372). -/
def bar0At : Nat := 0x00F000000000
/-- The size of BAR0 (R371). -/
def bar0Size : Nat := 0x4000000
/-- Where the other packages' memories begin (R372). -/
def remoteAt : Nat := 2 ^ 51

/-- The package that a physical address lies in, when it is another's (R372). -/
def remotePkg (pa : Nat) : Option Nat := if remoteAt ≤ pa ∧ pa < remoteAt + 2 ^ 49 then some ((pa - remoteAt) / 2 ^ 39) else none

/-- A leaf names physical addresses that exist (R372). -/
def State.frameOk (s : State) (e : DWord) (size : Nat) : Bool :=
  let pa := pteFrame e
  pteHost e || pa + size ≤ s.manage.memSize ||
  (bar0At ≤ pa && pa + size ≤ bar0At + bar0Size && pteMt e == 2) ||
  (remoteAt ≤ pa && pa + size ≤ remoteAt + 2 ^ 49)

/-- What a walk finds (R153 to R155). -/
inductive Walk where
  | miss
  | malformed
  | leaf (e : DWord) (base size : Nat)
  deriving DecidableEq, Repr

/-- A leaf of a page size: well formed, or not. -/
def State.leafOf (s : State) (e : DWord) (va size : Nat) : Walk :=
  if pteMt e != 3 && pteFrame e % size == 0 && s.frameOk e size then .leaf e (va / size * size) size else .malformed

/-- The walk (R153, R154): each access through a span of differing entries uses its own entry. -/
def State.walk (s : State) (root va : Nat) : Walk :=
  let e0 := s.pte (root + va / 2 ^ 51 % 64 * 8)
  if !pteV e0 then .miss
  else if pteReserved e0 || pteLeaf e0 then .malformed
  else
    let e1 := s.pte (pteFrame e0 + va / 2 ^ 39 % 4096 * 8)
    if !pteV e1 then .miss
    else if pteReserved e1 || pteLeaf e1 then .malformed
    else
      let e2 := s.pte (pteFrame e1 + va / 2 ^ 27 % 4096 * 8)
      if !pteV e2 then .miss
      else if pteReserved e2 then .malformed
      else if pteLeaf e2 then (if pteSz e2 = 2 then s.leafOf e2 va (2 ^ 30) else .malformed)
      else
        let e3 := s.pte (pteFrame e2 + va / 2 ^ 15 % 4096 * 8)
        if !pteV e3 then .miss
        else if pteReserved e3 || !pteLeaf e3 then .malformed
        else if pteSz e3 = 0 then s.leafOf e3 va (2 ^ 15)
        else if pteSz e3 = 1 then s.leafOf e3 va (2 ^ 21)
        else .malformed

/-! ## Places -/

/-- The key under which `Memory`, the poisoned lines, the directory and the copies hold a translated byte. -/
def Xlat.key (x : Xlat) : Nat := if x.host then hostBase + x.pa else x.pa

/-- The place that a held leaf gives an address. -/
def TlbEntry.place (e : TlbEntry) (va : Nat) : Xlat :=
  ⟨(match e.hostBase with | some b => b | none => pteFrame e.leaf) + (va - e.base), pteMt e.leaf, pteCls e.leaf, e.hostBase.isSome⟩

/-- An ASID has translations, and the address is one of window 0x0 (R131, R153). -/
def State.walkable (s : State) (asid va : Nat) : Bool := s.live asid && va < 2 ^ 57

/-- Translation that holds nothing and raises nothing: the leaf that serves an address, if there is one. -/
def State.peekLeaf (s : State) (asid va : Nat) : Option TlbEntry :=
  if !s.walkable asid va then none
  else match s.tlb.find? (fun e => e.asid == asid && e.base ≤ va && va < e.base + e.size) with
    | some e => some e
    | none => match s.walk (field (s.ctx asid).root 15 37 * 32768) va with
      | .leaf e base size => if pteHost e then none else some ⟨asid, base, size, e, none⟩
      | _ => none

/-- Bytes of one line as their home holds them, of host memory as the LLC does, where an ASID reaches the line. -/
def State.peekBytes (s : State) (asid va n : Nat) : Option (List Byte) :=
  (s.peekLeaf asid va).map fun e =>
    let x := e.place va
    match (if x.host then s.copies.find? fun c => c.level == .llc && c.line == x.key / 128 else none) with
    | some c => (c.bytes.drop (x.key % 128)).take n
    | none => s.mem.read x.key n

end Sys2Proof.Machine
end

