-- ==== Sys2Proof/Machine/Registers.lean ====
section
/-! DEFINITION. The registers of BAR0 (Tables 07-1 to 07-3, 23-1 to 23-3), reached by the host and, through UNCACHED leaves,
by kernels (R372): what a read returns and what a write does. -/

namespace Sys2Proof.Machine

open Sys2Proof

/-! ## Launch queues (R101 to R104, R130) -/

/-- A launch queue. -/
def State.lq (s : State) (q : Nat) : LaunchQueue := s.lqs.get LaunchQueue.reset q

/-- Changes a launch queue. -/
def State.modLq (s : State) (q : Nat) (f : LaunchQueue → LaunchQueue) : State :=
  { s with lqs := s.lqs.modify LaunchQueue.reset q f }

/-- LQCFG.ENABLE. -/
def LaunchQueue.enabled (l : LaunchQueue) : Bool := l.cfg.getLsbD 63
/-- LQCFG.EXPORT. -/
def LaunchQueue.exporting (l : LaunchQueue) : Bool := l.cfg.getLsbD 62
/-- LQCFG.ASID. -/
def LaunchQueue.asid (l : LaunchQueue) : Nat := field l.cfg 0 8
/-- LQCFG.ACCOUNT. -/
def LaunchQueue.account (l : LaunchQueue) : Nat := field l.cfg 8 6

/-- LQSTAT (Table 07-3). -/
def LaunchQueue.stat (l : LaunchQueue) : DWord :=
  BitVec.ofNat 64 (l.errIdx.toNat * 256 + l.err.toNat * 16 + (if l.stop then 1 else 0))

/-- The records that a tail write makes visible as they then stand, each under its index (R103). -/
def State.seenRecords (s : State) (l : LaunchQueue) (t : BitVec 32) : SMap (List Byte) :=
  (List.range (t - l.tail).toNat).foldl (fun m k =>
    let i := (l.tail + BitVec.ofNat 32 k).toNat
    match s.peekBytes l.asid (l.base.toNat + 64 * (i % l.size)) 64 with
    | some bs => m.insert i bs
    | none => m.erase i) l.seen

/-- A write of t to LQTAIL (R102, R103). -/
def State.doorbell (s : State) (q : Nat) (t : BitVec 32) : State :=
  s.modLq q fun l =>
    if l.size < (t - l.head).toNat ∨ l.size < (t - l.tail).toNat then (if l.stop then l else { l with err := 5 })
    else { l with tail := t, seen := s.seenRecords l t }

/-- A one written to STOP skips the refused record (R104); a record that was read before a fatal error of the context stopped
the queue (R365) is behind LQHEAD already and goes, and a queue that the error stopped with no record left skips none (R103). -/
def State.stopClear (s : State) (q : Nat) : State :=
  s.modLq q fun l =>
    if l.stop then { l with stop := false, head := if l.got.isSome ∨ l.head = l.tail then l.head else l.head + 1, got := none } else l

/-- A read of LQSTAT, which clears ERR while STOP is 0 (R104). -/
def State.readLqstat (s : State) (q : Nat) : DWord × State :=
  let l := s.lq q
  (l.stat, if l.stop then s else s.modLq q fun l => { l with err := 0 })

/-- Runs of consecutive numbers as pairs of first number and length. -/
def runsOf : List Nat → List (Nat × Nat)
  | [] => []
  | n :: ns => match runsOf ns with
    | (k, c) :: rest => if k = n + 1 then (n, c + 1) :: rest else (n, 1) :: (k, c) :: rest
    | [] => [(n, 1)]

/-- An ascending list of numbers from any list. -/
def sortNats (ns : List Nat) : List Nat := ns.foldl (fun acc n => addNat n acc) []

/-- Withholds the unplaced teams of the queue's admitted grids that are not tiled: each range of launched teams is reported once (R130). -/
def State.withhold (s : State) (q : Nat) : State :=
  (s.grids.filter fun g => g.lq == q && !g.tiled).foldl (fun s g =>
    let ts := s.tasks.filter fun t => t.info.grid == g.uid && t.info.parent.isNone && !(s.lq q).withheld.contains t.info.uid
    let s := (runsOf (sortNats (ts.map fun t => t.info.number))).foldl (fun s r => s.record 8 ⟨.queue, q⟩ [q, r.1, r.2]) s
    if ts.isEmpty then s else s.modLq q fun l => { l with withheld := ts.foldl (fun w t => addNat t.info.uid w) l.withheld }) s

/-- Reports what every queue that is exported withholds. -/
def State.withholdAll (s : State) : State :=
  (s.lqs.filter fun p => p.2.exporting).foldl (fun s p => s.withhold p.1) s

/-- A write to LQCFG (Table 07-2, R102, R130). -/
def State.writeLqcfg (s : State) (q : Nat) (v : DWord) : State :=
  let l := s.lq q
  let w := v &&& 0xC000000000003FFF
  let w := if l.enabled then (w &&& ~~~0xFF) ||| (l.cfg &&& 0xFF) else w
  let s := s.modLq q fun l => { l with
    cfg := w
    withheld := if w.getLsbD 62 then l.withheld else []
    seen := if field w 0 8 = l.asid then l.seen else [] }
  if w.getLsbD 62 then s.withhold q else s

/-- A power of two between two bounds. -/
def powerIn (lo hi n : Nat) : Bool := lo ≤ n && n ≤ hi && n == 2 ^ Nat.log2 n

/-- A write to a register of a launch queue. -/
def State.writeLq (s : State) (q r : Nat) (v : DWord) : State :=
  match r with
  | 0 => s.modLq q fun l => if l.enabled then l else { l with base := v &&& ~~~0x3F, seen := [] }
  | 1 => s.modLq q fun l => if l.enabled || !powerIn 16 65536 v.toNat then l else { l with size := v.toNat, seen := [] }
  | 2 => s.writeLqcfg q v
  | 4 => s.doorbell q (v.setWidth 32)
  | 5 => if v.getLsbD 0 then s.stopClear q else s
  | _ => s

/-- A register of a launch queue. -/
def State.peekLq (s : State) (q r : Nat) : DWord :=
  let l := s.lq q
  match r with
  | 0 => l.base
  | 1 => BitVec.ofNat 64 l.size
  | 2 => l.cfg
  | 3 => l.head.setWidth 64
  | 4 => l.tail.setWidth 64
  | 5 => l.stat
  | _ => 0

/-! ## The loader's commands (R111, R112) -/

/-- A write to LDCMD: a load. -/
def State.loadStart (s : State) (asid : Nat) : State :=
  if s.loader.busy then s
  else { s with loader := { s.loader with busy := true, asid := asid, unload := false, atBase := s.loader.base, atLen := s.loader.len, park := none, refused := [] } }

/-- A write to LDCMD: an unload. -/
def State.unloadStart (s : State) (asid : Nat) : State :=
  if s.loader.busy then s
  else { s with loader := { s.loader with busy := true, asid := asid, unload := true, atBase := s.loader.base, atLen := s.loader.len, park := none, refused := [] } }

/-- LDSTAT. -/
def Loader.stat (l : Loader) : DWord :=
  BitVec.ofNat 64 ((if l.busy then 2 ^ 63 else 0) + l.code.toNat * 2 ^ 32 + l.offset.toNat)

/-! ## Page responses (R155, R376) -/

/-- What is parked on some pages waits for a page of an ASID. -/
def waitsFor (park : Option (List Nat × Nat)) (page asid : Nat) : Bool :=
  match park with
  | some (ps, a) => a == asid && ps.contains page
  | none => false

/-- A strand is held by a translation miss on a page of an ASID. -/
def Hold.awaitsPage (k : Hold) (page asid : Nat) : Bool :=
  match k with
  | .page ps a | .line ps a => a == asid && ps.contains page
  | _ => false

/-- A long-latency instruction parked on a page hears the answer. -/
def Pending.answered (p : Pending) (page asid : Nat) (ok : Bool) : Pending :=
  if waitsFor p.park page asid then { p with park := none, refused := if ok then p.refused else addNat page p.refused } else p

/-- A stager's transfer parked on a page hears the answer. -/
def Subscription.answered (b : Subscription) (page asid : Nat) (ok : Bool) : Subscription :=
  if waitsFor b.park page asid then { b with park := none, refused := if ok then b.refused else addNat page b.refused } else b

/-- Releases every access parked on a page: strands issue their instruction afresh, jobs, queues, the loader and the launch
queues read again; after a refusal each of them finds the page refused. -/
def State.pageAnswer (s : State) (page asid : Nat) (ok : Bool) : State :=
  let s := s.modAllStrands fun t _ x =>
    if t.asid = asid ∧ x.hold.any (Hold.awaitsPage · page asid) then
      { x with hold := none, refused := if ok then x.refused else addNat page x.refused }
    else x
  let s := s.modAllGroups fun _ g => { g with pending := g.pending.map fun p => p.answered page asid ok }
  { s with
    teams := s.teams.map fun t => { t with rings := t.rings.map fun p =>
      (p.1, { p.2 with sub := p.2.sub.map fun b => b.answered page asid ok }) }
    misses := s.misses.filter fun m => !(m.asid == asid && m.page == page)
    jobs := s.jobs.map fun j =>
      if waitsFor j.park page asid then { j with park := none, refused := if ok then j.refused else addNat page j.refused }
      else j
    queues := s.queues.map fun p =>
      if waitsFor p.2.park page asid then
        (p.1, { p.2 with park := none, refused := if ok then p.2.refused else addNat page p.2.refused })
      else p
    loader :=
      if s.loader.park = some page ∧ s.loader.asid = asid then
        { s.loader with park := none, refused := if ok then s.loader.refused else addNat page s.loader.refused }
      else s.loader
    lqs := s.lqs.map fun p =>
      if p.2.park = some page ∧ p.2.asid = asid then
        (p.1, { p.2 with park := none, refused := if ok then p.2.refused else addNat page p.2.refused })
      else p }

/-- PRI page requests that the host has not answered (R370). -/
def State.priOut (s : State) : Nat := (s.misses.filter fun m => m.host && m.posted).length

/-- Sends the PRI requests for HOST pages whose translation the host has refused, 64 at most outstanding (R155, R370). -/
def State.priPost (s : State) : State :=
  s.misses.foldl (fun s m =>
    if m.posted || !m.host || !m.denied || 64 ≤ s.priOut then s
    else { s with misses := s.misses.map fun x => if x.asid = m.asid ∧ x.page = m.page then { x with posted := true } else x }) s

/-- A driver's response answers every access parked on the page of the ASID, whether its request has left or waits (R376). -/
def State.pageResponse (s : State) (va : DWord) (asid : Nat) (ok : Bool) : State :=
  let page := va.toNat / 32768
  if s.misses.any fun m => m.asid == asid && m.page == page then (s.pageAnswer page asid ok).priPost else s

/-- The host's response to a PRI request for a page (R155). -/
def State.hostResponse (s : State) (va : DWord) (asid : Nat) (ok : Bool) : State :=
  let page := va.toNat / 32768
  if s.misses.any fun m => m.asid == asid && m.page == page && m.host && m.posted then (s.pageAnswer page asid ok).priPost else s

/-- Writes the page requests that were waiting for room in the ring (R376). -/
def State.missPost (s : State) : State :=
  s.misses.foldl (fun s m =>
    if m.posted || m.host || !s.prqRoom then s
    else
      let s := s.prqWrite (m.page * 32768) m.asid 0 m.access.code 0
      { s with misses := s.misses.map fun x => if x.asid = m.asid ∧ x.page = m.page then { x with posted := true } else x }) s

/-- Writes the migration requests for counts that have reached the high threshold, one for each until the count has fallen (R157). -/
def State.migPost (s : State) : State :=
  s.migCounts.foldl (fun s c =>
    if c.2 < Config.migrationThreshold 0 || s.migAsked.contains c.1 || !s.prqRoom then s
    else { s with migAsked := addNat c.1 s.migAsked }.prqWrite (c.1 / 256 * 2 ^ 21) (c.1 % 256) 1 0 c.2) s

/-- Writes the requests that wait for room in the ring. -/
def State.prqPost (s : State) : State := s.missPost.migPost

/-! ## Invalidations (R156, R377) -/

/-- Whether a run of addresses of an ASID meets an invalidation's range. -/
def Inval.covers (v : Inval) (asid base size : Nat) : Bool :=
  (match v.asid with | none => true | some a => a == asid) && base < v.base + v.len && v.base < base + size

/-- Starts an invalidation: the translation caches drop the entries that match; it completes later. -/
def State.invalStart (s : State) (asid : Option Nat) (base len : Nat) (host : Bool) : State :=
  let v : Inval := ⟨asid, base, len, host, s.uid⟩
  { s with
    tlb := s.tlb.filter fun e => !(v.covers e.asid e.base e.size && (!host || e.hostBase.isSome))
    invals := s.invals ++ [v] }

/-- INVSTAT.BUSY: an invalidation of the driver is in progress. -/
def State.invBusy (s : State) : Bool := s.invals.any fun v => !v.host

/-- A write to INVCMD with GO = 1. -/
def State.invCmd (s : State) (asid kind : Nat) : State :=
  if s.invBusy then s
  else match kind with
    | 0 => s.invalStart (some asid) s.manage.invVa.toNat s.manage.invLen.toNat false
    | 1 => s.invalStart (some asid) 0 (2 ^ 64) false
    | 2 => s.invalStart none 0 (2 ^ 64) false
    | _ => s

/-! ## Pre-emption (R357, R361, R375) -/

/-- A team's header sets IDEM or it is small and young enough, and so on: the mode of R357. -/
def State.preemptMode (s : State) (t : Team) (deadline : Nat) : TeamMode :=
  let elapsed := s.clock - t.started
  let remaining : Option Nat := match s.grid? t.info.grid with
    | some g => if g.ended = 0 then none else some (g.runTime / g.ended - elapsed)
    | none => none
  if t.groups.any (fun g => g.handler.isSome) || t.spawned then .saving
  else if (match remaining with | some r => decide (r ≤ deadline) | none => false) then .drain (s.clock + deadline)
  else if t.info.header.idem && elapsed < t.info.header.footprint / 64 + 4096 then .flushing
  else .saving

/-- Ends the pre-emption when every team of its context that it chose has been dealt with. -/
def State.preemptCheck (s : State) : State :=
  let p := s.manage.preempt
  if p.busy && !(s.teams.any fun t => t.asid == p.asid && t.mode != .running) then
    { s with manage := { s.manage with preempt := { p with busy := false } } }.msixSignal 4
  else s

/-- A write to PREEMPT with GO = 1. -/
def State.preemptStart (s : State) (asid deadline : Nat) (switch : Bool) : State :=
  if s.manage.preempt.busy then s
  else
    let s1 := { s with
      teams := s.teams.map fun (t : Team) =>
        if t.asid = asid ∧ t.mode = TeamMode.running then { t with mode := s.preemptMode t deadline } else t
      manage := { s.manage with preempt := ⟨true, false, 0, 0, asid, switch⟩ } }
    let s2 := if switch then s1.modCtx asid fun c => { c with out := true } else s1
    s2.preemptCheck

/-- A write to PREEMPT with RESUME = 1. -/
def State.resumeCtx (s : State) (asid : Nat) : State :=
  if s.manage.preempt.busy then s else s.modCtx asid fun c => { c with out := false }

/-- PSTAT. -/
def Preempt.stat (p : Preempt) : DWord :=
  BitVec.ofNat 64 ((if p.busy then 2 ^ 63 else 0) + (if p.partialSave then 2 ^ 62 else 0) +
    p.flushed % 2 ^ 24 * 2 ^ 24 + p.saved % 2 ^ 24)

/-! ## The map of BAR0 (Table 23-1) -/

/-- A context block's register (Table 23-3). -/
def Ctx.peek (c : Ctx) (r : Nat) : DWord :=
  match r with
  | 0 => c.root
  | 1 => c.got
  | 2 => c.frame
  | 3 => c.save
  | 4 => c.saveLen
  | 5 => c.pasid
  | _ => 0

/-- Bits 56:15 of an address. -/
def alignedMask : DWord := 0x01FFFFFFFFFF8000

/-- A context block's register written. -/
def Ctx.write (c : Ctx) (r : Nat) (v : DWord) : Ctx :=
  match r with
  | 0 => { c with root := v &&& 0x000FFFFFFFFF8001 }
  | 1 => { c with got := v &&& 0x01FFFFFFFFFFFFF8 }
  | 2 => { c with frame := v &&& alignedMask }
  | 3 => { c with save := v &&& alignedMask }
  | 4 => { c with saveLen := v }
  | 5 => { c with pasid := v &&& 0x1FFFFF }
  | _ => c

/-- An ASID is in use, so that its context block keeps its contents (R373). -/
def State.ctxBusy (s : State) (asid : Nat) : Bool :=
  s.lqs.any (fun p => p.2.enabled && p.2.asid == asid) || s.teams.any (fun t => t.asid == asid) ||
  s.saved.any (fun t => t.asid == asid) ||
  s.tasks.any (fun t => match s.grid? t.info.grid with | some g => g.asid == asid | none => false)

/-- A register of BAR0 by its offset, a multiple of 8; a read changes nothing here. -/
def State.regPeek (s : State) (off : Nat) : DWord :=
  let m := s.manage
  if off < 0x1000 then s.peekLq (off / 64) (off / 8 % 8)
  else if 0x10000 ≤ off ∧ off < 0x18000 then s.counter ((off - 0x10000) / 8)
  else if 0x20000 ≤ off ∧ off < 0x24000 then (s.ctx ((off - 0x20000) / 64)).peek ((off - 0x20000) / 8 % 8)
  else if 0x7000 ≤ off ∧ off ≤ 0x7060 then m.wayq.getD ((off - 0x7000) / 8) 0
  else match off with
    | 0x1000 => s.loader.base
    | 0x1008 => s.loader.len
    | 0x1018 => s.loader.stat
    | 0x1020 => BitVec.ofNat 64 s.wcprobe
    | 0x2000 => m.ready
    | 0x2008 => m.fenced
    | 0x2010 => BitVec.ofNat 64 m.memSize
    | 0x3008 => m.mbox.args.getD 0 0
    | 0x3010 => m.mbox.args.getD 1 0
    | 0x3018 => m.mbox.args.getD 2 0
    | 0x3020 => m.mbox.args.getD 3 0
    | 0x3028 => m.mbox.buf
    | 0x3030 => BitVec.ofNat 64 ((if m.mbox.cmd.isSome then 2 ^ 63 else 0) + m.mbox.result.toNat)
    | 0x3040 => m.evBase
    | 0x3048 => m.evSize
    | 0x3050 => m.evHead
    | 0x3058 => m.evTail
    | 0x4008 => m.preempt.stat
    | 0x5008 => m.invVa
    | 0x5010 => m.invLen
    | 0x5018 => if s.invBusy then 0x8000000000000000 else 0
    | 0x6000 => m.prqBase
    | 0x6008 => m.prqSize
    | 0x6010 => m.prqHead
    | 0x6018 => m.prqTail
    | 0x7068 => m.subupd
    | 0x7070 => BitVec.ofNat 64 s.records.pwrcap
    | _ => 0

/-- A read of a register, with what the read itself does (LQSTAT: R104). -/
def State.regRead (s : State) (off : Nat) : DWord × State :=
  if off < 0x1000 ∧ off / 8 % 8 = 5 then s.readLqstat (off / 64) else (s.regPeek off, s)

/-- A valid `WAYQ` value (Table 09-3). -/
def wayqOk (v : DWord) : Bool := [0, 5, 10, 15].all fun k => field v k 5 ≤ 16

/-- A mailbox command ends with a result, which vector 0 signals (R371, R385). -/
def State.mailboxEnd (s : State) (result : Nat) : State :=
  { s with manage := { s.manage with mbox := { s.manage.mbox with cmd := none, result := BitVec.ofNat 16 result } } }.msixSignal 0

/-- Toard's firmware is verified and running (R378): it performs the mailbox commands and answers SPDM requests. -/
def State.toardRuns (s : State) : Bool := s.manage.ready.getLsbD 0

/-- A command code of Table 23-5. -/
def knownCommand (code : BitVec 8) : Bool := 1 ≤ code.toNat && code.toNat ≤ 11

/-- The mailbox: commands are taken one at a time; an unknown one ends at once (R385), when Toard's firmware runs. -/
def State.mailboxCmd (s : State) (code : BitVec 8) : State :=
  if s.manage.mbox.cmd.isSome then s
  else if !knownCommand code && s.toardRuns then s.mailboxEnd 1
  else { s with manage := { s.manage with mbox := { s.manage.mbox with cmd := some code } } }

/-- A write of the whole register at an offset. Before the atrium is ready only the mailbox is written (R378). -/
def State.regWrite (s : State) (off : Nat) (v : DWord) : State :=
  let m := s.manage
  let put := fun (m : Manage) => { s with manage := m }
  if !m.ready.getLsbD 1 && !(0x3000 ≤ off && off < 0x3040) then s
  else if off < 0x1000 then s.writeLq (off / 64) (off / 8 % 8) v
  else if 0x10000 ≤ off ∧ off < 0x18000 then s.putCounter ((off - 0x10000) / 8) v
  else if 0x20000 ≤ off ∧ off < 0x24000 then
    let a := (off - 0x20000) / 64
    if s.ctxBusy a then s else s.modCtx a fun c => c.write ((off - 0x20000) / 8 % 8) v
  else if 0x7000 ≤ off ∧ off ≤ 0x7060 then
    if wayqOk v then put { m with wayq := m.wayq.set ((off - 0x7000) / 8) (v &&& 0xFFFFF) } else s
  else match off with
    | 0x1000 => { s with loader := { s.loader with base := v } }
    | 0x1008 => { s with loader := { s.loader with len := v } }
    | 0x1010 =>
      if v.getLsbD 8 && v.getLsbD 9 then s
      else if v.getLsbD 8 then s.loadStart (field v 0 8)
      else if v.getLsbD 9 then s.unloadStart (field v 0 8) else s
    | 0x1020 => if v.toNat < 1024 then s else { s with wcprobe := v.toNat }
    | 0x3000 => s.mailboxCmd (v.setWidth 8)
    | 0x3008 => put { m with mbox := { m.mbox with args := m.mbox.args.set 0 v } }
    | 0x3010 => put { m with mbox := { m.mbox with args := m.mbox.args.set 1 v } }
    | 0x3018 => put { m with mbox := { m.mbox with args := m.mbox.args.set 2 v } }
    | 0x3020 => put { m with mbox := { m.mbox with args := m.mbox.args.set 3 v } }
    | 0x3028 => put { m with mbox := { m.mbox with buf := v } }
    | 0x3040 => put { m with evBase := v }
    | 0x3048 => put { m with evSize := v }
    | 0x3050 => put { m with evHead := v }
    | 0x4000 =>
      if v.getLsbD 8 then s.preemptStart (field v 0 8) (field v 32 32) (v.getLsbD 9)
      else if v.getLsbD 10 then s.resumeCtx (field v 0 8) else s
    | 0x5000 => if v.getLsbD 10 then s.invCmd (field v 0 8) (field v 8 2) else s
    | 0x5008 => put { m with invVa := v &&& ~~~0x7FFF }
    | 0x5010 => put { m with invLen := v }
    | 0x6000 => put { m with prqBase := v }
    | 0x6008 => if powerIn 64 65536 v.toNat then (put { m with prqSize := v }).prqPost else s
    | 0x6010 => (put { m with prqHead := v }).prqPost
    | 0x6020 => put { m with prspVa := v }
    | 0x6028 => if v.getLsbD 9 then s.pageResponse m.prspVa (field v 0 8) (v.getLsbD 8) else s
    | 0x7068 => put { m with subupd := v &&& 0xF }
    | 0x7070 =>
      if 600 ≤ field v 0 13 ∧ field v 0 13 ≤ 3600 then { s with records := { s.records with pwrcap := field v 0 13 } } else s
    | _ => s

/-- The registers that a run of bytes of BAR0 reaches: the first byte in each, and how many. -/
def barParts (off n : Nat) : List (Nat × Nat) :=
  (List.range ((off + n + 7) / 8 - off / 8)).map fun i =>
    let lo := max off (8 * (off / 8 + i))
    (lo, min (off + n) (8 * (off / 8 + i + 1)) - lo)

/-- Reads some bytes of one register of BAR0. -/
def State.barReadOne (s : State) (off n : Nat) : List Byte × State :=
  let r := s.regRead (off / 8 * 8)
  ((bytesOfNum 8 r.1.toNat).drop (off % 8) |>.take n, r.2)

/-- Reads the registers of a run of bytes of BAR0, in ascending order. -/
def State.barReadParts (s : State) : List (Nat × Nat) → List Byte × State
  | [] => ([], s)
  | (off, n) :: rest =>
    let r := s.barReadOne off n
    let q := r.2.barReadParts rest
    (r.1 ++ q.1, q.2)

/-- A read of a run of bytes of BAR0. -/
def State.barRead (s : State) (off n : Nat) : List Byte × State := s.barReadParts (barParts off n)

/-- Writes some bytes of one register of BAR0; the other bytes of the register keep their values, and those of LQSTAT write nothing. -/
def State.barWriteOne (s : State) (off : Nat) (bs : List Byte) : State :=
  let old := bytesOfNum 8 (if off < 0x1000 ∧ off / 8 % 8 = 5 then 0 else (s.regPeek (off / 8 * 8)).toNat)
  let new := old.take (off % 8) ++ bs ++ old.drop (off % 8 + bs.length)
  s.regWrite (off / 8 * 8) (dwordOf (fit 8 new))

/-- A write of a run of bytes of BAR0, one register after another in ascending order. -/
def State.barWrite (s : State) (off : Nat) (bs : List Byte) : State :=
  (barParts off bs.length).foldl (fun s p => s.barWriteOne p.1 ((bs.drop (p.1 - off)).take p.2)) s

end Sys2Proof.Machine
end

