-- ==== Sys2Proof/Machine/Paging.lean ====
section
/-! DEFINITION. Stop codes (Table 21-3), generic addresses (R131 to R135, R342, R359) and translation (R153 to
R157, R372). -/

namespace Sys2Proof.Machine

open Sys2Proof

/-! ## Stop codes -/

/-- A stop code of Table 21-3. -/
abbrev Code := Nat

def cBadTarget : Code := 0x01
def cRole : Code := 0x02
def cNotHandler : Code := 0x03
def cExtNotHeld : Code := 0x04
def cNonUniform : Code := 0x05
def cSplitDepth : Code := 0x06
def cSpawnDepth : Code := 0x07
def cSchedRewrite : Code := 0x08
def cQueueOwner : Code := 0x09
def cTileShape : Code := 0x0A
def cBadCard : Code := 0x0B
def cBadRing : Code := 0x0C
def cRingBound : Code := 0x0D
def cBadTensor : Code := 0x0E
def cBadHeader : Code := 0x0F
def cAddrSpace : Code := 0x10
def cSpaceOwner : Code := 0x11
def cAlign : Code := 0x12
def cPage : Code := 0x13
def cPerm : Code := 0x14
def cPoison : Code := 0x15
def cLinkLost : Code := 0x16
def cLength : Code := 0x17
def cRegRange : Code := 0x18
def cTrap : Code := 0x20
def cGotBind : Code := 0x21
def cWaitCycle : Code := 0x22
def cJobFail : Code := 0x23
def cDebug : Code := 0x24
def cQueuePoison : Code := 0x30
def cClassLost : Code := 0x31
def cDoubleFault : Code := 0x32
def cContextFatal : Code := 0x33
def cDepFailed : Code := 0x34

/-- The lowest code among lanes, with the lowest lane that has it. -/
def lowestCode : List (Nat × Code) → Option (Nat × Code)
  | [] => none
  | (l, c) :: rest => match lowestCode rest with
    | some (k, d) => if d < c then some (k, d) else some (l, c)
    | none => some (l, c)

/-! ## Translation -/

/-- What translating one address gives: a physical place, a fault, or a miss of a 32 KiB page (of a HOST leaf, or not). -/
inductive Tr where
  | ok (x : Xlat)
  | bad (c : Code)
  | miss (page : Nat) (host : Bool)
  deriving DecidableEq, Repr

/-- The byte of a key lies in a page of a loaded segment: executable and read-only in every context (R112). -/
def State.loadedPage (s : State) (key : Nat) : Bool := s.segs.any fun g => g.pages.contains (key / 32768)

/-- The permission checks of a leaf (R112, R154); `key` is the byte's key. -/
def State.permBad (s : State) (e : DWord) (key : Nat) (a : Access) : Bool :=
  match a with
  | .read => false
  | .write => !pteW e || s.loadedPage key
  | .fetch => !(pteX e || s.loadedPage key)

/-- Translation by a held leaf. -/
def State.trVia (s : State) (e : TlbEntry) (va : Nat) (a : Access) : Tr :=
  let x := e.place va
  if s.permBad e.leaf x.key a then .bad cPerm else .ok x

/-- Translates a global address (R153 to R155): a leaf that the translation caches hold serves; otherwise a walk is made and a
valid leaf is held. An ASID that is not live has no walk and its accesses take PAGE. -/
def State.translate (s : State) (asid va : Nat) (a : Access) : Tr × State :=
  if !s.walkable asid va then (.bad cPage, s)
  else match s.tlb.find? (fun e => e.asid == asid && e.base ≤ va && va < e.base + e.size) with
    | some e => (s.trVia e va a, s)
    | none => match s.walk (field (s.ctx asid).root 15 37 * 32768) va with
      | .miss => (.miss (va / 32768) false, s)
      | .malformed => (.bad cPage, s)
      | .leaf e base size =>
        if pteHost e then (.miss (va / 32768) true, s)
        else
          let t : TlbEntry := ⟨asid, base, size, e, none⟩
          (s.trVia t va a, { s with tlb := s.tlb ++ [t] })

/-- Notes a miss: the walkers coalesce misses of one page, and one request is raised for it (R155). `ranged` says that a range instruction
misses it (R203). -/
def State.noteMiss (s : State) (asid page : Nat) (a : Access) (host ranged : Bool) : State :=
  if s.misses.any fun m => m.asid == asid && m.page == page then
    { s with misses := s.misses.map fun m => if m.asid = asid ∧ m.page = page then { m with ranged := m.ranged && ranged } else m }
  else
    let m : Miss := ⟨asid, page, a, false, host, false, ranged⟩
    { s with misses := s.misses ++ [m] }.prqPost

/-- Notes the misses of one access: one request leaves for each page (R155). -/
def State.noteMisses (s : State) (asid : Nat) (a : Access) (ps : List (Nat × Bool)) : State :=
  ps.foldl (fun s p => s.noteMiss asid p.1 a p.2 false) s

/-- Notes the pages for whose translation a range instruction waits (R203). -/
def State.noteRange (s : State) (asid : Nat) (ps : List (Nat × Bool)) : State :=
  ps.foldl (fun s p => s.noteMiss asid p.1 .read p.2 true) s

/-! ## Generic addresses -/

/-- Where a generic address leads before translation: a global address, or a byte of a team's run. -/
inductive Space where
  | glob (va : Nat)
  | store (team off : Nat)
  deriving DecidableEq, Repr

/-- The window of a generic address by its top bits and its must-be-zero fields (Table 09-1): none when they take ADDR_SPACE. -/
def windowOf (a : DWord) : Option Nat :=
  match field a 60 4 with
  | 0x0 => if field a 57 3 = 0 then some 0x0 else none
  | 0xA => if field a 24 36 = 0 then some 0xA else none
  | 0xB => if field a 47 13 = 0 ∧ field a 24 12 = 0 then some 0xB else none
  | 0xC => if field a 43 17 = 0 ∧ field a 28 12 = 0 then some 0xC else none
  | _ => none

/-- The address of a group's trap frame (R374). -/
def State.frameAddr (s : State) (t : Team) (g : Group) : Nat :=
  (s.ctx t.asid).frame.toNat +
    0x5400 * (32 * (96 * coreDie t.core + 12 * coreGallery t.core + coreMember t.core) + 16 * g.barrel + g.slot)

/-- Two teams lie in one co-location block (R116, R134). -/
def sameBlock (a b : TaskInfo) : Bool :=
  a.uid == b.uid ||
  (2 ≤ a.header.coloc && a.grid == b.grid && a.header.coloc == b.header.coloc &&
    a.number / a.header.coloc == b.number / b.header.coloc)

/-- A team is reached under a core identity: its core, or one it was saved from (R359). -/
def Team.answers (t : Team) (core : Nat) : Bool := t.core == core || t.aliases.contains core

/-- The byte of a team's run at a scratchpad offset. -/
def Team.scratchOff (t : Team) (off : Nat) : Nat := 256 * t.info.header.scratchAt + off

/-- A private offset as a byte of the team's run (R77, R132). -/
def privateOff (t : Team) (g : Group) (off : Nat) : Nat :=
  let n := off / 256
  let bx := regB t g + regX t g
  let row := if n < bx then regRow t g n else t.info.header.stackAt g.num + (n - bx)
  256 * row + off % 256

/-- Decodes an access of `n` bytes (R131 to R134). `frame` says that the agent may reach the trap frame (R342). -/
def State.resolve (s : State) (t : Team) (g : Group) (frame : Bool) (a : DWord) (n : Nat) : Except Code Space :=
  match windowOf a with
  | some 0x0 => if a.toNat + n ≤ 2 ^ 57 then .ok (.glob a.toNat) else .error cAddrSpace
  | some 0xA =>
    let off := field a 0 24
    if frame ∧ 0xC00000 ≤ off ∧ off + n ≤ 0xC05200 then .ok (.glob (s.frameAddr t g + (off - 0xC00000)))
    else if off + n ≤ 256 * (regB t g + regX t g + t.info.header.stack) then .ok (.store t.info.uid (privateOff t g off))
    else .error cAddrSpace
  | some 0xB =>
    let off := field a 0 24
    let core := field a 36 11
    if !coreNamed core then .error cAddrSpace
    else if 1024 * t.info.header.scratch < off + n then .error cAddrSpace
    else if !t.answers core then .error cSpaceOwner
    else .ok (.store t.info.uid (t.scratchOff off))
  | some 0xC =>
    let off := field a 0 24
    let gal := field a 40 3
    let mem := field a 24 4
    if 12 ≤ mem then .error cAddrSpace
    else
      let hit := s.teams.find? fun u =>
        sameBlock t.info u.info && coreDie u.core == coreDie t.core &&
        ((coreGallery u.core == gal && coreMember u.core == mem) ||
          u.aliases.any fun c => coreGallery c == gal && coreMember c == mem)
      match hit with
      | some u => if off + n ≤ 1024 * u.info.header.shared then .ok (.store u.info.uid (u.scratchOff off)) else .error cAddrSpace
      | none => if gal != coreGallery t.core then .error cSpaceOwner else .error cAddrSpace
  | _ => .error cAddrSpace

/-- An access of `n` bytes at a private address reaches a byte of the extended set (R77, R81). -/
def inExt (t : Team) (g : Group) (a : DWord) (n : Nat) : Bool :=
  let off := field a 0 24
  windowOf a == some 0xA && decide (max off (256 * regB t g) < min (off + n) (256 * (regB t g + regX t g)))

/-- The checks of one address of a group memory instruction before translation (R346): window and limit, owner, alignment,
the extended-set lock. The lowest code found is taken. -/
def State.checkAddr (s : State) (h : Here) (a : DWord) (n : Nat) : Except Code Space :=
  match s.resolve h.team h.group h.inHandler a n with
  | .error c => .error c
  | .ok sp =>
    if inExt h.team h.group a n && !h.team.xHeld h.group then .error cExtNotHeld
    else if a.toNat % n != 0 then .error cAlign
    else .ok sp

end Sys2Proof.Machine
end

