-- ==== Sys2Proof/Machine/Coherence.lean ====
section
/-! DEFINITION. What an access does to the directory, the views and the tokens of a COHERENT line (R320 to R329). Values are
always current in `State.mem`; the directory, the dies and the tokens hold states only. -/

namespace Sys2Proof.Machine

open Sys2Proof

/-- A die's knowledge of a line that it does not hold. -/
def DieLine.reset : DieLine := ⟨.i, none, none, false, ⟨[], none⟩⟩

/-- A directory line. -/
def State.dirLine (s : State) (line : Nat) : DirLine := s.dir.get DirLine.reset line

/-- Changes a directory line. -/
def State.modDir (s : State) (line : Nat) (f : DirLine → DirLine) : State := { s with dir := s.dir.modify DirLine.reset line f }

/-- A die. -/
def State.die (s : State) (d : Nat) : DieState := s.dies.getD d DieState.reset

/-- Changes a die. -/
def State.modDie (s : State) (d : Nat) (f : DieState → DieState) : State :=
  { s with dies := s.dies.set d (f (s.die d)) }

/-- Changes a die's knowledge of a line. -/
def State.modDieLine (s : State) (d line : Nat) (f : DieLine → DieLine) : State :=
  s.modDie d fun x => { x with lines := x.lines.modify DieLine.reset line f }

/-- The directory state of a die. -/
def DirLine.of (d : DirLine) (die : Nat) : DirState × Option View := d.dies.get (.i, none) die

/-- A die holds the line at full precision. -/
def fullHeld (p : DirState × Option View) : Bool := p.1 != .i && p.2.isNone

/-- A die holds the line with ownership (E, M or O). -/
def owned (p : DirState × Option View) : Bool := p.1 == .e || p.1 == .m || p.1 == .o

/-- Sets the state of a die for a line, in the directory and on the die; VS stays 1 only while a die holds a view (R328). -/
def State.hold (s : State) (line die : Nat) (st : DirState) (v : Option View) : State :=
  let s1 := s.modDir line fun d =>
    let dies := d.dies.put (.i, none) die (st, v)
    { d with dies := dies, vs := dies.any fun p => p.2.2.isSome }
  s1.modDieLine die line fun x =>
    { x with state := st, view := v, tokens := if st = .i ∨ v.isSome then ⟨[], none⟩ else x.tokens }

/-! ## Views (R320 to R323) -/

/-- The number format of a view's elements in memory (R321): its own descriptor decodes a narrow one. -/
def View.source (v : View) : Option NumFmt := (Fmt.ofCode v.src).map fun f => f.num (List.replicate 16 v.srcDesc)

/-- The number format of a view's renderings. -/
def View.target (v : View) : Option NumFmt := (Fmt.ofCode v.fmt).map fun f => f.num (List.replicate 16 v.desc)

/-- Element codes of a line under a format of `w` bits. -/
def lineCodes (w : Nat) (bs : List Byte) : List Nat :=
  let n := numOfBytes bs
  (List.range (1024 / w)).map fun i => n >>> (i * w) % 2 ^ w

/-- Blocks of 32 of a list. -/
def blocksOf32 {α : Type} (xs : List α) : List (List α) :=
  (List.range ((xs.length + 31) / 32)).map fun i => (xs.drop (32 * i)).take 32

/-- The rendering of a line at a view: each element's code with its block's scale (R321). The scales of an MX source stand in other lines
(R46), so that its elements are compared by their codes (log entry 36). -/
def View.renderLine (v : View) (bs : List Byte) : List (Nat × Nat) :=
  match v.source, v.target with
  | some src, some tgt =>
    let codes := lineCodes src.bits bs
    if src.isMx then codes.map fun c => (c, 0)
    else
      let vals := codes.map fun c => src.srcVal c 0
      match tgt with
      | .mx n =>
        (blocksOf32 vals).flatMap fun blk =>
          let r := mxBlock n (blk.map fun x => (mxValue x src.wide none, .rne))
          r.2.map fun c => (c.1, r.1)
      | t => vals.map fun x => ((convert t x src.wide none .rne false).1, 0)
  | _, _ => []

/-- Bits of a source element of a view. -/
def View.srcBits (v : View) : Nat :=
  match v.source with
  | some f => f.bits
  | none => 8

/-- R323: some element that a store touched is rendered otherwise. `touched` are byte offsets in the line. -/
def View.changed (v : View) (old new : List Byte) (touched : List Nat) : Bool :=
  let w := v.srcBits
  let a := v.renderLine old
  let b := v.renderLine new
  (List.range (1024 / w)).any fun i =>
    touched.any (fun t => i * w < 8 * t + 8 && 8 * t < (i + 1) * w) && a[i]? != b[i]?

/-! ## Tokens (R326) -/

/-- Tokens that the cores of a die hold. -/
def Tokens.held (t : Tokens) : Nat := (t.cores.map (·.2)).sum

/-- Moves tokens to a core: one for a read, all 128 for a write. -/
def Tokens.take (t : Tokens) (core : Nat) (write : Bool) : Tokens :=
  if write then ⟨[(core, 128)], some core⟩
  else if 0 < t.cores.get 0 core then t
  else if t.held < 128 then { t with cores := t.cores.put 0 core 1 }
  else match t.cores.find? (fun p => 1 < p.2) with
    | some p => { t with cores := (t.cores.put 0 p.1 (p.2 - 1)).put 0 core 1 }
    | none => t

/-! ## Accesses -/

/-- The home is at work on a line, or a message of it is under way (R331). -/
def State.lineBusy (s : State) (line : Nat) : Bool :=
  let d := s.dirLine line
  d.trans != .stable || !d.queue.isEmpty ||
  s.dies.any fun x => x.up.any (fun m => m.line == line) || x.down.any fun m => m.line == line

/-- Atrium clocks since reset (R5). -/
def State.atriumNow (s : State) : Nat := s.clock * 4 / 3

/-- The lines of which some message or some work at the home is under way. -/
def State.busyLines (s : State) : List Nat :=
  ((s.dir.filter fun p => p.2.trans != .stable || !p.2.queue.isEmpty).map (·.1)) ++
  s.dies.flatMap fun x => x.up.map (·.line) ++ x.down.map (·.line)

/-- The COHERENT lines of some places are at rest: an access to them may be performed (R331). -/
def State.atRest (s : State) (xs : List Xlat) : Bool :=
  s.busyLines.isEmpty || xs.all fun x => x.mt != 0 || !s.lineBusy (x.key / 128)

/-- A message sent to a home on a die's link (R330). -/
def State.sendUp (s : State) (d : Nat) (m : UpMsg) : State := s.modDie d fun x => { x with up := x.up ++ [m] }

/-- Where a line is read or written (R200): at its home, in a die cache, or in a core's L1 part. -/
inductive Site where
  | home
  | die (d : Nat)
  | core (c : Nat)
  deriving DecidableEq, Repr

/-- The die of a site. -/
def Site.onDie : Site → Option Nat
  | .home => none
  | .die d => some d
  | .core c => some (coreDie c)

/-- The tokens of a line once an access has been made at a site of the die (R326): the L1 part of a core has the tokens that it needs, the
die cache has them all for a write there. -/
def Site.tokens (p : Site) (t : Tokens) (write : Bool) : Tokens :=
  match p with
  | .home => t
  | .die _ => if write then ⟨[], none⟩ else t
  | .core c => t.take c write

/-- A core has performed an access to a line: its slot for a persistent request is free (R327). -/
def State.freeSlot (s : State) (p : Site) (line : Nat) : State :=
  match p with
  | .core c =>
    if (s.die (coreDie c)).persistent.any fun q => q.core == c && q.line == line then
      s.modDie (coreDie c) fun x => { x with
        persistent := x.persistent.filter fun q => q.core != c
        served := none
        lastServed := c }
    else s
  | .home | .die _ => s

/-- The die of a core serves the persistent request of another core for a line: every holder sends its tokens there (R327). -/
def State.slotBars (s : State) (core line : Nat) : Bool :=
  let x := s.die (coreDie core)
  match x.served with
  | some c => c != core && x.persistent.any fun q => q.core == c && q.line == line
  | none => false

/-- A read of a COHERENT line at its home: an owner supplies the data and keeps S, unless it has dropped the line (R330, R340). -/
def State.dirReadHome (s : State) (line : Nat) : State :=
  let d := s.dirLine line
  if s.lineBusy line then s
  else d.dies.foldl (fun s p =>
    if p.2.1 == .e || p.2.1 == .m then
      s.hold line p.1 (if ((s.die p.1).lines.get DieLine.reset line).state = .i then .i else .s) none
    else s) s

/-- A read at a site, at full precision or at a view (R322, Table 19-5). Every access waits until the line is at rest (R331); the prefetch of
a line on which the home is at work changes nothing. -/
def State.dirRead (s : State) (at_ : Site) (line : Nat) (v : Option View) : State :=
  if s.lineBusy line then s
  else match at_.onDie with
    | none => s.dirReadHome line
    | some die =>
      let x := (s.die die).lines.get DieLine.reset line
      let st := (x.state, x.view)
      let s1 :=
        if fullHeld st || (st.1 != .i && st.2 == v) then s
        else
          let s1 := s.dirReadHome line
          let others := (s1.dirLine line).dies.any fun p => p.1 != die
          s1.hold line die (if v.isSome || others then .s else .e) v
      if v.isNone then
        (s1.modDieLine die line fun x => { x with tokens := at_.tokens x.tokens false }).freeSlot at_ line
      else s1

/-- A store performed at home: copies at full precision of the other dies go, and a die that holds a view keeps it when its
renderings are unchanged or when SUBUPD sends it an update (R323, R324). `old` and `new` are the line's bytes. -/
def State.dirStore (s : State) (keep : Option Nat) (line cls : Nat) (old new : List Byte) (touched : List Nat) : State :=
  (s.dirLine line).dies.foldl (fun s p =>
    if keep == some p.1 && p.2.2.isNone then s
    else match p.2.2 with
      | none => s.hold line p.1 .i none
      | some v =>
        if keep == some p.1 then s.hold line p.1 .i none
        else if v.changed old new touched && !s.manage.subupd.getLsbD cls then s.hold line p.1 .i none
        else s) s

/-- Write permission for a site: its die gets M, the other copies at full precision go, and the site gets the tokens (R326, R328). -/
def State.dirTake (s : State) (at_ : Site) (line : Nat) : State :=
  match at_.onDie with
  | none => s
  | some d =>
    let s1 := ((s.dirLine line).dies.foldl (fun s p => if p.1 != d && p.2.2.isNone then s.hold line p.1 .i none else s) s).hold line d .m none
    (s1.modDieLine d line fun x => { x with tokens := at_.tokens x.tokens true }).freeSlot at_ line

/-- A write at a site (R323, R326, R328). -/
def State.dirWrite (s : State) (at_ : Site) (line cls : Nat) (old new : List Byte) (touched : List Nat) : State :=
  if s.lineBusy line then s
  else (s.dirStore at_.onDie line cls old new touched).dirTake at_ line

end Sys2Proof.Machine
end

