-- ==== Sys2Proof/Machine/Access.lean ====
section
/-! DEFINITION. Reading and writing bytes that have been translated: the core store (R136, R362), MANUAL copies (R142, R335,
R336), COHERENT and UNCACHED memory at its home (R313, R335, R337), BAR0 through UNCACHED leaves (R372), and atomics (R200,
R319). -/

namespace Sys2Proof.Machine

open Sys2Proof

/-! ## The core store -/

/-- A byte of a row. -/
def rowByte (r : Lanes) (i : Nat) : Byte := ((r.getD (i / 4) 0).toNat / 256 ^ (i % 4)) |> BitVec.ofNat 8

/-- A run of bytes of a team's rows. -/
def Team.bytes (t : Team) (off n : Nat) : List Byte := (List.range n).map fun i => rowByte (t.row ((off + i) / 256)) ((off + i) % 256)

/-- A poisoned row among the rows of a run of bytes (R362). -/
def Team.rowsBad (t : Team) (off n : Nat) : Bool :=
  t.rowPoison.any fun r => r * 256 < off + n && off < r * 256 + 256

/-- A word with one byte replaced. -/
def setByteOf (w : Word) (i : Nat) (b : Byte) : Word :=
  (w &&& ~~~((0xFF : Word) <<< (8 * i))) ||| (b.setWidth 32 <<< (8 * i))

/-- Writes one byte of a team's rows. -/
def Team.putByte (t : Team) (off : Nat) (b : Byte) : Team :=
  let r := t.row (off / 256)
  let i := off % 256
  { t with rows := t.rows.put zeroRow (off / 256) (setAt 0 r (i / 4) (setByteOf (r.getD (i / 4) 0) (i % 4) b)) }

/-- The stores of one instruction or job to a team's rows; a row written whole loses its poison (R362). -/
def Team.putBytes (t : Team) (cs : List (Nat × Byte)) : Team :=
  let t' := cs.foldl (fun t c => t.putByte c.1 c.2) t
  { t' with rowPoison := t'.rowPoison.filter fun r =>
      !((List.range 256).all fun i => cs.any fun c => c.1 == 256 * r + i) }

/-! ## MANUAL copies (R142, R336) -/

/-- The copy of a line at a level. -/
def State.copyAt (s : State) (l : CacheLevel) (line : Nat) : Option Copy :=
  s.copies.find? fun c => c.level == l && c.line == line

/-- Removes the copy of a line at a level. -/
def State.dropCopy (s : State) (l : CacheLevel) (line : Nat) : State :=
  { s with copies := s.copies.filter fun c => !(c.level == l && c.line == line) }

/-- Puts a copy. -/
def State.putCopy (s : State) (c : Copy) : State :=
  { s with copies := (s.copies.filter fun x => !(x.level == c.level && x.line == c.line)) ++ [c] }

/-- A line is one of host memory. -/
def hostLine (line : Nat) : Bool := lineOf hostBase ≤ line

/-- What memory gives for a line: its bytes and its poison. -/
def State.homeLine (s : State) (line : Nat) : List Byte × Bool := (s.mem.read (128 * line) 128, s.poisoned line)

/-- What the LLC gives: for host memory its own copy, if it has one. -/
def State.llcLine (s : State) (line : Nat) : List Byte × Bool :=
  match s.copyAt .llc line with
  | some c => (c.bytes, c.poison)
  | none => s.homeLine line

/-- What a die cache gives. -/
def State.dieLine (s : State) (die line : Nat) : List Byte × Bool :=
  match s.copyAt (.die die) line with
  | some c => (c.bytes, c.poison)
  | none => s.llcLine line

/-- The quota of a class in a cache (Table 09-3); `k` is the cache's number in `WAYQ` order. -/
def State.quota (s : State) (k cls : Nat) : Nat := field (s.manage.wayq.getD k wayqReset) (5 * cls) 5

/-- A cache allocates lines of a class unless its quota is 0 (R141). -/
def State.allocates (s : State) (k cls : Nat) : Bool := s.quota k cls != 0

/-- Bytes of a copy written, with their dirty bits (R142). -/
def Copy.write (c : Copy) (cs : List (Nat × Byte)) : Copy :=
  cs.foldl (fun c p => { c with bytes := c.bytes.set (p.1 % 128) p.2, dirty := c.dirty ||| BitVec.ofNat 128 (2 ^ (p.1 % 128)) }) c

/-- The dirty bytes of a copy as cells of memory. -/
def Copy.cells (c : Copy) : List (Nat × Byte) :=
  ((List.range 128).filter fun i => c.dirty.getLsbD i).map fun i => (128 * c.line + i, c.bytes.getD i 0)

/-- The dirty bytes that a merge delivers: a poisoned copy delivers only a whole line (R335). -/
def Copy.merged (c : Copy) : List (Nat × Byte) := if c.poison && c.dirty != BitVec.allOnes 128 then [] else c.cells

/-- Dirty bytes merged into a copy of the next level: a whole line clears the poison, other bytes do not reach a poisoned
copy (R335). -/
def Copy.take (c : Copy) (cs : List (Nat × Byte)) : Copy :=
  if coversLine cs c.line then { c.write cs with poison := false }
  else if c.poison then c else c.write cs

/-- The bytes of a store that goes on to host memory, in the LLC's copy of its line. -/
def Copy.pass (c : Copy) (cs : List (Nat × Byte)) : Copy := { c.take cs with dirty := c.dirty }

/-- Stores to host memory pass through the LLC's copies of their lines (R143). -/
def State.llcPass (s : State) (cs : List (Nat × Byte)) : State :=
  (sortNats (cs.map fun c => lineOf c.1)).foldl (fun s l => match s.copyAt .llc l with
    | some c => s.putCopy (c.pass (cs.filter fun x => lineOf x.1 == l))
    | none => s) s

/-- Merges dirty bytes into the LLC, or into memory where the LLC holds no copy. -/
def State.mergeLlc (s : State) (line : Nat) (cs : List (Nat × Byte)) : State :=
  if cs.isEmpty then s
  else match s.copyAt .llc line with
    | some c => s.putCopy (c.take cs)
    | none => s.homeWrite cs

/-- Merges dirty bytes into a die cache, or into the next level where it holds no copy. -/
def State.mergeDie (s : State) (die line : Nat) (cs : List (Nat × Byte)) : State :=
  if cs.isEmpty then s
  else match s.copyAt (.die die) line with
    | some c => s.putCopy (c.take cs)
    | none => s.mergeLlc line cs

/-- A level evicts its copy of a line: the dirty bytes are merged into the next level (R142). -/
def State.evictCopy (s : State) (l : CacheLevel) (line : Nat) : State :=
  match s.copyAt l line with
  | none => s
  | some c =>
    let s1 := s.dropCopy l line
    match l with
    | .l1 core => s1.mergeDie (coreDie core) line c.merged
    | .die _ => s1.mergeLlc line c.merged
    | .llc => s1.homeWrite c.merged
    | .const _ => s1

/-- The ways of a set of a cache (R17, R137, R139); those of a constant cache are not given. -/
def CacheLevel.ways : CacheLevel → Option Nat
  | .l1 _ => some 8
  | .die _ => some 16
  | .llc => some 16
  | .const _ => none

/-- The number under which `Config.cacheSet` knows a cache. -/
def CacheLevel.number : CacheLevel → Nat
  | .l1 c => 16 + c
  | .die d => d
  | .llc => 12
  | .const _ => 13

/-- The copies in the set of a line, least recently used first: `copies` is kept in the order of use. -/
def State.setOf (s : State) (l : CacheLevel) (line : Nat) : List Copy :=
  s.copies.filter fun c => c.level == l && Config.cacheSet l.number c.line == Config.cacheSet l.number line

/-- The victim of a full set for a line of a class (R141); an L1 part ignores classes. -/
def State.victim (s : State) (l : CacheLevel) (cls : Nat) (set : List Copy) : Option Copy :=
  let inClass := fun k => set.filter fun c => c.cls == k
  match l with
  | .l1 _ | .const _ => set.head?
  | .die _ | .llc =>
    if s.quota l.number cls ≤ (inClass cls).length then (inClass cls).head?
    else match set.find? fun c => s.quota l.number c.cls < (inClass c.cls).length with
      | some c => some c
      | none => set.head?

/-- Makes room for a line in its set, when the set is full. -/
def State.makeRoom (s : State) (l : CacheLevel) (line cls : Nat) : State :=
  match l.ways with
  | none => s
  | some w =>
    if (s.copies.filter fun c => c.level == l).length < w then s
    else
      let set := s.setOf l line
      if set.length < w then s
      else match s.victim l cls set with
        | some c => s.evictCopy l c.line
        | none => s

/-- A copy has been used: it is the most recently used one. -/
def State.touch (s : State) (l : CacheLevel) (line : Nat) : State :=
  match s.copyAt l line with
  | some c => s.putCopy c
  | none => s

/-- Brings a line into a level, from what the next level gives. -/
def State.allocate (s : State) (l : CacheLevel) (line cls : Nat) (b : List Byte × Bool) : State :=
  (s.makeRoom l line cls).putCopy ⟨l, line, cls, b.1, 0, b.2⟩

/-- Brings a line into the LLC (host memory only) and a die cache, unless a quota keeps it out. -/
def State.fillDie (s : State) (die line cls : Nat) : State :=
  if (s.copyAt (.die die) line).isSome then s.touch (.die die) line
  else
    let s1 :=
      if !hostLine line then s
      else if (s.copyAt .llc line).isSome then s.touch .llc line
      else if s.allocates 12 cls then s.allocate .llc line cls (s.homeLine line)
      else s
    if s1.allocates die cls then s1.allocate (.die die) line cls (s1.llcLine line) else s1

/-- Brings a line into a core's L1 part, through the die cache. -/
def State.fillL1 (s : State) (core line cls : Nat) : State :=
  if (s.copyAt (.l1 core) line).isSome then s.touch (.l1 core) line
  else
    let s1 := s.fillDie (coreDie core) line cls
    s1.allocate (.l1 core) line cls (s1.dieLine (coreDie core) line)

/-- A copy may be given up at any time when nothing less recently used of its class lies in its set; one of an L1 part may go whenever its
core's rows do (R137, R141). -/
def State.mayEvict (s : State) (l : CacheLevel) (line : Nat) : Bool :=
  match l, s.copyAt l line with
  | _, none => false
  | .l1 _, some _ | .const _, some _ => true
  | .die _, some c | .llc, some c =>
    !((s.copies.takeWhile fun x => x != c).any fun x => x.level == l && x.cls == c.cls &&
      Config.cacheSet l.number x.line == Config.cacheSet l.number line)

/-- A MANUAL store by a core to one line: into its L1 copy. -/
def State.manualStore (s : State) (core line cls : Nat) (cs : List (Nat × Byte)) : State :=
  let s1 := s.fillL1 core line cls
  match s1.copyAt (.l1 core) line with
  | some c => s1.putCopy (c.write cs)
  | none => s1

/-- CWB of one line at the die scope: the L1 copy's dirty bytes go to the die cache, which holds the line for them (R203). -/
def State.cwbL1 (s : State) (core line cls : Nat) : State :=
  match s.copyAt (.l1 core) line with
  | none => s
  | some c =>
    let s1 := if c.dirty = 0 then s else s.fillDie (coreDie core) line cls
    (s1.putCopy { c with dirty := 0 }).mergeDie (coreDie core) line c.merged

/-- CWB of one line from the die cache to the LLC. -/
def State.cwbDie (s : State) (die line : Nat) : State :=
  match s.copyAt (.die die) line with
  | none => s
  | some c => (s.putCopy { c with dirty := 0 }).mergeLlc line c.merged

/-- CWB of one host line from the LLC to host memory. -/
def State.cwbLlc (s : State) (line : Nat) : State :=
  match s.copyAt .llc line with
  | none => s
  | some c => (s.putCopy { c with dirty := 0 }).homeWrite c.merged

/-! ## Host memory is counted (R157) -/

/-- The address through which an ASID reaches host memory. -/
def State.hostVa (s : State) (asid pa : Nat) : Nat :=
  match s.tlb.find? (fun e => e.asid == asid && (match e.hostBase with | some b => b ≤ pa && pa < b + e.size | none => false)) with
  | some e => e.base + (pa - e.hostBase.getD 0)
  | none => pa

/-- Counts an access to host memory in one of 8 192 counters, the most recently used ones (R157). -/
def State.countHost (s : State) (asid pa : Nat) : State :=
  let key := s.hostVa asid pa / 2 ^ 21 * 256 + asid
  let n := match s.migCounts.find? (fun c => c.1 == key) with
    | some c => c.2
    | none => 0
  { s with migCounts := ((key, n + 1) :: s.migCounts.filter fun c => c.1 != key).take 8192 }.migPost

/-- An agent that accesses memory: the core it runs on and its ASID. -/
structure Agent where
  core : Nat
  asid : Nat
  team : Nat
  deriving DecidableEq, Repr

/-- An access of an agent goes to host memory: no cache of its path holds the line. -/
def State.fromHost (s : State) (a : Agent) (x : Xlat) : Bool :=
  x.host && match x.mt with
    | 0 => ((s.die (coreDie a.core)).lines.get DieLine.reset (lineOf x.key)).state == .i
    | 1 => (s.copyAt (.l1 a.core) (lineOf x.key)).isNone && (s.copyAt (.die (coreDie a.core)) (lineOf x.key)).isNone &&
        (s.copyAt .llc (lineOf x.key)).isNone
    | _ => true

/-- Counts the 128-byte accesses to host memory that one instruction or job makes at some places: each line once (R157). -/
def State.countHosts (s : State) (a : Agent) : List Xlat → List Nat → State
  | [], _ => s
  | x :: xs, seen =>
    if s.fromHost a x && !seen.contains (lineOf x.key) then (s.countHost a.asid x.pa).countHosts a xs (lineOf x.key :: seen)
    else s.countHosts a xs seen

/-! ## Translated accesses -/

/-- The memory that an access reaches is lost with its package (R367). -/
def State.lost (s : State) (x : Xlat) : Bool :=
  !x.host && (match remotePkg x.pa with | some p => s.records.lostPackages.contains p | none => false)

/-- The offset in BAR0 that a place names. -/
def Xlat.bar0 (x : Xlat) : Option Nat := if !x.host ∧ bar0At ≤ x.pa ∧ x.pa < bar0At + bar0Size then some (x.pa - bar0At) else none

/-- Which of some values a load returns where a line is mapped with two types (R143; log entry 4): a free choice, none made where there
is one. -/
def State.anyOf (s : State) (first : List Byte) (others : List (List Byte)) : List Byte × State :=
  if others.isEmpty then (first, s)
  else ((first :: others).getD ((Config.freeValue 16 s.freeN).toNat % (others.length + 1)) first, { s with freeN := s.freeN + 1 })

/-- The LLC's copy of the line of a place of host memory. -/
def State.llcAt (s : State) (x : Xlat) : Option Copy := if x.host then s.copyAt .llc (lineOf x.key) else none

/-- Reads translated bytes of one line. Where COHERENT and MANUAL copies of the line exist at once a load of either type returns any of
the values that the two paths hold (R143). An UNCACHED load of host memory finds what the LLC holds. -/
def State.loadX (s : State) (a : Agent) (v : Option View) (x : Xlat) (n : Nat) : Except Code (List Byte) × State :=
  let line := lineOf x.key
  if s.lost x then (.error cLinkLost, s)
  else match x.bar0 with
    | some off => let r := s.barRead off n; (.ok r.1, r.2)
    | none =>
      let part := fun (c : Copy) => (c.bytes.drop (x.key % 128)).take n
      if x.mt = 1 then
        let s1 := s.fillL1 a.core line x.cls
        match s1.copyAt (.l1 a.core) line with
        | some c =>
          if c.poison then (.error cPoison, s1)
          else
            let r := s1.anyOf (part c) (if (s1.dirLine line).dies.isEmpty then [] else [s1.mem.read x.key n])
            (.ok r.1, r.2)
        | none => (.ok (s1.mem.read x.key n), s1)
      else if x.mt = 0 then
        if s.poisoned line then (.error cPoison, s)
        else
          let r := s.anyOf (s.mem.read x.key n) ((s.copies.filter fun c => c.line == line).map part)
          (.ok r.1, r.2.dirRead (.core a.core) line v)
      else match s.llcAt x with
        | some c => if c.poison then (.error cPoison, s) else (.ok (part c), s.touch .llc line)
        | none => if s.poisoned line then (.error cPoison, s) else (.ok (s.mem.read x.key n), s)

/-- Reads bytes wherever they are. -/
def State.loadLoc (s : State) (a : Agent) (v : Option View) (l : Loc) (n : Nat) : Except Code (List Byte) × State :=
  match l with
  | .glob x => s.loadX a v x n
  | .store u off => match s.team? u with
    | some t => (if t.rowsBad off n then .error cPoison else .ok (t.bytes off n), s)
    | none => (.error cAddrSpace, s)

/-- One store of one instruction or job. -/
abbrev Store := Loc × List Byte

/-- The cells that stores put into one team's rows. -/
def storeCells (u : Nat) (ws : List Store) : List (Nat × Byte) :=
  ws.flatMap fun w => match w.1 with
    | .store v off => if v = u then cellsAt off w.2 else []
    | .glob _ => []

/-- The cells that stores put into memory under a test of their place. -/
def globCells (f : Xlat → Bool) (ws : List Store) : List (Nat × Byte) :=
  ws.flatMap fun w => match w.1 with
    | .glob x => if f x then cellsAt x.key w.2 else []
    | .store _ _ => []

/-- The lines of cells, each once. -/
def linesOf (cs : List (Nat × Byte)) : List Nat := sortNats (cs.map fun c => lineOf c.1)

/-- The directory's part in stores to COHERENT lines (R313, R323), after they have been performed; `cls` gives the class of a line. -/
def State.coherentAfter (s : State) (old : Memory) (at_ : Site) (cls : Nat → Nat) (cs : List (Nat × Byte)) : State :=
  (linesOf cs).foldl (fun s l =>
    s.dirWrite at_ l (cls l) (old.read (128 * l) 128) (s.mem.read (128 * l) 128)
      ((cs.filter fun c => lineOf c.1 == l).map fun c => c.1 % 128)) s

/-- The class of a stored line: that of the pages through which it is stored to. -/
def classOf (ws : List Store) (line : Nat) : Nat :=
  match ws.find? (fun w => match w.1 with | .glob x => lineOf x.key == line | .store _ _ => false) with
  | some (.glob x, _) => x.cls
  | _ => 0

/-- The places of stores in memory. -/
def storePlaces (ws : List Store) : List Xlat :=
  ws.filterMap fun w => match w.1 with
    | .glob x => if x.bar0.isNone then some x else none
    | .store _ _ => none

/-- The cells that stores put into BAR0. -/
def barCells (ws : List Store) : List (Nat × Byte) :=
  ws.flatMap fun w => match w.1 with
    | .glob x => match x.bar0 with
      | some off => cellsAt off w.2
      | none => []
    | .store _ _ => []

/-- Runs of cells whose addresses follow one another. -/
def cellRuns : List (Nat × Byte) → List (Nat × List Byte)
  | [] => []
  | (k, b) :: rest => match cellRuns rest with
    | (j, bs) :: rs => if j = k + 1 then (k, b :: bs) :: rs else (k, [b]) :: (j, bs) :: rs
    | [] => [(k, [b])]

/-- The writes of BAR0 that stores make, in order: of two that name one byte, only the later one's is written (R255). -/
def barRuns : List Store → List (Nat × List Byte)
  | [] => []
  | w :: rest =>
    let later := barCells rest
    cellRuns ((barCells [w]).filter fun c => !later.any fun d => d.1 == c.1) ++ barRuns rest

/-- Notes the stores that go to other packages (R339). -/
def State.noteStores (s : State) (a : Agent) (ws : List Store) : State :=
  (storePlaces ws).foldl (fun s x => if x.host then s else match remotePkg x.pa with
    | some p => s.noteRemote a.team p
    | none => s) s

/-- The stores of one instruction or one job to memory that no MANUAL copy takes: performed at home, host memory's through the LLC. -/
def State.homeStores (s : State) (at_ : Site) (ws : List Store) : State :=
  let home := globCells (fun x => x.bar0.isNone && x.mt != 1) ws
  if home.isEmpty then s
  else ((s.homeWrite home).llcPass (globCells (fun x => x.bar0.isNone && x.mt != 1 && x.host) ws)).coherentAfter s.mem at_ (classOf ws)
    (globCells (fun x => x.bar0.isNone && x.mt == 0) ws)

/-- Performs the stores of one instruction or one job, in order; a later one wins on a byte that two write (R255). -/
def State.storeAll (s : State) (a : Agent) (ws : List Store) : State :=
  let ws := ws.filter fun w => match w.1 with | .glob x => !s.lost x | .store _ _ => true
  -- core store
  let s1 : State := { s with teams := s.teams.map fun t =>
    let cs := storeCells t.info.uid ws
    if cs.isEmpty then t else t.putBytes cs }
  let s2 := ((barRuns ws).foldl (fun s r => s.barWrite r.1 r.2) s1).countHosts a (storePlaces ws) []
  let s3 := s2.noteStores a ws
  -- MANUAL copies
  let man := globCells (fun x => x.bar0.isNone && x.mt == 1) ws
  let s4 := (linesOf man).foldl (fun s l => s.manualStore a.core l (classOf ws l) (man.filter fun c => lineOf c.1 == l)) s3
  s4.homeStores (.core a.core) ws

/-- The place of execution of an atomic on COHERENT memory (R200). -/
def atomSite (core : Nat) : Scope → Site
  | .cluster => .core core
  | .die => .die (coreDie core)
  | .package => .home
  | .system => .home

/-- One atomic on `n` bytes: the old value, and the new one written if there is one, in one indivisible step (R200, R319). -/
def State.atomicAt (s : State) (a : Agent) (sc : Scope) (l : Loc) (n : Nat) (f : Nat → Option Nat) : Except Code Nat × State :=
  match l with
  | .store u off => match s.team? u with
    | none => (.error cAddrSpace, s)
    | some t =>
      if t.rowsBad off n then (.error cPoison, s)
      else
        let old := numOfBytes (t.bytes off n)
        match f old with
        | some v => (.ok old, s.putTeam (t.putBytes (cellsAt off (bytesOfNum n v))))
        | none => (.ok old, s)
  | .glob x =>
    let line := lineOf x.key
    if s.lost x then (.error cLinkLost, s)
    else match x.bar0 with
      | some off =>
        let r := s.barRead off n
        let old := numOfBytes r.1
        match f old with
        | some v => (.ok old, r.2.barWrite off (bytesOfNum n v))
        | none => (.ok old, r.2)
      | none =>
        let s := s.countHosts a [x] []
        match (if x.mt = 1 then s.copyAt .llc line else if x.mt = 0 then none else s.llcAt x) with
        | some c =>
          let old := numOfBytes ((c.bytes.drop (x.key % 128)).take n)
          if c.poison then (.error cPoison, s)
          else match f old with
            | some v =>
              let cs := cellsAt x.key (bytesOfNum n v)
              (.ok old, if x.mt = 1 then s.putCopy (c.write cs) else (s.homeWrite cs).llcPass cs)
            | none => (.ok old, s)
        | none =>
        if s.poisoned line then (.error cPoison, s)
        else
          let old := numOfBytes (s.mem.read x.key n)
          let s := if x.mt = 0 then s.dirRead (atomSite a.core sc) line none else s
          match f old with
          | none => (.ok old, s)
          | some v =>
            let cs := cellsAt x.key (bytesOfNum n v)
            let s1 := s.homeWrite cs
            let s1 := if x.host then s1 else match remotePkg x.pa with
              | some p => s1.noteRemote a.team p
              | none => s1
            (.ok old, if x.mt = 0 then s1.coherentAfter s.mem (atomSite a.core sc) (fun _ => x.cls) cs else s1)

end Sys2Proof.Machine
end

