-- ==== Sys2Proof/Machine/Ops.lean ====
section
/-! DEFINITION. The shared operations of instructions: the failure of grids and contexts (R110, R126, R364), taking a fault, a
trap or a debug stop (R341 to R352), returning from one (R352, R353), and parking on a translation miss (R155, R346). -/

namespace Sys2Proof.Machine

open Sys2Proof

/-! ## Accesses by the core through the context's own translation -/

/-- A translation made for the machine itself: the place of a global address, if it has one. -/
def State.machinePlace (s : State) (asid va : Nat) (a : Access) : Option Xlat × State :=
  let r := s.translate asid va a
  match r.1 with
  | .ok x => (some x, r.2)
  | _ => (none, r.2)

/-- The 128-byte lines of a run of addresses: pairs of start and length. -/
def lineRuns (va n : Nat) : List (Nat × Nat) :=
  (List.range ((va + n + 127) / 128 - va / 128)).map fun i =>
    let lo := max va (128 * (va / 128 + i))
    let hi := min (va + n) (128 * (va / 128 + i + 1))
    (lo, hi - lo)

/-- Places for each line of a run; none when some line has no place. -/
def State.machinePlaces (s : State) (asid : Nat) (a : Access) : List (Nat × Nat) → Option (List (Xlat × Nat)) × State
  | [] => (some [], s)
  | r :: rs =>
    let p := s.machinePlace asid r.1 a
    match p.1 with
    | none => (none, p.2)
    | some x =>
      let q := p.2.machinePlaces asid a rs
      match q.1 with
      | some xs => (some ((x, r.2) :: xs), q.2)
      | none => (none, q.2)

/-- Cuts bytes into runs. -/
def cutBytes : List (Xlat × Nat) → List Byte → List Store
  | [], _ => []
  | (x, n) :: rest, bs => (.glob x, bs.take n) :: cutBytes rest (bs.drop n)

/-- Writes bytes at a global address for a core; none when an address has no place, or one in a lost package (R342, R367). -/
def State.machineWrite (s : State) (a : Agent) (va : Nat) (bs : List Byte) : Option State :=
  let r := s.machinePlaces a.asid .write (lineRuns va bs.length)
  match r.1 with
  | some xs => if xs.any fun x => r.2.lost x.1 then none else some (r.2.storeAll a (cutBytes xs bs))
  | none => none

/-- Reads translated lines one after another. -/
def State.loadRuns (s : State) (a : Agent) : List (Xlat × Nat) → Except Code (List Byte) × State
  | [] => (.ok [], s)
  | (x, n) :: rest =>
    let r := (s.countHosts a [x] []).loadX a none x n
    match r.1 with
    | .error c => (.error c, r.2)
    | .ok bs =>
      let q := r.2.loadRuns a rest
      match q.1 with
      | .ok cs => (.ok (bs ++ cs), q.2)
      | .error c => (.error c, q.2)

/-- Reads bytes at a global address for a core. -/
def State.machineRead (s : State) (a : Agent) (va n : Nat) : Except Code (List Byte) × State :=
  let r := s.machinePlaces a.asid .read (lineRuns va n)
  match r.1 with
  | some xs => r.2.loadRuns a xs
  | none => (.error cPage, r.2)

/-- The home is at work on a COHERENT line of a run of addresses (R331). -/
def State.runBusy (s : State) (asid va n : Nat) : Bool :=
  s.busyLines.any fun l => (lineRuns va n).any fun r => match s.peekLeaf asid r.1 with
    | some e => (e.place r.1).mt == 0 && lineOf (e.place r.1).key == l
    | none => false

/-- The agent of a team's own accesses (R310). -/
def Team.agent (t : Team) : Agent := ⟨t.core, t.asid, t.info.uid⟩

/-! ## Schedules: the map and the voiding of claims (R123, R126) -/

/-- A field of a schedule register replaced. -/
def setField (d : DWord) (lo n : Nat) (v : Nat) : DWord :=
  (d &&& ~~~(BitVec.ofNat 64 ((2 ^ n - 1) * 2 ^ lo))) ||| BitVec.ofNat 64 (v % 2 ^ n * 2 ^ lo)

/-- A schedule register. -/
def Sched.reg (c : Sched) (n : Nat) : DWord := c.regs.getD n 0

/-- Extents of a tiled grid. -/
def Sched.extents (c : Sched) : List Nat := (List.range 4).map fun d => field (c.reg (1 + d)) 0 32

/-- The linear number of an atom (R123). -/
def atomNumber (ext at_ : List Nat) : Nat :=
  at_.getD 0 0 + ext.getD 0 0 * (at_.getD 1 0 + ext.getD 1 0 * (at_.getD 2 0 + ext.getD 2 0 * at_.getD 3 0))

/-- The atom at position `j` of a tile (R124). -/
def atomAt (origin sizes : List Nat) (j : Nat) : List Nat :=
  let t := fun i => sizes.getD i 1
  [origin.getD 0 0 + j % t 0, origin.getD 1 0 + j / t 0 % t 1, origin.getD 2 0 + j / (t 0 * t 1) % t 2,
    origin.getD 3 0 + j / (t 0 * t 1 * t 2) % t 3]

/-- The positions set in a claim's mask. -/
def Claim.positions (c : Claim) : List Nat := (List.range 64).filter fun j => c.mask.getLsbD j

/-- The linear numbers of a claim's atoms. -/
def Claim.atoms (c : Claim) (ext : List Nat) : List Nat := c.positions.map fun j => atomNumber ext (atomAt c.origin c.sizes j)

/-- A byte as the atrium finds it at its home, behind the stores that wait in the queue of its line. -/
def State.homeByte (s : State) (k : Nat) : Byte :=
  (s.dirLine (lineOf k)).queue.foldl (fun b e => match e.2.2 with
    | .wt _ _ cs => cs.foldl (fun b c => if c.1 = k then c.2 else b) b
    | _ => b) (s.mem.byte k)

/-- Bit `b` of the map of a grid, whose byte is found by translation; zero where there is none. -/
def State.mapBit (s : State) (asid : Nat) (map : DWord) (b : Nat) : Bool :=
  match s.peekLeaf asid (map.toNat + b / 8) with
  | some e => (s.homeByte (e.place (map.toNat + b / 8)).key).getLsbD (b % 8)
  | none => false

/-- A store of the atrium to a COHERENT line at its home; while the home is at work on the line it waits in the line's queue (R331). -/
def State.homeStoreAt (s : State) (x : Xlat) (cs : List (Nat × Byte)) : State :=
  if s.lineBusy (lineOf x.key) then s.modDir (lineOf x.key) fun d => { d with
    queue := d.queue ++ [(s.atriumNow, 12, .wt (lineOf x.key) x.cls cs)] }
  else (s.homeWrite cs).coherentAfter s.mem .home (fun _ => x.cls) cs

/-- Writes a bit of the map, one byte at a time, at the home slice (R123). -/
def State.setMapBit (s : State) (asid : Nat) (map : DWord) (b : Nat) (v : Bool) : State :=
  match s.peekLeaf asid (map.toNat + b / 8) with
  | none => s
  | some e =>
    let x := e.place (map.toNat + b / 8)
    let old := s.homeByte x.key
    let bit : Byte := BitVec.ofNat 8 (2 ^ (b % 8))
    let cs := [(x.key, if v then old ||| bit else old &&& ~~~bit)]
    s.homeStoreAt x cs

/-- Voids the open claims of a team, or of every team (R126): the atoms that are not done are released and the cursor starts
over. An atom whose bits cannot be reached counts as not done (log entry 30). -/
def State.voidClaims (s : State) (grid : Nat) (team : Option Nat) : State :=
  match s.grid? grid with
  | none => s
  | some g => match g.sched with
    | none => s
    | some c =>
      let mine := c.claims.filter fun k => match team with | some u => k.team == u | none => true
      if mine.isEmpty then s
      else
        let map := c.reg 12
        let open_ := (mine.flatMap fun k => k.atoms c.extents).filter fun a => !s.mapBit g.asid map (2 * a + 1)
        let s1 := open_.foldl (fun s a => s.setMapBit g.asid map (2 * a) false) s
        s1.modGrid grid fun g => { g with sched := g.sched.map fun c => { c with
          cursor := 0
          claims := c.claims.filter fun k => match team with | some u => k.team != u | none => false
          regs := c.regs.set 13 (setField (c.reg 13) 0 32 (field (c.reg 13) 0 32 - open_.length)) } }

/-! ## Failure of grids and contexts -/

/-- Releases the strands held on a GOT entry that a lost or faulting binder was binding (R129). -/
def State.dropBinds (s : State) (f : GotBinding → Bool) : State := { s with binds := s.binds.filter fun b => !f b }

/-- The state that no team holds any more: its jobs, queue bindings, GOT bindings and probes. -/
def State.dropTeamState (s : State) (uid : Nat) : State :=
  ({ s with
    jobs := s.jobs.filter fun j => j.team != uid
    queues := s.queues.filter fun p => p.2.team != uid
    probes := s.probes.filter fun p => p.sender.team != some uid }).dropBinds fun b => b.team == uid

/-- Removes a resident team. -/
def State.removeTeam (s : State) (uid : Nat) : State :=
  { (s.dropTeamState uid) with teams := s.teams.filter fun t => t.info.uid != uid }

/-- A grid fails with a stop code (R110): the code is recorded, queued and saved teams are dropped, resident teams stop, open
claims are voided and SCH15.FAIL is set. Its completion as failed is a later step. -/
def State.failGrid (s : State) (grid : Nat) (c : Code) : State :=
  match s.grid? grid with
  | none => s
  | some g =>
    if g.failed.isSome then s
    else
      let s1 := (s.record 7 ⟨.queue, g.lq⟩ [g.lq, g.record, g.asid, c]).voidClaims grid none
      let s2 := s1.modGrid grid fun g => { g with
        failed := some c
        sched := g.sched.map fun c => { c with regs := c.regs.set 15 (c.reg 15 ||| 8) } }
      let s3 := (s2.saved.filter fun t => t.info.grid == grid).foldl (fun s t => s.dropTeamState t.info.uid) s2
      { s3 with
        tasks := s3.tasks.filter fun t => t.info.grid != grid
        saved := s3.saved.filter fun t => t.info.grid != grid
        teams := s3.teams.map fun t => if t.info.grid = grid then { t with mode := .flushing } else t }

/-- A fatal error of a context (R364): its grids fail, so that its teams stop as flushed ones do and are then discarded (R110), its launch
queues stop, Toard records it. -/
def State.contextFatal (s : State) (asid : Nat) : State :=
  let s1 := (s.grids.filter fun g => g.asid == asid).foldl (fun s g => s.failGrid g.uid cContextFatal) s
  let qs := (s1.lqs.filter fun p => p.2.asid == asid && p.2.enabled).map (·.1)
  let s2 := qs.foldl (fun s q => (s.modLq q fun l => { l with stop := true }).msixSignal 3) s1
  (s2.record 4 ⟨.context, asid⟩ [cContextFatal]).preemptCheck

/-! ## The trap frame (R342, R343) -/

/-- What a stop reports; `mark` says that it is the BRK or the breakpoint at the PC that stops the strand (R352). -/
structure Report where
  kind : Nat
  code : Code
  info : Nat
  lane : Option Nat
  addr : DWord
  card : DWord
  waits : List DWord
  mark : Bool
  deriving DecidableEq, Repr

/-- A fault. -/
def Report.fault (c : Code) (lane : Option Nat) (addr : DWord) : Report := ⟨0, c, 0, lane, addr, 0, [], false⟩
/-- A trap. -/
def Report.trap (c : Code) (info : Nat) : Report := ⟨1, c, info, none, 0, 0, [], false⟩
/-- A debug stop at a BRK or a breakpoint. -/
def Report.dbg (info : Nat) : Report := ⟨2, cDebug, info, none, 0, 0, [], true⟩
/-- A debug stop of HALT. -/
def Report.halt (info : Nat) : Report := ⟨2, cDebug, info, none, 0, 0, [], false⟩

/-- The address of the BRK or breakpoint that stops a strand at a PC. -/
def Report.markAt (r : Report) (pc : DWord) : Option DWord := if r.mark then some pc else none

/-- Bytes 0 to 7 of the frame: the cause word. -/
def Report.cause (r : Report) (strands replays : Nat) : DWord :=
  BitVec.ofNat 64 (r.code + r.kind * 2 ^ 8 + (strands - 1) * 2 ^ 10 + replays * 2 ^ 15 +
    (match r.lane with | some l => 2 ^ 20 + l * 2 ^ 21 | none => 0) + r.info * 2 ^ 32)

/-- A strand entry of the frame. -/
def Strand.frameBytes (x : Strand) : List Byte :=
  let head := [x.pc, x.lanes, x.exec,
    BitVec.ofNat 64 (x.stack.length + 2 ^ 8 + (if x.hold.isSome then 2 ^ 9 else 0))] ++ x.stack.map (·.addr)
  fit 256 (head.flatMap fun d => bytesOfNum 8 d.toNat)

/-- The 256 bytes of a captured vector. -/
def lanesBytes (v : Lanes) : List Byte := fit 256 (v.flatMap fun w => bytesOfNum 4 w.toNat)

/-- Which captured vectors VOP0, VOP1 and VOP2 of a replay entry hold (Table 21-4): the address pair and the first register of data or
of vd for a memory instruction, else the first register of va, of vb and of vd. What does not fit there is captured all the same (log
entry 13). -/
def Instr.vopPlaces : Instr → List (Option Nat)
  | .vmatch _ _ ty _ _ _ => [some 0, some (if ty.is64 then 2 else 1), none]
  | .tsort _ _ _ _ _ _ _ | .tmov _ _ => [some 0, none, none]
  | .tcupd _ _ _ _ => [none, some 0, none]
  | _ => [some 0, some 1, some 2]

/-- The number of the first destination register (Table 21-4): a vector register, or else a scalar. -/
def Instr.firstDest (i : Instr) : Nat := if i.vwrites.isEmpty then i.swrites.headD 0 else i.vwrites.headD 0

/-- A replay entry of the frame (Table 21-4). -/
def Pending.frameBytes (p : Pending) (place : Nat) : List Byte :=
  let ws := fit 12 ((encode p.instr).flatMap fun w => bytesOfNum 4 w.toNat)
  let ctl := 1 + 2 * place + (if p.instr.vwrites.isEmpty then 0 else 32) + Instr.firstDest p.instr * 64
  let regs := [p.mask, p.sa, p.sb, p.sd].flatMap fun (x : DWord) => bytesOfNum 8 x.toNat
  fit 256 (ws ++ bytesOfNum 4 ctl ++ regs) ++ (Instr.vopPlaces p.instr).flatMap fun k => lanesBytes (match k with
    | some k => p.vops.getD k []
    | none => [])

/-- The bytes of a trap frame. -/
def frameBytes (r : Report) (g : Group) (x : Strand) (pc : DWord) (captured : List Pending) : List Byte :=
  let head := [r.cause g.strands.length captured.length, pc, x.exec, r.addr, BitVec.ofNat 64 (g.place x.sid), r.card]
  let a := fit 0x100 (head.flatMap fun (d : DWord) => bytesOfNum 8 d.toNat)
  let b := fit 0x100 (r.waits.flatMap fun d => bytesOfNum 8 d.toNat)
  let c := fit 0x1000 (g.strands.flatMap Strand.frameBytes)
  let d := fit 0x4000 (captured.flatMap fun p => p.frameBytes (g.place p.sid))
  a ++ b ++ c ++ d

/-! ## Stops -/

/-- A long-latency instruction that a fault may capture (R344, R221, R262, R307): one that no footprint table holds or awaits, and that
has changed no state of the engine and made no child. The model performs each other one at its completion, so that a captured one has
performed nothing. -/
def Pending.capturable (p : Pending) : Bool :=
  p.job.isNone && (match p.instr with
    | .tmov _ (.tt _ _) => false
    | .spawn _ _ => p.stage.1 == 0
    | _ => true)

/-- A long-latency scalar or vector instruction, which a trap lets complete before it writes the frame (R221, R262, R344). -/
def Instr.beforeTrap : Instr → Bool
  | .sld _ _ _ _ _ _ | .sst _ _ _ _ _ _ | .satom _ _ _ _ _ _ | .scas _ _ _ _ _ _ | .cwb _ _ _ _ | .cinv _ _ _ _
  | .cwbinv _ _ _ _ | .vfdiv _ _ _ _ _ _ _ _ | .vexp2 _ _ _ _ _ _ _ | .vlog2 _ _ _ _ _ _ _ | .vrcp _ _ _ _ _ _ _
  | .vrsq _ _ _ _ _ _ _ | .vsqrt _ _ _ _ _ _ _ | .vreduce _ _ _ _ _ _ _ | .vscan _ _ _ _ _ _ _ | .vmatch _ _ _ _ _ _
  | .tsort _ _ _ _ _ _ _ | .vld _ _ _ _ _ _ _ _ | .vst _ _ _ _ _ _ _ _ | .vlds _ _ _ _ _ _ _ _ | .vsts _ _ _ _ _ _ _ _
  | .vldt _ _ _ _ _ _ _ _ | .vatom _ _ _ _ _ _ _ _ _ | .vcas _ _ _ _ _ _ _ => true
  | _ => false

/-- Outstanding scalar and vector instructions with a number below a limit. -/
def Group.beforeTrap (g : Group) (limit : Nat) : Bool := g.pending.any fun p => Instr.beforeTrap p.instr && p.seq < limit

/-- The entry of TRAPBASE (Table 21-5). -/
def State.trapBase (s : State) (asid : Nat) : DWord := (s.ctx asid).trapBase

/-- The first number of an instruction for whose completion a trap does not wait: that of the strand's first attempt to take it. -/
def State.trapLimit (s : State) (h : Here) : Nat :=
  match h.strand.hold with
  | some (.trap n) => n
  | _ => s.uid

/-- What holds a strand that would take a stop: another strand of the group is the handler strand or stopped for the debugger; or,
for a fault or a debug stop, an instruction that cannot be captured, or a seventeenth one, is outstanding (R344, R351); or, for a trap, a
scalar or vector instruction that the group issued before (R262); or the home is at work on a line of the frame (R331). -/
def State.stopHold (s : State) (h : Here) (kind : Nat) : Option Hold :=
  let g := h.grp
  if h.inHandler then none
  else if g.handler.isSome ∨ g.dbg.isSome then some .handler
  else if kind ≠ 2 ∧ s.trapBase h.team.asid = 0 then none
  else if kind = 1 ∧ g.beforeTrap (s.trapLimit h) then some (.trap (s.trapLimit h))
  else if kind ≠ 1 ∧ (g.pending.any (fun p => !p.capturable) ∨ 16 < g.pending.length) then some .drain
  else if s.runBusy h.team.asid (s.frameAddr h.team g) 0x5400 then some (.busy (s.frameAddr h.team g) 0x5400 h.team.asid false)
  else none

/-- TAKES A STOP (R341, R350, R351): `r` is what it reports and `pc` where the strand resumes (R352). The state is the one
before the instruction, with the strand's contents in `h`.
A fault or a trap in the handler strand fails the grid with DOUBLE_FAULT. While another strand of the group is the handler
strand, this strand is held. With TRAPBASE zero a fault or a trap fails the grid with its code. A fault or a debug stop lets
what it cannot capture complete first. Otherwise the frame is written, and the strand becomes the handler strand or stops for
the debugger; a frame that cannot be written is a fatal error of the context. -/
def State.takeStop (s : State) (h : Here) (r : Report) (pc : DWord) : State :=
  let t := h.team
  let g := h.grp
  if h.inHandler ∧ r.kind ≠ 2 then (s.putHere h).failGrid t.info.grid cDoubleFault
  else if h.inHandler then
    s.putHere { h with group := { h.group with dbg := some ⟨h.strand.sid, true, r.markAt pc, [], []⟩ } }
  else match s.stopHold h r.kind with
  | some k => s.putHere (h.wait s.clock k)
  | none =>
  if r.kind ≠ 2 ∧ s.trapBase t.asid = 0 then (s.putHere h).failGrid t.info.grid r.code
  else
    let captured := if r.kind = 1 then [] else g.pending
    match s.machineWrite t.agent (s.frameAddr t g) (frameBytes r g h.strand pc captured) with
    | none => (s.putHere h).contextFatal t.asid
    | some s1 =>
      let s2 := if r.kind = 0 then s1.dropBinds fun b => b.team == t.info.uid && b.group == g.num && b.sid == h.strand.sid else s1
      let x := h.strand
      let g1 := { h.group with pending := if r.kind = 1 then h.group.pending else [] }
      if r.kind = 2 then
        s2.putHere { h with
          group := { g1 with dbg := some ⟨x.sid, false, r.markAt pc, g.strands, captured⟩ }
          strand := { x with fwd := [], hold := none } }
      else
        s2.putHere { h with
          group := { g1 with
            pending := if r.code = cTrap then (g1.shorten x.sid).pending else g1.pending
            handler := some ⟨x.sid, List.replicate 8 0, r.cause g.strands.length captured.length, pc, r.kind == 0, g.strands, captured, s.uid⟩ }
          strand := { x with pc := s.trapBase t.asid, exec := x.lanes, fwd := [], hold := none, refused := [] } }

/-- Takes a fault at the present instruction (R341, R352). -/
def State.takeFault (s : State) (h : Here) (c : Code) : State := s.takeStop h (.fault c none 0) h.strand.pc

/-- Takes a fault that an address decided (R347). -/
def State.takeAddrFault (s : State) (h : Here) (c : Code) (lane : Option Nat) (a : DWord) : State :=
  s.takeStop h (.fault c lane (if c = cLinkLost then 0 else a)) h.strand.pc

/-! ## Returning (R218, R352, R353) -/

/-- A recorded instruction start of a loaded segment of the context (R177). -/
def State.recorded (s : State) (asid : Nat) (a : DWord) : Bool :=
  s.segs.any fun g => g.asid == asid && g.base ≤ a.toNat && g.starts.contains (a.toNat - g.base)

/-- A recorded instruction start in executable memory: where a control transfer may go (R177). -/
def State.isStart (s : State) (asid : Nat) (a : DWord) : Bool :=
  s.recorded asid a &&
  (match s.peekLeaf asid a.toNat with
    | some e => !s.permBad e.leaf (e.place a.toNat).key .fetch
    | none => true)

/-- A strand restored from its entry of the frame (R352). -/
def Strand.restored (old : Strand) (fr : List Byte) : Strand :=
  let d := fun i => dwordOf ((fr.drop (8 * i)).take 8)
  let ctl := d 3
  if !ctl.getLsbD 8 then old
  else
    let depth := min 16 (field ctl 0 5)
    { old with
      pc := d 0
      exec := d 2 &&& old.lanes
      stack := (List.range depth).map fun j => ⟨d (4 + j), match old.stack[j]? with | some e => e.id | none => 0⟩
      fwd := []
      hold := none }

/-- The words of captured lanes. -/
def lanesOf (bs : List Byte) : Lanes := (List.range 64).map fun l => BitVec.ofNat 32 (numOfBytes ((bs.drop (4 * l)).take 4))

/-- Captured vectors with those that a replay entry shows taken from it. -/
def Instr.vopsFrom (i : Instr) (old : List Lanes) (v : Nat → Lanes) : List Lanes :=
  (List.range old.length).map fun k => match (Instr.vopPlaces i).findIdx? (· == some k) with
    | some n => v n
    | none => old.getD k zeroRow

/-- An instruction re-issued from its replay entry (R353): its mask and operands as the frame holds them. -/
def Pending.reissued (p : Pending) (fr : List Byte) (table : List Strand) : Option Pending :=
  let ctl := numOfBytes ((fr.drop 12).take 4)
  if ctl % 2 = 0 then none
  else
    let d := fun i => dwordOf ((fr.drop (16 + 8 * i)).take 8)
    let v := fun i => lanesOf ((fr.drop (256 * (i + 1))).take 256)
    some { p with
      sid := match table[ctl / 2 % 16]? with | some x => x.sid | none => p.sid
      mask := d 0, sa := d 1, sb := d 2, sd := d 3
      vops := Instr.vopsFrom p.instr p.vops v
      locs := []
      windows := []
      replayed := true
      park := none
      refused := [] }

/-- RETURNS from the stop of a group, whose frame has the bytes `fr` (R352, R353): after a fault or a debug stop every valid
strand entry is restored, with an empty forwarding window, and every valid replay entry re-issued; after a trap only the stopped
strand's PC and EXEC come back, and only its window is emptied (R90; log entry 22). A strand resumed at the BRK or breakpoint that stopped
it does not stop there again. -/
def Group.returned (g : Group) (sid : Nat) (kind : Nat) (table : List Strand) (captured : List Pending) (fr : List Byte) : Group :=
  let pc := dwordOf ((fr.drop 8).take 8)
  let ex := dwordOf ((fr.drop 16).take 8)
  let entry := fun k => (fr.drop (0x200 + 0x100 * k)).take 256
  let strands :=
    if kind = 1 then g.strands.map fun x => if x.sid = sid then { x with pc := pc, exec := ex &&& x.lanes, fwd := [], hold := none } else x
    else g.strands.map fun x =>
      let y := match table.findIdx? (fun y => y.sid == x.sid) with
        | some k => (match table[k]? with | some y => { x with stack := y.stack } | none => x).restored (entry k)
        | none => x
      if x.sid = sid then { y with pc := pc, fwd := [], hold := none, skipStop := if kind = 2 ∧ (g.dbg.bind (·.mark)) = some pc then some pc else none } else y
  let again := (List.range captured.length).filterMap fun k => match captured[k]? with
    | some p => p.reissued ((fr.drop (0x1200 + 0x400 * k)).take 0x400) table
    | none => none
  { g with strands := strands, pending := g.pending ++ again, handler := none, dbg := none }

/-! ## Parking (R155, R346) -/

/-- Parks the strand on the pages that its access missed, until the driver or the host answers; one request is raised for each. -/
def State.parkHere (s : State) (h : Here) (pages : List (Nat × Bool)) (a : Access) : State :=
  (s.noteMisses h.team.asid a pages).putHere (h.wait s.clock (.page (pages.map (·.1)) h.team.asid))

/-- Parks the strand likewise, and with it its group (R201). -/
def State.parkGroup (s : State) (h : Here) (pages : List (Nat × Bool)) (a : Access) : State :=
  (s.noteMisses h.team.asid a pages).putHere (h.wait s.clock (.line (pages.map (·.1)) h.team.asid))

end Sys2Proof.Machine
end

