-- ==== Sys2Proof/Machine/Operands.lean ====
section
/-! DEFINITION. Vector operands and results: role and register faults (R73, R75, R81, R345), the forwarding window (R90),
queues (R97, R150, R223, R301), constant registers (Table 05-3), broadcast scalars and literals (R98, R162, R163), and writes
under a mask (R96). -/

namespace Sys2Proof.Machine

open Sys2Proof

/-! ## Faults of the role and of the registers named -/

/-- The roles that may issue an instruction (Table 05-2): COPY, MATRIX, VECTOR. -/
def Instr.roles : Instr → List Nat
  | .tcfg _ _ | .tld _ _ _ _ _ | .tst _ _ _ _ _ | .tldr _ _ _ _ | .tmov _ _ | .tzero _ _ | .tmma _ _ _ _ _ _
  | .tdrain _ _ _ _ _ _ _ | .tbest _ _ _ _ _ _ _ _ _ _ _ | .tcupd _ _ _ _ | .tcfin _ _ _ _ _ _ | .twait _ => [1]
  | .cpy _ _ _ _ | .coll _ _ _ _ | .rinit _ _ _ | .racq _ _ | .rcommit _ _ | .rsub _ _ _ _ _ _ | .runsub _ _ => [0]
  | .rwait _ _ | .rrel _ => [1, 2]
  | _ => [0, 1, 2]

/-- The vector registers that an instruction names. -/
def Instr.named (i : Instr) : List Nat := i.vreads ++ i.vwrites

/-- A register number beyond a group's footprint and below the queues (R75). -/
def outOfRange (t : Team) (g : Group) (n : Nat) : Bool := regB t g + regX t g ≤ n && n < 1536

/-- A register number of the extended set (R75). -/
def extended (t : Team) (g : Group) (n : Nat) : Bool := regB t g ≤ n && n < regB t g + regX t g

/-- The fault of the role and of the registers named, decided before all others: the lowest code (R345). -/
def Here.issueFault (h : Here) (i : Instr) : Option Code :=
  if !(Instr.roles i).contains h.group.kind then some cRole
  else if !h.team.xHeld h.group && (Instr.named i).any (extended h.team h.group) then some cExtNotHeld
  else if (Instr.named i).any (outOfRange h.team h.group) then some cRegRange
  else none

/-- Issues an instruction for the strand executed for, after the checks of its role and registers. -/
def State.issue (s : State) (i : Instr) (f : Here → State) : Host.Outcome State Fault Refusal :=
  s.run fun h => match h.issueFault i with
    | some c => s.takeFault h c
    | none => f h

/-! ## Queues -/

/-- Why an instruction does not go on: it is held, it takes a fault in a lane with an address, or it misses some pages (each with whether it
is a HOST page). -/
inductive Stop where
  | hold (k : Hold)
  | fault (c : Code) (lane : Option Nat) (addr : DWord)
  | miss (pages : List (Nat × Bool)) (a : Access)
  deriving DecidableEq, Repr

/-- Holds, faults or parks the strand. -/
def State.stopHere (s : State) (h : Here) (x : Stop) : State :=
  match x with
  | .hold k => s.putHere (h.wait s.clock k)
  | .fault c lane addr => s.takeAddrFault h c lane addr
  | .miss pages a => s.parkHere h pages a

/-- The key of a queue register of a core. -/
def queueKey (core q : Nat) : Nat := 16 * core + q

/-- A queue number. -/
def isQueue (n : Nat) : Bool := 1536 ≤ n && n < 1552

/-- The queue is bound to another group (R150). -/
def foreign (t : Team) (g : Group) (k : QueueReg) : Bool := k.team != t.info.uid || k.group != g.num

/-- One vector popped from a queue (R150, R301): after the stream's last vector zeros; an empty or unbound queue holds the
strand, and so does one that the group has bound to a store stream (log entry 19); the fault of a lane that is active is taken and nothing is popped. -/
def popQueue (t : Team) (g : Group) (qs : SMap QueueReg) (q : Nat) (m : Mask) : Except Stop (Lanes × SMap QueueReg) :=
  match qs.find (queueKey t.core q) with
  | none => .error (.hold (.queueRead q))
  | some k =>
    if foreign t g k then .error (.fault cQueueOwner none 0)
    else if k.store then .error (.hold (.queueRead q))
    else if k.count ≤ k.taken then .ok (zeroRow, qs)
    else match k.vecs with
      | [] => .error (.hold (.queueRead q))
      | v :: vs => match lowestCode ((v.bad.filter fun b => laneBit m b.1).map fun b => (b.1, b.2.1)) with
        | some (l, c) => .error (.fault c (some l) (match v.bad.find? (fun b => b.1 == l) with | some b => b.2.2 | none => 0))
        | none => .ok (v.lanes, qs.insert (queueKey t.core q) { k with vecs := vs, taken := k.taken + 1 })

/-- Room for one push into a queue (R150): pushes past the stream's count need none, and a load stream has
none (log entry 19). -/
def pushRoom (t : Team) (g : Group) (qs : SMap QueueReg) (q : Nat) : Except Stop Unit :=
  match qs.find (queueKey t.core q) with
  | none => .error (.hold (.queueWrite q))
  | some k =>
    if foreign t g k then .error (.fault cQueueOwner none 0)
    else if !k.store then .error (.hold (.queueWrite q))
    else if k.count ≤ k.taken ∨ k.fault.isSome ∨ k.vecs.length < 8 then .ok ()
    else .error (.hold (.queueWrite q))

/-- One vector pushed; a push past the count, or after a write that failed, is discarded (R150, R301). -/
def pushQueue (t : Team) (qs : SMap QueueReg) (q : Nat) (v : Lanes) : SMap QueueReg :=
  match qs.find (queueKey t.core q) with
  | none => qs
  | some k =>
    if k.count ≤ k.taken ∨ k.fault.isSome then qs
    else qs.insert (queueKey t.core q) { k with vecs := k.vecs ++ [⟨v, []⟩], taken := k.taken + 1 }

/-- A push waits while an older long-latency instruction of the group will push to the same queue (R223). -/
def Group.pushesTo (g : Group) (n : Nat) : Bool := g.pending.any fun p => p.instr.vwrites.contains n

/-- The first reason for which an instruction's pushes cannot be made now. -/
def State.pushStop (s : State) (h : Here) (regs : List Nat) : Option Stop :=
  (regs.filter isQueue).foldl (fun acc n => match acc with
    | some x => some x
    | none => match pushRoom h.team h.group s.queues (n - 1536) with
      | .error x => some x
      | .ok _ => if h.group.pushesTo n then some (.hold (.queueWrite (n - 1536))) else none) none

/-- A long-latency instruction that will push names no queue bound to another group; it pushes at completion, when there is
room (R150, R223). -/
def State.ownQueues (s : State) (h : Here) (regs : List Nat) : Option Stop :=
  if (regs.filter isQueue).any fun n => match s.queues.find (queueKey h.team.core (n - 1536)) with
    | some k => foreign h.team h.group k
    | none => false
  then some (.fault cQueueOwner none 0) else none

/-! ## Reading registers -/

/-- What the forwarding window gives for a register (R90): the most recent write among the last 8 instructions, if it was
ephemeral. -/
def fwdOf (n : Nat) : List (List FwdWrite) → Option (Mask × Lanes)
  | [] => none
  | w :: ws => match w.find? (fun x => x.reg == n) with
    | some x => x.eph
    | none => fwdOf n ws

/-- A register below the queues as the strand reads it: its row, with an ephemeral result in the lanes of its mask. -/
def Here.bank (h : Here) (n : Nat) : Lanes :=
  let row := h.team.row (regRow h.team h.group n)
  match fwdOf n h.strand.fwd with
  | some (m, v) => laneNumbers.map fun l => if laneBit m l then v.getD l 0 else row.getD l 0
  | none => row

/-- A constant register (Table 05-3). -/
def constReg (n : Nat) : Lanes :=
  laneNumbers.map fun l => if n = 1552 then BitVec.ofNat 32 l else if n = 1553 then BitVec.ofNat 32 (l / 4) else 0

/-- A lane of a mask reads a poisoned row: no ephemeral result stands in its place (R90, R362). -/
def Here.poisonRead (h : Here) (m : Mask) (n : Nat) : Bool :=
  let seen := match fwdOf n h.strand.fwd with
    | some (e, _) => m &&& ~~~e
    | none => m
  decide (n < 1536) && seen != 0 && h.team.rowPoison.contains (regRow h.team h.group n)

/-- Reads registers in order: what each gives, or why it gives nothing; each queue number pops one vector (R223). A row that is poisoned
gives POISON when some lane reads it (R362, R97). -/
def Here.fetchEach (h : Here) (m : Mask) : List Nat → SMap QueueReg → List (Except Stop Lanes) × SMap QueueReg
  | [], qs => ([], qs)
  | n :: ns, qs =>
    if isQueue n then
      match popQueue h.team h.group qs (n - 1536) m with
      | .error x => let r := h.fetchEach m ns qs; (.error x :: r.1, r.2)
      | .ok (v, qs1) => let r := h.fetchEach m ns qs1; (.ok v :: r.1, r.2)
    else
      let r := h.fetchEach m ns qs
      ((if h.poisonRead m n then .error (.fault cPoison none 0) else .ok (if 1552 ≤ n then constReg n else h.bank n)) :: r.1, r.2)

/-- The order in which stops of one instruction are taken (R345): QUEUE_OWNER, whose code is the lowest; then a queue that holds the
strand, since what it will give is not known; then the lowest code, in the lowest lane. -/
def Stop.rank : Stop → Nat
  | .fault c lane _ => if c ≤ cQueueOwner then 0 else 2 + 65 * c + (match lane with | some l => l + 1 | none => 0)
  | .hold _ | .miss _ _ => 1

/-- The first of some stops. -/
def worstStop : List (Except Stop Lanes) → Option Stop
  | [] => none
  | .ok _ :: rest => worstStop rest
  | .error x :: rest => match worstStop rest with
    | some y => some (if Stop.rank y < Stop.rank x then y else x)
    | none => some x

/-- Reads registers in order, or says what stops the instruction. -/
def Here.fetch (h : Here) (m : Mask) (ns : List Nat) (qs : SMap QueueReg) : Except Stop (List Lanes × SMap QueueReg) :=
  let r := h.fetchEach m ns qs
  match worstStop r.1 with
  | some x => .error x
  | none => .ok (r.1.map fun v => v.toOption.getD zeroRow, r.2)

/-- The lane values of an operand of a type: words, or the 64 bits of a pair (R163, R224). -/
def laneVals (ty : Fmt) (vs : List Lanes) : List DWord :=
  let a := vs.getD 0 zeroRow
  let b := vs.getD 1 zeroRow
  laneNumbers.map fun l =>
    if ty.is64 then (b.getD l 0).zeroExtend 64 <<< 32 ||| (a.getD l 0).zeroExtend 64 else (a.getD l 0).zeroExtend 64

/-- The lane values of vb (R98, R162, R163); `vs` are the registers read for it. -/
def Src.vals (v : Src) (h : Here) (ty : Fmt) (vs : List Lanes) : List DWord :=
  match v with
  | .vec _ => laneVals ty vs
  | .sreg r => List.replicate 64 (if ty.is64 then h.readS r else ((h.readS r).setWidth 32).zeroExtend 64)
  | .lit w => List.replicate 64 (match ty with | .i64 => w.signExtend 64 | _ => w.zeroExtend 64)

/-- The lane words of vb where it is read as one word whatever the type (R169, R230, R245 to R247). -/
def Src.words (v : Src) (h : Here) (vs : List Lanes) : List DWord := Src.vals v h .b32 vs

/-- A lane's entry of a list of lane values. -/
def laneOf (vs : List DWord) (l : Nat) : DWord := vs.getD l 0

/-! ## Writing registers -/

/-- The registers of a destination with their new lanes: a pair for a 64-bit type. -/
def destOf (ty : Fmt) (r : VReg) (vs : List DWord) : List (Nat × Lanes) :=
  let lo : Lanes := vs.map fun v => v.setWidth 32
  if ty.is64 then [(r.toNat, lo), (r.toNat + 1, vs.map fun (v : DWord) => (v >>> 32).setWidth 32)] else [(r.toNat, lo)]

/-- One register of the banks, or one push (R96, R97, R223): inactive lanes keep their words, and push zero. -/
def writeReg (t : Team) (g : Group) (qs : SMap QueueReg) (m : Mask) (w : Nat × Lanes) : Team × SMap QueueReg :=
  if isQueue w.1 then
    (t, pushQueue t qs (w.1 - 1536) (laneNumbers.map fun l => if laneBit m l then w.2.getD l 0 else 0))
  else (t.putRowMasked (regRow t g w.1) m w.2, qs)

/-- Registers written one after another. -/
def writeRegs (t : Team) (g : Group) (qs : SMap QueueReg) (m : Mask) (ws : List (Nat × Lanes)) : Team × SMap QueueReg :=
  ws.foldl (fun a w => writeReg a.1 g a.2 m w) (t, qs)

/-- What a short-latency vector instruction leaves: the group's flags, random state, scalars and predicates in `here`, and the
registers that it writes. -/
structure VecRes where
  here : Here
  writes : List (Nat × Lanes)
  deriving DecidableEq, Repr

/-- The writes as entries of the forwarding window (R90). -/
def fwdEntry (eph : Bool) (m : Mask) (ws : List (Nat × Lanes)) : List FwdWrite :=
  ws.map fun w => ⟨w.1, if eph then some (m, w.2) else none⟩

/-- A SHORT-LATENCY VECTOR INSTRUCTION of `n` words: role and registers are checked, its pushes must have room, its sources are
read, `f` computes each lane, and the results go to the banks, the queues or, with `eph`, the forwarding window. -/
def State.vecOp (s : State) (i : Instr) (n : Nat) (g : Guard) (eph : Bool) (f : Here → Mask → List Lanes → VecRes) :
    Host.Outcome State Fault Refusal :=
  s.issue i fun h =>
    let m := h.mask g
    match s.pushStop h i.vwrites with
    | some x => s.stopHere h x
    | none => match h.fetch m i.vreads s.queues with
      | .error x => s.stopHere h x
      | .ok (vs, qs) =>
        let r := f h m vs
        let w := if eph then (r.here.team, qs) else writeRegs r.here.team r.here.group qs m r.writes
        { s with queues := w.2 }.putHere ({ r.here with team := w.1 }.retire n (fwdEntry eph m r.writes))

/-! ## Long-latency instructions (R92, R95) -/

/-- A long-latency instruction issued and not completed, with what it captured. -/
def Here.pend (h : Here) (seq : Nat) (i : Instr) (la : BitVec 4) (m : Mask) (vops : List Lanes) : Pending where
  id := h.group.nextId
  seq := seq
  sid := h.strand.sid
  instr := i
  pc := h.strand.pc
  windows := [(h.strand.sid, la.toNat)]
  mask := m
  sa := 0
  sb := 0
  sd := 0
  more := []
  stage := (0, 0, 0)
  vops := vops
  rngs := h.group.rng
  rm := h.group.rm
  fmts := h.group.fmts
  tctl := h.team.tiles.map (·.ctl)
  locs := []
  job := none
  replayed := false
  park := none
  refused := []
  through := []
  acquire := false
  release := false
  drscale := h.group.drscale

/-- Issues a long-latency instruction of `n` words, unless it would be the 33rd outstanding (R95): it retires from issue, and is
outstanding from now on. -/
def State.launch (s : State) (h : Here) (n : Nat) (p : Pending) : State :=
  if 32 ≤ h.group.outcnt then s.putHere (h.wait s.clock (.count 31))
  else
    let h1 := h.retire n (p.instr.vwrites.map fun r => ⟨r, none⟩)
    { s with uid := s.uid + 1 }.putHere
      { h1 with group := { h1.group with pending := h1.group.pending ++ [p], nextId := h1.group.nextId + 1 } }

end Sys2Proof.Machine
end

