-- ==== Sys2Proof/Machine/Strands.lean ====
section
/-! DEFINITION. Strands that split, fuse and exit (R86 to R89), numbered barriers (R215), the lock on an extended set
(R79 to R81), and the end of a group (R211). -/

namespace Sys2Proof.Machine

open Sys2Proof

/-- A memory instruction, whose performance a fence and a release await (R214, R314). -/
def Instr.isMem : Instr → Bool
  | .sld _ _ _ _ _ _ | .sst _ _ _ _ _ _ | .satom _ _ _ _ _ _ | .scas _ _ _ _ _ _ | .cwb _ _ _ _ | .cinv _ _ _ _
  | .cwbinv _ _ _ _ | .vld _ _ _ _ _ _ _ _ | .vst _ _ _ _ _ _ _ _ | .vlds _ _ _ _ _ _ _ _ | .vsts _ _ _ _ _ _ _ _
  | .vldt _ _ _ _ _ _ _ _ | .vatom _ _ _ _ _ _ _ _ _ | .vcas _ _ _ _ _ _ _ => true
  | _ => false

/-- A memory instruction that writes memory. -/
def Instr.isStore : Instr → Bool
  | .sst _ _ _ _ _ _ | .satom _ _ _ _ _ _ | .scas _ _ _ _ _ _ | .vst _ _ _ _ _ _ _ _ | .vsts _ _ _ _ _ _ _ _
  | .vatom _ _ _ _ _ _ _ _ _ | .vcas _ _ _ _ _ _ _ => true
  | _ => false

/-- The long-latency instructions of a strand, those inherited at a split included (R86). -/
def Group.pendingOf (g : Group) (sid : Nat) : List Pending :=
  g.outstanding.filter fun p => p.sid == sid || (p.windows.find sid).isSome

/-- The strand has memory instructions that are not performed. -/
def Group.memPending (g : Group) (sid : Nat) : Bool := (g.pendingOf sid).any fun p => Instr.isMem p.instr

/-! ## Locks (R79 to R81) -/

/-- Releases a group's extended-set lock: it passes to the partner when that one is stalled in XLOCK. -/
def Team.unlock (t : Team) (g : Group) : Team :=
  let k := t.info.header.setOf g.num
  if t.locks.find k != some g.num then t
  else match t.groups.find? (fun p => p.num != g.num && t.info.header.setOf p.num == k &&
      p.strands.any fun x => x.hold == some .xlock) with
    | some p => { t with locks := t.locks.insert k p.num }
    | none => { t with locks := t.locks.erase k }

/-! ## Barriers (R215) -/

/-- A group has arrived in a phase of a barrier by its strands: each of them has issued the BAR. -/
def Group.atBar (g : Group) (b phase : Nat) : Bool :=
  !g.strands.isEmpty && g.strands.all fun x => x.arrived == some (b, phase)

/-- Each strand of the group has exited, so that it counts as arrived everywhere (R89). -/
def Group.gone (g : Group) : Bool := g.ended || g.strands.isEmpty

/-- The group's memory accesses are performed. -/
def Group.quiet (g : Group) : Bool := !g.outstanding.any fun p => Instr.isMem p.instr

/-- Releases an arrived group: its strands held at the BAR have issued it. A strand that a stop took from the BAR keeps its
arrival in the completed phase, so that it goes on when it issues the BAR afresh (R221). -/
def Group.passBar (g : Group) (b phase : Nat) : Group :=
  g.strands.foldl (fun g x =>
    if x.arrived = some (b, phase) ∧ x.hold = some (.barrier b) then
      (g.shorten x.sid).modStrand x.sid fun y => { y.retired 1 [] with arrived := none }
    else g) g

/-- A group that had not arrived waits for the next phase. -/
def Group.nextPhase (g : Group) (b phase : Nat) : Group :=
  g.modStrands fun x => if x.arrived = some (b, phase) then { x with arrived := some (b, phase + 1) } else x

/-- When the n-th group has arrived, the barrier's next phase begins; strands that arrived for a group that had not wait for it. -/
def Team.fillBar (t : Team) (b : Nat) (r : Barrier) : Team :=
  let gone := t.groups.filter fun g => g.gone && !r.groups.contains g.num
  if r.groups ≠ [] ∧ r.need ≤ r.groups.length + gone.length then
    { t with
      bars := t.bars.insert b { r with phase := r.phase + 1, groups := [], full := r.full ++ [(r.phase, r.groups)] }
      groups := t.groups.map fun g => if r.groups.contains g.num then g else g.nextPhase b r.phase }
  else { t with bars := t.bars.insert b r }

/-- Counts group `n` in, if its strands have all arrived. -/
def Team.countBar (t : Team) (b n : Nat) : Team :=
  match t.bars.find b, t.group? n with
  | some r, some g => if g.atBar b r.phase ∧ !r.groups.contains n then t.fillBar b { r with groups := r.groups ++ [n] } else t.fillBar b r
  | _, _ => t

/-- Completes the phases of a barrier that have all their groups: an arrival is a release at TEAM scope, so that the accesses of the
arrived groups are performed first. -/
def Team.passBars (t : Team) (b : Nat) : Team :=
  match t.bars.find b with
  | none => t
  | some r =>
    let quiet := fun (f : Nat × List Nat) => t.groups.all fun g => !(g.gone || f.2.contains g.num) || g.quiet
    { t with
      bars := t.bars.insert b { r with full := r.full.filter fun f => !quiet f }
      groups := t.groups.map fun g => (r.full.filter quiet).foldl (fun g f => if f.2.contains g.num then g.passBar b f.1 else g) g }

/-- Looks at one barrier: the groups are counted in ascending order, and what is complete is released. -/
def Team.evalBar (t : Team) (b : Nat) : Team :=
  (t.groups.foldl (fun t g => t.countBar b g.num) t).passBars b

/-- Looks at every barrier of a team. -/
def Team.evalBars (t : Team) : Team := (List.range 16).foldl (fun t b => t.evalBar b) t

/-! ## The end of a group (R211) -/

/-- Ends the groups of a team whose strands have all exited and whose long-latency operations have completed; a group that ends
releases its lock, and counts as arrived at every barrier. -/
def Team.settle (t : Team) : Team :=
  let done := t.groups.filter fun g => !g.ended && g.strands.isEmpty && g.pending.isEmpty
  let t1 := done.foldl (fun t g => (t.modGroup g.num fun g => { g with ended := true }).unlock g) t
  t1.evalBars

/-- Looks again at what waits on a team's groups: groups that end, barriers that complete. -/
def State.settle (s : State) (uid : Nat) : State := s.modTeam uid Team.settle

/-! ## Fusion (R88, R90) -/

/-- A strand carries an entry of the split stack. -/
def Strand.carries (x : Strand) (id : Nat) : Bool := x.stack.any fun e => e.id == id

/-- A strand has stopped at the REJOIN of an entry. -/
def Strand.atRejoin (x : Strand) (id : Nat) : Bool :=
  match x.hold with
  | some (.rejoin e) => e.id == id
  | _ => false

/-- Keeps the strands that pass a test; the choice of the next strand goes on at the same strand. -/
def Group.keepStrands (g : Group) (keep : Strand → Bool) : Group :=
  { g with
    strands := g.strands.filter keep
    rr := g.rr - ((g.strands.take g.rr).filter fun x => !keep x).length }

/-- A window that several strands shared, now of the fused strand. -/
def Pending.mergeWindows (p : Pending) (sids : List Nat) (kept : Nat) : Pending :=
  match (sids.filterMap p.windows.find) with
  | [] => p
  | n :: ns => { p with
      sid := if sids.contains p.sid then kept else p.sid
      windows := (sids.foldl (fun w k => w.erase k) p.windows).insert kept (ns.foldl min n) }

/-- Fuses the strands that carry an entry when each of them has stopped at its REJOIN (R88): lane set and EXEC are the unions,
the forwarding window is empty, the entry is popped, and the place is the lowest. -/
def Group.fuse (g : Group) (e : SplitEntry) : Group × List Nat :=
  match g.strands.filter fun x => x.carries e.id with
  | [] => (g, [])
  | x :: xs =>
    if (x :: xs).all fun y => y.atRejoin e.id then
      let sids := (x :: xs).map (·.sid)
      let y : Strand := { x with
        lanes := xs.foldl (fun m z => m ||| z.lanes) x.lanes
        exec := xs.foldl (fun m z => m ||| z.exec) x.exec
        stack := x.stack.dropLast
        fwd := []
        parked := x.parked ++ xs.flatMap (·.parked)
        pc := e.addr + 4
        hold := none
        refused := []
        skipStop := none }
      let g1 := (g.keepStrands fun z => z.sid == x.sid || !sids.contains z.sid).modStrand x.sid fun _ => y
      let g2 := g1.mapPending fun p => p.mergeWindows sids x.sid
      ({ g2 with
        handler := g2.handler.map fun k => if sids.contains k.sid then { k with sid := x.sid } else k }, sids)
    else (g, [])

/-- Fuses strands of a group of the machine; jobs of the fused strands are jobs of the strand that goes on. -/
def State.fuse (s : State) (team group : Nat) (e : SplitEntry) : State :=
  match (s.team? team).bind fun t => t.group? group with
  | none => s
  | some g =>
    let r := g.fuse e
    let kept := r.2.headD 0
    let mine := fun (gr sid : Nat) => gr == group && r.2.contains sid
    let s1 := s.modTeam team fun t => { (t.putGroup r.1) with
      fails := t.fails.map fun f => if mine f.group f.sid then { f with sid := kept } else f }
    { s1 with jobs := s1.jobs.map fun j => if j.team = team ∧ mine j.group j.sid then { j with sid := kept } else j }

/-! ## Exit (R89, R211) -/

/-- Removes a strand with its lane set; strands that waited for it fuse, barriers that waited for it complete, and the group may
end. A handler strand that exits ends handler mode, and what its frame captured is issued again (log entry 21). -/
def State.exitStrand (s : State) (h : Here) : State :=
  let g := h.grp
  let again := match g.handler with
    | some k => if k.sid = h.strand.sid then k.captured.map fun p => { p with locs := [], windows := [], replayed := true } else []
    | none => []
  let g1 := g.keepStrands fun x => x.sid != h.strand.sid
  let g2 := { g1 with
    pending := (g1.pending.map fun p => { p with windows := p.windows.erase h.strand.sid }) ++ again
    handler := if h.inHandler then none else g1.handler }
  let s1 := (s.putTeam (h.team.putGroup g2)).dropBinds fun b =>
    b.team == h.team.info.uid && b.group == g.num && b.sid == h.strand.sid
  let s2 := h.strand.stack.reverse.foldl (fun s e => s.fuse h.team.info.uid g.num e) s1
  s2.settle h.team.info.uid

end Sys2Proof.Machine
end

