-- ==== Sys2Proof/Machine/Mem.lean ====
section
/-! DEFINITION. How a memory instruction decides its fault (R346, R347), the write-back and invalidation of MANUAL lines by
ranges (R203), and the constant cache (R201, R202). -/

namespace Sys2Proof.Machine

open Sys2Proof

/-! ## The decision of R346 -/

/-- The addresses that an instruction presents, by lane; an S instruction presents one, under lane 0. -/
abbrev Addrs := List (Nat × DWord)

/-- The codes found before translation. -/
def State.earlyCodes (s : State) (h : Here) (n : Nat) (as : Addrs) : List (Nat × Code) :=
  as.filterMap fun p => match s.checkAddr h p.2 n with
    | .error c => some (p.1, c)
    | .ok _ => none

/-- Translates every lane: places, codes, and the pages missed. A page that has been refused gives PAGE. -/
def State.translateAll (s : State) (h : Here) (n : Nat) (a : Access) (refused : List Nat) :
    Addrs → (SMap Loc × List (Nat × Code) × List (Nat × Bool)) × State
  | [] => (([], [], []), s)
  | (l, x) :: rest =>
    match s.checkAddr h x n with
    | .error _ => s.translateAll h n a refused rest
    | .ok (.store u off) =>
      let r := s.translateAll h n a refused rest
      ((r.1.1.insert l (.store u off), r.1.2.1, r.1.2.2), r.2)
    | .ok (.glob va) =>
      let t := s.translate h.team.asid va a
      let r := t.2.translateAll h n a refused rest
      match t.1 with
      | .ok y => ((r.1.1.insert l (.glob y), r.1.2.1, r.1.2.2), r.2)
      | .bad c => ((r.1.1, (l, c) :: r.1.2.1, r.1.2.2), r.2)
      | .miss page host =>
        if refused.contains page then ((r.1.1, (l, cPage) :: r.1.2.1, r.1.2.2), r.2)
        else ((r.1.1, r.1.2.1, if r.1.2.2.contains (page, host) then r.1.2.2 else (page, host) :: r.1.2.2), r.2)

/-- The poison that a read of MANUAL bytes of a line meets (R335, R336). -/
def State.manualBad (s : State) (core line : Nat) : Bool :=
  match s.copyAt (.l1 core) line with
  | some c => c.poison
  | none => (s.dieLine (coreDie core) line).2

/-- The code that reading a place would meet now: POISON (R335, R362), or LINK_LOST (R367). -/
def State.locBad (s : State) (core : Nat) (atomic : Bool) (l : Loc) (n : Nat) : Option Code :=
  match l with
  | .store u off => match s.team? u with
    | some t => if t.rowsBad off n then some cPoison else none
    | none => none
  | .glob x =>
    if s.lost x then some cLinkLost
    else if x.bar0.isSome then none
    else if x.mt = 1 ∧ !atomic then (if s.manualBad core (lineOf x.key) then some cPoison else none)
    else if x.mt = 1 then (if (s.llcLine (lineOf x.key)).2 then some cPoison else none)
    else match (if x.mt = 0 then none else s.llcAt x) with
      | some c => if c.poison then some cPoison else none
      | none => if s.poisoned (lineOf x.key) then some cPoison else none

/-- The codes that the data decide: POISON for what is read, LINK_LOST for every access. -/
def State.dataCodes (s : State) (core n : Nat) (reads atomic : Bool) (ls : SMap Loc) : List (Nat × Code) :=
  ls.filterMap fun p => match s.locBad core atomic p.2 n with
    | some c => if reads || c == cLinkLost then some (p.1, c) else none
    | none => none

/-- The address of a lane. -/
def addrOf (as : Addrs) (l : Nat) : DWord :=
  match as.find? (fun p => p.1 == l) with
  | some p => p.2
  | none => 0

/-- The stop of a code found in a lane; `lanes` says whether lanes decide it (R347). -/
def stopOf (as : Addrs) (lanes : Bool) (p : Nat × Code) : Stop :=
  .fault p.2 (if lanes then some p.1 else none) (addrOf as p.1)

/-- DECIDES AN ACCESS (R346): the places of its lanes, or the stop that it takes. -/
def State.decide (s : State) (h : Here) (a : Access) (reads atomic lanes : Bool) (n : Nat) (refused : List Nat) (as : Addrs) :
    Except Stop (SMap Loc) × State :=
  match lowestCode (s.earlyCodes h n as) with
  | some p => (.error (stopOf as lanes p), s)
  | none =>
    let r := s.translateAll h n a refused as
    let ls := r.1.1
    let codes := r.1.2.1
    match r.1.2.2 with
    | m :: ms =>
      if codes.any fun p => p.2 == cPage then
        match lowestCode codes with
        | some p => (.error (stopOf as lanes p), r.2)
        | none => (.ok ls, r.2)
      else (.error (.miss (m :: ms) a), r.2)
    | [] =>
      match lowestCode (codes ++ r.2.dataCodes h.team.core n reads atomic ls) with
      | some p => (.error (stopOf as lanes p), r.2)
      | none => (.ok ls, r.2)

/-! ## Ranges of MANUAL lines (R203) -/

/-- The valid leaves of a context that meet [lo, hi): those that the translation caches hold, and those of its page tables. A HOST leaf of the
tables has no place before the host has translated it. -/
def State.leavesIn (s : State) (asid lo hi : Nat) : List TlbEntry :=
  if !s.live asid ∨ hi ≤ lo then []
  else
    let held := s.tlb.filter fun e => e.asid == asid && e.base < hi && lo < e.base + e.size
    let root := field (s.ctx asid).root 15 37 * 32768
    let span := fun (base size : Nat) (k : Nat) => (List.range k).filter fun i => base + i * size < hi && lo < base + (i + 1) * size
    let tables := (span 0 (2 ^ 51) 64).flatMap fun i0 =>
      let e0 := s.pte (root + i0 * 8)
      if !pteV e0 || pteReserved e0 || pteLeaf e0 then []
      else (span (i0 * 2 ^ 51) (2 ^ 39) 4096).flatMap fun i1 =>
        let e1 := s.pte (pteFrame e0 + i1 * 8)
        if !pteV e1 || pteReserved e1 || pteLeaf e1 then []
        else (span (i0 * 2 ^ 51 + i1 * 2 ^ 39) (2 ^ 27) 4096).flatMap fun i2 =>
          let e2 := s.pte (pteFrame e1 + i2 * 8)
          let at2 := i0 * 2 ^ 51 + i1 * 2 ^ 39 + i2 * 2 ^ 27
          if !pteV e2 || pteReserved e2 then []
          else if pteLeaf e2 then (if pteHost e2 then (span at2 (2 ^ 15) 4096).map fun i3 => at2 + i3 * 2 ^ 15 else [at2])
          else (span at2 (2 ^ 15) 4096).map fun i3 => at2 + i3 * 2 ^ 15
    let walked := tables.filterMap fun va =>
      if held.any fun e => e.base ≤ va && va < e.base + e.size then none
      else match s.walk root va with
        | .leaf e base size => some (if pteHost e then ⟨asid, va, 2 ^ 15, e, none⟩ else ⟨asid, base, size, e, none⟩)
        | _ => none
    held ++ walked.foldl (fun acc e => if acc.any fun x => x.base == e.base then acc else acc ++ [e]) []

/-- A leaf of the tables that waits for the host's translation. -/
def TlbEntry.untranslated (e : TlbEntry) : Bool := pteHost e.leaf && e.hostBase.isNone

/-- The pages of a range that lie in MANUAL HOST leaves which the host has not translated, and has not refused to translate (R203). -/
def State.rangeMisses (s : State) (asid lo hi : Nat) (refused : List Nat) : List Nat :=
  ((s.leavesIn asid lo hi).filter fun e => e.untranslated && pteMt e.leaf == 1 && !refused.contains (e.base / 32768) &&
    !s.misses.any fun m => m.asid == asid && m.page == e.base / 32768 && m.denied).map fun e => e.base / 32768

/-- The runs of physical lines of the MANUAL pages of a range: first line, last line, class, and whether they are host memory. -/
def State.manualRuns (s : State) (asid lo hi : Nat) : List (Nat × Nat × Nat × Bool) :=
  (s.leavesIn asid lo hi).filterMap fun e =>
    let a := max lo e.base
    let b := min hi (e.base + e.size)
    if pteMt e.leaf ≠ 1 ∨ e.untranslated ∨ b ≤ a then none
    else some (lineOf (e.place a).key, lineOf (e.place (b - 1)).key, pteCls e.leaf, e.hostBase.isSome)

/-- What CWB, CINV and CWBINV are. -/
inductive CacheOp where
  | wb | inval | both
  deriving DecidableEq, Repr

/-- Scope reaches the LLC. -/
def Scope.wide : Scope → Bool
  | .cluster => false
  | .die => false
  | .package => true
  | .system => true

/-- CWB of one line (Table 13-6). -/
def State.cwbLine (s : State) (core : Nat) (sc : Scope) (line cls : Nat) (host : Bool) : State :=
  let s1 := s.cwbL1 core line cls
  let s2 := if Scope.wide sc then s1.cwbDie (coreDie core) line else s1
  if sc = .system ∧ host then s2.cwbLlc line else s2

/-- CINV of one line (Table 13-6): an L1 copy's dirty bytes are discarded, unless an outstanding CWB is to merge them (R369); those of a
shared level are merged first. -/
def State.cinvLine (s : State) (core : Nat) (sc : Scope) (line cls : Nat) (host owed : Bool) : State :=
  let s1 := (if owed then s.cwbL1 core line cls else s).dropCopy (.l1 core) line
  let s2 := if Scope.wide sc then (s1.cwbDie (coreDie core) line).dropCopy (.die (coreDie core)) line else s1
  if sc = .system ∧ host then (s2.cwbLlc line).dropCopy .llc line else s2

/-- One line handled. -/
def State.cacheLine (s : State) (k : CacheOp) (core : Nat) (sc : Scope) (line cls : Nat) (host owed : Bool) : State :=
  match k with
  | .wb => s.cwbLine core sc line cls host
  | .inval => s.cinvLine core sc line cls host owed
  | .both => (s.cwbLine core sc line cls host).cinvLine core sc line cls host owed

/-- CWB, CINV or CWBINV of a range: every line of it that a MANUAL copy of the levels concerned holds. `owed` are the runs of lines that
outstanding write-backs of the core are to merge. -/
def State.cacheRange (s : State) (k : CacheOp) (core asid : Nat) (sc : Scope) (lo hi : Nat) (owed : List (Nat × Nat)) : State :=
  (s.manualRuns asid lo hi).foldl (fun s r =>
    let mine := s.copies.filter fun c => r.1 ≤ c.line && c.line ≤ r.2.1 &&
      (c.level == .l1 core || c.level == .die (coreDie core) || c.level == .llc)
    (sortNats (mine.map (·.line))).foldl (fun s line =>
      s.cacheLine k core sc line r.2.2.1 r.2.2.2 (owed.any fun o => o.1 ≤ line && line ≤ o.2)) s) s

/-! ## The constant cache (R201) -/

/-- Reads a doubleword through a core's constant cache: it subscribes to COHERENT lines at full precision, and holds a MANUAL
line until it is evicted. -/
def State.constRead (s : State) (a : Agent) (x : Xlat) : Except Code DWord × State :=
  let line := lineOf x.key
  if x.mt = 1 ∧ !s.lost x ∧ x.bar0.isNone then
    let s1 := match s.copyAt (.const a.core) line with
      | some _ => s
      | none =>
        let s1 := (s.countHosts a [x] []).fillDie (coreDie a.core) line x.cls
        s1.allocate (.const a.core) line x.cls (s1.dieLine (coreDie a.core) line)
    match s1.copyAt (.const a.core) line with
    | some c => (if c.poison then .error cPoison else .ok (dwordOf ((c.bytes.drop (x.key % 128)).take 8)), s1)
    | none => (.ok 0, s1)
  else
    let r := (s.countHosts a [x] []).loadX a none x 8
    match r.1 with
    | .ok bs => (.ok (dwordOf bs), r.2)
    | .error c => (.error c, r.2)

end Sys2Proof.Machine
end

