-- ==== Sys2Proof/Machine/ScalarMem.lean ====
section
/-! DEFINITION. Scalar memory instructions at issue, and what each does when it completes (R196 to R203, R129). -/

namespace Sys2Proof.Machine

open Sys2Proof

/-- Bytes of a SIZE (Table 13-4). -/
def MSize.bytes : MSize → Nat
  | .one => 1
  | .two => 2
  | .four => 4
  | .eight => 8

/-- Bytes of the SIZE bit of atomics (R198, R199). -/
def dblBytes (dbl : Bool) : Nat := if dbl then 8 else 4

/-- ORD has an acquire part. -/
def MemOrd.acquires : MemOrd → Bool
  | .acq => true
  | .ar => true
  | .rlx => false
  | .rel => false

/-- ORD has a release part. -/
def MemOrd.releases : MemOrd → Bool
  | .rel => true
  | .ar => true
  | .rlx => false
  | .acq => false

/-- How a memory instruction accesses memory. -/
structure MemUse where
  access : Access
  reads : Bool
  atomic : Bool
  bytes : Nat
  acquire : Bool
  release : Bool
  scope : Scope
  deriving DecidableEq, Repr

/-- A compare-and-swap: it stores only where its comparison holds. -/
def Instr.swaps : Instr → Bool
  | .scas _ _ _ _ _ _ | .vcas _ _ _ _ _ _ _ => true
  | _ => false

/-- A strand's access stores to a GOT entry that it is binding: that store is a release (R129, Table 19-2). -/
def State.bindsAt (s : State) (h : Here) (as : Addrs) : Bool :=
  s.binds.any fun b => b.team == h.team.info.uid && b.group == h.group.num && b.sid == h.strand.sid && b.asid == h.team.asid &&
    as.any fun a => a.2.toNat / 8 == b.va / 8

/-- ISSUES A MEMORY INSTRUCTION of `n` words: its access is decided (R346); then it is outstanding with what it captured, the
queues it pops become `qs`, and its access is performed when it completes. A SYSTEM release that covers lost writes takes LINK_LOST (R367);
a compare-and-swap, which releases only when it stores, at its completion (R199). -/
def State.issueMem (s : State) (h : Here) (n : Nat) (u : MemUse) (lanes : Bool) (as : Addrs) (qs : SMap QueueReg)
    (p : Pending) : State :=
  let r := s.decide h u.access u.reads u.atomic lanes u.bytes h.strand.refused as
  match r.1 with
  | .error x => r.2.stopHere h x
  | .ok ls =>
    if u.release ∧ !Instr.swaps p.instr ∧ u.scope = .system ∧ r.2.remoteLost h.team.info.uid then r.2.takeFault h cLinkLost
    else { r.2 with queues := qs }.launch h n { p with
      locs := ls, acquire := u.acquire, release := u.release || (u.access == Access.write && r.2.bindsAt h as) }

/-- How SLD accesses memory. -/
def useSld (sz : MSize) (acq : Bool) (sc : Scope) : MemUse := ⟨.read, true, false, MSize.bytes sz, acq, false, sc⟩
/-- How SST accesses memory. -/
def useSst (sz : MSize) (rel : Bool) (sc : Scope) : MemUse := ⟨.write, false, false, MSize.bytes sz, false, rel, sc⟩
/-- How SATOM accesses memory. -/
def useSatom (dbl : Bool) (sc : Scope) : MemUse := ⟨.write, true, true, dblBytes dbl, false, false, sc⟩
/-- How SCAS accesses memory. -/
def useScas (dbl : Bool) (ord : MemOrd) (sc : Scope) : MemUse :=
  ⟨.write, true, true, dblBytes dbl, MemOrd.acquires ord, MemOrd.releases ord, sc⟩

/-- An S memory instruction: its address is sa alone (R196); `f` adds the other operands that it captures. -/
def State.scalarMem (s : State) (i : Instr) (la : BitVec 4) (u : MemUse) (a : SReg) (f : Here → Pending → Pending) :
    Host.Outcome State Fault Refusal :=
  s.run fun h => s.issueMem h 1 u false [(0, h.readS a)] s.queues (f h { h.pend s.uid i la allLanes [] with sa := h.readS a })

/-- SLD -/
def execSld (la : BitVec 4) (sz : MSize) (acq : Bool) (sc : Scope) (d a : SReg) (s : State) : Host.Outcome State Fault Refusal :=
  s.scalarMem (.sld la sz acq sc d a) la (useSld sz acq sc) a fun _ p => p
/-- SST -/
def execSst (la : BitVec 4) (sz : MSize) (rel : Bool) (sc : Scope) (d a : SReg) (s : State) : Host.Outcome State Fault Refusal :=
  s.scalarMem (.sst la sz rel sc d a) la (useSst sz rel sc) a fun h p => { p with sd := h.readS d }
/-- SATOM -/
def execSatom (la : BitVec 4) (op : Aop) (dbl : Bool) (sc : Scope) (d a : SReg) (s : State) : Host.Outcome State Fault Refusal :=
  s.scalarMem (.satom la op dbl sc d a) la (useSatom dbl sc) a fun h p => { p with sd := h.readS d }
/-- SCAS: sd holds the expected value and sd+1 the new one. -/
def execScas (la : BitVec 4) (dbl : Bool) (ord : MemOrd) (sc : Scope) (d a : SReg) (s : State) : Host.Outcome State Fault Refusal :=
  s.scalarMem (.scas la dbl ord sc d a) la (useScas dbl ord sc) a fun h p =>
    { p with sd := h.readS d, sb := h.readS (d + 1) }

/-! ## CWB, CINV, CWBINV (R203) -/

/-- A range instruction: a length of zero completes at issue; a range outside window 0x0, or past 2^57, takes ADDR_SPACE. -/
def State.rangeOp (s : State) (i : Instr) (la : BitVec 4) (a b : SReg) : Host.Outcome State Fault Refusal :=
  s.run fun h =>
    let x := h.readS a
    let n := h.readS b
    if n = 0 then s.putHere (h.retire 1 [])
    else if 2 ^ 57 < x.toNat + n.toNat then s.takeAddrFault h cAddrSpace none x
    else s.launch h 1 { h.pend s.uid i la allLanes [] with sa := x, sb := n }

/-- CWB -/
def execCwb (la : BitVec 4) (sc : Scope) (a b : SReg) (s : State) : Host.Outcome State Fault Refusal := s.rangeOp (.cwb la sc a b) la a b
/-- CINV -/
def execCinv (la : BitVec 4) (sc : Scope) (a b : SReg) (s : State) : Host.Outcome State Fault Refusal := s.rangeOp (.cinv la sc a b) la a b
/-- CWBINV -/
def execCwbinv (la : BitVec 4) (sc : Scope) (a b : SReg) (s : State) : Host.Outcome State Fault Refusal :=
  s.rangeOp (.cwbinv la sc a b) la a b

/-! ## The constant cache and the GOT (R201, R202, R129) -/

/-- Two runs of bytes of one place overlap. -/
def Loc.overlaps (a : Loc) (n : Nat) (b : Loc) (m : Nat) : Bool :=
  match a, b with
  | .glob x, .glob y => x.key < y.key + m && y.key < x.key + n
  | .store u o, .store v q => u == v && o < q + m && q < o + n
  | .glob _, .store _ _ => false
  | .store _ _, .glob _ => false

/-- Bytes of a lane's element of a memory type. -/
def Fmt.memBytes (t : Fmt) : Nat :=
  match t with
  | .i8 | .b8 | .mxi8 | .lns8 => 1
  | .i16 | .b16 | .bf16 | .f16 | .lns16 => 2
  | .i64 | .b64 | .f64 => 8
  | .nf _ | .mxi4 | .tern2 => 1
  | _ => 4

/-- How an outstanding instruction accesses memory; `none` for those that access it by ranges or not at all. -/
def Instr.memUse : Instr → Option MemUse
  | .sld _ sz acq sc _ _ => some (useSld sz acq sc)
  | .sst _ sz rel sc _ _ => some (useSst sz rel sc)
  | .satom _ _ dbl sc _ _ => some (useSatom dbl sc)
  | .scas _ dbl ord sc _ _ => some (useScas dbl ord sc)
  | .vld _ _ acq sc ty _ _ _ | .vlds _ _ acq sc ty _ _ _ => some ⟨.read, true, false, Fmt.memBytes ty, acq, false, sc⟩
  | .vldt _ _ acq sc _ _ _ _ => some ⟨.read, true, false, 4, acq, false, sc⟩
  | .vst _ _ rel sc ty _ _ _ | .vsts _ _ rel sc ty _ _ _ => some ⟨.write, false, false, Fmt.memBytes ty, false, rel, sc⟩
  | .vatom _ _ ord sc _ ty _ _ _ =>
    some ⟨.write, true, true, if ty.is64 then 8 else 4, MemOrd.acquires ord, MemOrd.releases ord, sc⟩
  | .vcas _ _ ord sc _ _ _ => some ⟨.write, true, true, 4, MemOrd.acquires ord, MemOrd.releases ord, sc⟩
  | _ => none

/-- An earlier access of the strand that a later read of a place must follow: an acquire, or a write of bytes that overlap
(R94, R313, R314). -/
def Pending.before (p : Pending) (l : Loc) (n : Nat) : Bool :=
  match Instr.memUse p.instr with
  | some u => p.acquire || (u.access == .write && p.locs.any fun q => q.2.overlaps u.bytes l n)
  | none => false

/-- Reads a doubleword of window 0x0 through the constant cache, or says what stops the strand. -/
def State.constLoad (s : State) (h : Here) (a : DWord) : Except Stop (DWord × Loc) × State :=
  if windowOf a ≠ some 0 then (.error (.fault cAddrSpace none a), s)
  else
    let r := s.decide h .read false false false 8 h.strand.refused [(0, a)]
    match r.1 with
    | .error x => (.error x, r.2)
    | .ok ls => match ls.find 0 with
      | some (.glob x) =>
        if !r.2.atRest [x] then (.error (.hold (.busy a.toNat 8 h.team.asid true)), r.2)
        else if (h.grp.pendingOf h.strand.sid).any fun p => p.before (.glob x) 8 then
          (.error (.hold (.fence false)), r.2)
        else
          let v := r.2.constRead h.team.agent x
          match v.1 with
          | .ok d => (.ok (d, .glob x), v.2)
          | .error c => (.error (.fault c none a), v.2)
      | _ => (.error (.fault cAddrSpace none a), r.2)

/-- Stops a strand that reads through the constant cache: a miss holds back its whole group until the line arrives (R201, R202). -/
def State.stopConst (s : State) (h : Here) (x : Stop) : State :=
  match x with
  | .miss pages a => s.parkGroup h pages a
  | y => s.stopHere h y

/-- SLDC (R201) -/
def execSldc (d a : SReg) (imm : BitVec 10) (s : State) : Host.Outcome State Fault Refusal :=
  s.run fun h =>
    let r := s.constLoad h (h.readS a + imm.signExtend 64 <<< 3)
    match r.1 with
    | .error x => r.2.stopConst h x
    | .ok (v, _) => r.2.putHere ((h.writeS d v).retire 1 [])

/-- The address of a GOT entry: GOTBASE + 8 imm16 (R202). -/
def State.gotAddr (s : State) (asid : Nat) (imm : BitVec 16) : DWord := (s.ctx asid).got + imm.zeroExtend 64 <<< 3

/-- SLDGOT (R202, R129): a bound entry is read; the first reader of an unbound one becomes its binder and traps with the PC
of the SLDGOT; other readers stall. -/
def execSldgot (d : SReg) (imm : BitVec 16) (s : State) : Host.Outcome State Fault Refusal :=
  s.run fun h =>
    let a := s.gotAddr h.team.asid imm
    let r := s.constLoad h a
    match r.1 with
    | .error x => r.2.stopConst h x
    | .ok (v, _) =>
      if !v.getLsbD 0 then r.2.putHere ((h.writeS d v).retire 1 [])
      else
        let me : GotBinding := ⟨a.toNat, h.team.asid, h.team.info.uid, h.group.num, h.strand.sid⟩
        match r.2.binds.find? (fun b => b.va == a.toNat && b.asid == h.team.asid) with
        | some b =>
          if b = me then r.2.takeStop h (.trap cGotBind 0) h.strand.pc
          else r.2.stopHere h (.hold (.got a.toNat h.team.asid))
        | none => { r.2 with binds := r.2.binds ++ [me] }.takeStop h (.trap cGotBind 0) h.strand.pc

/-- The binder's first store to its entry ends the binding (R129). -/
def State.bindStored (s : State) (team group sid asid : Nat) (as : List Nat) : State :=
  s.dropBinds fun b => b.team == team && b.group == group && b.sid == sid && b.asid == asid &&
    as.any fun a => a / 8 == b.va / 8

/-! ## Completion -/

/-- The bits of a scalar that an access of `n` bytes uses. -/
def lowBytes (n : Nat) (v : DWord) : Nat := v.toNat % 2 ^ (8 * n)

/-- SATOM's new value (R198). -/
def satomNew (op : Aop) (n old x : Nat) : Nat := combineInt op true (8 * n) old x

/-- A new value for SCAS, if the old one is the expected one (R199). -/
def scasNew (n old : Nat) (expected new : DWord) : Option Nat := if old = lowBytes n expected then some (lowBytes n new) else none

end Sys2Proof.Machine
end

