-- ==== Sys2Proof/Machine/VectorInt.lean ====
section
/-! DEFINITION. Vector integer, logic, comparison and selection instructions (R228 to R232). -/

namespace Sys2Proof.Machine

open Sys2Proof

/-! ## Shared forms -/

/-- The lane values of va, vb, and vd read as a source. -/
structure Args where
  a : List DWord
  b : List DWord
  d : List DWord
  deriving DecidableEq, Repr

/-- Registers of one operand of a type. -/
def Fmt.pairLen (ty : Fmt) : Nat := if ty.is64 then 2 else 1

/-- The operands of an instruction whose vb has the instruction's type. -/
def argsOf (ty : Fmt) (vb : Src) (h : Here) (vs : List Lanes) : Args :=
  let k := Fmt.pairLen ty
  ⟨laneVals ty vs, Src.vals vb h ty (vs.drop k), laneVals ty (vs.drop (k + (vb.regs ty).length))⟩

/-- The operands of an instruction whose vb is a lane word. -/
def argsWord (ty : Fmt) (vb : Src) (h : Here) (vs : List Lanes) : Args :=
  let k := Fmt.pairLen ty
  ⟨laneVals ty vs, Src.words vb h (vs.drop k), laneVals ty (vs.drop (k + vb.reg1.length))⟩

/-- A value computed in each active lane (R222). -/
def perLane (m : Mask) (f : Nat → DWord) : List DWord := laneNumbers.map fun l => if laneBit m l then f l else 0

/-- An instruction without flags that computes each lane from that lane's operands. -/
def State.laneOp (s : State) (i : Instr) (g : Guard) (eph : Bool) (ty : Fmt) (vd : VReg) (vb : Src)
    (args : Here → List Lanes → Args) (f : DWord → DWord → DWord → DWord) : Host.Outcome State Fault Refusal :=
  s.vecOp i (Src.litWords vb) g eph fun h m vs =>
    let o := args h vs
    ⟨h, destOf ty vd (perLane m fun l => f (laneOf o.a l) (laneOf o.b l) (laneOf o.d l))⟩

/-- The same with vb of the instruction's type. -/
def State.intOp (s : State) (i : Instr) (g : Guard) (eph : Bool) (ty : Fmt) (vd : VReg) (vb : Src)
    (f : DWord → DWord → DWord → DWord) : Host.Outcome State Fault Refusal :=
  s.laneOp i g eph ty vd vb (argsOf ty vb) f

/-! ## R228 -/

/-- VADD -/
def execVadd (g : Guard) (eph sat : Bool) (ty : Fmt) (vd va : VReg) (vb : Src) (s : State) : Host.Outcome State Fault Refusal :=
  s.intOp (.vadd g eph sat ty vd va vb) g eph ty vd vb (intLane .add ty sat)
/-- VSUB -/
def execVsub (g : Guard) (eph sat : Bool) (ty : Fmt) (vd va : VReg) (vb : Src) (s : State) : Host.Outcome State Fault Refusal :=
  s.intOp (.vsub g eph sat ty vd va vb) g eph ty vd vb (intLane .sub ty sat)
/-- VMUL -/
def execVmul (g : Guard) (eph sat : Bool) (ty : Fmt) (vd va : VReg) (vb : Src) (s : State) : Host.Outcome State Fault Refusal :=
  s.intOp (.vmul g eph sat ty vd va vb) g eph ty vd vb (intLane .mul ty sat)
/-- VMULH -/
def execVmulh (g : Guard) (eph sat : Bool) (ty : Fmt) (vd va : VReg) (vb : Src) (s : State) : Host.Outcome State Fault Refusal :=
  s.intOp (.vmulh g eph sat ty vd va vb) g eph ty vd vb (intLane .mulh ty false)
/-- VMAD -/
def execVmad (g : Guard) (eph sat : Bool) (ty : Fmt) (vd va : VReg) (vb : Src) (s : State) : Host.Outcome State Fault Refusal :=
  s.intOp (.vmad g eph sat ty vd va vb) g eph ty vd vb (intLane .mad ty sat)
/-- VAND -/
def execVand (g : Guard) (eph : Bool) (ty : Fmt) (vd va : VReg) (vb : Src) (s : State) : Host.Outcome State Fault Refusal :=
  s.intOp (.vand g eph ty vd va vb) g eph ty vd vb fun a b _ => a &&& b
/-- VOR -/
def execVor (g : Guard) (eph : Bool) (ty : Fmt) (vd va : VReg) (vb : Src) (s : State) : Host.Outcome State Fault Refusal :=
  s.intOp (.vor g eph ty vd va vb) g eph ty vd vb fun a b _ => a ||| b
/-- VXOR -/
def execVxor (g : Guard) (eph : Bool) (ty : Fmt) (vd va : VReg) (vb : Src) (s : State) : Host.Outcome State Fault Refusal :=
  s.intOp (.vxor g eph ty vd va vb) g eph ty vd vb fun a b _ => a ^^^ b
/-- VANDN -/
def execVandn (g : Guard) (eph : Bool) (ty : Fmt) (vd va : VReg) (vb : Src) (s : State) : Host.Outcome State Fault Refusal :=
  s.intOp (.vandn g eph ty vd va vb) g eph ty vd vb fun a b _ => a &&& ~~~b
/-- VSHL -/
def execVshl (g : Guard) (eph : Bool) (ty : Fmt) (vd va : VReg) (vb : Src) (s : State) : Host.Outcome State Fault Refusal :=
  s.intOp (.vshl g eph ty vd va vb) g eph ty vd vb fun a b _ => shiftLane .shl ty a b
/-- VSHR -/
def execVshr (g : Guard) (eph : Bool) (ty : Fmt) (vd va : VReg) (vb : Src) (s : State) : Host.Outcome State Fault Refusal :=
  s.intOp (.vshr g eph ty vd va vb) g eph ty vd vb fun a b _ => shiftLane .shr ty a b
/-- VSAR -/
def execVsar (g : Guard) (eph : Bool) (ty : Fmt) (vd va : VReg) (vb : Src) (s : State) : Host.Outcome State Fault Refusal :=
  s.intOp (.vsar g eph ty vd va vb) g eph ty vd vb fun a b _ => shiftLane .sar ty a b
/-- VMIN -/
def execVmin (g : Guard) (eph : Bool) (ty : Fmt) (vd va : VReg) (vb : Src) (s : State) : Host.Outcome State Fault Refusal :=
  s.intOp (.vmin g eph ty vd va vb) g eph ty vd vb (intLane .min ty false)
/-- VMAX -/
def execVmax (g : Guard) (eph : Bool) (ty : Fmt) (vd va : VReg) (vb : Src) (s : State) : Host.Outcome State Fault Refusal :=
  s.intOp (.vmax g eph ty vd va vb) g eph ty vd vb (intLane .max ty false)
/-- VABSD -/
def execVabsd (g : Guard) (eph sat : Bool) (ty : Fmt) (vd va : VReg) (vb : Src) (s : State) : Host.Outcome State Fault Refusal :=
  s.intOp (.vabsd g eph sat ty vd va vb) g eph ty vd vb (intLane .absd ty sat)

/-! ## R229 and R230 -/

/-- VDOT4 -/
def execVdot4 (g : Guard) (eph : Bool) (ty : Fmt) (vd va : VReg) (vb : Src) (s : State) : Host.Outcome State Fault Refusal :=
  s.intOp (.vdot4 g eph ty vd va vb) g eph ty vd vb fun a b d =>
    (dot4 ty (a.setWidth 32) (b.setWidth 32) (d.setWidth 32)).zeroExtend 64
/-- VCLZ -/
def execVclz (g : Guard) (eph : Bool) (ty : Fmt) (vd va : VReg) (s : State) : Host.Outcome State Fault Refusal :=
  s.laneOp (.vclz g eph ty vd va) g eph ty vd (.sreg 0) (fun h vs => argsOf ty (.sreg 0) h vs)
    fun a _ _ => mapElems ty (fun x _ _ => clz ty.elemBits x) a 0 0
/-- VPOPC -/
def execVpopc (g : Guard) (eph : Bool) (ty : Fmt) (vd va : VReg) (s : State) : Host.Outcome State Fault Refusal :=
  s.laneOp (.vpopc g eph ty vd va) g eph ty vd (.sreg 0) (fun h vs => argsOf ty (.sreg 0) h vs)
    fun a _ _ => mapElems ty (fun x _ _ => popcount ty.elemBits x) a 0 0
/-- VBFX -/
def execVbfx (g : Guard) (eph : Bool) (ty : Fmt) (vd va : VReg) (vb : Src) (s : State) : Host.Outcome State Fault Refusal :=
  s.laneOp (.vbfx g eph ty vd va vb) g eph ty vd vb (argsWord ty vb)
    fun a b _ => BitVec.ofNat 64 (bfx ty.isSigned ty.elemBits a.toNat b.toNat)
/-- VBFI -/
def execVbfi (g : Guard) (eph : Bool) (ty : Fmt) (vd va : VReg) (vb : Src) (s : State) : Host.Outcome State Fault Refusal :=
  s.laneOp (.vbfi g eph ty vd va vb) g eph ty vd vb (argsWord ty vb)
    fun a b d => BitVec.ofNat 64 (bfi ty.elemBits a.toNat b.toNat d.toNat)

/-! ## R231 and R232 -/

/-- A predicate written in the active lanes (R76, R231). -/
def Here.writePMasked (h : Here) (p : PReg) (m : Mask) (f : Nat → Bool) : Here :=
  h.writeP p ((h.readP p &&& ~~~m) ||| (maskOf f &&& m))

/-- VCMP -/
def execVcmp (g : Guard) (c : Cond) (ty : Fmt) (pd : PReg) (va : VReg) (vb : Src) (s : State) : Host.Outcome State Fault Refusal :=
  s.vecOp (.vcmp g c ty pd va vb) (Src.litWords vb) g false fun h m vs =>
    let o := argsOf ty vb h vs
    ⟨h.writePMasked pd m fun l => laneBit m l && c.holds ty.elemBits (laneOf o.a l).toNat (laneOf o.b l).toNat, []⟩
/-- VSEL -/
def execVsel (g : Guard) (eph neg : Bool) (p : PReg) (ty : Fmt) (vd va : VReg) (vb : Src) (s : State) :
    Host.Outcome State Fault Refusal :=
  s.vecOp (.vsel g eph neg p ty vd va vb) (Src.litWords vb) g eph fun h m vs =>
    let o := argsOf ty vb h vs
    ⟨h, destOf ty vd (perLane m fun l => if laneBit (h.readP p) l != neg then laneOf o.a l else laneOf o.b l)⟩
/-- VMOV -/
def execVmov (g : Guard) (eph : Bool) (ty : Fmt) (vd : VReg) (vb : Src) (s : State) : Host.Outcome State Fault Refusal :=
  s.vecOp (.vmov g eph ty vd vb) (Src.litWords vb) g eph fun h m vs =>
    let b := Src.vals vb h ty vs
    ⟨h, destOf ty vd (perLane m fun l => laneOf b l)⟩

end Sys2Proof.Machine
end

