-- ==== Sys2Proof/Machine/VectorFloat.lean ====
section
/-! DEFINITION. Vector floating-point instructions (R226, R231, R233 to R237). -/

namespace Sys2Proof.Machine

open Sys2Proof

/-! ## Shared forms -/

/-- What one lane gives; inactive lanes draw nothing and raise nothing (R96). -/
def laneResults (m : Mask) (g : Group) (f : Nat → Rng → LaneRes) : List LaneRes :=
  laneNumbers.map fun l => if laneBit m l then f l (g.rngOf l) else ⟨0, 0, g.rngOf l⟩

/-- The results of lanes put into the group: flags and random state. -/
def Group.absorb (g : Group) (m : Mask) (rs : List LaneRes) : Group :=
  (g.raise m fun l => (rs.getD l ⟨0, 0, ⟨0, 0, 0, 0⟩⟩).flags).setRng m fun l => (rs.getD l ⟨0, 0, ⟨0, 0, 0, 0⟩⟩).rng

/-- A short-latency instruction that raises flags and may draw, lane by lane. -/
def State.flagOp (s : State) (i : Instr) (n : Nat) (g : Guard) (eph : Bool) (dst : Fmt) (vd : VReg)
    (f : Here → List Lanes → Nat → Rng → LaneRes) : Host.Outcome State Fault Refusal :=
  s.vecOp i n g eph fun h m vs =>
    let rs := laneResults m h.group (f h vs)
    ⟨{ h with group := h.group.absorb m rs }, destOf dst vd (rs.map (·.val))⟩

/-- One lane of R233 for a group's mode. -/
def floatOpLane (op : FloatOp) (ty : Fmt) (r : Rnd) (sat : Bool) (o : Args) (l : Nat) (g : Rng) : LaneRes :=
  floatLane ty r g fun mode k => floatElem ty.floatFmt op mode sat (elemOf ty (laneOf o.a l) k) (elemOf ty (laneOf o.b l) k)
    (elemOf ty (laneOf o.d l) k)

/-- A short-latency instruction of R233. -/
def State.floatOp (s : State) (i : Instr) (op : FloatOp) (g : Guard) (eph sat : Bool) (rnd : Rnd) (ty : Fmt) (vd : VReg)
    (vb : Src) : Host.Outcome State Fault Refusal :=
  s.flagOp i (Src.litWords vb) g eph ty vd fun h vs =>
    floatOpLane op ty (rnd.resolve h.group.rm) sat (argsOf ty vb h vs)

/-- A lane whose elements' results need no rounding mode. -/
def plainLane (ty : Fmt) (g : Rng) (f : Nat → Coded) : LaneRes :=
  let rs := (List.range ty.count).map f
  ⟨laneOfElems ty (rs.map (·.1)), rs.foldl (fun acc c => acc ||| c.2) 0, g⟩

/-! ## R233 and R234 -/

/-- VFADD -/
def execVfadd (g : Guard) (eph sat : Bool) (rnd : Rnd) (ty : Fmt) (vd va : VReg) (vb : Src) (s : State) :
    Host.Outcome State Fault Refusal :=
  s.floatOp (.vfadd g eph sat rnd ty vd va vb) .add g eph sat rnd ty vd vb
/-- VFSUB -/
def execVfsub (g : Guard) (eph sat : Bool) (rnd : Rnd) (ty : Fmt) (vd va : VReg) (vb : Src) (s : State) :
    Host.Outcome State Fault Refusal :=
  s.floatOp (.vfsub g eph sat rnd ty vd va vb) .sub g eph sat rnd ty vd vb
/-- VFMUL -/
def execVfmul (g : Guard) (eph sat : Bool) (rnd : Rnd) (ty : Fmt) (vd va : VReg) (vb : Src) (s : State) :
    Host.Outcome State Fault Refusal :=
  s.floatOp (.vfmul g eph sat rnd ty vd va vb) .mul g eph sat rnd ty vd vb
/-- VFMA -/
def execVfma (g : Guard) (eph sat : Bool) (rnd : Rnd) (ty : Fmt) (vd va : VReg) (vb : Src) (s : State) :
    Host.Outcome State Fault Refusal :=
  s.floatOp (.vfma g eph sat rnd ty vd va vb) .fma g eph sat rnd ty vd vb

/-- One lane of VFMIN or VFMAX. -/
def minMaxLane (isMax : Bool) (ty : Fmt) (o : Args) (l : Nat) (g : Rng) : LaneRes :=
  plainLane ty g fun k => floatMin ty.floatFmt isMax (elemOf ty (laneOf o.a l) k) (elemOf ty (laneOf o.b l) k)

/-- VFMIN -/
def execVfmin (g : Guard) (eph sat : Bool) (rnd : Rnd) (ty : Fmt) (vd va : VReg) (vb : Src) (s : State) :
    Host.Outcome State Fault Refusal :=
  s.flagOp (.vfmin g eph sat rnd ty vd va vb) (Src.litWords vb) g eph ty vd fun h vs => minMaxLane false ty (argsOf ty vb h vs)
/-- VFMAX -/
def execVfmax (g : Guard) (eph sat : Bool) (rnd : Rnd) (ty : Fmt) (vd va : VReg) (vb : Src) (s : State) :
    Host.Outcome State Fault Refusal :=
  s.flagOp (.vfmax g eph sat rnd ty vd va vb) (Src.litWords vb) g eph ty vd fun h vs => minMaxLane true ty (argsOf ty vb h vs)

/-! ## R231, R235, R236 -/

/-- VFCMP -/
def execVfcmp (g : Guard) (c : FCond) (ty : Fmt) (pd : PReg) (va : VReg) (vb : Src) (s : State) : Host.Outcome State Fault Refusal :=
  s.vecOp (.vfcmp g c ty pd va vb) (Src.litWords vb) g false fun h m vs =>
    let o := argsOf ty vb h vs
    let r := fun l => c.holds (fmtFp32.value (laneOf o.a l).toNat) (fmtFp32.value (laneOf o.b l).toNat)
    ⟨{ h with group := h.group.raise m fun l => (r l).2 }.writePMasked pd m fun l => laneBit m l && (r l).1, []⟩
/-- VFCLASS -/
def execVfclass (g : Guard) (eph : Bool) (ty : Fmt) (vd va : VReg) (s : State) : Host.Outcome State Fault Refusal :=
  s.laneOp (.vfclass g eph ty vd va) g eph ty vd (.sreg 0) (argsOf ty (.sreg 0))
    fun a _ _ => mapElems ty (fun x _ _ => floatClass ty.floatFmt x) a 0 0
/-- VFRND -/
def execVfrnd (g : Guard) (eph : Bool) (rnd : Rnd) (ty : Fmt) (vd va : VReg) (s : State) : Host.Outcome State Fault Refusal :=
  s.flagOp (.vfrnd g eph rnd ty vd va) 2 g eph ty vd fun h vs l r =>
    floatLane ty (rnd.resolve h.group.rm) r fun mode k => floatRnd ty.floatFmt mode (elemOf ty (laneOf (laneVals ty vs) l) k)

/-! ## VFDIV and the special functions (R233, R237): long-latency -/

/-- ISSUES A LONG-LATENCY VECTOR INSTRUCTION that reads its registers at issue and writes its results when it completes
(R92, R95, R97, R223). It holds when a register it reads is a queue that cannot pop. An all-zero mask leaves nothing to wait for
but its pushes, which are made at completion; without one it completes at issue. -/
def State.longOp (s : State) (i : Instr) (n : Nat) (la : BitVec 4) (g : Guard) (f : Here → List Lanes → Pending → Here × Pending) :
    Host.Outcome State Fault Refusal :=
  s.issue i fun h =>
    let m := h.mask g
    match s.ownQueues h i.vwrites with
    | some x => s.stopHere h x
    | none => match h.fetch m i.vreads s.queues with
      | .error x => s.stopHere h x
      | .ok (vs, qs) =>
        if m = 0 ∧ !i.vwrites.any isQueue then
          { s with queues := qs }.putHere (h.retire n (i.vwrites.map fun r => ⟨r, none⟩))
        else if 32 ≤ h.group.outcnt then s.putHere (h.wait s.clock (.count 31))
        else
          let r := f h vs (h.pend s.uid i la m vs)
          { s with queues := qs }.launch r.1 n r.2

/-- One lane of VFDIV or of a special function. -/
def divLane (ty : Fmt) (r : Rnd) (sat : Bool) (o : Args) (l : Nat) (g : Rng) : LaneRes := floatOpLane .div ty r sat o l g

/-- The random state after `n` draws in each active lane; the values are formed at completion, from the captured state. -/
def drawAhead (m : Mask) (h : Here) (r : Rnd) (n : Nat) : Here :=
  { h with group := h.group.setRng m fun l => (drawModes r n (h.group.rngOf l)).2 }

/-- VFDIV -/
def execVfdiv (g : Guard) (la : BitVec 4) (sat : Bool) (rnd : Rnd) (ty : Fmt) (vd va : VReg) (vb : Src) (s : State) :
    Host.Outcome State Fault Refusal :=
  s.longOp (.vfdiv g la sat rnd ty vd va vb) (Src.litWords vb) la g fun h vs p =>
    let o := argsOf ty vb h vs
    let p := { p with vops := [o.a.map (·.setWidth 32), o.b.map (·.setWidth 32)] }
    (drawAhead p.mask h (rnd.resolve h.group.rm) ty.count, p)

/-- One lane of a special function. -/
def specialLane (fn : SpecialFn) (ty : Fmt) (r : Rnd) (sat : Bool) (a : List DWord) (l : Nat) (g : Rng) : LaneRes :=
  floatLane ty r g fun mode k => specialElem ty.floatFmt fn mode sat (elemOf ty (laneOf a l) k)

/-- A special function at issue. -/
def State.specialOp (s : State) (i : Instr) (g : Guard) (la : BitVec 4) (rnd : Rnd) (ty : Fmt) :
    Host.Outcome State Fault Refusal :=
  s.longOp i 2 la g fun h _ p => (drawAhead p.mask h (rnd.resolve h.group.rm) ty.count, p)

/-- VEXP2 -/
def execVexp2 (g : Guard) (la : BitVec 4) (sat : Bool) (rnd : Rnd) (ty : Fmt) (vd va : VReg) (s : State) :
    Host.Outcome State Fault Refusal := s.specialOp (.vexp2 g la sat rnd ty vd va) g la rnd ty
/-- VLOG2 -/
def execVlog2 (g : Guard) (la : BitVec 4) (sat : Bool) (rnd : Rnd) (ty : Fmt) (vd va : VReg) (s : State) :
    Host.Outcome State Fault Refusal := s.specialOp (.vlog2 g la sat rnd ty vd va) g la rnd ty
/-- VRCP -/
def execVrcp (g : Guard) (la : BitVec 4) (sat : Bool) (rnd : Rnd) (ty : Fmt) (vd va : VReg) (s : State) :
    Host.Outcome State Fault Refusal := s.specialOp (.vrcp g la sat rnd ty vd va) g la rnd ty
/-- VRSQ -/
def execVrsq (g : Guard) (la : BitVec 4) (sat : Bool) (rnd : Rnd) (ty : Fmt) (vd va : VReg) (s : State) :
    Host.Outcome State Fault Refusal := s.specialOp (.vrsq g la sat rnd ty vd va) g la rnd ty
/-- VSQRT -/
def execVsqrt (g : Guard) (la : BitVec 4) (sat : Bool) (rnd : Rnd) (ty : Fmt) (vd va : VReg) (s : State) :
    Host.Outcome State Fault Refusal := s.specialOp (.vsqrt g la sat rnd ty vd va) g la rnd ty

end Sys2Proof.Machine
end

