-- ==== Sys2Proof/Machine/VectorMem.lean ====
section
/-! DEFINITION. Vector memory instructions at issue (R169, R254 to R262). -/

namespace Sys2Proof.Machine

open Sys2Proof

/-- A lane's address: base + SignExtend(offset, 32) (R169); `vs` are the registers read. -/
def laneAddr (h : Here) (base : MBase) (off : Src) (vs : List Lanes) : List DWord :=
  let b := match base with
    | .sreg r => List.replicate 64 (h.readS r)
    | .pair _ => laneVals .b64 vs
  let o := Src.words off h (vs.drop base.regs.length)
  laneNumbers.map fun l => laneOf b l + ((laneOf o l).setWidth 32 : Word).signExtend 64

/-- The addresses of the active lanes. -/
def activeAddrs (m : Mask) (a : List DWord) : Addrs := (laneNumbers.filter (laneBit m)).map fun l => (l, laneOf a l)

/-- What a W memory instruction takes that its registers stop. Where only its data are poisoned, its addresses decide too, and the lowest
code is taken (R345, R346). -/
def State.registerStop (s : State) (h : Here) (i : Instr) (u : MemUse) (m : Mask) (base : MBase) (off : Src) (x : Stop) : State :=
  let k := base.regs.length + off.reg1.length
  let rs := (h.fetchEach m i.vreads s.queues).1.take k
  if x = .fault cPoison none 0 ∧ (worstStop rs).isNone then
    let a := laneAddr h base off (rs.map fun v => v.toOption.getD zeroRow)
    let r := s.decide h u.access u.reads u.atomic true u.bytes h.strand.refused (activeAddrs m a)
    match r.1 with
    | .error (.fault c lane at_) => r.2.stopHere h (if c ≤ cPoison then .fault c lane at_ else x)
    | .error y => r.2.stopHere h y
    | .ok _ => r.2.stopHere h x
  else s.stopHere h x

/-- A W memory instruction of R254 at issue: registers first, then the lanes' addresses (R345, R346). Its lane addresses and
its data are captured in the layout of Table 21-4. -/
def State.vectorMem (s : State) (i : Instr) (la : BitVec 4) (u : MemUse) (g : Guard) (base : MBase) (off : Src) :
    Host.Outcome State Fault Refusal :=
  s.issue i fun h =>
    let m := h.mask g
    match s.ownQueues h i.vwrites with
    | some x => s.stopHere h x
    | none => match h.fetch m i.vreads s.queues with
      | .error x => s.registerStop h i u m base off x
      | .ok (vs, qs) =>
        let a := laneAddr h base off vs
        let data := vs.drop (base.regs.length + off.reg1.length)
        let n := Src.litWords off
        if m = 0 ∧ !i.vwrites.any isQueue then
          { s with queues := qs }.putHere (h.retire n (i.vwrites.map fun r => ⟨r, none⟩))
        else if 32 ≤ h.group.outcnt then s.putHere (h.wait s.clock (.count 31))
        else
          s.issueMem h n u true (activeAddrs m a) qs { h.pend s.uid i la m [] with
            sa := match base with | .sreg r => h.readS r | .pair _ => 0
            vops := (destOf .b64 0 a).map (·.2) ++ data }

/-- VLD -/
def execVld (g : Guard) (la : BitVec 4) (acq : Bool) (sc : Scope) (ty : Fmt) (vd : VReg) (base : MBase) (off : Src)
    (s : State) : Host.Outcome State Fault Refusal :=
  s.vectorMem (.vld g la acq sc ty vd base off) la ⟨.read, true, false, Fmt.memBytes ty, acq, false, sc⟩ g base off
/-- VST -/
def execVst (g : Guard) (la : BitVec 4) (rel : Bool) (sc : Scope) (ty : Fmt) (vd : VReg) (base : MBase) (off : Src)
    (s : State) : Host.Outcome State Fault Refusal :=
  s.vectorMem (.vst g la rel sc ty vd base off) la ⟨.write, false, false, Fmt.memBytes ty, false, rel, sc⟩ g base off
/-- VLDS: as VLD; it differs only in allocation (R257). -/
def execVlds (g : Guard) (la : BitVec 4) (acq : Bool) (sc : Scope) (ty : Fmt) (vd : VReg) (base : MBase) (off : Src)
    (s : State) : Host.Outcome State Fault Refusal :=
  s.vectorMem (.vlds g la acq sc ty vd base off) la ⟨.read, true, false, Fmt.memBytes ty, acq, false, sc⟩ g base off
/-- VSTS: as VST; it differs only in allocation (R257). -/
def execVsts (g : Guard) (la : BitVec 4) (rel : Bool) (sc : Scope) (ty : Fmt) (vd : VReg) (base : MBase) (off : Src)
    (s : State) : Host.Outcome State Fault Refusal :=
  s.vectorMem (.vsts g la rel sc ty vd base off) la ⟨.write, false, false, Fmt.memBytes ty, false, rel, sc⟩ g base off
/-- VLDT -/
def execVldt (g : Guard) (la : BitVec 4) (acq : Bool) (sc : Scope) (view : Fmt) (vd : VReg) (base : MBase) (off : Src)
    (s : State) : Host.Outcome State Fault Refusal :=
  s.vectorMem (.vldt g la acq sc view vd base off) la ⟨.read, true, false, 4, acq, false, sc⟩ g base off
/-- VATOM -/
def execVatom (g : Guard) (la : BitVec 4) (ord : MemOrd) (sc : Scope) (op : Aop) (ty : AType) (vd : VReg) (base : MBase)
    (off : Src) (s : State) : Host.Outcome State Fault Refusal :=
  s.vectorMem (.vatom g la ord sc op ty vd base off) la
    ⟨.write, true, true, if ty.is64 then 8 else 4, MemOrd.acquires ord, MemOrd.releases ord, sc⟩ g base off
/-- VCAS -/
def execVcas (g : Guard) (la : BitVec 4) (ord : MemOrd) (sc : Scope) (vd : VReg) (base : MBase) (off : Src) (s : State) :
    Host.Outcome State Fault Refusal :=
  s.vectorMem (.vcas g la ord sc vd base off) la ⟨.write, true, true, 4, MemOrd.acquires ord, MemOrd.releases ord, sc⟩ g base off

/-! ## VPREF (R261) -/

/-- The prefetch of one lane: a lane that would fault or miss does nothing; another has the effect of a relaxed load of one byte (VPREF
names no element size, so that no address is misaligned: log entry 17) whose value is discarded, and in a MANUAL page leaves a clean copy
at the level named. -/
def State.prefetch (s : State) (h : Here) (level : Nat) (a : DWord) : State :=
  match s.checkAddr h a 1 with
  | .ok (.glob va) =>
    let t := s.translate h.team.asid va .read
    match t.1 with
    | .ok x =>
      if t.2.lost x then s
      else
      let s1 := if level ≤ 1 ∨ x.mt ≠ 1 then t.2.countHosts h.team.agent [x] [] else t.2
      if x.mt = 1 ∧ x.bar0.isNone then
        let line := lineOf x.key
        match level with
        | 0 => s1.fillL1 h.team.core line x.cls
        | 1 => s1.fillDie (coreDie h.team.core) line x.cls
        | _ => s1
      else (s1.loadX h.team.agent none x 1).2
    | _ => s
  | _ => s

/-- VPREF -/
def execVpref (g : Guard) (level : BitVec 2) (base : MBase) (off : Src) (s : State) : Host.Outcome State Fault Refusal :=
  s.issue (.vpref g level base off) fun h =>
    let i := Instr.vpref g level base off
    let m := h.mask g
    match h.fetch m i.vreads s.queues with
    | .error x => s.stopHere h x
    | .ok (vs, qs) =>
      let s1 := (activeAddrs m (laneAddr h base off vs)).foldl (fun s p => s.prefetch h level.toNat p.2) s
      { s1 with queues := qs }.putHere (h.retire (Src.litWords off) [])

end Sys2Proof.Machine
end

