-- ==== Sys2Proof/Machine/VectorMove.lean ====
section
/-! DEFINITION. Lane movement, reductions and scans, keys, and ASSERTU (R245 to R253). -/

namespace Sys2Proof.Machine

open Sys2Proof

/-! ## Lane movement (R245 to R248) -/

/-- A lane of va by its number; 0 from 64 on. -/
def pick (a : List DWord) (j : DWord) : DWord := if j.toNat < 64 then laneOf a j.toNat else 0

/-- VSHUF -/
def execVshuf (g : Guard) (eph : Bool) (ty : Fmt) (vd va : VReg) (vb : Src) (s : State) : Host.Outcome State Fault Refusal :=
  s.vecOp (.vshuf g eph ty vd va vb) (Src.litWords vb) g eph fun h m vs =>
    let o := argsWord ty vb h vs
    ⟨h, destOf ty vd (perLane m fun l => pick o.a (laneOf o.b l))⟩

/-- The lane whose index is used: the lowest active one, or lane 0 (R246, R247). -/
def leadLane (m : Mask) : Nat := (lowestLane m).getD 0

/-- VBCAST -/
def execVbcast (g : Guard) (eph : Bool) (ty : Fmt) (vd va : VReg) (vb : Src) (s : State) : Host.Outcome State Fault Refusal :=
  s.vecOp (.vbcast g eph ty vd va vb) (Src.litWords vb) g eph fun h m vs =>
    let o := argsWord ty vb h vs
    ⟨h, destOf ty vd (perLane m fun _ => pick o.a (laneOf o.b (leadLane m)))⟩

/-- VRDLANE: the scalar is written whatever the mask (R97). -/
def execVrdlane (g : Guard) (ty : Fmt) (sd : SReg) (va : VReg) (vb : Src) (s : State) : Host.Outcome State Fault Refusal :=
  s.vecOp (.vrdlane g ty sd va vb) (Src.litWords vb) g false fun h m vs =>
    let o := argsWord ty vb h vs
    let x := pick o.a (laneOf o.b (leadLane m))
    ⟨h.writeS sd (match ty with | .i32 => (x.setWidth 32 : Word).signExtend 64 | _ => x), []⟩

/-- VWRLANE: the write is made only in an active lane. -/
def execVwrlane (g : Guard) (eph : Bool) (ty : Fmt) (vd : VReg) (sa : SReg) (vb : Src) (s : State) :
    Host.Outcome State Fault Refusal :=
  s.issue (.vwrlane g eph ty vd sa vb) fun h =>
    let i := Instr.vwrlane g eph ty vd sa vb
    let m := h.mask g
    match s.pushStop h i.vwrites with
    | some x => s.stopHere h x
    | none => match h.fetch m i.vreads s.queues with
      | .error x => s.stopHere h x
      | .ok (vs, qs) =>
        let j := laneOf (Src.words vb h vs) (leadLane m)
        let m1 := if j.toNat < 64 then m &&& BitVec.ofNat 64 (2 ^ j.toNat) else 0
        let ws := destOf ty vd (List.replicate 64 (h.readS sa))
        let w := if eph then (h.team, qs) else writeRegs h.team h.group qs m1 ws
        { s with queues := w.2 }.putHere ({ h with team := w.1 }.retire (Src.litWords vb) (fwdEntry eph m1 ws))

/-- VCOMPACT: the gather indices of the selected lanes. -/
def execVcompact (g : Guard) (eph : Bool) (vd va : VReg) (s : State) : Host.Outcome State Fault Refusal :=
  s.vecOp (.vcompact g eph vd va) 2 g eph fun h m vs =>
    let a := laneVals .b32 vs
    let act := laneNumbers.filter (laneBit m)
    let k := act.filter fun l => laneOf a l != 0
    let ps := act.zip (List.range act.length)
    ⟨h, destOf .b32 vd (laneNumbers.map fun l => match ps.find? (fun p => p.1 == l) with
      | some p => (match k[p.2]? with | some j => BitVec.ofNat 64 j | none => 0xFFFFFFFF)
      | none => 0)⟩

/-! ## Reductions and scans (R249) -/

/-- The atomic operation that combines as a reduction does. -/
def RedOp.aop : RedOp → Aop
  | .add => .add
  | .min => .min
  | .max => .max
  | .band => .band
  | .bor => .bor
  | .bxor => .bxor

/-- Combine of R249. -/
def redCombine (op : RedOp) (ty : Fmt) (mode : RMode) (acc x : Nat) : Coded :=
  match ty with
  | .f32 => match op with
    | .add => floatElem fmtFp32 .add mode false acc x 0
    | .max => floatMin fmtFp32 true acc x
    | _ => floatMin fmtFp32 false acc x
  | _ => (combineInt (RedOp.aop op) ty.isSigned 32 acc x, 0)

/-- The running results over lanes in ascending order: lane, value, flags of the steps so far. -/
def scanGo (op : RedOp) (ty : Fmt) (mode : RMode) (a : List DWord) (acc : Nat) (fl : Flags) : List Nat → List (Nat × Nat × Flags)
  | [] => []
  | l :: ls =>
    let r := redCombine op ty mode acc (laneOf a l).toNat
    (l, r.1, fl ||| r.2) :: scanGo op ty mode a r.1 (fl ||| r.2) ls

/-- Scan of R249 over the active lanes. -/
def scanLanes (op : RedOp) (ty : Fmt) (mode : RMode) (a : List DWord) (m : Mask) : List (Nat × Nat × Flags) :=
  match laneNumbers.filter (laneBit m) with
  | [] => []
  | l :: ls => (l, (laneOf a l).toNat, 0) :: scanGo op ty mode a (laneOf a l).toNat 0 ls

/-- VREDUCE at issue. -/
def execVreduce (g : Guard) (la : BitVec 4) (rnd : Rnd) (ty : Fmt) (op : RedOp) (vd va : VReg) (s : State) :
    Host.Outcome State Fault Refusal :=
  s.longOp (.vreduce g la rnd ty op vd va) 2 la g fun h _ p => (h, p)
/-- VSCAN at issue. -/
def execVscan (g : Guard) (la : BitVec 4) (rnd : Rnd) (ty : Fmt) (op : RedOp) (vd va : VReg) (s : State) :
    Host.Outcome State Fault Refusal :=
  s.longOp (.vscan g la rnd ty op vd va) 2 la g fun h _ p => (h, p)

/-! ## Keys (R250 to R252) -/

/-- The result of VMATCH in a lane. -/
def matchLane (ty : Fmt) (m : Mask) (a b : List DWord) (l : Nat) : Word :=
  match (laneNumbers.filter (laneBit m)).find? (fun j => keyValue ty (laneOf b j).toNat == keyValue ty (laneOf a l).toNat) with
  | some j => BitVec.ofNat 32 j
  | none => 0xFFFFFFFF

/-- VMATCH at issue: the replay queue's operands are the words of va and vb. -/
def execVmatch (g : Guard) (la : BitVec 4) (ty : Fmt) (vd va vb : VReg) (s : State) : Host.Outcome State Fault Refusal :=
  s.longOp (.vmatch g la ty vd va vb) 2 la g fun h _ p => (h, p)

/-- The sorted order of the active lanes. -/
def sortedLanes (ty : Fmt) (desc : Bool) (m : Mask) (a : List DWord) : List Nat :=
  sortLanes ty desc ((laneNumbers.filter (laneBit m)).map fun l => (l, (laneOf a l).toNat))

/-- One register of TSORT: lane A[i] receives lane P[i]. -/
def sortedReg (m : Mask) (order : List Nat) (v : Lanes) : Lanes :=
  let ps := (laneNumbers.filter (laneBit m)).zip order
  laneNumbers.map fun l => match ps.find? (fun p => p.1 == l) with
    | some p => v.getD p.2 0
    | none => 0

/-- TSORT at issue. -/
def execTsort (g : Guard) (la : BitVec 4) (ty : Fmt) (desc : Bool) (k : BitVec 4) (vd va : VReg) (s : State) :
    Host.Outcome State Fault Refusal :=
  s.longOp (.tsort g la ty desc k vd va) 2 la g fun h _ p => (h, p)

/-! ## ASSERTU (R253) -/

/-- ASSERTU: NONUNIFORM in the lowest active lane that differs from the lowest active lane. -/
def execAssertu (g : Guard) (ty : Fmt) (va : VReg) (s : State) : Host.Outcome State Fault Refusal :=
  s.issue (.assertu g ty va) fun h =>
    let i := Instr.assertu g ty va
    let m := h.mask g
    match h.fetch m i.vreads s.queues with
    | .error x => s.stopHere h x
    | .ok (vs, qs) =>
      let a := laneVals ty vs
      match (laneNumbers.filter (laneBit m)).find? (fun l => laneOf a l != laneOf a (leadLane m)) with
      | some l => s.takeAddrFault h cNonUniform (some l) 0
      | none => { s with queues := qs }.putHere (h.retire 2 [])

end Sys2Proof.Machine
end

