-- ==== Sys2Proof/Machine/Perform.lean ====
section
/-! DEFINITION. What a long-latency arithmetic, lane or memory instruction does when it completes, from what it captured at issue
(R92, R198 to R203, R233, R237, R249 to R260, R314, R339). -/

namespace Sys2Proof.Machine

open Sys2Proof

/-! ## Delivering results -/

/-- A strand number as a strand, for an instruction whose strand may have exited. -/
def Group.strandFor (g : Group) (sid : Nat) : Strand :=
  (g.strand? sid).getD ⟨sid, 0, 0, 0, [], [], [], none, [], 0, none, none, none⟩

/-- The group on whose behalf an outstanding instruction completes. -/
def State.owner (s : State) (team group : Nat) (p : Pending) : Option Here := do
  let t ← s.team? team
  let g ← t.group? group
  return ⟨t, g, g.strandFor p.sid⟩

/-- A group with the flags and the scalar of an instruction that completes. -/
def Group.given (g : Group) (p : Pending) (fl : Nat → Flags) (sc : Option (SReg × DWord)) : Group :=
  match sc with
  | some (r, v) => (g.raise p.mask fl).writeSAs p.sid r v
  | none => g.raise p.mask fl

/-- Delivers vector registers, flags and a scalar to a group. -/
def State.deliver (s : State) (team group : Nat) (p : Pending) (ws : List (Nat × Lanes)) (fl : Nat → Flags)
    (sc : Option (SReg × DWord)) : State :=
  match s.owner team group p with
  | none => s
  | some h =>
    let g := h.group.given p fl sc
    let w := writeRegs (h.team.putGroup g) g s.queues p.mask ws
    { s with queues := w.2 }.putTeam w.1

/-- No flag. -/
def noFlags : Nat → Flags := fun _ => 0

/-- The flags of lanes. -/
def flagsFrom (rs : List LaneRes) : Nat → Flags := fun l => (rs.getD l ⟨0, 0, ⟨0, 0, 0, 0⟩⟩).flags

/-- A lane's random state as captured at issue. -/
def Pending.rngOf (p : Pending) (l : Nat) : Rng := p.rngs.getD l ⟨0, 0, 0, 0⟩

/-- The results of the lanes of an outstanding instruction. -/
def Pending.lanes (p : Pending) (f : Nat → Rng → LaneRes) : List LaneRes :=
  laneNumbers.map fun l => if laneBit p.mask l then f l (p.rngOf l) else ⟨0, 0, p.rngOf l⟩

/-- The operand registers captured from position `k`. -/
def Pending.vals (p : Pending) (ty : Fmt) (k : Nat) : List DWord := laneVals ty (p.vops.drop k)

/-- A float result delivered. -/
def State.deliverLanes (s : State) (team group : Nat) (p : Pending) (ty : Fmt) (vd : VReg) (rs : List LaneRes) : State :=
  s.deliver team group p (destOf ty vd (rs.map (·.val))) (flagsFrom rs) none

/-! ## Arithmetic and lanes -/

/-- The flags of one step of a scan in its lane. -/
def scanFlags (rs : List (Nat × Nat × Flags)) (l : Nat) : Flags :=
  match rs.find? (fun r => r.1 == l) with
  | some r => r.2.2
  | none => 0

/-- VREDUCE: the last value and the flags of all steps, in every active lane. -/
def State.finishReduce (s : State) (team group : Nat) (p : Pending) (rnd : Rnd) (ty : Fmt) (op : RedOp) (vd : VReg) : State :=
  match (scanLanes op ty (engineMode rnd p.rm) (p.vals ty 0) p.mask).getLast? with
  | none => s.deliver team group p [(vd.toNat, zeroRow)] noFlags none
  | some r => s.deliver team group p [(vd.toNat, List.replicate 64 (BitVec.ofNat 32 r.2.1))] (fun _ => r.2.2) none

/-- VSCAN: each lane's running value and the flags up to its step. -/
def State.finishScan (s : State) (team group : Nat) (p : Pending) (rnd : Rnd) (ty : Fmt) (op : RedOp) (vd : VReg) : State :=
  let rs := scanLanes op ty (engineMode rnd p.rm) (p.vals ty 0) p.mask
  s.deliver team group p [(vd.toNat, laneNumbers.map fun l => match rs.find? (fun r => r.1 == l) with
    | some r => BitVec.ofNat 32 r.2.1
    | none => 0)] (scanFlags rs) none

/-- TSORT: the keys and the payload registers in sorted order. -/
def State.finishSort (s : State) (team group : Nat) (p : Pending) (ty : Fmt) (desc : Bool) (k : BitVec 4) (vd : VReg) : State :=
  let order := sortedLanes ty desc p.mask (p.vals ty 0)
  s.deliver team group p ((List.range (k.toNat + 1)).map fun i => (vd.toNat + i, sortedReg p.mask order (p.vops.getD i zeroRow)))
    noFlags none

/-! ## Memory -/

/-- The addresses of an outstanding memory instruction. -/
def Pending.addrs (p : Pending) : Addrs :=
  match p.instr with
  | .sld _ _ _ _ _ _ | .sst _ _ _ _ _ _ | .satom _ _ _ _ _ _ | .scas _ _ _ _ _ _ => [(0, p.sa)]
  | _ => activeAddrs p.mask (p.vals .b64 0)

/-- Whether an instruction's address is that of a lane (R347). -/
def Instr.byLanes : Instr → Bool
  | .sld _ _ _ _ _ _ | .sst _ _ _ _ _ _ | .satom _ _ _ _ _ _ | .scas _ _ _ _ _ _ => false
  | _ => true

/-- The places of an outstanding access: those decided at issue, unless the data are poisoned or lost by now; an instruction
issued again from the replay queue decides them afresh (R346, R353). -/
def State.placesOf (s : State) (h : Here) (p : Pending) (u : MemUse) : Except Stop (SMap Loc) × State :=
  if p.replayed then s.decide h u.access u.reads u.atomic (Instr.byLanes p.instr) u.bytes p.refused p.addrs
  else match lowestCode (s.dataCodes h.team.core u.bytes u.reads u.atomic p.locs) with
    | some c => (.error (stopOf p.addrs (Instr.byLanes p.instr) c), s)
    | none => (.ok p.locs, s)

/-- The places of lanes in memory. -/
def locPlaces (ls : SMap Loc) : List Xlat :=
  ls.filterMap fun p => match p.2 with
    | .glob x => if x.bar0.isNone then some x else none
    | .store _ _ => none

/-- Loads each lane in turn. -/
def State.loadEach (s : State) (a : Agent) (v : Option View) (n : Nat) : SMap Loc → List (Nat × Nat) × State
  | [] => ([], s)
  | (l, x) :: rest =>
    let r := s.loadLoc a v x n
    let q := r.2.loadEach a v n rest
    ((l, match r.1 with | .ok bs => numOfBytes bs | .error _ => 0) :: q.1, q.2)

/-- Loads the lanes of an instruction; each line of host memory is counted once (R157). -/
def State.loadLanes (s : State) (a : Agent) (v : Option View) (n : Nat) (ls : SMap Loc) : List (Nat × Nat) × State :=
  (s.countHosts a (locPlaces ls) []).loadEach a v n ls

/-- A lane's entry. -/
def laneNat (rs : List (Nat × Nat)) (l : Nat) : Nat :=
  match rs.find? (fun r => r.1 == l) with
  | some r => r.2
  | none => 0

/-- A loaded element as a lane value (Table 15-1). -/
def loadExt (ty : Fmt) (v : Nat) : DWord :=
  match ty with
  | .i8 => ((BitVec.ofNat 8 v).signExtend 32).zeroExtend 64
  | .i16 => ((BitVec.ofNat 16 v).signExtend 32).zeroExtend 64
  | _ => BitVec.ofNat 64 v

/-- The stores of the lanes, in ascending lane order (R255). -/
def laneStores (n : Nat) (ls : SMap Loc) (data : List DWord) : List Store :=
  ls.map fun p => (p.2, bytesOfNum n (laneOf data p.1).toNat)

/-- Atomics of the lanes, one after another: old values and flags. -/
def State.atomLanes (s : State) (a : Agent) (sc : Scope) (n : Nat) (f : Nat → Nat → Option Nat) (fl : Nat → Nat → Flags) :
    SMap Loc → List (Nat × Nat × Flags) × State
  | [] => ([], s)
  | (l, x) :: rest =>
    let r := s.atomicAt a sc x n (f l)
    let old := match r.1 with | .ok v => v | .error _ => 0
    let q := r.2.atomLanes a sc n f fl rest
    ((l, old, fl l old) :: q.1, q.2)

/-- The descriptor that goes with a narrow format in a view, zero for others (R320). -/
def Fmt.viewDesc (f : Fmt) (fmts : List DWord) : DWord :=
  match f with
  | .nf n => (fmts.getD n.toNat (fmtReset n.toNat)) &&& descMask
  | _ => 0

/-- The view of a VLDT (R320): FP32 elements under a view format, with the descriptor as it stood at issue. -/
def viewOf (fmts : List DWord) (v : Fmt) : View :=
  ⟨Fmt.toCode .f32, 0, Fmt.toCode v, Fmt.viewDesc v fmts⟩

/-- The rendering of a loaded word (R258). -/
def renderLane (fmts : List DWord) (v : Fmt) (w : Nat) : DWord :=
  let t := v.num fmts
  BitVec.ofNat 64 (extendCode t (render t (BitVec.ofNat 32 w)))

/-- A vector load delivered. -/
def State.finishLoad (s : State) (h : Here) (p : Pending) (ty : Fmt) (vd : VReg) (n : Nat) (ls : SMap Loc) : State :=
  let r := s.loadLanes h.team.agent none n ls
  r.2.deliver h.team.info.uid h.group.num p (destOf ty vd (laneNumbers.map fun l => loadExt ty (laneNat r.1 l))) noFlags none

/-- What an outstanding memory instruction does at its places. -/
def State.accessPlaces (s : State) (h : Here) (p : Pending) (ls : SMap Loc) : State :=
  let a := h.team.agent
  let u := h.team.info.uid
  let g := h.group.num
  let one := fun (s : State) (r : SReg) (v : Nat) => s.deliver u g p [] noFlags (some (r, BitVec.ofNat 64 v))
  match p.instr with
  | .sld _ sz _ _ d _ =>
    let r := s.loadLanes a none (MSize.bytes sz) ls
    one r.2 d (laneNat r.1 0)
  | .sst _ sz _ _ _ _ => s.storeAll a (laneStores (MSize.bytes sz) ls [p.sd])
  | .satom _ op dbl sc d _ =>
    let n := dblBytes dbl
    let r := s.atomLanes a sc n (fun _ old => some (satomNew op n old (lowBytes n p.sd))) (fun _ _ => 0) ls
    one r.2 d ((r.1.map fun x => x.2.1).headD 0)
  | .scas _ dbl _ sc d _ =>
    let n := dblBytes dbl
    let r := s.atomLanes a sc n (fun _ old => scasNew n old p.sd p.sb) (fun _ _ => 0) ls
    one r.2 d ((r.1.map fun x => x.2.1).headD 0)
  | .vld _ _ _ _ ty vd _ _ | .vlds _ _ _ _ ty vd _ _ => s.finishLoad h p ty vd (Fmt.memBytes ty) ls
  | .vst _ _ _ _ ty _ _ _ | .vsts _ _ _ _ ty _ _ _ => s.storeAll a (laneStores (Fmt.memBytes ty) ls (p.vals ty 2))
  | .vldt _ _ _ _ v vd _ _ =>
    let r := s.loadLanes a (some (viewOf p.fmts v)) 4 ls
    r.2.deliver u g p (destOf .b32 vd (laneNumbers.map fun l => renderLane p.fmts v (laneNat r.1 l))) noFlags none
  | .vatom _ _ _ sc op ty vd _ _ =>
    let n := if ty.is64 then 8 else 4
    let wide : Fmt := if ty.is64 then .b64 else .b32
    let x := p.vals wide 2
    let r := s.atomLanes a sc n (fun l old => some (combine ty op old (laneOf x l).toNat).1)
      (fun l old => (combine ty op old (laneOf x l).toNat).2) ls
    r.2.deliver u g p
      (destOf wide vd (laneNumbers.map fun l => BitVec.ofNat 64 (laneNat (r.1.map fun q => (q.1, q.2.1)) l)))
      (scanFlags r.1) none
  | .vcas _ _ _ sc vd _ _ =>
    let e := p.vals .b32 2
    let x := p.vals .b32 3
    let r := s.atomLanes a sc 4 (fun l old => scasNew 4 old (laneOf e l) (laneOf x l)) (fun _ _ => 0) ls
    r.2.deliver u g p
      (destOf .b32 vd (laneNumbers.map fun l => BitVec.ofNat 64 (laneNat (r.1.map fun q => (q.1, q.2.1)) l))) noFlags none
  | _ => s

/-- The lanes of an outstanding instruction that store: of a compare-and-swap those whose comparison holds (R199, R259). -/
def State.storedLanes (s : State) (h : Here) (p : Pending) (ls : SMap Loc) : List Nat :=
  let swapped := fun (n : Nat) (sc : Scope) (e : Nat → DWord) (x : Nat → DWord) =>
    ((s.atomLanes h.team.agent sc n (fun l old => scasNew n old (e l) (x l)) (fun _ _ => 0) ls).1.filter fun r =>
      r.2.1 = lowBytes n (e r.1)).map (·.1)
  match p.instr with
  | .scas _ dbl _ sc _ _ => swapped (dblBytes dbl) sc (fun _ => p.sd) (fun _ => p.sb)
  | .vcas _ _ _ sc _ _ _ => swapped 4 sc (laneOf (p.vals .b32 2)) (laneOf (p.vals .b32 3))
  | _ => ls.map (·.1)

/-- An outstanding access is a release: one of ORD, or a binder's store; a compare-and-swap that stores nothing is none (R199). -/
def State.releases (s : State) (h : Here) (p : Pending) (ls : SMap Loc) : Bool :=
  p.release && !(Instr.swaps p.instr && (s.storedLanes h p ls).isEmpty)

/-- The lines that a store writes through: COHERENT ones that some die may hold at a view (R329), with their classes, less those already
written through. -/
def State.throughLines (s : State) (p : Pending) (u : MemUse) (ls : SMap Loc) : List (Nat × Nat) :=
  if u.access != .write || u.atomic then []
  else (locPlaces ls).foldl (fun acc x =>
    let l := lineOf x.key
    if x.mt = 0 ∧ (s.dirLine l).vs ∧ !p.through.contains l ∧ !acc.any (fun q => q.1 == l) then acc ++ [(l, x.cls)] else acc) []

/-- The places of a store less those whose lines have been written through. -/
def Pending.keeps (p : Pending) (ls : SMap Loc) : SMap Loc :=
  ls.filter fun q => match q.2 with
    | .glob x => !p.through.contains (lineOf x.key)
    | .store _ _ => true

/-- The stores of an outstanding store instruction at some places. -/
def Pending.stores (p : Pending) (u : MemUse) (ls : SMap Loc) : List Store :=
  match p.instr with
  | .sst _ _ _ _ _ _ => laneStores u.bytes ls [p.sd]
  | .vst _ _ _ _ ty _ _ _ | .vsts _ _ _ _ ty _ _ _ => laneStores u.bytes ls (p.vals ty 2)
  | _ => []

/-- A die in M sends a store through to the home of each of some lines (R329): the instruction completes when they are performed. -/
def State.sendThrough (s : State) (h : Here) (p : Pending) (u : MemUse) (ls : SMap Loc) (ts : List (Nat × Nat)) : State :=
  let cs := globCells (fun x => x.bar0.isNone && x.mt == 0) (p.stores u ls)
  let s1 := ts.foldl (fun s t => (s.dirTake (.core h.team.core) t.1).sendUp (coreDie h.team.core)
    (.wt t.1 t.2 (cs.filter fun c => lineOf c.1 == t.1))) s
  s1.modTeam h.team.info.uid fun t => t.modGroup h.group.num fun g => g.mapPending fun q =>
    if q.id = p.id then { q with through := q.through ++ ts.map (·.1) } else q

/-- The write-backs that the instructions outstanding on a core are to make, as runs of lines, other than those of instruction `seq`
(R369). -/
def State.owedRuns (s : State) (core seq : Nat) : List (Nat × Nat) :=
  (s.teams.filter fun t => t.core == core).flatMap fun t => t.groups.flatMap fun g => g.pending.flatMap fun p =>
    match p.instr with
    | .cwb _ _ _ _ | .cwbinv _ _ _ _ =>
      if p.seq == seq then [] else (s.manualRuns t.asid p.sa.toNat (p.sa.toNat + p.sb.toNat)).map fun r => (r.1, r.2.1)
    | _ => []

/-- A range instruction performed (R203, R369). -/
def State.performRange (s : State) (h : Here) (p : Pending) (k : CacheOp) (sc : Scope) : State :=
  s.cacheRange k h.team.core h.team.asid sc p.sa.toNat (p.sa.toNat + p.sb.toNat) (s.owedRuns h.team.core p.seq)

end Sys2Proof.Machine
end

