-- ==== Sys2Proof/Machine/VectorConv.lean ====
section
/-! DEFINITION. Conversions, logarithmic arithmetic, random state and lane flags (R238 to R244). -/

namespace Sys2Proof.Machine

open Sys2Proof

/-! ## VCVT (R238, R239) -/

/-- The source value of a lane's element, and the flags of reading it: the unused code of TERN2 raises NV (R51). -/
def cvtSource (fmts : List DWord) (src : Fmt) (v : DWord) : SrcVal × Flags :=
  let code := elemOf src v 0
  ((src.num fmts).srcVal code (field v 8 8), if src = .tern2 ∧ code = 2 then fNV else 0)

/-- One lane of a conversion whose target has no shared scale. -/
def cvtLane (fmts : List DWord) (src dst : Fmt) (r : Rnd) (sat : Bool) (v : DWord) (g : Rng) : LaneRes :=
  let d := drawMode r g
  let x := cvtSource fmts src v
  let t := dst.num fmts
  let c := convert t x.1 (src.num fmts).wide none d.1 sat
  ⟨BitVec.ofNat 64 (extendCode t c.1), c.2 ||| x.2, d.2⟩

/-- One block of 32 lanes of a conversion to an MX format: its active lanes form the block (R239). -/
def mxBlockLanes (fmts : List DWord) (src : Fmt) (n : Nat) (r : Rnd) (a : List DWord) (gs : Nat → Rng) (ls : List Nat) :
    List (Nat × LaneRes) :=
  let xs := ls.map fun l => cvtSource fmts src (laneOf a l)
  let ds := ls.map fun l => drawMode r (gs l)
  let ys := (xs.zip ds).map fun p => (mxValue p.1.1 (src.num fmts).wide none, p.2.1)
  let b := mxBlock n ys
  (ls.zip ((b.2.zip xs).zip ds)).map fun p =>
    (p.1, ⟨BitVec.ofNat 64 (mxWord n p.2.1.1.1 b.1), p.2.1.1.2 ||| p.2.1.2.2, p.2.2.2⟩)

/-- The lanes of a conversion. -/
def cvtLanes (fmts : List DWord) (src dst : Fmt) (r : Rnd) (sat : Bool) (m : Mask) (g : Group) (a : List DWord) : List LaneRes :=
  match dst.num fmts with
  | .mx n =>
    let act := laneNumbers.filter (laneBit m)
    let rs := mxBlockLanes fmts src n r a g.rngOf (act.filter (· < 32)) ++ mxBlockLanes fmts src n r a g.rngOf (act.filter (32 ≤ ·))
    laneNumbers.map fun l => match rs.find? (fun p => p.1 == l) with
      | some p => p.2
      | none => ⟨0, 0, g.rngOf l⟩
  | _ => laneResults m g fun l x => cvtLane fmts src dst r sat (laneOf a l) x

/-- VCVT -/
def execVcvt (g : Guard) (eph sat : Bool) (rnd : Rnd) (src dst : Fmt) (vd va : VReg) (s : State) :
    Host.Outcome State Fault Refusal :=
  s.vecOp (.vcvt g eph sat rnd src dst vd va) 2 g eph fun h m vs =>
    let rs := cvtLanes h.group.fmts src dst (rnd.resolve h.group.rm) sat m h.group (laneVals src vs)
    ⟨{ h with group := h.group.absorb m rs }, destOf dst vd (rs.map (·.val))⟩

/-! ## VPACK and VUNPACK (R240, R241) -/

/-- One element of VPACK: a wide code to an element of the packed type. -/
def packElem (dst : Fmt) (mode : RMode) (sat : Bool) (c : Nat) : Coded :=
  match dst with
  | .bf16x2 | .f16x2 => dst.floatFmt.roundTo (fmtFp32.value c) mode sat
  | _ =>
    let x : Int := if dst.isSigned then signedOf 32 c else c
    (narrowInt dst.isSigned dst.elemBits sat x, 0)

/-- Whether a packed type has float elements. -/
def Fmt.isFloatPack : Fmt → Bool
  | .bf16x2 => true
  | .f16x2 => true
  | _ => false

/-- VPACK: element k of a lane comes from register va + k. -/
def execVpack (g : Guard) (eph sat : Bool) (rnd : Rnd) (src dst : Fmt) (vd va : VReg) (s : State) :
    Host.Outcome State Fault Refusal :=
  s.flagOp (.vpack g eph sat rnd src dst vd va) 2 g eph dst vd fun h vs l x =>
    floatLane dst (if Fmt.isFloatPack dst then rnd.resolve h.group.rm else .rne) x fun mode k =>
      packElem dst mode sat ((vs.getD k zeroRow).getD l 0).toNat

/-- One element of VUNPACK. -/
def unpackElem (src : Fmt) (c : Nat) : Coded :=
  match src with
  | .bf16x2 | .f16x2 => fmtFp32.roundTo (src.floatFmt.value c) .rne false
  | _ => if src.isSigned then (intCode 32 (signedOf src.elemBits c), 0) else (c, 0)

/-- VUNPACK: element k goes to register vd + k. -/
def execVunpack (g : Guard) (eph : Bool) (src dst : Fmt) (vd va : VReg) (s : State) : Host.Outcome State Fault Refusal :=
  s.vecOp (.vunpack g eph src dst vd va) 2 g eph fun h m vs =>
    let a := laneVals src vs
    let el := fun l k => unpackElem src (elemOf src (laneOf a l) k)
    let ks := List.range (packCount src)
    ⟨{ h with group := h.group.raise m fun l => ks.foldl (fun f k => f ||| (el l k).2) 0 },
      ks.map fun k => (vd.toNat + k, (perLane m fun l => BitVec.ofNat 64 (el l k).1).map (·.setWidth 32))⟩

/-! ## Logarithmic arithmetic (R242) -/

/-- Width of an LNS code. -/
def Fmt.lnsBits (ty : Fmt) : Nat := if ty = .lns16 then 16 else 8

/-- VLNS -/
def execVlns (g : Guard) (eph : Bool) (rnd : Rnd) (ty : Fmt) (vd va : VReg) (vb : Src) (s : State) :
    Host.Outcome State Fault Refusal :=
  s.flagOp (.vlns g eph rnd ty vd va vb) (Src.litWords vb) g eph ty vd fun h vs =>
    let o := argsOf ty vb h vs
    fun l x =>
    let d := drawMode (rnd.resolve h.group.rm) x
    let c := vlnsElem (Fmt.lnsBits ty) d.1 (laneOf o.a l).toNat (laneOf o.b l).toNat
    ⟨BitVec.ofNat 64 c.1, c.2, d.2⟩

/-- An LNS instruction without a mode. -/
def State.lnsOp (s : State) (i : Instr) (g : Guard) (eph : Bool) (ty : Fmt) (vd : VReg) (vb : Src)
    (f : DWord → DWord → Coded) : Host.Outcome State Fault Refusal :=
  s.flagOp i (Src.litWords vb) g eph ty vd fun h vs =>
    let o := argsOf ty vb h vs
    fun l x =>
    let c := f (laneOf o.a l) (laneOf o.b l)
    ⟨BitVec.ofNat 64 c.1, c.2, x⟩

/-- VLIN -/
def execVlin (g : Guard) (eph : Bool) (ty : Fmt) (vd va : VReg) (vb : Src) (s : State) : Host.Outcome State Fault Refusal :=
  s.lnsOp (.vlin g eph ty vd va vb) g eph ty vd vb fun a b =>
    vlinElem (Fmt.lnsBits ty) (elemOf ty a 0) (b.setWidth 32 : Word).toInt
/-- VLMUL -/
def execVlmul (g : Guard) (eph : Bool) (ty : Fmt) (vd va : VReg) (vb : Src) (s : State) : Host.Outcome State Fault Refusal :=
  s.lnsOp (.vlmul g eph ty vd va vb) g eph ty vd vb fun a b => vlmulElem (Fmt.lnsBits ty) (elemOf ty a 0) (elemOf ty b 0)
/-- VLADD -/
def execVladd (g : Guard) (eph : Bool) (ty : Fmt) (vd va : VReg) (vb : Src) (s : State) : Host.Outcome State Fault Refusal :=
  s.lnsOp (.vladd g eph ty vd va vb) g eph ty vd vb fun a b => vladdElem (Fmt.lnsBits ty) (elemOf ty a 0) (elemOf ty b 0)

/-! ## Random state and flags (R243, R244) -/

/-- The FP32 value (z >> 8) 2^-24 of VRAND.unit. -/
def unitOf (z : Word) : Word := BitVec.ofNat 32 (fmtFp32.roundTo (.exact false (z.toNat / 256) (-24)) .rne false).1

/-- VRAND -/
def execVrand (g : Guard) (eph : Bool) (op : RandOp) (s : State) : Host.Outcome State Fault Refusal :=
  s.vecOp (.vrand g eph op) 2 g eph fun h m vs =>
    let gr := h.group
    let draw := fun (vd : VReg) (f : Word → Word) =>
      (⟨{ h with group := gr.setRng m fun l => (gr.rngOf l).next.2 },
        [(vd.toNat, laneNumbers.map fun l => f (gr.rngOf l).next.1)]⟩ : VecRes)
    match op with
    | .draw vd => draw vd id
    | .unit vd => draw vd unitOf
    | .seed _ =>
      let w := fun k l => (vs.getD k zeroRow).getD l 0
      ⟨{ h with group := gr.setRng m fun l => ⟨w 0 l, w 1 l, w 2 l, w 3 l⟩ }, []⟩
    | .state vd =>
      ⟨h, [(vd.toNat, laneNumbers.map fun l => (gr.rngOf l).s0), (vd.toNat + 1, laneNumbers.map fun l => (gr.rngOf l).s1),
        (vd.toNat + 2, laneNumbers.map fun l => (gr.rngOf l).s2), (vd.toNat + 3, laneNumbers.map fun l => (gr.rngOf l).s3)]⟩

/-- VFLG -/
def execVflg (g : Guard) (eph : Bool) (op : FlgOp) (s : State) : Host.Outcome State Fault Refusal :=
  s.vecOp (.vflg g eph op) 2 g eph fun h m vs =>
    let gr := h.group
    let a := fun (l : Nat) => (((vs.getD 0 zeroRow).getD l 0).setWidth 5 : Flags)
    match op with
    | .get vd => ⟨h, [(vd.toNat, laneNumbers.map fun l => (gr.flagsOf l).zeroExtend 32)]⟩
    | .set _ => ⟨{ h with group := gr.setFlags m fun l _ => a l }, []⟩
    | .or _ => ⟨{ h with group := gr.setFlags m fun l f => f ||| a l }, []⟩
    | .clr _ => ⟨{ h with group := gr.setFlags m fun l f => f &&& ~~~a l }, []⟩

end Sys2Proof.Machine
end

