-- ==== Sys2Proof/Machine/Cards.lean ====
section
/-! DEFINITION. What the engine instructions share: tile shapes (R264, R265, Table 17-2), job cards (R145, Table 09-5), the issue
of engine instructions and of card jobs (R268, R272), runs of elements and their conversion (R57, R277, R279, R289). -/

namespace Sys2Proof.Machine

open Sys2Proof

/-! ## Tiles (R263 to R265) -/

/-- A matrix operand format (Table 17-2). -/
def isMatrixFmt : Fmt → Bool
  | .i8 | .f32 | .bf16 | .f16 | .mxi8 | .mxi4 | .lns16 | .lns8 | .tern2 => true
  | .nf _ => true
  | _ => false

/-- The shape that a `TCTL` value describes (Table 17-1). -/
structure Shape where
  fmt : Fmt
  num : NumFmt
  rows : Nat
  cols : Nat
  deriving DecidableEq, Repr

/-- Bytes of a row of a number of elements. -/
def rowBytes (t : NumFmt) (n : Nat) : Nat := (n * t.bits + 7) / 8

/-- RB. -/
def Shape.rb (p : Shape) : Nat := rowBytes p.num p.cols

/-- The valid shape of a `TCTL` value (R265). -/
def shapeOf (fmts : List DWord) (ctl : DWord) : Option Shape :=
  match Fmt.ofCode (ctl.extractLsb' 14 6) with
  | none => none
  | some f =>
    let p : Shape := ⟨f, f.num fmts, field ctl 6 8 + 1, 32 * (field ctl 0 6 + 1)⟩
    if isMatrixFmt f && p.rows * p.rb ≤ 32768 then some p else none

/-- A tile of a team. -/
def Team.tile (t : Team) (n : Nat) : Tile := t.tiles.getD n ⟨[], [], 0, false⟩

/-- Replaces a tile. -/
def Team.putTile (t : Team) (n : Nat) (x : Tile) : Team := { t with tiles := setAt ⟨[], [], 0, false⟩ t.tiles n x }

/-- An accumulator of a team. -/
def Team.acc (t : Team) (a : Bool) : Acc := t.accs.getD (if a then 1 else 0) ⟨[], [], false⟩

/-- Replaces an accumulator. -/
def Team.putAcc (t : Team) (a : Bool) (x : Acc) : Team := { t with accs := setAt ⟨[], [], false⟩ t.accs (if a then 1 else 0) x }

/-- The `TCTL` of a tile. -/
def Here.ctl (h : Here) (n : BitVec 3) : DWord := (h.team.tile n.toNat).ctl

/-- The shape of a tile as the strand sees it at issue. -/
def Here.shape (h : Here) (n : BitVec 3) : Option Shape := shapeOf h.group.fmts (h.ctl n)

/-- The codes of a run of elements, least significant first (R44, R51). -/
def codesOf (w n : Nat) (bs : List Byte) : List Nat :=
  let v := numOfBytes bs
  (List.range n).map fun i => v >>> (i * w) % 2 ^ w

/-- The bytes of a run of element codes; bits beyond the last element are zero. -/
def bytesOfCodes (w : Nat) (cs : List Nat) : List Byte :=
  bytesOfNum ((cs.length * w + 7) / 8) (cs.foldr (fun c v => c % 2 ^ w + 2 ^ w * v) 0)

/-- Bytes of a storage that reads zero beyond its list. -/
def sliceBytes (bs : List Byte) (off n : Nat) : List Byte := fit n (bs.drop off)

/-- Storage with a run of bytes replaced. -/
def putSlice (bs : List Byte) (off : Nat) (new : List Byte) : List Byte := fit off bs ++ new ++ bs.drop (off + new.length)

/-- Codes and scale codes of a row of a tile. -/
def Tile.row (t : Tile) (p : Shape) (r : Nat) : List Nat × List Nat :=
  (codesOf p.num.bits p.cols (sliceBytes t.bytes (r * p.rb) p.rb),
   if p.num.isMx then (sliceBytes t.scales (r * (p.cols / 32)) (p.cols / 32)).map (·.toNat) else [])

/-- Writes a row of a tile. -/
def Tile.putRow (t : Tile) (p : Shape) (r : Nat) (cs xs : List Nat) : Tile :=
  { t with
    bytes := putSlice t.bytes (r * p.rb) (bytesOfCodes p.num.bits cs)
    scales := if p.num.isMx then putSlice t.scales (r * (p.cols / 32)) (xs.map (BitVec.ofNat 8)) else t.scales }

/-! ## Runs of elements (R57, R277, R279, R289) -/

/-- A FP32 scale field: zero stands for 1.0. -/
def scaleOf (w : Word) : Option Num := if w = 0 ∨ w = 0x3F800000 then none else some (fmtFp32.value w.toNat)

/-- The value of element `i` of a run, with NV for the unused code of TERN2 (R51). -/
def runValue (t : NumFmt) (cs xs : List Nat) (i : Nat) : SrcVal × Flags :=
  let c := cs.getD i 0
  (t.srcVal c (xs.getD (i / 32) 0), if t = .tern ∧ c % 4 = 2 then fNV else 0)

/-- A run of elements converted: codes, the scale codes of its blocks of 32, and the flags. -/
def convertRun (src dst : NumFmt) (cs xs : List Nat) (c : Option Num) (mode : RMode) (sat : Bool) : List Nat × List Nat × Flags :=
  let vs := (List.range cs.length).map (runValue src cs xs)
  match dst with
  | .mx n =>
    let bs := (blocksOf32 vs).map fun blk => mxBlock n (blk.map fun v => let y := mxValue v.1 src.wide c; ((y.1, y.2 ||| v.2), mode))
    (bs.flatMap fun b => b.2.map (·.1), bs.map (·.1), bs.foldl (fun f b => b.2.foldl (fun f e => f ||| e.2) f) 0)
  | _ =>
    let rs := vs.map fun v => let y := convert dst v.1 src.wide c mode sat; (y.1, y.2 ||| v.2)
    (rs.map (·.1), [], rs.foldl (fun f e => f ||| e.2) 0)

/-- A run of elements moved from one format to another: bits are copied when the formats are the same and the scale is 1.0. -/
def moveRun (src dst : Fmt) (fmts : List DWord) (cs xs : List Nat) (c : Option Num) (mode : RMode) (sat : Bool) :
    List Nat × List Nat × Flags :=
  if src = dst ∧ c = none then (cs, xs, 0) else convertRun (src.num fmts) (dst.num fmts) cs xs c mode sat

/-! ## What a failed job leaves (R270; log entry 4) -/

/-- For each byte of a run of elements of `w` bytes: the job could have written all of its element, and a free truth value says that it has. -/
def writtenBytes (n w : Nat) (oks : List Bool) : List Bool :=
  (List.range oks.length).map fun i =>
    (List.range w).all (fun k => oks.getD (i / w * w + k) true) && Config.freeBool (n + i / w)

/-- Storage after a failed job: each element of `w` bytes that the job could have written has its new value or its old one. -/
def mixBytes (n w : Nat) (oks : List Bool) (old new : List Byte) : List Byte :=
  let ks := writtenBytes n w oks
  (List.range old.length).map fun i => if i < new.length && ks.getD i false then new.getD i 0 else old.getD i 0

/-- All bytes of element `k` of a run are sound. -/
def elemSound (w : Nat) (oks : List Bool) (k : Nat) : Bool :=
  (List.range ((k * w + w - 1) / 8 - k * w / 8 + 1)).all fun i => oks.getD (k * w / 8 + i) false

/-- The elements of a converted run that sound bytes and scale bytes give: all of a block for an MX target. -/
def elemsSound (src dst : NumFmt) (n : Nat) (oks xoks : List Bool) : List Bool :=
  let each := (List.range n).map fun k => elemSound src.bits oks k && (!src.isMx || xoks.getD (k / 32) false)
  if dst.isMx then (List.range n).map fun k => (List.range 32).all fun i => each.getD (k / 32 * 32 + i) true else each

/-- The bytes of a run of elements that hold sound elements only. -/
def bytesSound (w : Nat) (es : List Bool) : List Bool :=
  (List.range ((es.length * w + 7) / 8)).map fun b =>
    (List.range ((8 * b + 7) / w - 8 * b / w + 1)).all fun i => es.getD (8 * b / w + i) true

/-- The scale bytes of a run of elements whose blocks are sound. -/
def scalesSound (dst : NumFmt) (es : List Bool) : List Bool :=
  if dst.isMx then (List.range (es.length / 32)).map fun b => es.getD (32 * b) false else []

/-- A tile after a failed job or operation that would have left `new`, in elements of `w` bytes. -/
def Tile.mix (t new : Tile) (n w : Nat) (oks xoks : List Bool) : Tile :=
  { t with
    bytes := mixBytes n w oks (fit new.bytes.length t.bytes) new.bytes
    scales := mixBytes (n + new.bytes.length) 1 xoks (fit new.scales.length t.scales) new.scales }

/-- Free truth values that `Tile.mix` uses. -/
def Tile.mixed (new : Tile) : Nat := new.bytes.length + new.scales.length

/-- Values in the lanes of one register converted (R239, R283): the words of the lanes, with their flags. For an MX target lanes 0
to 31 and 32 to 63 form the blocks, each of its listed lanes only. -/
def convertLanes (t : NumFmt) (mode : RMode) (sat : Bool) (xs : List (Nat × Num × Flags)) : List (Nat × DWord × Flags) :=
  match t with
  | .mx n =>
    let part := fun (ys : List (Nat × Num × Flags)) =>
      let b := mxBlock n (ys.map fun y => let v := mxValue (.num y.2.1) true none; ((v.1, v.2 ||| y.2.2), mode))
      (ys.zip b.2).map fun p => (p.1.1, (BitVec.ofNat 64 (mxWord n p.2.1 b.1) : DWord), p.2.2)
    part (xs.filter fun y => y.1 < 32) ++ part (xs.filter fun y => 32 ≤ y.1)
  | _ => xs.map fun y =>
    let c := convert t (.num y.2.1) true none mode sat
    (y.1, BitVec.ofNat 64 (extendCode t c.1), c.2 ||| y.2.2)

/-! ## Issue (R268, R272) -/

/-- The code of a stop that is a fault. -/
def Stop.code : Stop → Option Code
  | .fault c _ _ => some c
  | _ => none

/-- The fault with the lowest code among some stops. -/
def lowestFault : List Stop → Option Stop
  | [] => none
  | x :: rest => match x.code, lowestFault rest with
    | none, r => r
    | some _, none => some x
    | some c, some y => match y.code with
      | some d => if d < c then some y else some x
      | none => some x

/-- Faults that no lane decides. -/
def faultsOf (cs : List Code) : List Stop := cs.map fun c => .fault c none 0

/-- ISSUES AN ENGINE OR TASK INSTRUCTION that completes as a long-latency one: `codes` are the faults that its checks find;
its vector operands are read; `f` adds what else it captures. Its mask is EXEC (R272). -/
def State.engineOp (s : State) (i : Instr) (la : BitVec 4) (codes : Here → List Code) (f : Here → Pending → Here × Pending) :
    Host.Outcome State Fault Refusal :=
  s.issue i fun h =>
    let m := h.strand.exec
    let r := h.fetch m i.vreads s.queues
    let own := match s.ownQueues h i.vwrites with | some x => [x] | none => []
    let bad := match r with | .error x => [x] | .ok _ => []
    match lowestFault (faultsOf (codes h) ++ own ++ bad) with
    | some x => s.stopHere h x
    | none => match r with
      | .error x => s.stopHere h x
      | .ok (vs, qs) =>
        if 32 ≤ h.group.outcnt then s.putHere (h.wait s.clock (.count 31))
        else
          let r := f h (h.pend s.uid i la m vs)
          { s with queues := qs }.launch r.1 2 r.2

/-! ## Job cards (R144 to R147, Table 09-5) -/

/-- A region of a card. -/
structure Region where
  intent : Nat
  addr : DWord
  len : Nat
  deriving DecidableEq, Repr

/-- A doubleword of a card. -/
def cardWord (ws : List DWord) (k : Nat) : DWord := ws.getD k 0

/-- Region `k` of a card. -/
def cardRegion (ws : List DWord) (k : Nat) : Region :=
  let x := cardWord ws (6 + k / 2)
  ⟨field x (32 * (k % 2) + 30) 2, cardWord ws (2 + k), field x (32 * (k % 2)) 30⟩

/-- SCOPE. -/
def cardScope (ws : List DWord) : Nat := field (cardWord ws 0) 53 3

/-- The tag, unless NOTAG is set. -/
def cardTag (ws : List DWord) : Option Nat :=
  if (cardWord ws 0).getLsbD 52 then none else some (field (cardWord ws 0) 46 6)

/-- CARD1. -/
def card1 (ws : List DWord) : DWord := cardWord ws 1

/-- The code of the space that a region lies in, if it takes one. -/
def State.regionCode (s : State) (h : Here) (r : Region) : List Code :=
  if r.intent = 0 then (if r.addr = 0 ∧ r.len = 0 then [] else [cBadCard])
  else if r.len = 0 ∨ field r.addr 60 4 = 0xA then [cBadCard]
  else match s.resolve h.team h.group false r.addr r.len with
    | .ok _ => []
    | .error c => [c]

/-- The codes that a card takes whatever the instruction (R145). -/
def State.cardCodes (s : State) (h : Here) (ws : List DWord) : List Code :=
  (if cardWord ws 0 &&& 0xFF003FFFFFFFFFFF ≠ 0 ∨ 4 < cardScope ws then [cBadCard] else []) ++
  (List.range 4).flatMap fun k => s.regionCode h (cardRegion ws k)

/-- The intents of the four regions are those given. -/
def intents (ws : List DWord) (is : List Nat) : Bool := (List.range 4).all fun k => (cardRegion ws k).intent == is.getD k 0

/-- Reads a card at issue: the codes that its address takes (SPACE_OWNER where it names another core, R133, ADDR_SPACE wherever else it is not
in the team's scratchpad), or its words. -/
def State.readCard (s : State) (h : Here) (a : DWord) : Except (List Code) (List DWord) :=
  let align := if a.toNat % 64 = 0 then [] else [cAlign]
  if windowOf a ≠ some 0xB then .error (cAddrSpace :: align)
  else match s.resolve h.team h.group false a 64 with
    | .ok (.store _ off) =>
      if align ≠ [] then .error align
      else if h.team.rowsBad off 64 then .error [cPoison]
      else .ok (dwordsOf (h.team.bytes off 64) 8)
    | .error c => .error (c :: align)
    | .ok (.glob _) => .error (cAddrSpace :: align)

/-- The job of a card. -/
def Here.job (h : Here) (seq : Nat) (i : Instr) (mode : RMode) (a : DWord) (ws : List DWord) : Job where
  uid := seq
  core := h.team.core
  team := h.team.info.uid
  group := h.group.num
  sid := h.strand.sid
  instr := i
  pc := h.strand.pc
  card := a
  words := ws
  exec := h.strand.exec
  mode := mode
  rm := h.group.rm
  drscale := h.group.drscale
  fmts := h.group.fmts
  tctl := h.team.tiles.map (·.ctl)
  tag := cardTag ws
  scope := cardScope ws
  phase := .waiting
  edges := []
  fail := none
  park := none
  refused := []

/-- ISSUES A CARD JOB: `pre` are the codes that need no card, `codes` those of the card's parameters; the lowest is taken. A tag
in flight holds the strand (R144). The instruction is outstanding until its card is accepted (R269). -/
def State.cardOp (s : State) (i : Instr) (la : BitVec 4) (rnd : Rnd) (card : SReg) (pre : Here → List Code)
    (codes : Here → List DWord → List Code) : Host.Outcome State Fault Refusal :=
  s.issue i fun h =>
    let a := h.readS card
    let own := match s.ownQueues h i.vwrites with | some x => [x] | none => []
    let r := s.readCard h a
    let found := match r with | .error cs => cs | .ok ws => s.cardCodes h ws ++ codes h ws
    match lowestFault (faultsOf (pre h ++ found) ++ own) with
    | some x => s.stopHere h x
    | none => match r with
      | .error _ => s.takeFault h cBadCard
      | .ok ws =>
        if (match cardTag ws with | some t => h.team.tagsFly.getLsbD t | none => false) then
          s.putHere (h.wait s.clock (.tagBusy ((cardTag ws).getD 0)))
        else if 32 ≤ h.group.outcnt then s.putHere (h.wait s.clock (.count 31))
        else
          let j := h.job s.uid i (engineMode rnd h.group.rm) a ws
          { s with jobs := s.jobs ++ [j] }.launch h 2 { h.pend s.uid i la h.strand.exec [] with sa := a, job := some s.uid }

end Sys2Proof.Machine
end

