-- ==== Sys2Proof/Machine/Matrix.lean ====
section
/-! DEFINITION. The matrix engine: its terms and accumulator entries (R60 to R62), its instructions at issue (R273 to R288, R297), and
what those that carry no card do when they are performed. -/

namespace Sys2Proof.Machine

open Sys2Proof

/-! ## Entries (R60, R61) -/

/-- An entry of +0. -/
def accZero : AccEntry := ⟨false, false, false, 0, false⟩

/-- The exponent of the unit of sums. -/
def accUnit : Int := -1200

/-- The entry is NaN. -/
def AccEntry.isNaN (e : AccEntry) : Bool := e.nan || (e.pinf && e.ninf)

/-- Adds a term: the entry, and NV where infinities of both signs meet in it (R61). -/
def AccEntry.add (e : AccEntry) (x : Num) : AccEntry × Flags :=
  match x with
  | .nan _ => ({ e with nan := true, negZero := false }, 0)
  | .inf neg =>
    let r := { e with pinf := e.pinf || !neg, ninf := e.ninf || neg, negZero := false }
    (r, if r.pinf && r.ninf && !(e.pinf && e.ninf) then fNV else 0)
  | .fin neg m k _ =>
    ({ e with sum := e.sum + signedUnits neg m k accUnit, negZero := e.negZero && neg && m == 0 }, 0)

/-- The entry that holds a value exactly (R278). -/
def AccEntry.load (x : Num) : AccEntry :=
  match x with
  | .nan _ => { accZero with nan := true }
  | .inf neg => { accZero with pinf := !neg, ninf := neg }
  | .fin neg m k _ => { accZero with sum := signedUnits neg m k accUnit, negZero := neg && m == 0 }

/-- The value of an entry; an exact zero is -0 when its terms were, or under RDN (R61). -/
def AccEntry.num (e : AccEntry) (rdn : Bool) : Num :=
  if e.isNaN then .nan false
  else if e.pinf then .inf false
  else if e.ninf then .inf true
  else if e.sum = 0 then .zero (e.negZero || rdn)
  else .exact (e.sum < 0) e.sum.natAbs accUnit

/-- S * DRSCALE (R62): a NaN raises NV. -/
def AccEntry.drained (e : AccEntry) (dr : Word) (mode : RMode) : Num × Flags :=
  let c := fmtFp32.value dr.toNat
  if e.isNaN || c.isNaN then (.nan false, fNV) else (e.num (mode == .rdn)).mul c

/-- An entry of an accumulator. -/
def Acc.at (a : Acc) (r c : Nat) : AccEntry := a.entries.get accZero (256 * r + c)

/-- Writes an entry. -/
def Acc.put (a : Acc) (r c : Nat) (e : AccEntry) : Acc := { a with entries := a.entries.put accZero (256 * r + c) e }

/-- Sets the entries of a window to +0. -/
def Acc.clear (a : Acc) (r c0 n : Nat) : Acc := (List.range n).foldl (fun a j => a.put r (c0 + j) accZero) a

/-! ## Terms (Table 03-11) -/

/-- Formats whose values have no -0. -/
def NumFmt.unsignedZero : NumFmt → Bool
  | .int _ _ => true
  | .mx _ => true
  | .tern => true
  | .float _ => false
  | .lns _ => false

/-- An element as an exact number: an LNS code through Lin; NV for the unused code of TERN2 and a signalling NaN. -/
def elemNum (t : NumFmt) (code scale : Nat) : Num × Flags :=
  match t with
  | .lns n => ((lnsLin n code).1, 0)
  | _ =>
    let x := (t.srcVal code scale).toNum
    (x, (if t = .tern ∧ code % 4 = 2 then fNV else 0) ||| (if x.isSNaN then fNV else 0))

/-- A magnitude. -/
def Num.abs : Num → Num
  | .fin _ m e d => .fin false m e d
  | .inf _ => .inf false
  | .nan s => .nan s

/-- The dot term of two LNS codes: Lin of the sum of the logarithms, 0 for a zero code. -/
def lnsDot (n a b : Nat) : Num :=
  match (NumFmt.lns n).srcVal a 0, (NumFmt.lns n).srcVal b 0 with
  | .log s l f, .log t k _ => fmtFp32.value (lin (s != t) (l + k) f).1
  | _, _ => .zero false

/-- One term with its NV. -/
def termOf (m : Metric) (fa fb : NumFmt) (ca xa cb xb : Nat) : Num × Flags :=
  let a := elemNum fa ca xa
  let b := elemNum fb cb xb
  let diff := a.1.add false b.1.negate
  let fl := a.2 ||| b.2
  match m with
  | .dot => match fa with
    | .lns n => (lnsDot n ca cb, fl)
    | _ =>
      let p := a.1.mul b.1
      (if p.1.isZero && NumFmt.unsignedZero fa then .zero false else p.1, (p.2 ||| fl) &&& fNV)
  | .l1 => (Num.abs diff.1, (diff.2 ||| fl) &&& fNV)
  | .l2sq => ((diff.1.mul diff.1).1, (diff.2 ||| fl) &&& fNV)

/-- An entry with terms added one after another. -/
def addTerms (e : AccEntry) (ts : List (Num × Flags)) : AccEntry × Flags :=
  ts.foldl (fun a t => let r := a.1.add t.1; (r.1, a.2 ||| r.2 ||| t.2)) (e, 0)

/-- Format pairs of TMMA (Table 17-7). -/
def mmaPair (a b : Fmt) : Bool :=
  match a, b with
  | .i8, .i8 | .i8, .tern2 | .mxi8, .mxi8 | .mxi4, .mxi4 | .f32, .f32 | .bf16, .bf16 | .f16, .f16
  | .lns16, .lns16 | .lns8, .lns8 => true
  | .nf _, .nf _ => true
  | _, _ => false

/-- TMMA on an accumulator (R281). -/
def mmaAcc (m : Metric) (pa pb : Shape) (ta tb : Tile) (row0 col0 : Nat) (acc : Acc) : Acc × Flags :=
  let rowsB := (List.range pb.rows).map (tb.row pb)
  (List.range pa.rows).foldl (fun r i =>
    let ra := ta.row pa i
    (rowsB.zip (List.range pb.rows)).foldl (fun (r : Acc × Flags) q =>
      let ts := (List.range pa.cols).map fun k =>
        termOf m pa.num pb.num (ra.1.getD k 0) (ra.2.getD (k / 32) 0) (q.1.1.getD k 0) (q.1.2.getD (k / 32) 0)
      let e := addTerms (r.1.at (row0 + i) (col0 + q.2)) ts
      (r.1.put (row0 + i) (col0 + q.2) e.1, r.2 ||| e.2)) r) (acc, 0)

/-! ## Issue -/

/-- TILE_SHAPE when a condition fails. -/
def needShape (b : Bool) : List Code := if b then [] else [cTileShape]

/-- BAD_CARD when a condition fails. -/
def needCard (b : Bool) : List Code := if b then [] else [cBadCard]

/-- TCFG (R273): a valid shape goes to `TCTL`; the tile's bytes stay. -/
def execTcfg (t : BitVec 3) (v : Src) (s : State) : Host.Outcome State Fault Refusal :=
  s.issue (.tcfg t v) fun h =>
    let x : Word := match v with
      | .sreg r => (h.readS r).setWidth 32
      | .lit w => w
      | .vec _ => 0
    if x.extractLsb' 20 12 = 0 ∧ (shapeOf h.group.fmts (x.setWidth 64)).isSome then
      s.putHere { (h.retire (Src.litWords v) []) with
        team := h.team.putTile t.toNat { h.team.tile t.toNat with ctl := x.setWidth 64 } }
    else s.takeFault h cTileShape

/-- The memory format of CARD1 in bits 39:34. -/
def memFmt (ws : List DWord) : Option Fmt := Fmt.ofCode ((card1 ws).extractLsb' 34 6)

/-- A format that R276 admits in memory. -/
def memFmtOk (f : Option Fmt) : Bool := match f with | some f => f.isElement | none => false

/-- Region 1 is used for scales when the format in memory is an MX format. -/
def isMxFmt (f : Option Fmt) : Bool := match f with | some .mxi8 => true | some .mxi4 => true | _ => false

/-- Checks of a TLD or TST of a tile (R276, R279). -/
def tileCardCodes (load : Bool) (ws : List DWord) : List Code :=
  let c := card1 ws
  let intent := if load then 1 else 2
  let pack := c.getLsbD 33
  needCard (!c.getLsbD 32) ++
  (if pack then needCard (load && c &&& 0xFFFFFFFCFFFFFFFF == 0 && intents ws [1, 0, 0, 0])
   else needCard (memFmtOk (memFmt ws) && intents ws [intent, if isMxFmt (memFmt ws) then intent else 0, 0, 0]))

/-- Rows and columns of the window of a TLD into an accumulator: ROW0, COL0, rows, columns. -/
def accWindow (ws : List DWord) : Nat × Nat × Nat × Nat :=
  let c := card1 ws
  (field c 25 7, field c 17 8, field c 10 7 + 1, field c 2 8 + 1)

/-- Formats that load an accumulator (Table 17-6). -/
def accFmt : Option Fmt → Bool
  | some .i32 => true
  | some .i64 => true
  | some .f32 => true
  | some .f64 => true
  | _ => false

/-- Checks of a TLD into an accumulator. -/
def accCardCodes (ws : List DWord) : List Code :=
  let c := card1 ws
  let w := accWindow ws
  needCard (field c 32 2 == 0 && field c 0 2 == 0 && accFmt (memFmt ws) && intents ws [1, 0, 0, 0] &&
    w.1 + w.2.2.1 ≤ 128 && w.2.1 + w.2.2.2 ≤ 256)

/-- TLD -/
def execTld (la : BitVec 4) (sat : Bool) (rnd : Rnd) (m : MReg) (card : SReg) (s : State) : Host.Outcome State Fault Refusal :=
  s.cardOp (.tld la sat rnd m card) la rnd card
    (fun h => match m with | .tile t => needShape (h.shape t).isSome | .acc _ => [])
    (fun _ ws => match m with | .tile _ => tileCardCodes true ws | .acc _ => accCardCodes ws)

/-- TST -/
def execTst (la : BitVec 4) (sat : Bool) (rnd : Rnd) (t : BitVec 3) (card : SReg) (s : State) : Host.Outcome State Fault Refusal :=
  s.cardOp (.tst la sat rnd t card) la rnd card (fun h => needShape (h.shape t).isSome) (fun _ ws => tileCardCodes false ws)

/-- TZERO -/
def execTzero (la : BitVec 4) (m : MReg) (s : State) : Host.Outcome State Fault Refusal :=
  s.engineOp (.tzero la m) la (fun h => match m with | .tile t => needShape (h.shape t).isSome | .acc _ => []) fun h p => (h, p)

/-- TMOV: `tmov.tt` writes the `TCTL` of tile D at its issue (R275). -/
def execTmov (la : BitVec 4) (op : TMovOp) (s : State) : Host.Outcome State Fault Refusal :=
  s.engineOp (.tmov la op) la
    (fun h => match op with | .tt _ a => needShape (h.shape a).isSome | _ => [])
    fun h p => match op with
      | .tt d a => ({ h with team := h.team.putTile d.toNat { h.team.tile d.toNat with ctl := h.ctl a } }, p)
      | .vt _ _ _ j => (h, { p with sb := h.readS j })
      | .tv _ _ _ j => (h, { p with sb := h.readS j })

/-- Checks of TMMA (R280). -/
def mmaCodes (h : Here) (a b : BitVec 3) (ws : List DWord) : List Code :=
  let c := card1 ws
  (match h.shape a, h.shape b with
    | some pa, some pb => needShape (field c 57 7 + pa.rows ≤ 128 && field c 49 8 + pb.rows ≤ 256)
    | _, _ => []) ++ needCard (field c 0 49 == 0 && intents ws [0, 0, 0, 0])

/-- TMMA -/
def execTmma (la : BitVec 4) (m : Metric) (acc : Bool) (a b : BitVec 3) (card : SReg) (s : State) :
    Host.Outcome State Fault Refusal :=
  s.cardOp (.tmma la m acc a b card) la .dyn card
    (fun h => match h.shape a, h.shape b with
      | some pa, some pb => needShape (mmaPair pa.fmt pb.fmt && pa.cols == pb.cols && pa.rows ≤ 128)
      | _, _ => [cTileShape])
    (fun h ws => mmaCodes h a b ws)

/-- The window of a TDRAIN: ROW0, COL0, rows, columns (R282). -/
def drainWindow (dest : DrainDest) (ws : List DWord) : Nat × Nat × Nat × Nat :=
  let c := card1 ws
  match dest with
  | .vec _ n1 _ => (field c 57 7, field c 49 8, n1.toNat + 1, 64)
  | _ => (field c 57 7, field c 49 8, field c 42 7 + 1, field c 34 8 + 1)

/-- Checks of TDRAIN (R282): the vector form uses ROW0 and COL0 only, the tile form has no use for PACK and STRIDE. -/
def drainCodes (h : Here) (dest : DrainDest) (ws : List DWord) : List Code :=
  let c := card1 ws
  let w := drainWindow dest ws
  let pack := c.getLsbD 33
  let stride := field c 0 32
  needShape (w.1 + w.2.2.1 ≤ 128 && w.2.1 + w.2.2.2 ≤ 256) ++ needCard (!c.getLsbD 32) ++
  (match dest with
    | .mem f =>
      needShape ((!isMxFmt (some f) || w.2.2.2 % 32 == 0) && (!pack || (isMatrixFmt f && stride == 0 && w.2.2.2 % 32 == 0))) ++
      needCard (intents ws [2, if isMxFmt (some f) && !pack then 2 else 0, 0, 0])
    | .tile d =>
      (match h.shape d with
        | some p => needShape (w.2.2.1 == p.rows && w.2.2.2 == p.cols)
        | none => [cTileShape]) ++ needShape (!pack || stride == 0) ++ needCard (intents ws [0, 0, 0, 0])
    | .vec _ _ _ => needCard (intents ws [0, 0, 0, 0]))

/-- TDRAIN -/
def execTdrain (la : BitVec 4) (sat : Bool) (rnd : Rnd) (clr acc : Bool) (dest : DrainDest) (card : SReg) (s : State) :
    Host.Outcome State Fault Refusal :=
  s.cardOp (.tdrain la sat rnd clr acc dest card) la rnd card (fun _ => []) (fun h ws => drainCodes h dest ws)

/-- TBEST -/
def execTbest (la : BitVec 4) (sat : Bool) (rnd : Rnd) (acc tie two max clr : Bool) (dist : Option Fmt) (vd : VReg) (par : SReg)
    (s : State) : Host.Outcome State Fault Refusal :=
  s.engineOp (.tbest la sat rnd acc tie two max clr dist vd par) la
    (fun h => needShape (field (h.readS par) 0 8 + field (h.readS par) 8 8 ≤ 255))
    fun h p => (h, { p with sb := h.readS par })

/-- A tile of at most 128 rows and 256 columns (R286, R287). -/
def accShape (p : Option Shape) : List Code :=
  match p with
  | some p => needShape (p.rows ≤ 128 && p.cols ≤ 256)
  | none => [cTileShape]

/-- TCUPD -/
def execTcupd (la : BitVec 4) (acc : Bool) (t : BitVec 3) (vi : VReg) (s : State) : Host.Outcome State Fault Refusal :=
  s.engineOp (.tcupd la acc t vi) la (fun h => accShape (h.shape t)) fun h p => (h, p)

/-- TCFIN -/
def execTcfin (la : BitVec 4) (sat : Bool) (rnd : Rnd) (t : BitVec 3) (acc clr : Bool) (s : State) : Host.Outcome State Fault Refusal :=
  s.engineOp (.tcfin la sat rnd t acc clr) la (fun h => accShape (h.shape t)) fun h p => (h, p)

/-- TWAIT -/
def execTwait (la : BitVec 4) (s : State) : Host.Outcome State Fault Refusal :=
  s.engineOp (.twait la) la (fun _ => []) fun h p => (h, p)

/-- A ring that is initialised. -/
def Team.ring? (t : Team) (n : Nat) : Option Ring :=
  match t.rings.find n with
  | some r => if r.active then some r else none
  | none => none

/-- S. -/
def Ring.stages (r : Ring) : Nat := r.nstg1 + 1

/-- Z in bytes. -/
def Ring.size (r : Ring) : Nat := 256 * (r.ssize + 1)

/-- A stage's byte in the scratchpad. -/
def Ring.stageAt (r : Ring) (i : Nat) : Nat := r.base + r.size * i

/-- The stage of a consumer count is full (R149). -/
def Ring.fullFor (r : Ring) (ccur : Nat) : Bool := r.phase.getLsbD (ccur % r.stages) == (ccur / r.stages % 2 == 1)

/-- Bytes of the image of a shape (R297). -/
def Shape.image (p : Shape) : Nat := p.rows * p.rb + (if p.num.isMx then p.rows * (p.cols / 32) else 0)

/-- TLDR (R297): the stage is that of the consumer count at issue. -/
def execTldr (la : BitVec 4) (pk : Bool) (t : BitVec 3) (ring : BitVec 3) (s : State) : Host.Outcome State Fault Refusal :=
  s.engineOp (.tldr la pk t ring) la
    (fun h => match h.team.ring? ring.toNat with
      | none => needShape (h.shape t).isSome ++ [cBadRing]
      | some r => match h.shape t with
        | none => [cTileShape]
        | some p => needShape (pk || (r.fmt == (h.ctl t).extractLsb' 14 6 && p.image ≤ r.size)))
    fun h p => match h.team.ring? ring.toNat with
      | some r => (h, { p with stage := (r.ccur, r.stageAt (r.ccur % r.stages), r.size) })
      | none => (h, p)

/-! ## Packed tiles (R151, R152, Table 09-7) -/

/-- Bytes of a present block. -/
def blockBytes (t : NumFmt) : Nat := (32 * t.bits + (if t.isMx then 8 else 0) + 127) / 128 * 16

/-- Blocks of a tile. -/
def Shape.blocks (p : Shape) : Nat := p.rows * (p.cols / 32)

/-- Bytes of the bitmap. -/
def Shape.bitmap (p : Shape) : Nat := (p.blocks + 127) / 128 * 16

/-- A packed header that fits a tile: its SIZE and NBLK (R152, R277). -/
def packedHeader (p : Shape) (hd : List Byte) : Option (Nat × Nat) :=
  let a := dwordOf (hd.take 8)
  let b := dwordOf (hd.drop 8)
  if field a 8 7 = 0 ∧ !a.getLsbD 6 ∧ field b 32 32 = 0 ∧ (a.extractLsb' 0 6) = Fmt.toCode p.fmt ∧ a.getLsbD 7 = p.num.isMx ∧
      field a 15 8 + 1 = p.rows ∧ field a 23 11 + 1 = p.cols ∧
      field a 34 30 = 16 + p.bitmap + field b 0 32 * blockBytes p.num
  then some (field a 34 30, field b 0 32) else none

/-- Expands the present blocks of a packed tile's body: element bytes and scale bytes of each block in order. -/
def expandBlocks (t : NumFmt) (map : List Byte) (body : List Byte) (n : Nat) : List (List Byte × List Byte) :=
  let bits := numOfBytes map
  ((List.range n).foldl (fun (a : List (List Byte × List Byte) × List Byte) i =>
    if bits.testBit i then
      (a.1 ++ [(sliceBytes a.2 0 (4 * t.bits), if t.isMx then sliceBytes a.2 (4 * t.bits) 1 else [])], a.2.drop (blockBytes t))
    else (a.1 ++ [(List.replicate (4 * t.bits) 0, if t.isMx then [0] else [])], a.2)) ([], body)).1

/-- A packed tile with its header expanded; none where the bitmap disagrees with NBLK. -/
def expandPacked (p : Shape) (bs : List Byte) : Option (List Byte × List Byte) :=
  match packedHeader p (bs.take 16) with
  | none => none
  | some (_, nblk) =>
    let map := (bs.drop 16).take p.bitmap
    if popcount (8 * p.bitmap) (numOfBytes map) ≠ nblk then none
    else
      let blocks := expandBlocks p.num map (bs.drop (16 + p.bitmap)) p.blocks
      some (blocks.flatMap (·.1), blocks.flatMap (·.2))

/-- Which element and scale bytes of an expansion the sound bytes of a packed tile give: none unless its header and its bitmap are sound,
else those of an elided block and of a block whose bytes are sound. -/
def packedSound (p : Shape) (bs : List Byte) (oks : List Bool) : List Bool × List Bool :=
  if !((oks.take (16 + p.bitmap)).all id && 16 + p.bitmap ≤ oks.length) then ([], [])
  else
    let bits := numOfBytes ((bs.drop 16).take p.bitmap)
    let each := ((List.range p.blocks).foldl (fun (r : List Bool × List Bool) i =>
      if bits.testBit i then
        (r.1 ++ [(List.range (blockBytes p.num)).all fun k => r.2.getD k false], r.2.drop (blockBytes p.num))
      else (r.1 ++ [true], r.2)) ([], oks.drop (16 + p.bitmap))).1
    (each.flatMap fun k => List.replicate (4 * p.num.bits) k, if p.num.isMx then each else [])

/-- The packed tile of rows of codes and scale codes. -/
def packTile (f : Fmt) (t : NumFmt) (rows : List (List Nat × List Nat)) (cols : Nat) : List Byte :=
  let blocks := rows.flatMap fun r => (blocksOf32 r.1).zip ((List.range (cols / 32)).map fun b => r.2.getD b 0)
  let present := blocks.filter fun b => b.1.any (· != 0) || (t.isMx && b.2 != 0)
  let n := blocks.length
  let bm := (n + 127) / 128 * 16
  let map := (blocks.zip (List.range n)).foldl (fun v b => if b.1.1.any (· != 0) || (t.isMx && b.1.2 != 0) then v + 2 ^ b.2 else v) 0
  let body := present.flatMap fun b =>
    fit (blockBytes t) (bytesOfCodes t.bits b.1 ++ (if t.isMx then [BitVec.ofNat 8 b.2] else []))
  let size := 16 + bm + body.length
  bytesOfNum 8 (size * 2 ^ 34 + (cols - 1) * 2 ^ 23 + (rows.length - 1) * 2 ^ 15 + (if t.isMx then 128 else 0) + (Fmt.toCode f).toNat) ++
    bytesOfNum 8 present.length ++ bytesOfNum bm map ++ body

/-! ## Operations without a card, performed -/

/-- An operation that read poison ends failed: its trap waits for a turn of its strand (R348, R362). -/
def Team.failOp (t : Team) (g : Nat) (p : Pending) (c : Code) : Team :=
  { t with fails := t.fails ++ [⟨g, p.sid, c, 0xFF, 0⟩] }

/-- TZERO, which also clears poison (R274, R362). -/
def Team.tzero (t : Team) (m : MReg) : Team :=
  match m with
  | .tile n => t.putTile n.toNat { t.tile n.toNat with bytes := [], scales := [], poison := false }
  | .acc a => t.putAcc a ⟨[], [], false⟩

/-- Bytes of a tile with those of the active lanes of one register put at row `j` of 256 bytes. -/
def tileWithLanes (bs : List Byte) (j : Nat) (m : Mask) (v : Lanes) : List Byte :=
  let old := sliceBytes bs (256 * j) 256
  putSlice bs (256 * j) (laneNumbers.flatMap fun l =>
    if laneBit m l then bytesOfNum 4 (v.getD l 0).toNat else sliceBytes old (4 * l) 4)

/-- The lanes of row `j` of 256 bytes of a tile. -/
def tileLanes (bs : List Byte) (j : Nat) : Lanes := if 127 < j then zeroRow else lanesOf (sliceBytes bs (256 * j) 256)

/-- The match order of two columns (R285): whether the first comes before the second. -/
def matchBefore (max tie : Bool) (a b : AccEntry × Nat) : Bool :=
  let cls := fun (e : AccEntry) => if e.isNaN then 3 else if e.pinf then (if max then 0 else 2) else if e.ninf then (if max then 2 else 0) else 1
  let ca : Nat := cls a.1
  let cb : Nat := cls b.1
  let va := if max then -a.1.sum else a.1.sum
  let vb := if max then -b.1.sum else b.1.sum
  if ca != cb then ca < cb
  else if ca == 1 && va != vb then va < vb
  else if tie then b.2 < a.2 else a.2 < b.2

/-- The first column of a list in match order. -/
def firstMatch (max tie : Bool) : List (AccEntry × Nat) → Option (AccEntry × Nat)
  | [] => none
  | x :: rest => match firstMatch max tie rest with
    | none => some x
    | some y => if matchBefore max tie y x then some y else some x

/-- The best and the second column of a row's window. -/
def bestTwo (max tie : Bool) (a : Acc) (r c0 n : Nat) : Option (AccEntry × Nat) × Option (AccEntry × Nat) :=
  let xs := (List.range n).map fun j => (a.at r (c0 + j), c0 + j)
  match firstMatch max tie xs with
  | none => (none, none)
  | some x => (some x, firstMatch max tie (xs.filter fun y => y.2 != x.2))

/-- All ones. -/
def noIndex : Word := 0xFFFFFFFF

/-- TBEST (R285). -/
def State.doTbest (s : State) (h : Here) (p : Pending) (sat : Bool) (rnd : Rnd) (acc tie two max clr : Bool) (dist : Option Fmt)
    (vd : VReg) : State :=
  let a := h.team.acc acc
  let c0 := field p.sb 0 8
  let n := field p.sb 8 8 + 1
  let row := fun l => field p.sb 16 7 + l
  let act := laneNumbers.filter (laneBit p.mask)
  let best : List (Nat × Option (AccEntry × Nat) × Option (AccEntry × Nat)) := act.map fun l => (l, if 127 < row l then (none, none) else bestTwo max tie a (row l) c0 n)
  let idx : Option (AccEntry × Nat) → Word := fun e => match e with | some x => BitVec.ofNat 32 x.2 | none => noIndex
  let pick : (Option (AccEntry × Nat) × Option (AccEntry × Nat) → Word) → Lanes := fun f => laneNumbers.map fun l =>
    match best.find? (fun b => b.1 == l) with | some b => f b.2 | none => 0
  let mode := engineMode rnd p.rm
  let ds : List (Nat × DWord × Flags) := match dist with
    | none => []
    | some f => convertLanes (f.num p.fmts) mode sat (best.filterMap fun b => match b.2.1 with
      | some x => some (b.1, x.1.drained p.drscale mode)
      | none => none)
  let dw : Lanes := laneNumbers.map fun l => match ds.find? (fun d => d.1 == l) with | some d => d.2.1.setWidth 32 | none => noIndex
  let ws := [(vd.toNat, pick fun b => idx b.1)] ++ (if two then [(vd.toNat + 1, pick fun b => idx b.2)] else []) ++
    (if dist.isSome then [(vd.toNat + (if two then 2 else 1), dw)] else [])
  let a' := if clr then (act.filter fun l => row l ≤ 127).foldl (fun a l => a.clear (row l) c0 n) a else a
  (s.putTeam (h.team.putAcc acc a')).deliver h.team.info.uid h.group.num p ws
    (fun l => match ds.find? (fun d => d.1 == l) with | some d => d.2.2 | none => 0) none

/-- TCUPD (R286). -/
def cupdAcc (p : Shape) (tile : Tile) (m : Mask) (idx : Nat → Nat) (acc : Acc) : Acc × Flags :=
  (List.range p.rows).foldl (fun (r : Acc × Flags) i =>
    let x := idx i
    if laneBit m (i % 64) && x < 128 then
      let row := tile.row p i
      let q := (List.range p.cols).foldl (fun (r : Acc × Flags) k =>
        let v := elemNum p.num (row.1.getD k 0) (row.2.getD (k / 32) 0)
        let e := (r.1.at x k).add v.1
        (r.1.put x k e.1, r.2 ||| e.2 ||| v.2)) r
      ({ q.1 with counts := q.1.counts.put 0 x (min (q.1.counts.get 0 x + 1) (2 ^ 32 - 1)) }, q.2)
    else r) (acc, 0)

/-- One row of TCFIN: the codes, scale codes and flags of the quotients. -/
def cfinRow (p : Shape) (acc : Acc) (c : Nat) (mode : RMode) (sat : Bool) : List Nat × List Nat × Flags :=
  let vs := (List.range p.cols).map fun k =>
    let e := acc.at c k
    if e.isNaN then (Num.nan false, fNV) else (e.num (mode == .rdn)).div (.ofInt (acc.counts.get 0 c))
  match p.num with
  | .mx n =>
    let bs := (blocksOf32 vs).map fun blk => mxBlock n (blk.map fun v => let y := mxValue (.num v.1) true none; ((y.1, y.2 ||| v.2), mode))
    (bs.flatMap fun b => b.2.map (·.1), bs.map (·.1), bs.foldl (fun f b => b.2.foldl (fun f e => f ||| e.2) f) 0)
  | t =>
    let rs := vs.map fun v => let y := convert t (.num v.1) true none mode sat; (y.1, y.2 ||| v.2)
    (rs.map (·.1), [], rs.foldl (fun f e => f ||| e.2) 0)

/-- TCFIN (R287). -/
def cfin (p : Shape) (tile : Tile) (acc : Acc) (mode : RMode) (sat clr : Bool) : Tile × Acc × Flags :=
  (List.range p.rows).foldl (fun (r : Tile × Acc × Flags) c =>
    let q : Tile × Flags :=
      if r.2.1.counts.get 0 c = 0 then (r.1, fNV)
      else
        let v := cfinRow p r.2.1 c mode sat
        (r.1.putRow p c v.1 v.2.1, v.2.2)
    let a := if clr then { r.2.1.clear c 0 256 with counts := r.2.1.counts.put 0 c 0 } else r.2.1
    (q.1, a, r.2.2 ||| q.2)) (tile, acc, 0)

/-- The shape of a tile as captured at issue. -/
def Pending.shape (p : Pending) (t : BitVec 3) : Option Shape := shapeOf p.fmts (p.tctl.getD t.toNat 0)

/-- A tile of which a cut-off expansion has emitted `n` rows; the rest reads zero (R152). -/
def Tile.cutOff (t : Tile) (p : Shape) (n : Nat) (bs xs : List Byte) : Tile :=
  { t with
    bytes := fit (p.rows * p.rb) (bs.take (n * p.rb))
    scales := if p.num.isMx then fit p.blocks (xs.take (n * (p.cols / 32))) else t.scales }

/-- TLDR (R297). One that reads poison, or whose packed tile fails, ends failed: the elements of sound rows may have been written; a packed
tile that fails its checks leaves zeros (R152, R270; log entry 4). Free values are those from `fn` on. -/
def Team.tldr (t : Team) (g : Nat) (p : Pending) (pk : Bool) (n : BitVec 3) (fn : Nat) : Team :=
  match p.shape n with
  | none => t
  | some sh =>
    let off := t.scratchOff p.stage.2.1
    let tile := t.tile n.toNat
    let short := fun (t : Team) => t.putTile n.toNat (tile.cutOff sh 0 [] [])
    let sound := fun k => (List.range k).map fun i => !t.rowsBad (off + i) 1
    if pk then
      if t.rowsBad off p.stage.2.2 then
        let bs := t.bytes off p.stage.2.2
        let u := t.failOp g p cPoison
        match expandPacked sh bs with
        | none => u
        | some (es, xs) =>
          let k := packedSound sh bs (sound p.stage.2.2)
          u.putTile n.toNat (tile.mix { tile with bytes := es, scales := xs } fn sh.num.unit k.1 k.2)
      else match packedHeader sh (t.bytes off 16) with
        | none => short (t.failOp g p cLength)
        | some (size, _) =>
          if p.stage.2.2 < size then short (t.failOp g p cLength)
          else match expandPacked sh (t.bytes off size) with
            | none => short (t.failOp g p cLength)
            | some (bs, xs) => t.putTile n.toNat { tile with bytes := bs, scales := xs }
    else
      let bs := t.bytes off sh.image
      let new : Tile := { tile with
        bytes := putSlice tile.bytes 0 (bs.take (sh.rows * sh.rb))
        scales := if sh.num.isMx then putSlice tile.scales 0 (bs.drop (sh.rows * sh.rb)) else tile.scales }
      if t.rowsBad off sh.image then
        let k := sound sh.image
        (t.failOp g p cPoison).putTile n.toNat (tile.mix new fn sh.num.unit (k.take (sh.rows * sh.rb)) (k.drop (sh.rows * sh.rb)))
      else t.putTile n.toNat new

/-- Free values that a TLDR may use. -/
def Pending.tldrFree (p : Pending) (n : BitVec 3) : Nat := match p.shape n with | some sh => 65536 + sh.image | none => 0

/-- PERFORMS A MATRIX OPERATION THAT CARRIES NO CARD. -/
def State.performMatrix (s : State) (h : Here) (p : Pending) : State :=
  let t := h.team
  let g := h.group.num
  let fail := s.putTeam (t.failOp g p cPoison)
  match p.instr with
  | .tzero _ m => s.putTeam (t.tzero m)
  | .tldr _ pk n _ =>
    let u := t.tldr g p pk n s.freeN
    if u.fails.length = t.fails.length then s.putTeam u else ({ s with freeN := s.freeN + p.tldrFree n } : State).putTeam u
  | .tmov _ (.tt d a) =>
    if (t.tile a.toNat).poison then fail
    else s.putTeam (t.putTile d.toNat { t.tile d.toNat with bytes := (t.tile a.toNat).bytes, scales := (t.tile a.toNat).scales })
  | .tmov _ (.vt d _ n1 _) =>
    let j := field p.sb 0 7
    let bs := (List.range (n1.toNat + 1)).foldl (fun bs i =>
      if j + i ≤ 127 then tileWithLanes bs (j + i) p.mask (p.vops.getD i zeroRow) else bs) (t.tile d.toNat).bytes
    s.putTeam (t.putTile d.toNat { t.tile d.toNat with bytes := bs })
  | .tmov _ (.tv d a n1 _) =>
    if (t.tile a.toNat).poison then fail
    else s.deliver t.info.uid g p ((List.range (n1.toNat + 1)).map fun i =>
      (d.toNat + i, tileLanes (t.tile a.toNat).bytes (field p.sb 0 7 + i))) noFlags none
  | .tbest _ sat rnd acc tie two max clr dist vd _ =>
    if (t.acc acc).poison then fail else s.doTbest h p sat rnd acc tie two max clr dist vd
  | .tcupd _ acc n _ => match p.shape n with
    | none => s
    | some sh =>
      if (t.acc acc).poison || (t.tile n.toNat).poison then fail
      else
        let r := cupdAcc sh (t.tile n.toNat) p.mask (fun i => ((p.vops.getD (i / 64) zeroRow).getD (i % 64) 0).toNat) (t.acc acc)
        s.putTeam ((t.putAcc acc r.1).record (r.2 &&& fNV))
  | .tcfin _ sat rnd n acc clr => match p.shape n with
    | none => s
    | some sh =>
      if (t.acc acc).poison then fail
      else
        let r := cfin sh (t.tile n.toNat) (t.acc acc) (engineMode rnd p.rm) sat clr
        s.putTeam (((t.putTile n.toNat r.1).putAcc acc r.2.1).record r.2.2)
  | .twait _ =>
    if p.mask = 0 then s
    else s.putTeam ({ t with jflags := 0 }.putGroup (h.group.raise p.mask fun _ => t.jflags))
  | _ => s

/-! ## Order (R269) -/

/-- The tiles (0 to 7) and accumulators (8, 9) that a matrix operation names. -/
def Instr.engineUse : Instr → List Nat
  | .tld _ _ _ (.tile t) _ => [t.toNat]
  | .tld _ _ _ (.acc a) _ => [if a then 9 else 8]
  | .tst _ _ _ t _ => [t.toNat]
  | .tldr _ _ t _ => [t.toNat]
  | .tmov _ (.tt d a) => [d.toNat, a.toNat]
  | .tmov _ (.vt d _ _ _) => [d.toNat]
  | .tmov _ (.tv _ a _ _) => [a.toNat]
  | .tzero _ (.tile t) => [t.toNat]
  | .tzero _ (.acc a) => [if a then 9 else 8]
  | .tmma _ _ acc a b _ => [if acc then 9 else 8, a.toNat, b.toNat]
  | .tdrain _ _ _ _ acc dest _ => (if acc then 9 else 8) :: (match dest with | .tile d => [d.toNat] | _ => [])
  | .tbest _ _ _ acc _ _ _ _ _ _ _ => [if acc then 9 else 8]
  | .tcupd _ acc t _ => [if acc then 9 else 8, t.toNat]
  | .tcfin _ _ _ t acc _ => [t.toNat, if acc then 9 else 8]
  | _ => []

/-- A matrix-engine operation, TWAIT apart. -/
def Instr.isMatrix (i : Instr) : Bool := !(Instr.engineUse i).isEmpty

/-- Two operations share a tile or an accumulator. -/
def sharesEngine (i j : Instr) : Bool := (Instr.engineUse i).any (Instr.engineUse j).contains

end Sys2Proof.Machine
end

