-- ==== Sys2Proof/Machine/Copies.lean ====
section
/-! DEFINITION. Copies and collectives at issue (R289, R290), and tags (R144, R291, R292). -/

namespace Sys2Proof.Machine

open Sys2Proof

/-- Bits of an element of a format in memory. -/
def fmtBits (fmts : List DWord) (f : Fmt) : Nat := (f.num fmts).bits

/-- Two regions share a byte, resolved as the strand's accesses are (R147). -/
def spacesOverlap (a : Space) (n : Nat) (b : Space) (m : Nat) : Bool :=
  match a, b with
  | .glob x, .glob y => x < y + m && y < x + n
  | .store u x, .store v y => u == v && x < y + m && y < x + n
  | .glob _, .store _ _ => false
  | .store _ _, .glob _ => false

/-- Two regions of a card overlap. -/
def State.regionsOverlap (s : State) (t : Team) (g : Group) (a b : Region) : Bool :=
  match s.resolve t g false a.addr a.len, s.resolve t g false b.addr b.len with
  | .ok x, .ok y => spacesOverlap x a.len y b.len
  | _, _ => false

/-- The source format of a CPY or COLL. -/
def cpySrc (ws : List DWord) : Option Fmt := Fmt.ofCode ((card1 ws).extractLsb' 58 6)

/-- The destination format of a CPY or COLL. -/
def cpyDst (ws : List DWord) : Option Fmt := Fmt.ofCode ((card1 ws).extractLsb' 52 6)

/-- RAW. -/
def cpyRaw (ws : List DWord) : Bool := (card1 ws).getLsbD 51

/-- The element count n of a copy, if regions 0 and 1 have whole numbers of elements that agree. -/
def elementCount (ls ld sb db : Nat) : Option Nat :=
  let n := 8 * ls / sb
  if n * sb = 8 * ls ∧ 8 * ld = n * db then some n else none

/-- Checks of CPY (R289). -/
def State.cpyCodes (s : State) (h : Here) (ws : List DWord) : List Code :=
  let c := card1 ws
  let r0 := cardRegion ws 0
  let r1 := cardRegion ws 1
  needCard (field c 32 19 == 0 && !s.regionsOverlap h.team h.group r0 r1) ++
  (if cpyRaw ws then needCard (c == 0x0008000000000000 && r0.len == r1.len && intents ws [1, 2, 0, 0])
   else match cpySrc ws, cpyDst ws with
    | some a, some b =>
      let sm := isMxFmt (some a)
      let dm := isMxFmt (some b)
      needCard (a.isElement && b.isElement && intents ws [1, 2, if sm then 1 else 0, if dm then 2 else 0] &&
        (match elementCount r0.len r1.len (fmtBits h.group.fmts a) (fmtBits h.group.fmts b) with
          | some n => (!sm || (n % 32 == 0 && (cardRegion ws 2).len == n / 32)) &&
              (!dm || (n % 32 == 0 && (cardRegion ws 3).len == n / 32))
          | none => false))
    | _, _ => [cBadCard])

/-- CPY -/
def execCpy (la : BitVec 4) (sat : Bool) (rnd : Rnd) (card : SReg) (s : State) : Host.Outcome State Fault Refusal :=
  s.cardOp (.cpy la sat rnd card) la rnd card (fun _ => []) (fun h ws => s.cpyCodes h ws)

/-- AOP of a COLL. -/
def collOp (ws : List DWord) : BitVec 3 := (card1 ws).extractLsb' 49 3

/-- The atomic type of a COLL's destination. -/
def collType : Option Fmt → Option AType
  | some .i32 => some .i32
  | some .b32 => some .b32
  | some .i64 => some .i64
  | some .b64 => some .b64
  | some .f32 => some .f32
  | _ => none

/-- Checks of COLL (R290). -/
def State.collCodes (s : State) (h : Here) (ws : List DWord) : List Code :=
  let c := card1 ws
  let r0 := cardRegion ws 0
  let r1 := cardRegion ws 1
  needCard (field c 32 15 == 0 && intents ws [1, 3, 0, 0] && !s.regionsOverlap h.team h.group r0 r1 && collOp ws != 7) ++
  (match cpySrc ws, cpyDst ws, collType (cpyDst ws) with
    | some a, some b, some ty =>
      needCard (a.isElement && !isMxFmt (some a) && atomOk ty (Aop.ofCode (collOp ws)) &&
        (elementCount r0.len r1.len (fmtBits h.group.fmts a) (fmtBits h.group.fmts b)).isSome)
    | _, _, _ => [cBadCard])

/-- COLL -/
def execColl (la : BitVec 4) (sat : Bool) (rnd : Rnd) (card : SReg) (s : State) : Host.Outcome State Fault Refusal :=
  s.cardOp (.coll la sat rnd card) la rnd card (fun _ => []) (fun h ws => s.collCodes h ws)

/-! ## Tags -/

/-- The release condition of a TAGWAIT (R291). -/
def tagsMet (all : Bool) (done m : DWord) : Bool := m == 0 || (if all then done &&& m == m else done &&& m != 0)

/-- TAGWAIT -/
def execTagwait (all : Bool) (m : SReg) (s : State) : Host.Outcome State Fault Refusal :=
  s.issue (.tagwait all m) fun h =>
    let x := h.readS m
    s.putHere (if tagsMet all h.team.tagsDone x then h.retire 2 [] else h.wait s.clock (.tags all x))

/-- TAGFF: the lowest tag of the mask that is free, or done; 64 if there is none. -/
def execTagff (done : Bool) (d m : SReg) (s : State) : Host.Outcome State Fault Refusal :=
  s.issue (.tagff done d m) fun h =>
    let x := h.readS m &&& (if done then h.team.tagsDone else ~~~h.team.tagsFly)
    s.putHere ((h.writeS d (BitVec.ofNat 64 ((lowestLane x).getD 64))).retire 2 [])

/-- TAGCLR: as an SWRITE of TAGS, for tags not in flight. -/
def execTagclr (m : SReg) (s : State) : Host.Outcome State Fault Refusal :=
  s.issue (.tagclr m) fun h =>
    s.putHere { (h.retire 2 []) with team := { h.team with tagsDone := h.team.tagsDone &&& ~~~(h.readS m &&& ~~~h.team.tagsFly) } }

end Sys2Proof.Machine
end

