-- ==== Sys2Proof/Machine/Rings.lean ====
section
/-! DEFINITION. Stage rings and stagers' subscriptions at issue (R148, R149, R293 to R300). -/

namespace Sys2Proof.Machine

open Sys2Proof

/-! ## Ring state -/

/-- PCUR - CCUR modulo 2S. -/
def Ring.used (r : Ring) : Nat := (r.pcur + 2 * r.stages - r.ccur) % (2 * r.stages)

/-- A TLDR of a team, outstanding or captured, has not performed its reads of a stage that is full for it (R294). -/
def Team.tldrReads (t : Team) (ring : Nat) (r : Ring) (stage : Nat) : Bool :=
  t.groups.any fun g => (g.outstanding ++ (match g.handler with | some k => k.captured | none => [])).any fun p =>
    match p.instr with
    | .tldr _ _ _ n => n.toNat == ring && p.stage.1 % r.stages == stage && r.fullFor p.stage.1
    | _ => false

/-- The producer's next stage is free (R149, R294, R296). -/
def Team.stageFree (t : Team) (ring : Nat) (r : Ring) : Bool :=
  r.used < r.stages && !t.tldrReads ring r (r.pcur % r.stages)

/-- A push (R149): the phase of the producer's stage flips and PCUR advances. -/
def Ring.push (r : Ring) : Ring :=
  { r with
    phase := r.phase ^^^ BitVec.ofNat 16 (2 ^ (r.pcur % r.stages))
    pcur := (r.pcur + 1) % (2 * r.stages) }

/-- Puts a ring. -/
def Team.putRing (t : Team) (n : Nat) (r : Ring) : Team := { t with rings := t.rings.insert n r }

/-- Rings initialised on a core. -/
def State.coreRings (s : State) (core : Nat) : Nat :=
  ((s.teams.filter fun t => t.core == core).map fun t => (t.rings.filter fun p => p.2.active).length).sum

/-- The ring that an instruction names, or BAD_RING. -/
def State.withRing (s : State) (h : Here) (n : BitVec 3) (f : Ring → State) : State :=
  match h.team.ring? n.toNat with
  | none => s.takeFault h cBadRing
  | some r => f r

/-- The generic scratchpad address of a stage on the issuing core. -/
def stageAddr (core : Nat) (r : Ring) (i : Nat) : DWord := BitVec.ofNat 64 (0xB * 2 ^ 60 + core * 2 ^ 36 + r.stageAt i)

/-! ## RINIT, RACQ, RCOMMIT, RWAIT, RREL -/

/-- RINIT (R293) -/
def execRinit (ring : BitVec 3) (b g : SReg) (s : State) : Host.Outcome State Fault Refusal :=
  s.issue (.rinit ring b g) fun h =>
    let x := h.readS b
    let c := h.readS g
    let stages := field c 9 4 + 1
    let old := h.team.ring? ring.toNat
    let fmtOk := match Fmt.ofCode (c.extractLsb' 13 6) with | some f => isMatrixFmt f | none => false
    if stages < 2 ∨ x.toNat % 256 ≠ 0 ∨ field c 19 45 ≠ 0 ∨ !fmtOk ∨
        1024 * h.team.info.header.scratch < x.toNat + 256 * (field c 0 9 + 1) * stages ∨
        (old.isNone ∧ 8 ≤ s.coreRings h.team.core) then s.takeFault h cBadRing
    else if (match old with | some r => r.stg || !r.commits.isEmpty | none => false) then s.takeFault h cRingBound
    else
      s.putHere { (h.retire 2 []) with team := h.team.putRing ring.toNat {
        active := true
        stg := false
        stager := 0
        fmt := c.extractLsb' 13 6
        nstg1 := field c 9 4
        ssize := field c 0 9
        pcur := 0
        ccur := 0
        phase := BitVec.ofNat 16 (2 ^ stages - 1)
        base := x.toNat
        commits := []
        sub := none } }

/-- RACQ (R294) -/
def execRacq (d : SReg) (ring : BitVec 3) (s : State) : Host.Outcome State Fault Refusal :=
  s.issue (.racq d ring) fun h => s.withRing h ring fun r =>
    if r.stg then s.takeFault h cRingBound
    else if !r.commits.isEmpty || !h.team.stageFree ring.toNat r then s.putHere (h.wait s.clock (.ringFree ring.toNat))
    else s.putHere ((h.writeS d (stageAddr h.team.core r (r.pcur % r.stages))).retire 2 [])

/-- What holds the tags of a mask in flight: the numbers of jobs and of ending subscriptions. -/
def State.tagHolders (s : State) (t : Team) (m : DWord) : List Nat :=
  ((s.jobs.filter fun j => j.team == t.info.uid && j.phase != .waiting &&
    (match j.tag with | some n => m.getLsbD n | none => false)).map (·.uid)) ++
  t.rings.filterMap fun p => match p.2.sub with
    | some b => match b.ending with
      | some w => if !w.getLsbD 6 && m.getLsbD (field w 0 6) then some b.seq else none
      | none => none
    | none => none

/-- RCOMMIT (R295): the commit waits in the background for the tags of the mask that are in flight. -/
def execRcommit (ring : BitVec 3) (m : SReg) (s : State) : Host.Outcome State Fault Refusal :=
  s.issue (.rcommit ring m) fun h => s.withRing h ring fun r =>
    if r.stg then s.takeFault h cRingBound
    else { s with uid := s.uid + 1 }.putHere { (h.retire 2 []) with
      team := h.team.putRing ring.toNat { r with commits := r.commits ++ [(⟨s.tagHolders h.team (h.readS m), s.uid, h.group.num, h.strand.sid⟩ : Commit)] } }

/-- RWAIT (R296) -/
def execRwait (d : SReg) (ring : BitVec 3) (s : State) : Host.Outcome State Fault Refusal :=
  s.issue (.rwait d ring) fun h => s.withRing h ring fun r =>
    if r.fullFor r.ccur then s.putHere ((h.writeS d (stageAddr h.team.core r (r.ccur % r.stages))).retire 2 [])
    else s.putHere (h.wait s.clock (.ringFull ring.toNat))

/-- The number below which the group's memory accesses are awaited: the one of the first attempt. -/
def Here.memLimit (h : Here) (s : State) : Nat :=
  match h.strand.hold with
  | some (.groupMem n) => n
  | _ => s.uid

/-- Memory accesses of a group issued before a number and not performed. -/
def Group.memBefore (g : Group) (limit : Nat) : Bool := g.outstanding.any fun p => Instr.isMem p.instr && p.seq < limit

/-- RREL (R296): of a full stage, a release of the group's accesses, which are performed first; else ignored. -/
def execRrel (ring : BitVec 3) (s : State) : Host.Outcome State Fault Refusal :=
  s.issue (.rrel ring) fun h => s.withRing h ring fun r =>
    if !r.fullFor r.ccur then s.putHere (h.retire 2 [])
    else if h.grp.memBefore (h.memLimit s) then s.putHere (h.wait s.clock (.groupMem (h.memLimit s)))
    else s.putHere { (h.retire 2 []) with team := h.team.putRing ring.toNat { r with
      ccur := (r.ccur + 1) % (2 * r.stages)
      sub := r.sub.map fun b => { b with rrels := b.rrels + 1 } } }

/-! ## RSUB and RUNSUB -/

/-- A field of a descriptor's doubleword. -/
def Subscription.w (b : Subscription) (k lo n : Nat) : Nat := field (b.words.getD k 0) lo n

/-- The words of a tensor descriptor pass the checks of R299. -/
def tensorOk (ws : List DWord) : Bool :=
  let w := fun k => ws.getD k 0
  field (w 0) 57 7 == 0 && field (w 2) 48 16 == 0 && field (w 3) 6 11 == 0 && field (w 4) 57 7 == 0 &&
  w 5 == 0 && w 6 == 0 && w 7 == 0 && field (w 1) 32 32 != 0 && field (w 1) 0 32 != 0 &&
  (match Fmt.ofCode ((w 3).extractLsb' 0 6) with | some f => f.isElement | none => false)

/-- The shape of the tiles of a descriptor in a ring's format. -/
def tensorShape (fmts : List DWord) (ws : List DWord) (fmt : BitVec 6) : Option Shape :=
  match Fmt.ofCode fmt with
  | some f => some ⟨f, f.num fmts, field (ws.getD 3 0) 23 8 + 1, 32 * (field (ws.getD 3 0) 17 6 + 1)⟩
  | none => none

/-- Tiles of the tensor: rows and columns of the tile grid. -/
def tensorGrid (ws : List DWord) : Nat × Nat :=
  let tr := field (ws.getD 3 0) 23 8 + 1
  let tc := 32 * (field (ws.getD 3 0) 17 6 + 1)
  ((field (ws.getD 1 0) 32 32 + tr - 1) / tr, (field (ws.getD 1 0) 0 32 + tc - 1) / tc)

/-- The lowest fault of an RSUB whose descriptor has been read. -/
def rsubCodes (fmts : List DWord) (r : Ring) (ws : List DWord) : List Code :=
  (if tensorOk ws then [] else [cBadTensor]) ++
  (if r.stg || !r.commits.isEmpty then [cRingBound] else []) ++
  (match tensorShape fmts ws r.fmt with
    | some p => if r.size < p.image then [cBadRing] else []
    | none => [cBadRing])

/-- RSUB (R299): the descriptor is read at issue; the ring is bound to the stager. -/
def execRsub (out sat : Bool) (rnd : Rnd) (ring : BitVec 3) (t g : SReg) (s : State) : Host.Outcome State Fault Refusal :=
  s.issue (.rsub out sat rnd ring t g) fun h => s.withRing h ring fun r =>
    let a := h.readS t
    let c := h.readS g
    let bound := if r.stg || !r.commits.isEmpty then [cRingBound] else []
    let early := bound ++ (if windowOf a ≠ some 0 then [cAddrSpace] else []) ++ (if a.toNat % 64 ≠ 0 then [cAlign] else [])
    if windowOf a ≠ some 0 ∨ a.toNat % 64 ≠ 0 then
      match lowestFault (faultsOf early) with
      | some x => s.stopHere h x
      | none => s.takeFault h cAddrSpace
    else
      let q := s.decide h .read true false false 8 h.strand.refused ((List.range 8).map fun i => (i, a + BitVec.ofNat 64 (8 * i)))
      match q.1 with
      | .error x => match lowestFault (x :: faultsOf bound) with
        | some y => q.2.stopHere h y
        | none => q.2.stopHere h x
      | .ok _ =>
        if q.2.runBusy h.team.asid a.toNat 64 then q.2.stopHere h (.hold (.busy a.toNat 64 h.team.asid false))
        else
        let m := q.2.machineRead h.team.agent a.toNat 64
        match m.1 with
        | .error k => m.2.takeFault h k
        | .ok bs =>
          let ws := dwordsOf bs 8
          match lowestFault (faultsOf (rsubCodes h.group.fmts r ws)) with
          | some x => m.2.stopHere h x
          | none =>
            let grid := tensorGrid ws
            let first := field c 8 32
            let n := field c 40 24
            { m.2 with uid := m.2.uid + 1 }.putHere { (h.retire 2 []) with team := h.team.putRing ring.toNat { r with
              stg := true
              stager := field c 0 7
              sub := some {
                seq := m.2.uid
                out := out
                desc := a
                words := ws
                first := first
                count := if n = 0 then grid.1 * grid.2 - first else n
                pushed := 0
                written := 0
                rrels := 0
                mode := engineMode rnd h.group.rm
                sat := sat
                fmts := h.group.fmts
                group := h.group.num
                sid := h.strand.sid
                ending := none
                limit := 0
                park := none
                refused := [] } } }

/-- RUNSUB (R300): the subscription ends in the background; its tag is in flight from now on. -/
def execRunsub (ring : BitVec 3) (g : SReg) (s : State) : Host.Outcome State Fault Refusal :=
  s.issue (.runsub ring g) fun h => s.withRing h ring fun r =>
    let c := h.readS g
    let tag := field c 0 6
    match r.sub with
    | none => s.takeFault h cRingBound
    | some b =>
      if b.ending.isSome then s.takeFault h cRingBound
      else if !c.getLsbD 6 && h.team.tagsFly.getLsbD tag then s.putHere (h.wait s.clock (.tagBusy tag))
      else
        let t := h.team.putRing ring.toNat { r with sub := some { b with ending := some c, limit := b.rrels } }
        let bit : DWord := if c.getLsbD 6 then 0 else BitVec.ofNat 64 (2 ^ tag)
        s.putHere { (h.retire 2 []) with team := { t with
          tagsFly := t.tagsFly ||| bit
          tagsDone := t.tagsDone &&& ~~~bit } }

end Sys2Proof.Machine
end

