-- ==== Sys2Proof/Machine/Queues.lean ====
section
/-! DEFINITION. Queue registers (R150, R301): QCFG, and the streams that fill and empty queues. -/

namespace Sys2Proof.Machine

open Sys2Proof

/-- The queue that a group's strand would find bound again after its fault: vectors pushed after a failed write are discarded. -/
def QueueReg.cleared (k : QueueReg) : QueueReg := { k with fault := none, vecs := [], count := k.taken }

/-- The strand of a cursor is held. -/
def State.heldHere (s : State) : Bool :=
  match s.here with
  | some h => h.strand.hold.isSome
  | none => false

/-- The binding that a QCFG gives a queue. -/
def Here.binding (h : Here) (st : Bool) (b c : DWord) : QueueReg where
  team := h.team.info.uid
  group := h.group.num
  store := st
  base := b
  count := field c 32 32
  stride := field c 16 16
  view := if c.getLsbD 15 && !st then some (c.extractLsb' 8 6) else none
  fmts := h.group.fmts
  vecs := []
  pos := 0
  taken := 0
  fault := none
  park := none
  refused := []

/-- Binds a queue, or unbinds it when the count is zero. -/
def State.bindQueue (s : State) (h : Here) (st : Bool) (q : BitVec 4) (b g : SReg) : State :=
  let key := queueKey h.team.core q.toNat
  let k := h.binding st (h.readS b) (h.readS g)
  { s with queues := if k.count = 0 then s.queues.erase key else s.queues.insert key k }.putHere (h.retire 2 [])

/-- QCFG (R301): a store stream of the group's own is unbound when its writes are performed; a write that failed gives its
fault. -/
def execQcfg (st : Bool) (q : BitVec 4) (b g : SReg) (s : State) : Host.Outcome State Fault Refusal :=
  s.issue (.qcfg st q b g) fun h =>
    let key := queueKey h.team.core q.toNat
    match s.queues.find key with
    | none => s.bindQueue h st q b g
    | some k =>
      if foreign h.team h.group k then s.takeFault h cQueueOwner
      else if !k.store then s.bindQueue h st q b g
      else match k.fault with
        | some (l, c, a) =>
          let s1 := s.takeAddrFault h c (some l) a
          if s1.heldHere then s1 else { s1 with queues := s1.queues.insert key k.cleared }
        | none =>
          if k.vecs.isEmpty && !h.group.pushesTo (1536 + q.toNat) then s.bindQueue h st q b g
          else s.putHere (h.wait s.clock (.queueDrain q.toNat))

/-! ## Streams -/

/-- The addresses of the lanes of the stream's next vector. -/
def QueueReg.addrs (k : QueueReg) : Addrs :=
  (List.range 64).map fun l => (l, k.base + BitVec.ofNat 64 ((64 * k.pos + l) * k.stride))

/-- The group that a stream serves, as an agent of its own that is not in handler mode. -/
def State.streamHere (s : State) (k : QueueReg) : Option Here := do
  let t ← s.team? k.team
  let g ← t.group? k.group
  return ⟨t, { g with handler := none }, g.strandFor 0⟩

/-- What a vector of a stream meets: the places of its lanes, the codes that lanes take, and the pages to wait for. -/
def State.streamPlaces (s : State) (h : Here) (k : QueueReg) (a : Access) : (SMap Loc × List (Nat × Code) × List (Nat × Bool)) × State :=
  let early := s.earlyCodes h 4 k.addrs
  let r := s.translateAll h 4 a k.refused k.addrs
  ((r.1.1, early ++ r.1.2.1, r.1.2.2), r.2)

/-- A word of a stream as a load stream delivers it: rendered at the view (R258); under a format code that R258 does not give, a
free value (log entry 4). -/
def QueueReg.render (k : QueueReg) (n : Nat) (w : Nat) : Word :=
  match k.view with
  | none => BitVec.ofNat 32 w
  | some c => match Fmt.ofCode c with
    | some f => if f.isView then (renderLane k.fmts f w).setWidth 32 else Config.freeValue 32 n
    | none => Config.freeValue 32 n

/-- The view under which the directory serves the reads of a stream. -/
def QueueReg.viewOf (k : QueueReg) : Option View :=
  match k.view with
  | none => none
  | some c => match Fmt.ofCode c with
    | some f => if f.isView then some (Sys2Proof.Machine.viewOf k.fmts f) else none
    | none => none

/-- Reads the lanes of a vector: words by lane, and the lanes whose read fails. -/
def State.streamLoad (s : State) (a : Agent) (v : Option View) : SMap Loc → (List (Nat × Nat) × List (Nat × Code)) × State
  | [] => (([], []), s)
  | (l, x) :: rest =>
    let r := s.loadLoc a v x 4
    let q := r.2.streamLoad a v rest
    match r.1 with
    | .ok bs => (((l, numOfBytes bs) :: q.1.1, q.1.2), q.2)
    | .error c => ((q.1.1, (l, c) :: q.1.2), q.2)

/-- A stream waits for pages. -/
def State.parkStream (s : State) (key : Nat) (k : QueueReg) (pages : List (Nat × Bool)) (asid : Nat) (a : Access) : State :=
  let s1 := s.noteMisses asid a pages
  { s1 with queues := s1.queues.insert key { k with park := some (pages.map (·.1), asid) } }

/-- QUEUE_STREAM_FILL: a load stream reads its next vector, while its queue has room (R150, R301). -/
def execQueueStreamFill (core q : Nat) (s : State) : Host.Outcome State Fault Refusal :=
  let key := queueKey core q
  .next (match s.queues.find key with
    | none => s
    | some k =>
      if k.store || 8 ≤ k.vecs.length || k.count ≤ k.pos || k.park.isSome then s
      else match s.streamHere k with
        | none => s
        | some h =>
          let r := s.streamPlaces h k .read
          match r.1.2.2 with
          | m :: ms => r.2.parkStream key k (m :: ms) h.team.asid .read
          | [] =>
            if !r.2.atRest (locPlaces r.1.1) then s
            else
            let v := (r.2.countHosts h.team.agent (locPlaces r.1.1) []).streamLoad h.team.agent k.viewOf r.1.1
            let ws : Lanes := laneNumbers.map fun l => k.render (s.freeN + l) (laneNat v.1.1 l)
            let bad := (r.1.2.1 ++ v.1.2).map fun p => (p.1, p.2, if p.2 = cLinkLost then 0 else addrOf k.addrs p.1)
            { v.2 with
              queues := v.2.queues.insert key { k with vecs := k.vecs ++ [⟨ws, bad⟩], pos := k.pos + 1, refused := [] }
              freeN := v.2.freeN + 64 })

/-- QUEUE_STREAM_WRITE: a store stream writes the oldest vector of its queue; a vector with a lane that fails is not written, and
nothing is written after it (R150, R301). -/
def execQueueStreamWrite (core q : Nat) (s : State) : Host.Outcome State Fault Refusal :=
  let key := queueKey core q
  .next (match s.queues.find key with
    | none => s
    | some k =>
      match k.vecs with
      | [] => s
      | v :: rest =>
        if !k.store || k.park.isSome then s
        else match s.streamHere k with
          | none => s
          | some h =>
            let r := s.streamPlaces h k .write
            match r.1.2.2 with
            | m :: ms => r.2.parkStream key k (m :: ms) h.team.asid .write
            | [] =>
              if !r.2.atRest (locPlaces r.1.1) then s
              else match lowestCode (r.1.2.1 ++ r.2.dataCodes h.team.core 4 false false r.1.1) with
              | some (l, c) =>
                { r.2 with queues := r.2.queues.insert key { k with
                  vecs := []
                  fault := some (l, c, if c = cLinkLost then 0 else addrOf k.addrs l)
                  refused := [] } }
              | none =>
                let s1 := r.2.storeAll h.team.agent (r.1.1.map fun p => (p.2, bytesOfNum 4 (v.lanes.getD p.1 0).toNat))
                { s1 with queues := s1.queues.insert key { k with vecs := rest, pos := k.pos + 1, refused := [] } })

end Sys2Proof.Machine
end

