-- ==== Sys2Proof/Machine/Binding.lean ====
section
/-! DEFINITION. Classes and their dies (R27 to R29), the room of cores and dies (R114 to R116), the dealing of teams to die queues
(R115), and the children of a team (R118, R119). -/

namespace Sys2Proof.Machine

open Sys2Proof

/-! ## Classes (R27 to R29) -/

/-- A die that has reported ready and is not fenced (R28, R378). -/
def State.dieUp (s : State) (d : Nat) : Bool := s.manage.ready.getLsbD (2 + d) && !s.manage.fenced.getLsbD d

/-- The available dies of a class. -/
def State.diesUp (s : State) (c : Nat) : List Nat := (classDies c).filter s.dieUp

/-- A class is available (R28). -/
def State.classUp (s : State) (c : Nat) : Bool := !(s.diesUp c).isEmpty

/-- The preference order of a contract (Table 01-5); `ANY` has none, and all classes are listed. -/
def classOrder (contract : Nat) : List Nat :=
  match contract with
  | 1 => [1, 0, 2, 3]
  | 2 => [0, 1, 3, 2]
  | 3 => [2, 1, 0, 3]
  | 4 => [3, 0, 1, 2]
  | _ => [0, 1, 2, 3]

/-- The first smallest element of a list under a strict order. -/
def firstMin {α : Type} (lt : α → α → Bool) : List α → Option α
  | [] => none
  | x :: xs => match firstMin lt xs with
    | none => some x
    | some y => if lt y x then some y else some x

/-- The die of a queued task. -/
def Place.onDie : Place → Nat
  | .die d => d
  | .gallery d _ => d

/-- A team's groups have all ended, and its jobs, its ending subscriptions and its store streams are done: its slots and its
footprint are free (R119, R144). -/
def State.over (s : State) (t : Team) : Bool :=
  t.groups.all (·.ended) && !s.jobs.any (fun j => j.team == t.info.uid) &&
  !t.rings.any (fun p => match p.2.sub with | some b => b.ending.isSome | none => false) &&
  !s.queues.any (fun p => p.2.team == t.info.uid && p.2.store && !p.2.vecs.isEmpty)

/-- Teams resident on a die: a team whose groups have ended and that waits for its children holds no slot and no rows, and is not counted (R28,
R119; log entry 5). -/
def State.residentOn (s : State) (d : Nat) : List Team := s.teams.filter fun t => coreDie t.core == d && !s.over t

/-- Teams waiting in a die's queues. -/
def State.queuedOn (s : State) (d : Nat) : List Task := s.tasks.filter fun t => Place.onDie t.place == d

/-- Teams resident on a die and waiting in its queues. -/
def State.dieLoad (s : State) (d : Nat) : Nat := (s.residentOn d).length + (s.queuedOn d).length

/-- Queued and resident teams of a class, and its present cores. -/
def State.classLoad (s : State) (c : Nat) : Nat × Nat :=
  (((s.diesUp c).map s.dieLoad).sum, 96 * (s.diesUp c).length)

/-- The least loaded of some available classes: the fewest teams per present core, ties to the lower code (R28). -/
def State.leastClass (s : State) (cs : List Nat) : Option Nat :=
  firstMin (fun a b => (s.classLoad a).1 * (s.classLoad b).2 < (s.classLoad b).1 * (s.classLoad a).2) cs

/-- A class may be chosen: it is available and not removed (R29). -/
def State.choosable (s : State) (removed : BitVec 4) (c : Nat) : Bool := s.classUp c && !removed.getLsbD c

/-- The class that a contract is bound to (R28). -/
def State.bindClass (s : State) (contract : Nat) (removed : BitVec 4) : Option Nat :=
  let cs := (classOrder contract).filter (s.choosable removed)
  if contract = 0 then s.leastClass cs else cs.head?

/-- The class that a contract is bound to after a class `old` was removed: the first after it in the preference order, else the
first before it (R29). -/
def State.rebindClass (s : State) (contract : Nat) (removed : BitVec 4) (old : Nat) : Option Nat :=
  let o := classOrder contract
  let i := o.findIdx (· == old)
  let cs := (o.drop (i + 1) ++ o.take i).filter (s.choosable removed)
  if contract = 0 then s.leastClass ((classOrder 0).filter (s.choosable removed)) else cs.head?

/-! ## Room (R114 to R116) -/

/-- Bytes of a core store that teams may hold: the L1 part keeps 64 KiB. -/
def storeRoom : Nat := 983040

/-- Teams that hold rows of a core. -/
def State.onCore (s : State) (core : Nat) : List Team := s.teams.filter fun t => t.core == core && !s.over t

/-- Bytes of a core's store that its teams hold. -/
def State.coreHeld (s : State) (core : Nat) : Nat := ((s.onCore core).map fun t => t.info.header.footprint).sum

/-- The slots of a core that groups hold, as 16 * barrel + slot. -/
def State.slotsHeld (s : State) (core : Nat) : List Nat :=
  (s.teams.filter fun t => t.core == core).flatMap fun t => (t.groups.filter fun g => !g.ended).map fun g => 16 * g.barrel + g.slot

/-- Free slots of a core. -/
def State.freeSlots (s : State) (core : Nat) : Nat := 32 - (s.slotsHeld core).length

/-- A team of a header fits on a core (R116). -/
def State.fits (s : State) (core : Nat) (h : Header) : Bool :=
  s.coreHeld core + h.footprint ≤ storeRoom && h.groups ≤ s.freeSlots core &&
  (h.mn == 0 || !(s.onCore core).any fun t => 0 < t.info.header.mn)

/-- The free bytes of a die, less the footprints that wait in its queues (R115). -/
def State.dieFree (s : State) (d : Nat) : Int :=
  (96 * storeRoom : Nat) - ((s.residentOn d).map fun t => t.info.header.footprint).sum -
    ((s.queuedOn d).map fun t => t.info.header.footprint).sum

/-! ## Dealing (R115) -/

/-- The dies on which a task may be put: the available ones of its class that its grid's DIEMASK names, unless that leaves
none. -/
def State.dealDies (s : State) (i : TaskInfo) : List Nat :=
  let ds := s.diesUp i.cls
  let mask := match (s.grid? i.grid).bind (·.sched) with
    | some c => if i.parent.isNone then ds.filter fun d => (c.reg 10).getLsbD (8 + d) else ds
    | none => ds
  if mask.isEmpty then ds else mask

/-- Deals one team to the die with the most free bytes, the lowest among equals; the members of a co-location block that is
queued already go where it is (R116). -/
def State.dealOne (s : State) (i : TaskInfo) : State :=
  let block := s.tasks.find? fun t => sameBlock t.info i && t.info.uid != i.uid
  let place : Option Place := match block with
    | some t => some t.place
    | none => (firstMin (fun a b => s.dieFree b < s.dieFree a) (s.dealDies i)).map Place.die
  match place with
  | some p => { s with tasks := s.tasks ++ [⟨i, p, false⟩] }
  | none => s.failGrid i.grid cClassLost

/-- Deals teams one at a time. -/
def State.deal (s : State) (is : List TaskInfo) : State := is.foldl State.dealOne s

/-! ## Children (R118, R119) -/

/-- A team's children that have not ended. -/
def State.hasChildren (s : State) (uid : Nat) : Bool :=
  s.tasks.any (fun t => t.info.parent == some uid) || s.teams.any (fun t => t.info.parent == some uid) ||
  s.saved.any fun t => t.info.parent == some uid

/-- Task entries in use: admitted grids, and spawned teams that wait (R115, R305; log entry 5). -/
def State.entries (s : State) : Nat := s.grids.length + (s.tasks.filter fun t => t.info.parent.isSome).length

/-- A recorded kernel header of a context (R111). -/
def State.header? (s : State) (asid : Nat) (a : Nat) : Option Header :=
  (s.segs.filter fun g => g.asid == asid).findSome? fun g => g.headers.find? fun h => h.addr == a

/-- One child put where R118 says: the gallery queue of the issuing core, or the queue of a die. -/
def State.addChild (s : State) (t : Team) (hd : Header) (s1 s3 : DWord) (cls : Nat) (removed : BitVec 4) (place : Place)
    (i : Nat) : State :=
  match s.grid? t.info.grid with
  | none => s
  | some g =>
    let info : TaskInfo := {
      uid := s.uid
      grid := g.uid
      number := 2 ^ 48 - 1 - g.spawnedTeams
      header := hd
      s1 := s1
      s2 := BitVec.ofNat 64 i
      s3 := s3
      depth := t.info.depth + 1
      parent := some t.info.uid
      admitted := s.clock
      cls := cls
      removed := removed }
    { (s.modGrid g.uid fun g => { g with spawnedTeams := g.spawnedTeams + 1 }) with
      uid := s.uid + 1
      tasks := s.tasks ++ [⟨info, place, false⟩] }

/-- The queue that children of a class enter: the issuing core's gallery queue when the class is that of the issuing team; else the
queue of the least loaded available die of the class. -/
def State.childPlace (s : State) (core cls : Nat) : Option Place :=
  if dieClass (coreDie core) = cls then some (.gallery (coreDie core) (coreGallery core))
  else (firstMin (fun a b => s.dieLoad a < s.dieLoad b) (s.diesUp cls)).map Place.die

end Sys2Proof.Machine
end

