-- ==== Sys2Proof/Machine/Tasks.lean ====
section
/-! DEFINITION. Schedules of tiled grids (R121 to R127) and the task instructions (R302 to R306). -/

namespace Sys2Proof.Machine

open Sys2Proof

/-! ## Schedule registers (R121, R122) -/

/-- Tile sizes of a set of schedule values. -/
def Sched.sizes (c : Sched) : List Nat := (List.range 4).map fun d => field (c.reg (6 + d)) 0 7

/-- NDIM1. -/
def Sched.ndim1 (c : Sched) : Nat := field (c.reg 0) 0 2

/-- The dimension at a loop level. -/
def Sched.order (c : Sched) (k : Nat) : Nat := field (c.reg 5) (2 * k) 2

/-- The number of atoms. -/
def Sched.atoms (c : Sched) : Nat := c.extents.foldl (· * ·) 1

/-- Positions of a tile. -/
def Sched.tileAtoms (c : Sched) : Nat := c.sizes.foldl (· * ·) 1

/-- A valid set of values (R122). -/
def Sched.valid (c : Sched) : Bool :=
  let e := fun d => c.extents.getD d 0
  let t := fun d => c.sizes.getD d 0
  let n := c.ndim1
  ((List.range 4).all fun d => 1 ≤ e d && 1 ≤ t d && t d ≤ 64 && (d ≤ n || (e d == 1 && t d == 1)) &&
    (!(c.reg 0).getLsbD (4 + d) || t d == e d)) &&
  c.atoms ≤ 2 ^ 31 && c.tileAtoms ≤ 64 &&
  ((List.range (n + 1)).all fun d => ((List.range (n + 1)).filter fun k => c.order k == d).length == 1) &&
  ((List.range 4).all fun k => k ≤ n || c.order k == 0) &&
  c.reg 12 &&& 127 == 0

/-- The bits of a schedule register that a set or a write gives it (Table 07-6). -/
def schedMask (k : Nat) : DWord :=
  match k with
  | 0 => 0xF3
  | 1 | 2 | 3 | 4 => 0x0000FFFFFFFFFFFF
  | 5 => 0xFF
  | 6 | 7 | 8 | 9 => 0x7F
  | 10 => 0xFFFFF
  | 12 => 0xFFFFFFFFFFFFFFFF
  | 14 => 0x801FFFFFFFFFFFFF
  | _ => 0

/-- The schedule that a schedule set describes (R106, R309). -/
def Sched.ofSet (ws : List DWord) : Sched :=
  ⟨(List.range 16).map fun k => ws.getD k 0 &&& schedMask k, [], 0, []⟩

/-- A schedule register as SCHRD reads it (Table 07-6). -/
def Sched.read (c : Sched) (k : Nat) : DWord :=
  if k = 15 then
    (c.reg 15 &&& 0xA) ||| (if c.staged.isEmpty then 0 else 4) ||| (if field (c.reg 13) 32 32 = c.atoms then 1 else 0)
  else c.reg k

/-- The values with every staged write. -/
def Sched.withStaged (c : Sched) : Sched := { c with regs := c.staged.foldl (fun r p => r.set p.1 p.2) c.regs }

/-- A rewrite applied (R127). -/
def Sched.applied (c : Sched) : Sched :=
  if c.staged.isEmpty || (c.reg 15).getLsbD 1 then c
  else
    let d := c.withStaged
    { d with regs := d.regs.set 11 (d.reg 11 + 1), staged := [], cursor := 0 }

/-- The tuner (R127). -/
def Sched.tuner (c : Sched) (team group : Nat) : Bool :=
  (c.reg 14).getLsbD 63 && field (c.reg 14) 48 5 == group && field (c.reg 14) 0 48 == team

/-- A write to a schedule register (R127): HOLD is set, other registers are staged. -/
def Sched.write (c : Sched) (k : Nat) (v : DWord) : Sched :=
  if k = 15 then { c with regs := c.regs.set 15 ((c.reg 15 &&& ~~~2) ||| (v &&& 2)) }
  else { c with staged := c.staged.insert k (v &&& schedMask k) }

/-- A register that SCHWR may write. -/
def schedWritable (k : Nat) : Bool := k == 15 || (5 ≤ k && k ≤ 10)

/-- The schedule of a grid. -/
def State.sched? (s : State) (grid : Nat) : Option Sched := (s.grid? grid).bind (·.sched)

/-- Changes the schedule of a grid. -/
def State.putSched (s : State) (grid : Nat) (c : Sched) : State := s.modGrid grid fun g => { g with sched := some c }

/-! ## SCHRD, SCHWR -/

/-- SCHRD (R302) -/
def execSchrd (la : BitVec 4) (d : SReg) (k : BitVec 4) (s : State) : Host.Outcome State Fault Refusal :=
  s.engineOp (.schrd la d k) la (fun _ => []) fun h p => (h, p)

/-- The schedule as the writes of a group that are issued and not completed will leave it. -/
def Group.schedAfter (g : Group) (c : Sched) : Sched :=
  g.outstanding.foldl (fun c p => match p.instr with
    | .schwr _ _ k => c.write k.toNat p.sa
    | _ => c) c

/-- The codes of a SCHWR (R127, R302). -/
def State.schwrCodes (s : State) (h : Here) (k : Nat) (v : DWord) : List Code :=
  match s.sched? h.team.info.grid with
  | none => [cRole]
  | some c =>
    (if c.tuner h.team.info.number h.group.num then [] else [cRole]) ++
    (if schedWritable k && ((h.grp.schedAfter c).write k v).withStaged.valid then [] else [cSchedRewrite])

/-- SCHWR (R302) -/
def execSchwr (la : BitVec 4) (a : SReg) (k : BitVec 4) (s : State) : Host.Outcome State Fault Refusal :=
  s.engineOp (.schwr la a k) la (fun h => s.schwrCodes h k.toNat (h.readS a)) fun h p => (h, { p with sa := h.readS a })

/-! ## The stipple map (R123) -/

/-- The place of a byte of the map, whose page must be COHERENT, writable and not poisoned. -/
def State.mapPlace (s : State) (asid va : Nat) (refused : List Nat) : Except Stop Xlat × State :=
  if 2 ^ 57 ≤ va then (.error (.fault cPage none 0), s)
  else
    let r := s.translate asid va .write
    match r.1 with
    | .miss page host => (.error (if refused.contains page then .fault cPage none 0 else .miss [(page, host)] .write), r.2)
    | .bad c => match s.peekLeaf asid va with
      | some e => (.error (.fault (if pteMt e.leaf = 0 then c else cPage) none 0), r.2)
      | none => (.error (.fault c none 0), r.2)
    | .ok x =>
      if x.mt ≠ 0 then (.error (.fault cPage none 0), r.2)
      else if r.2.poisoned (lineOf x.key) then (.error (.fault cPoison none 0), r.2)
      else if r.2.lost x then (.error (.fault cLinkLost none 0), r.2)
      else if !r.2.atRest [x] then (.error (.hold (.busy va 1 asid false)), r.2)
      else (.ok x, r.2)

/-- Sets a bit of a map byte at the home slice. -/
def State.mapSet (s : State) (x : Xlat) (b : Nat) : State :=
  let cs := [(x.key, s.mem.byte x.key ||| BitVec.ofNat 8 (2 ^ (b % 8)))]
  s.homeStoreAt x cs

/-- Sets bit `k` (0 claimed, 1 done) of the atoms at some positions that have it clear: the mask of the positions set. -/
def State.markAtoms (s : State) (asid : Nat) (c : Sched) (refused : List Nat) (origin : List Nat) (k : Nat) :
    List Nat → DWord → Except Stop DWord × State
  | [], m => (.ok m, s)
  | j :: js, m =>
    let b := 2 * atomNumber c.extents (atomAt origin c.sizes j) + k
    let r := s.mapPlace asid ((c.reg 12).toNat + b / 8) refused
    match r.1 with
    | .error x => (.error x, r.2)
    | .ok x =>
      if (r.2.mem.byte x.key).getLsbD (b % 8) then r.2.markAtoms asid c refused origin k js m
      else (r.2.mapSet x b).markAtoms asid c refused origin k js (m ||| BitVec.ofNat 64 (2 ^ j))

/-! ## NEXTTILE (R124) -/

/-- Tiles along a dimension. -/
def Sched.tilesAlong (c : Sched) (d : Nat) : Nat := (c.extents.getD d 1 + c.sizes.getD d 1 - 1) / c.sizes.getD d 1

/-- Tiles of the grid. -/
def Sched.tileCount (c : Sched) : Nat := ((List.range 4).map c.tilesAlong).foldl (· * ·) 1

/-- The tile coordinate of a dimension at a cursor: level 0 is slowest. -/
def Sched.coordAt (c : Sched) (cursor d : Nat) : Nat :=
  match (List.range (c.ndim1 + 1)).find? fun k => c.order k == d with
  | none => 0
  | some k =>
    let inner := ((List.range (c.ndim1 + 1)).filter fun i => k < i).foldl (fun n i => n * c.tilesAlong (c.order i)) 1
    cursor / inner % c.tilesAlong d

/-- The origin of the tile at a cursor. -/
def Sched.originAt (c : Sched) (cursor : Nat) : List Nat :=
  (List.range 4).map fun d => if d ≤ c.ndim1 then c.coordAt cursor d * c.sizes.getD d 1 else 0

/-- The positions of a tile that lie inside the extents. -/
def Sched.inside (c : Sched) (origin : List Nat) : List Nat :=
  (List.range c.tileAtoms).filter fun j =>
    let a := atomAt origin c.sizes j
    (List.range 4).all fun d => a.getD d 0 < c.extents.getD d 1

/-- What a NEXTTILE returns: the mask and the origin. -/
structure TileClaim where
  mask : DWord
  origin : List Nat
  deriving DecidableEq, Repr

/-- The walk, at most `fuel` tiles on: the claim, the cursor, and the state with the claimed bits set. -/
def State.walkTiles (s : State) (asid : Nat) (c : Sched) (refused : List Nat) : Nat → Nat → Except Stop (TileClaim × Nat) × State
  | 0, cursor => (.ok (⟨0, [0, 0, 0, 0]⟩, cursor), s)
  | fuel + 1, cursor =>
    let o := c.originAt cursor
    let r := s.markAtoms asid c refused o 0 (c.inside o) 0
    match r.1 with
    | .error x => (.error x, r.2)
    | .ok m => if m = 0 then r.2.walkTiles asid c refused fuel (cursor + 1) else (.ok (⟨m, o⟩, cursor + 1), r.2)

/-- The five registers of a NEXTTILE (R303). -/
def tileRegs (c : Sched) (t : TileClaim) : List DWord :=
  let pair := fun i => BitVec.ofNat 64 (t.origin.getD i 0 + t.origin.getD (i + 1) 0 * 2 ^ 32)
  let n := fun d => c.sizes.getD d 0 * 2 ^ (8 * d)
  [t.mask, pair 0, pair 2, c.reg 11, BitVec.ofNat 64 (n 0 + n 1 + n 2 + n 3)]

/-- NEXT TILE for a team (R124, R126): the registers that it returns. A walk that meets a fault or a miss leaves the schedule and
the map as they were. -/
def State.nextTile (s : State) (grid team : Nat) (refused : List Nat) : Except Stop (List DWord) × State :=
  match s.grid? grid with
  | none => (.ok [0, 0, 0, 0, 0], s)
  | some g => match g.sched with
    | none => (.ok [0, 0, 0, 0, 0], s)
    | some c0 =>
      if g.failed.isSome then (.ok (tileRegs c0 ⟨0, [0, 0, 0, 0]⟩), s)
      else
        let c := c0.applied
        let r := s.walkTiles g.asid c refused (c.tileCount - c.cursor) c.cursor
        match r.1 with
        | .error x => (.error x, { s with tlb := r.2.tlb })
        | .ok (t, cursor) =>
          let claimed := field (c.reg 13) 0 32 + countLanes t.mask
          let c1 := { c with
            cursor := cursor
            claims := if t.mask = 0 then c.claims else c.claims ++ [⟨team, t.origin, c.reg 11, t.mask, c.sizes⟩]
            regs := c.regs.set 13 (setField (c.reg 13) 0 32 claimed) }
          (.ok (tileRegs c t), r.2.putSched grid c1)

/-- Open claims of a team. -/
def State.openClaims (s : State) (t : Team) : Nat :=
  match s.sched? t.info.grid with
  | some c => (c.claims.filter fun k => k.team == t.info.uid).length
  | none => 0

/-- NEXTTILE (R303): the walk is made when the instruction completes; the fault or the miss that it would meet now is taken at
issue. -/
def execNexttile (la : BitVec 4) (d : SReg) (s : State) : Host.Outcome State Fault Refusal :=
  s.issue (.nexttile la d) fun h =>
    if 8 ≤ s.openClaims h.team then s.putHere (h.wait s.clock .claims)
    else
      let r := s.nextTile h.team.info.grid h.team.info.uid h.strand.refused
      match r.1 with
      | .error x => r.2.stopHere h x
      | .ok _ => s.launch h 2 (h.pend s.uid (.nexttile la d) la h.strand.exec [])

/-! ## ATOMDONE (R125) -/

/-- The positions of a mask. -/
def maskPositions (m : DWord) : List Nat := (List.range 64).filter fun j => m.getLsbD j

/-- ATOMDONE for a team: the mask of the atoms that it marked. -/
def State.atomDone (s : State) (grid team : Nat) (m : DWord) (origin : List Nat) (gen : DWord) (refused : List Nat) :
    Except Stop DWord × State :=
  match s.grid? grid with
  | none => (.ok 0, s)
  | some g => match g.sched with
    | none => (.ok 0, s)
    | some c =>
      let mine := fun (k : Claim) => k.team == team && k.origin == origin && k.gen == gen
      let named := (c.claims.filter mine).foldl (fun a k => a ||| k.mask) 0
      let sizes := match c.claims.find? mine with | some k => k.sizes | none => [1, 1, 1, 1]
      let at_ : Sched := { c with regs := (List.range 4).foldl (fun r d => r.set (6 + d) (BitVec.ofNat 64 (sizes.getD d 1))) c.regs }
      let r := s.markAtoms g.asid at_ refused origin 1 (maskPositions (m &&& named)) 0
      match r.1 with
      | .error x => (.error x, { s with tlb := r.2.tlb })
      | .ok marked =>
        let claims := (c.claims.map fun k => if mine k then { k with mask := k.mask &&& ~~~m } else k).filter fun k => k.mask != 0
        (.ok marked, r.2.putSched grid { c with
          claims := claims
          regs := c.regs.set 13 (setField (c.reg 13) 32 32 (field (c.reg 13) 32 32 + countLanes marked)) })

/-- The origin that sA+1 and sA+2 hold. -/
def originOf (x y : DWord) : List Nat := [field x 0 32, field x 32 32, field y 0 32, field y 32 32]

/-- ATOMDONE (R304) -/
def execAtomdone (la : BitVec 4) (d a : SReg) (s : State) : Host.Outcome State Fault Refusal :=
  s.issue (.atomdone la d a) fun h =>
    let x := h.readS (a + 1)
    let y := h.readS (a + 2)
    let r := s.atomDone h.team.info.grid h.team.info.uid (h.readS a) (originOf x y) (h.readS (a + 3)) h.strand.refused
    match r.1 with
    | .error e => r.2.stopHere h e
    | .ok _ => s.launch h 2 { h.pend s.uid (.atomdone la d a) la h.strand.exec [] with
        sa := h.readS a, sb := x, sd := y, more := [h.readS (a + 3)] }

/-! ## SPAWN, JOIN (R118, R305, R306) -/

/-- The codes of a SPAWN. -/
def State.spawnCodes (s : State) (h : Here) (a n : DWord) : List Code :=
  match s.grid? h.team.info.grid with
  | none => []
  | some g =>
    (if g.header.maxDepth < h.team.info.depth + 1 then [cSpawnDepth] else []) ++
    (if (s.header? h.team.asid a.toNat).isNone ∨ 1048575 < n.toNat ∨ 2 ^ 48 - (g.high + 1) < g.spawnedTeams + n.toNat
      then [cBadHeader] else [])

/-- SPAWN (R305) -/
def execSpawn (la : BitVec 4) (a : SReg) (s : State) : Host.Outcome State Fault Refusal :=
  s.engineOp (.spawn la a) la (fun h => s.spawnCodes h (h.readS a) (h.readS (a + 2)))
    fun h p => ({ h with team := { h.team with spawned := true } }, { p with
      sa := h.readS a, sb := h.readS (a + 1), sd := h.readS (a + 2), more := [h.readS (a + 3)] })

/-- JOIN (R306): held until every child of the team has ended. -/
def execJoin (s : State) : Host.Outcome State Fault Refusal :=
  s.issue .join fun h =>
    s.putHere (if s.hasChildren h.team.info.uid then h.wait s.clock .join else h.retire 2 [])

/-! ## Completion -/

/-- What a task instruction does when it completes. -/
inductive TaskDone where
  | done (s : State)
  | more (s : State)
  | wait
  | stop (x : Stop) (s : State)
  deriving DecidableEq, Repr

/-- Scalars delivered to a group. -/
def State.deliverScalars (s : State) (team group : Nat) (p : Pending) (d : SReg) (vs : List DWord) : State :=
  (List.range vs.length).foldl (fun s i => s.deliver team group p [] noFlags (some (d + BitVec.ofNat 6 i, vs.getD i 0))) s

/-- A group of the team has memory accesses before a number that are not performed. -/
def Team.memBefore (t : Team) (limit : Nat) : Bool := t.groups.any fun g => g.memBefore limit

/-- SPAWN completed as far as there is room for task entries: the children already made are counted in `stage`, with their class plus one
and the classes removed from their choices since (R29). -/
def State.spawnSome (s : State) (h : Here) (p : Pending) : TaskDone :=
  let t := h.team
  let n := p.sd.toNat
  match s.grid? t.info.grid, s.header? t.asid p.sa.toNat with
  | some g, some hd =>
    if g.failed.isSome ∨ n ≤ p.stage.1 then .done s
    else
      let removed := BitVec.ofNat 4 p.stage.2.2
      let cls := if p.stage.2.1 = 0 then s.bindClass hd.contract 0
        else if removed.getLsbD (p.stage.2.1 - 1) then none else some (p.stage.2.1 - 1)
      match cls with
      | none => .done (s.failGrid g.uid cClassLost)
      | some c => match s.childPlace t.core c with
        | none => .done (s.failGrid g.uid cClassLost)
        | some pl =>
          let k := min (n - p.stage.1) (s.taskCap - s.entries)
          if k = 0 then .wait
          else
            let s1 := (List.range k).foldl (fun s i => s.addChild t hd p.sb (p.more.headD 0) c removed pl (p.stage.1 + i)) s
            if p.stage.1 + k = n then .done s1
            else .more (s1.modTeam t.info.uid fun t => t.modGroup h.group.num fun g => g.mapPending fun q =>
              if q.id = p.id then { q with stage := (p.stage.1 + k, c + 1, p.stage.2.2) } else q)
  | _, _ => .done s

/-- PERFORMS A TASK INSTRUCTION. -/
def State.performTask (s : State) (h : Here) (p : Pending) : TaskDone :=
  let u := h.team.info.uid
  let g := h.group.num
  match p.instr with
  | .schrd _ d k => .done (s.deliverScalars u g p d [match s.sched? h.team.info.grid with | some c => c.read k.toNat | none => 0])
  | .schwr _ _ k => match s.sched? h.team.info.grid with
    | some c => .done (s.putSched h.team.info.grid (c.write k.toNat p.sa))
    | none => .done s
  | .nexttile _ d =>
    if 8 ≤ s.openClaims h.team then .wait
    else
      let r := s.nextTile h.team.info.grid u p.refused
      match r.1 with
      | .error x => .stop x r.2
      | .ok vs => .done (r.2.deliverScalars u g p d vs)
  | .atomdone _ d _ =>
    if h.team.memBefore p.seq then .wait
    else
      let r := s.atomDone h.team.info.grid u p.sa (originOf p.sb p.sd) (p.more.headD 0) p.refused
      match r.1 with
      | .error x => .stop x r.2
      | .ok m => .done (r.2.deliverScalars u g p d [m])
  | .spawn _ _ => if h.team.memBefore p.seq then .wait else s.spawnSome h p
  | _ => .done s

end Sys2Proof.Machine
end

