-- ==== Sys2Proof/Machine/JobWork.lean ====
section
/-! DEFINITION. What an engine job does when it runs (R146, R270, R277 to R283, R289, R290): its accesses to memory, and the work of
each instruction that carries a card. A job is performed whole when it starts; what one that ends failed leaves is in JobPartial. -/

namespace Sys2Proof.Machine

open Sys2Proof

/-! ## Accesses -/

/-- A run of bytes at a generic address. -/
abbrev Run := DWord × Nat

/-- How far the regions reach that follow one another from an address on: `f` regions at most. -/
def reachOf (rs : List (Nat × Nat)) : Nat → Nat → Nat
  | 0, p => p
  | f + 1, p => reachOf rs f (rs.foldl (fun q r => if r.1 ≤ p ∧ p < r.1 + r.2 then max q (r.1 + r.2) else q) p)

/-- Every byte of a run lies in a region of the card with the intent (R146): regions that adjoin hold it together. -/
def inRegion (ws : List DWord) (write : Bool) (r : Run) : Bool :=
  let rs := ((List.range 4).map (cardRegion ws)).filter fun g => if write then 2 ≤ g.intent else g.intent % 2 == 1
  r.1.toNat + r.2 ≤ reachOf (rs.map fun g => (g.addr.toNat, g.len)) 4 r.1.toNat

/-- Pieces of a run: places with their lengths. -/
abbrev Pieces := List (Loc × Nat)

/-- What a job's runs meet: their pieces, the codes found, and the pages to wait for. -/
structure Found where
  pieces : List Pieces
  codes : List Code
  miss : List (Nat × Bool)
  deriving DecidableEq, Repr

/-- The pieces of the lines of a global run. -/
def State.linePieces (s : State) (asid : Nat) (a : Access) (refused : List Nat) : List (Nat × Nat) → (Pieces × List Code × List (Nat × Bool)) × State
  | [] => (([], [], []), s)
  | (va, n) :: rest =>
    let t := s.translate asid va a
    let r := t.2.linePieces asid a refused rest
    match t.1 with
    | .ok x => (((.glob x, n) :: r.1.1, r.1.2.1, r.1.2.2), r.2)
    | .bad c => ((r.1.1, c :: r.1.2.1, r.1.2.2), r.2)
    | .miss page host =>
      if refused.contains page then ((r.1.1, cPage :: r.1.2.1, r.1.2.2), r.2)
      else ((r.1.1, r.1.2.1, if r.1.2.2.contains (page, host) then r.1.2.2 else (page, host) :: r.1.2.2), r.2)

/-- The pieces of a run. -/
def State.runPieces (s : State) (h : Here) (a : Access) (refused : List Nat) (r : Run) : (Pieces × List Code × List (Nat × Bool)) × State :=
  match s.resolve h.team h.group false r.1 r.2 with
  | .error c => (([], [c], []), s)
  | .ok (.store u off) => (([(.store u off, r.2)], [], []), s)
  | .ok (.glob va) => s.linePieces h.team.asid a refused (lineRuns va r.2)

/-- The pieces of several runs. -/
def State.allPieces (s : State) (h : Here) (a : Access) (refused : List Nat) : List Run → Found × State
  | [] => (⟨[], [], []⟩, s)
  | r :: rest =>
    let p := s.runPieces h a refused r
    let q := p.2.allPieces h a refused rest
    (⟨p.1.1 :: q.1.pieces, p.1.2.1 ++ q.1.codes, p.1.2.2 ++ q.1.miss⟩, q.2)

/-- The places of pieces in memory. -/
def piecePlaces (ps : List Pieces) : List Xlat :=
  ps.flatMap fun p => p.filterMap fun x => match x.1 with
    | .glob y => if y.bar0.isNone then some y else none
    | .store _ _ => none

/-- The codes that the data of pieces decide. -/
def State.pieceCodes (s : State) (core : Nat) (reads atomic : Bool) (ps : List Pieces) : List Code :=
  ps.flatMap fun p => p.filterMap fun x => match s.locBad core atomic x.1 x.2 with
    | some c => if reads || c == cLinkLost then some c else none
    | none => none

/-- The lowest of some codes. -/
def lowestOf (cs : List Code) : Option Code := firstMin (fun a b => a < b) cs

/-- DECIDES THE ACCESSES OF A JOB (R146, R155, R270): the pieces of its read and its write runs, or the pages that it waits for, or
the code with which it ends failed; or it waits for the homes that are at work on its lines (R331). `atomic` says that the write runs are
combined. -/
def State.jobAccess (s : State) (h : Here) (ws : List DWord) (refused : List Nat) (reads writes : List Run) (atomic : Bool) :
    Except Stop (List Pieces × List Pieces) × State :=
  if !(reads.all (inRegion ws false) && writes.all (inRegion ws true)) then (.error (.fault cBadCard none 0), s)
  else
    let r := s.allPieces h .read refused reads
    let w := r.2.allPieces h .write refused writes
    let codes := r.1.codes ++ w.1.codes
    match (if codes.contains cPage then [] else r.1.miss), (if codes.contains cPage then [] else w.1.miss) with
    | m :: ms, _ => (.error (.miss (m :: ms) .read), w.2.noteMisses h.team.asid .write w.1.miss)
    | [], m :: ms => (.error (.miss (m :: ms) .write), w.2)
    | [], [] =>
      match lowestOf (codes ++ w.2.pieceCodes h.team.core true false r.1.pieces ++ w.2.pieceCodes h.team.core atomic atomic w.1.pieces) with
      | some c => (.error (.fault c none 0), w.2)
      | none =>
        if !w.2.atRest (piecePlaces (r.1.pieces ++ w.1.pieces)) then (.error (.hold (.busy 0 0 h.team.asid false)), s)
        else (.ok (r.1.pieces, w.1.pieces), w.2)

/-- Reads pieces whose access has been decided. -/
def State.readPieces (s : State) (a : Agent) (v : Option View) : Pieces → List Byte × State
  | [] => ([], s)
  | (l, n) :: rest =>
    let r := s.loadLoc a v l n
    let q := r.2.readPieces a v rest
    ((match r.1 with | .ok bs => bs | .error _ => List.replicate n 0) ++ q.1, q.2)

/-- Reads several runs one after another. -/
def State.readEach (s : State) (a : Agent) (v : Option View) : List Pieces → List (List Byte) × State
  | [] => ([], s)
  | p :: rest =>
    let r := s.readPieces a v p
    let q := r.2.readEach a v rest
    (r.1 :: q.1, q.2)

/-- Reads several runs; each line of host memory is counted once (R157). -/
def State.readRuns (s : State) (a : Agent) (v : Option View) (ps : List Pieces) : List (List Byte) × State :=
  (s.countHosts a (piecePlaces ps) []).readEach a v ps

/-- The stores of bytes to pieces. -/
def pieceStores : Pieces → List Byte → List Store
  | [], _ => []
  | (l, n) :: rest, bs => (l, bs.take n) :: pieceStores rest (bs.drop n)

/-- The stores of several runs. -/
def runStores (ps : List Pieces) (bs : List (List Byte)) : List Store := (ps.zip bs).flatMap fun p => pieceStores p.1 p.2

/-! ## Parameters of a job -/

/-- The shape of a tile as the job captured it. -/
def Job.shape (j : Job) (t : BitVec 3) : Option Shape := shapeOf j.fmts (j.tctl.getD t.toNat 0)

/-- SCALE of CARD1. -/
def cardScale (ws : List DWord) : Option Num := scaleOf ((card1 ws).setWidth 32)

/-- ADDRk. -/
def cardAddr (ws : List DWord) (k : Nat) : DWord := (cardRegion ws k).addr

/-- The runs of `n` rows of `len` bytes from an address, `stride` bytes apart; a stride of 0 is the row's own length. -/
def rowRuns (a : DWord) (n len stride : Nat) : List Run :=
  (List.range n).map fun r => (a + BitVec.ofNat 64 (r * (if stride = 0 then len else stride)), len)

/-- What a job that has run leaves; `done` for one whose place must wait. -/
abbrev Worked := Except Stop State × State

/-- Ends a job failed. -/
def State.failWith (s : State) (c : Code) : Worked := (.error (.fault c none 0), s)

/-- A poisoned tile or accumulator that the job reads (R362). -/
def Team.enginePoison (t : Team) (tiles : List (BitVec 3)) (accs : List Bool) : Bool :=
  tiles.any (fun n => (t.tile n.toNat).poison) || accs.any fun a => (t.acc a).poison

/-! ## TLD, TST (R277 to R279) -/

/-- Scale bytes of each row as codes. -/
def scaleCodes (bs : List Byte) : List Nat := bs.map (·.toNat)

/-- The view under which a TLD reads COHERENT lines (R277). -/
def Job.loadView (j : Job) (f m : Fmt) (sat : Bool) : Option View :=
  if m ≠ f ∧ cardScale j.words = none ∧ j.mode = .rne ∧ !sat then
    some ⟨Fmt.toCode m, Fmt.viewDesc m j.fmts, Fmt.toCode f, Fmt.viewDesc f j.fmts⟩
  else none

/-- TLD of a tile. -/
def State.workTldTile (s : State) (h : Here) (j : Job) (sat : Bool) (t : BitVec 3) : Worked :=
  match j.shape t, memFmt j.words with
  | some p, some m =>
    let src := m.num j.fmts
    let rbm := rowBytes src p.cols
    let runs := rowRuns (cardAddr j.words 0) p.rows rbm (field (card1 j.words) 40 24)
    let sruns := if src.isMx then rowRuns (cardAddr j.words 1) p.rows (p.cols / 32) 0 else []
    let r := s.jobAccess h j.words j.refused (runs ++ sruns) [] false
    match r.1 with
    | .error x => (.error x, r.2)
    | .ok (ps, _) =>
      let d := r.2.readRuns h.team.agent (j.loadView p.fmt m sat) (ps.take p.rows)
      let e := d.2.readRuns h.team.agent none (ps.drop p.rows)
      let q := (List.range p.rows).foldl (fun (q : Tile × Flags) i =>
        let v := moveRun m p.fmt j.fmts (codesOf src.bits p.cols (d.1.getD i [])) (scaleCodes (e.1.getD i [])) (cardScale j.words) j.mode sat
        (q.1.putRow p i v.1 v.2.1, q.2 ||| v.2.2)) (h.team.tile t.toNat, 0)
      (.ok (e.2.modTeam h.team.info.uid fun t' => (t'.putTile t.toNat q.1).record (transferFlags q.2)), e.2)
  | _, _ => s.failWith cBadCard

/-- TLD of a packed tile (R152, R277): its header first, then all of its SIZE bytes. -/
def State.workTldPacked (s : State) (h : Here) (j : Job) (t : BitVec 3) : Worked :=
  match j.shape t with
  | none => s.failWith cBadCard
  | some p =>
    let a := cardAddr j.words 0
    let r := s.jobAccess h j.words j.refused [(a, 16)] [] false
    match r.1 with
    | .error x => (.error x, r.2)
    | .ok (ps, _) =>
      let hd := r.2.readRuns h.team.agent none ps
      match packedHeader p (hd.1.headD []) with
      | none => hd.2.failWith cLength
      | some (size, _) =>
        let r := hd.2.jobAccess h j.words j.refused [(a, size)] [] false
        match r.1 with
        | .error x => (.error x, r.2)
        | .ok (ps, _) =>
          let d := r.2.readRuns h.team.agent none ps
          match expandPacked p (d.1.headD []) with
          | none => d.2.failWith cLength
          | some (bs, xs) =>
            (.ok (d.2.modTeam h.team.info.uid fun t' => t'.putTile t.toNat { t'.tile t.toNat with
              bytes := bs
              scales := xs }), d.2)

/-- TLD of an accumulator window. -/
def State.workTldAcc (s : State) (h : Here) (j : Job) (a : Bool) : Worked :=
  match memFmt j.words with
  | none => s.failWith cBadCard
  | some m =>
    let (r0, c0, rows, cols) := accWindow j.words
    let src := m.num j.fmts
    let runs := rowRuns (cardAddr j.words 0) rows (rowBytes src cols) (field (card1 j.words) 40 24)
    let r := s.jobAccess h j.words j.refused runs [] false
    match r.1 with
    | .error x => (.error x, r.2)
    | .ok (ps, _) =>
      let d := r.2.readRuns h.team.agent none ps
      let q := (List.range rows).foldl (fun (q : Acc × Flags) i =>
        let cs := codesOf src.bits cols (d.1.getD i [])
        (List.range cols).foldl (fun (q : Acc × Flags) k =>
          let v := (src.srcVal (cs.getD k 0) 0).toNum
          (q.1.put (r0 + i) (c0 + k) (AccEntry.load v), if v.isSNaN then q.2 ||| fNV else q.2)) q) (h.team.acc a, 0)
      (.ok (d.2.modTeam h.team.info.uid fun t => (t.putAcc a q.1).record (transferFlags q.2)), d.2)

/-- TST. -/
def State.workTst (s : State) (h : Here) (j : Job) (sat : Bool) (t : BitVec 3) : Worked :=
  match j.shape t, memFmt j.words with
  | some p, some m =>
    let dst := m.num j.fmts
    let runs := rowRuns (cardAddr j.words 0) p.rows (rowBytes dst p.cols) (field (card1 j.words) 40 24)
    let sruns := if dst.isMx then rowRuns (cardAddr j.words 1) p.rows (p.cols / 32) 0 else []
    let r := s.jobAccess h j.words j.refused [] (runs ++ sruns) false
    match r.1 with
    | .error x => (.error x, r.2)
    | .ok (_, ps) =>
      if h.team.enginePoison [t] [] then r.2.failWith cPoison
      else
        let rows := (List.range p.rows).map fun i =>
          let v := (h.team.tile t.toNat).row p i
          moveRun p.fmt m j.fmts v.1 v.2 (cardScale j.words) j.mode sat
        let bytes := rows.map fun v => bytesOfCodes dst.bits v.1
        let scales := rows.map fun v => v.2.1.map (BitVec.ofNat 8)
        let fl := rows.foldl (fun f v => f ||| v.2.2) 0
        (.ok ((r.2.storeAll h.team.agent (runStores ps (bytes ++ scales))).modTeam h.team.info.uid fun t =>
          t.record (transferFlags fl)), r.2)
  | _, _ => s.failWith cBadCard

/-! ## TMMA, TDRAIN (R281, R283) -/

/-- The counter of an account that counts operations of an operand format (Table 23-6). -/
def opsCounter : Fmt → Nat
  | .i8 => 4
  | .mxi8 => 5
  | .mxi4 => 6
  | .f32 => 7
  | .bf16 => 8
  | .f16 => 8
  | .lns16 => 10
  | .lns8 => 11
  | _ => 9

/-- TMMA. -/
def State.workTmma (s : State) (h : Here) (j : Job) (m : Metric) (acc : Bool) (a b : BitVec 3) : Worked :=
  match j.shape a, j.shape b with
  | some pa, some pb =>
    if h.team.enginePoison [a, b] [acc] then s.failWith cPoison
    else
      let c := card1 j.words
      let r := mmaAcc m pa pb (h.team.tile a.toNat) (h.team.tile b.toNat) (field c 57 7) (field c 49 8) (h.team.acc acc)
      let s1 := s.account (s.accountOf h.team) (opsCounter pa.fmt) (BitVec.ofNat 64 (2 * pa.rows * pb.rows * pa.cols))
      (.ok (s1.modTeam h.team.info.uid fun t => (t.putAcc acc r.1).record (r.2 &&& fNV)), s)
  | _, _ => s.failWith cBadCard

/-- Values of a row converted: codes, the scale codes of its blocks of 32, and the flags. -/
def convertNums (t : NumFmt) (mode : RMode) (sat : Bool) (vs : List (Num × Flags)) : List Nat × List Nat × Flags :=
  match t with
  | .mx n =>
    let bs := (blocksOf32 vs).map fun blk => mxBlock n (blk.map fun v => let y := mxValue (.num v.1) true none; ((y.1, y.2 ||| v.2), mode))
    (bs.flatMap fun b => b.2.map (·.1), bs.map (·.1), bs.foldl (fun f b => b.2.foldl (fun f e => f ||| e.2) f) 0)
  | t =>
    let rs := vs.map fun v => let y := convert t (.num v.1) true none mode sat; (y.1, y.2 ||| v.2)
    (rs.map (·.1), [], rs.foldl (fun f e => f ||| e.2) 0)

/-- S * DRSCALE of the entries of a window's row. -/
def Job.drainRow (j : Job) (a : Acc) (r c0 n : Nat) : List (Num × Flags) :=
  (List.range n).map fun k => (a.at r (c0 + k)).drained j.drscale j.mode

/-- An accumulator with the window's entries cleared. -/
def Acc.clearRows (a : Acc) (r0 n c0 w : Nat) : Acc := (List.range n).foldl (fun a i => a.clear (r0 + i) c0 w) a

/-- TDRAIN to memory. -/
def State.workDrainMem (s : State) (h : Here) (j : Job) (sat clr acc : Bool) (f : Fmt) : Worked :=
  let (r0, c0, rows, cols) := drainWindow (.mem f) j.words
  let t := f.num j.fmts
  let pack := (card1 j.words).getLsbD 33
  let a := h.team.acc acc
  let vs := (List.range rows).map fun i => convertNums t j.mode sat (j.drainRow a (r0 + i) c0 cols)
  let fl := vs.foldl (fun f v => f ||| v.2.2) 0
  let whole := packTile f t (vs.map fun v => (v.1, v.2.1)) cols
  let runs := if pack then [(cardAddr j.words 0, whole.length)]
    else rowRuns (cardAddr j.words 0) rows (rowBytes t cols) (field (card1 j.words) 0 32) ++
      (if t.isMx then rowRuns (cardAddr j.words 1) rows (cols / 32) 0 else [])
  let bytes := if pack then [whole]
    else vs.map (fun v => bytesOfCodes t.bits v.1) ++ (if t.isMx then vs.map fun v => v.2.1.map (BitVec.ofNat 8) else [])
  let r := s.jobAccess h j.words j.refused [] runs false
  match r.1 with
  | .error x => (.error x, r.2)
  | .ok (_, ps) =>
    if h.team.enginePoison [] [acc] then r.2.failWith cPoison
    else
      (.ok ((r.2.storeAll h.team.agent (runStores ps bytes)).modTeam h.team.info.uid fun t' =>
        ((if clr then t'.putAcc acc (a.clearRows r0 rows c0 cols) else t').record fl)), r.2)

/-- TDRAIN to a tile. -/
def State.workDrainTile (s : State) (h : Here) (j : Job) (sat clr acc : Bool) (d : BitVec 3) : Worked :=
  match j.shape d with
  | none => s.failWith cBadCard
  | some p =>
    let (r0, c0, rows, cols) := drainWindow (.tile d) j.words
    let a := h.team.acc acc
    if h.team.enginePoison [] [acc] then s.failWith cPoison
    else
      let q := (List.range rows).foldl (fun (q : Tile × Flags) i =>
        let v := convertNums p.num j.mode sat (j.drainRow a (r0 + i) c0 cols)
        (q.1.putRow p i v.1 v.2.1, q.2 ||| v.2.2)) (h.team.tile d.toNat, 0)
      (.ok (s.modTeam h.team.info.uid fun t =>
        ((if clr then t.putAcc acc (a.clearRows r0 rows c0 cols) else t).putTile d.toNat q.1).record q.2), s)

/-- The flags that lanes raise. -/
def laneFlags (ds : List (Nat × DWord × Flags)) (l : Nat) : Flags :=
  (ds.filter fun d => d.1 == l).foldl (fun f d => f ||| d.2.2) 0

/-- TDRAIN to vector registers, for the lanes of the mask captured at issue. -/
def State.workDrainVec (s : State) (h : Here) (j : Job) (p : Pending) (sat clr acc : Bool) (vd : VReg) (n1 : BitVec 6) (f : Fmt) :
    Worked :=
  let (r0, c0, rows, _) := drainWindow (.vec vd n1 f) j.words
  let a := h.team.acc acc
  if h.team.enginePoison [] [acc] then s.failWith cPoison
  else
    let act := laneNumbers.filter (laneBit p.mask)
    let each := (List.range rows).map fun i =>
      convertLanes (f.num j.fmts) j.mode sat (act.map fun l => (l, (a.at (r0 + i) (c0 + l)).drained j.drscale j.mode))
    let regs := (each.zip (List.range rows)).flatMap fun e =>
      destOf f (vd + BitVec.ofNat 11 (e.2 * (if f.is64 then 2 else 1)))
        (laneNumbers.map fun l => match e.1.find? (fun d => d.1 == l) with | some d => d.2.1 | none => 0)
    let a' := if clr then (List.range rows).foldl (fun a i => act.foldl (fun a l => a.put (r0 + i) (c0 + l) accZero) a) a else a
    let s1 := s.modTeam h.team.info.uid fun t => t.putAcc acc a'
    (.ok (s1.deliver h.team.info.uid h.group.num p regs (laneFlags each.flatten) none), s)

/-! ## CPY, COLL (R289, R290) -/

/-- CPY. -/
def State.workCpy (s : State) (h : Here) (j : Job) (sat : Bool) : Worked :=
  let run := fun k => ((cardRegion j.words k).addr, (cardRegion j.words k).len)
  if cpyRaw j.words then
    let r := s.jobAccess h j.words j.refused [run 0] [run 1] false
    match r.1 with
    | .error x => (.error x, r.2)
    | .ok (ps, qs) =>
      let d := r.2.readRuns h.team.agent none ps
      (.ok (d.2.storeAll h.team.agent (runStores qs d.1)), d.2)
  else match cpySrc j.words, cpyDst j.words with
    | some a, some b =>
      let src := a.num j.fmts
      let dst := b.num j.fmts
      let r := s.jobAccess h j.words j.refused (run 0 :: (if src.isMx then [run 2] else [])) (run 1 :: (if dst.isMx then [run 3] else [])) false
      match r.1 with
      | .error x => (.error x, r.2)
      | .ok (ps, qs) =>
        let d := r.2.readRuns h.team.agent none ps
        let n := 8 * (cardRegion j.words 0).len / src.bits
        let v := moveRun a b j.fmts (codesOf src.bits n (d.1.getD 0 [])) (scaleCodes (d.1.getD 1 [])) (cardScale j.words) j.mode sat
        (.ok ((d.2.storeAll h.team.agent (runStores qs [bytesOfCodes dst.bits v.1, v.2.1.map (BitVec.ofNat 8)])).modTeam
          h.team.info.uid fun t => t.record (transferFlags v.2.2)), d.2)
    | _, _ => s.failWith cBadCard

/-- The part of pieces that holds bytes `off` to `off + n - 1`. -/
def piecesAt : Pieces → Nat → Nat → Pieces
  | [], _, _ => []
  | (l, k) :: rest, off, n =>
    if n = 0 then []
    else if k ≤ off then piecesAt rest (off - k) n
    else
      let m := min n (k - off)
      let l' : Loc := match l with
        | .glob x => .glob { x with pa := x.pa + off }
        | .store u o => .store u (o + off)
      (l', m) :: piecesAt rest 0 (n - m)

/-- One combination at its place (R200, R290). -/
def State.combineAt (s : State) (a : Agent) (sc : Scope) (ps : Pieces) (n : Nat) (ty : AType) (op : Aop) (x : Nat) : Flags × State :=
  match ps with
  | [(l, _)] =>
    let old := match (s.atomicAt a sc l n fun _ => none).1 with | .ok v => v | .error _ => 0
    let r := s.atomicAt a sc l n fun old => some (combine ty op old x).1
    ((combine ty op old x).2, r.2)
  | _ =>
    let r := s.readPieces a none ps
    let v := combine ty op (numOfBytes r.1) x
    (v.2, r.2.storeAll a (pieceStores ps (bytesOfNum n v.1)))

/-- The elements of a COLL combined one after another. -/
def State.combineAll (s : State) (a : Agent) (sc : Scope) (ps : Pieces) (n : Nat) (ty : AType) (op : Aop) :
    List (Nat × Nat) → Flags → Flags × State
  | [], f => (f, s)
  | (e, x) :: rest, f =>
    let r := s.combineAt a sc (piecesAt ps (e * n) n) n ty op x
    r.2.combineAll a sc ps n ty op rest (f ||| r.1)

/-- COLL: every element is converted, also one whose format stays the same (R290). -/
def State.workColl (s : State) (h : Here) (j : Job) (sat : Bool) : Worked :=
  let run := fun k => ((cardRegion j.words k).addr, (cardRegion j.words k).len)
  match cpySrc j.words, cpyDst j.words, collType (cpyDst j.words) with
  | some a, some b, some ty =>
    let src := a.num j.fmts
    let r := s.jobAccess h j.words j.refused [run 0] [run 1] true
    match r.1 with
    | .error x => (.error x, r.2)
    | .ok (ps, qs) =>
      let d := r.2.readRuns h.team.agent none ps
      let n := 8 * (cardRegion j.words 0).len / src.bits
      let v := convertRun src (b.num j.fmts) (codesOf src.bits n (d.1.getD 0 [])) [] (cardScale j.words) j.mode sat
      let sc := Scope.ofCode ((card1 j.words).extractLsb' 47 2)
      let c := d.2.combineAll h.team.agent sc (qs.headD []) (if ty.is64 then 8 else 4) ty (Aop.ofCode (collOp j.words))
        ((List.range n).zip v.1) v.2.2
      (.ok (c.2.modTeam h.team.info.uid fun t => t.record (transferFlags c.1)), d.2)
  | _, _, _ => s.failWith cBadCard

/-! ## All -/

/-- THE WORK OF A JOB, performed whole: the state that it leaves, or the page that it waits for, or the code with which it ends
failed; beside it the state that has held what its translations found. -/
def State.workWhole (s : State) (h : Here) (j : Job) (p : Pending) : Worked :=
  match j.instr with
  | .tld _ sat _ (.tile t) _ => if (card1 j.words).getLsbD 33 then s.workTldPacked h j t else s.workTldTile h j sat t
  | .tld _ _ _ (.acc a) _ => s.workTldAcc h j a
  | .tst _ sat _ t _ => s.workTst h j sat t
  | .tmma _ m acc a b _ => s.workTmma h j m acc a b
  | .tdrain _ sat _ clr acc (.mem f) _ => s.workDrainMem h j sat clr acc f
  | .tdrain _ sat _ clr acc (.tile d) _ => s.workDrainTile h j sat clr acc d
  | .tdrain _ sat _ clr acc (.vec vd n1 f) _ => s.workDrainVec h j p sat clr acc vd n1 f
  | .cpy _ sat _ _ => s.workCpy h j sat
  | .coll _ sat _ _ => s.workColl h j sat
  | _ => s.failWith cBadCard

end Sys2Proof.Machine
end

