-- ==== Sys2Proof/Machine/JobPartial.lean ====
section
/-! DEFINITION. What an engine job that ends failed leaves (R270): each byte, element and entry of its destination holds its value
from before the job or the value that the job would have written. Which of the two is a free truth value for each (log entry 4); where the
job's source cannot be read, or its destination not be written, nothing would have been written. -/

namespace Sys2Proof.Machine

open Sys2Proof

/-- The lines of a run. -/
def linesOfRun (r : Run) : List Run := (lineRuns r.1.toNat r.2).map fun x => (BitVec.ofNat 64 x.1, x.2)

/-- The pieces of a run that the job may access: in a region of its intent, translated, and not poisoned or lost. -/
def State.soundPieces (s : State) (h : Here) (j : Job) (write atomic : Bool) (r : Run) : Option Pieces :=
  if !inRegion j.words write r then none
  else match (s.runPieces h (if write then .write else .read) j.refused r).1 with
    | (ps, [], []) => if (s.pieceCodes h.team.core (!write || atomic) atomic [ps]).isEmpty then some ps else none
    | _ => none

/-- Reads a run line by line: its bytes, and which of them could be read. -/
def State.partRead (s : State) (h : Here) (j : Job) (v : Option View) (r : Run) : (List Byte × List Bool) × State :=
  (linesOfRun r).foldl (fun (q : (List Byte × List Bool) × State) x =>
    match q.2.soundPieces h j false false x with
    | none => ((q.1.1 ++ List.replicate x.2 0, q.1.2 ++ List.replicate x.2 false), q.2)
    | some ps =>
      let d := q.2.readPieces h.team.agent v ps
      ((q.1.1 ++ d.1, q.1.2 ++ List.replicate x.2 true), d.2)) (([], []), s)

/-- Reads several runs. -/
def State.partReads (s : State) (h : Here) (j : Job) (v : Option View) : List Run → List (List Byte × List Bool) × State
  | [] => ([], s)
  | r :: rest =>
    let d := s.partRead h j v r
    let q := d.2.partReads h j v rest
    (d.1 :: q.1, q.2)

/-- The stores of chosen bytes; a register of BAR0 is written whole or not at all. -/
def mixStores (ps : Pieces) (bs : List Byte) (ks : List Bool) : List Store :=
  if ps.any fun p => match p.1 with | .glob x => x.bar0.isSome | .store _ _ => false then
    if ks.all id then pieceStores ps bs else []
  else (List.range bs.length).flatMap fun i =>
    if ks.getD i false then pieceStores (piecesAt ps i 1) [bs.getD i 0] else []

/-- Writes a run of elements of `w` bytes as a failed job may have: those elements that free truth values choose, of the ones that lie whole
in lines which the job may write. -/
def State.partWrite (s : State) (h : Here) (j : Job) (w : Nat) (r : Run) (bs : List Byte) (oks : List Bool) : State :=
  let reach := (linesOfRun r).flatMap fun x => List.replicate x.2 (s.soundPieces h j true false x).isSome
  let ks := writtenBytes s.freeN w ((List.range bs.length).map fun i => oks.getD i false && reach.getD i false)
  ((linesOfRun r).foldl (fun (q : State × Nat) x =>
    (match q.1.soundPieces h j true false x with
      | none => q.1
      | some ps => q.1.storeAll h.team.agent (mixStores ps ((bs.drop q.2).take x.2) ((ks.drop q.2).take x.2)), q.2 + x.2))
    ({ s with freeN := s.freeN + bs.length }, 0)).1

/-- Writes several runs, each with the bytes of its elements. -/
def State.partWrites (s : State) (h : Here) (j : Job) (ws : List (Nat × Run × List Byte × List Bool)) : State :=
  ws.foldl (fun s w => s.partWrite h j w.1 w.2.1 w.2.2.1 w.2.2.2) s

/-- All bytes are sound. -/
def allSound (bs : List Byte) : List Bool := bs.map fun _ => true

/-- The accumulator entries of a window after a failed job that would have left `new`. -/
def Acc.mix (a new : Acc) (r0 c0 rows cols n : Nat) (sound : Nat → Nat → Bool) : Acc :=
  (List.range rows).foldl (fun a i => (List.range cols).foldl (fun (a : Acc) k =>
    if sound i k && Config.freeBool (n + i * cols + k) then a.put (r0 + i) (c0 + k) (new.at (r0 + i) (c0 + k)) else a) a) a

/-! ## TLD -/

/-- A failed TLD of a tile. -/
def State.partTldTile (s : State) (h : Here) (j : Job) (sat : Bool) (t : BitVec 3) : State :=
  match j.shape t, memFmt j.words with
  | some p, some m =>
    let src := m.num j.fmts
    let d := s.partReads h j (j.loadView p.fmt m sat)
      (rowRuns (cardAddr j.words 0) p.rows (rowBytes src p.cols) (field (card1 j.words) 40 24))
    let e := d.2.partReads h j none (if src.isMx then rowRuns (cardAddr j.words 1) p.rows (p.cols / 32) 0 else [])
    let row := fun i => ((d.1.getD i ([], [])), (e.1.getD i ([], [])))
    let new := (List.range p.rows).foldl (fun (q : Tile) i =>
      let v := moveRun m p.fmt j.fmts (codesOf src.bits p.cols (row i).1.1) (scaleCodes (row i).2.1) (cardScale j.words) j.mode sat
      q.putRow p i v.1 v.2.1) (h.team.tile t.toNat)
    let es := (List.range p.rows).map fun i => elemsSound src p.num p.cols (row i).1.2 (row i).2.2
    ({ e.2 with freeN := e.2.freeN + new.mixed } : State).modTeam h.team.info.uid fun u =>
      u.putTile t.toNat ((u.tile t.toNat).mix new e.2.freeN p.num.unit (es.flatMap (bytesSound p.num.bits)) (es.flatMap (scalesSound p.num)))
  | _, _ => s

/-- A failed TLD of a packed tile: one that fails its checks emits nothing, and its tile reads zero (R152). -/
def State.partTldPacked (s : State) (h : Here) (j : Job) (c : Code) (t : BitVec 3) : State :=
  match j.shape t with
  | none => s
  | some p =>
    let a := cardAddr j.words 0
    if c = cLength then s.modTeam h.team.info.uid fun u => u.putTile t.toNat ((u.tile t.toNat).cutOff p 0 [] [])
    else
      let d := s.partRead h j none (a, 16)
      match (if d.1.2.all id then packedHeader p d.1.1 else none) with
      | none => d.2
      | some (size, _) =>
        let e := d.2.partRead h j none (a, size)
        match expandPacked p e.1.1 with
        | none => e.2
        | some (bs, xs) =>
          let k := packedSound p e.1.1 e.1.2
          ({ e.2 with freeN := e.2.freeN + bs.length + xs.length } : State).modTeam h.team.info.uid fun u =>
            u.putTile t.toNat ((u.tile t.toNat).mix { u.tile t.toNat with bytes := bs, scales := xs } e.2.freeN p.num.unit k.1 k.2)

/-- A failed TLD of an accumulator window. -/
def State.partTldAcc (s : State) (h : Here) (j : Job) (a : Bool) : State :=
  match memFmt j.words with
  | none => s
  | some m =>
    let (r0, c0, rows, cols) := accWindow j.words
    let src := m.num j.fmts
    let d := s.partReads h j none (rowRuns (cardAddr j.words 0) rows (rowBytes src cols) (field (card1 j.words) 40 24))
    let new := (List.range rows).foldl (fun (q : Acc) i =>
      let cs := codesOf src.bits cols (d.1.getD i ([], [])).1
      (List.range cols).foldl (fun (q : Acc) k => q.put (r0 + i) (c0 + k) (AccEntry.load (src.srcVal (cs.getD k 0) 0).toNum)) q) (h.team.acc a)
    ({ d.2 with freeN := d.2.freeN + rows * cols } : State).modTeam h.team.info.uid fun t =>
      t.putAcc a ((t.acc a).mix new r0 c0 rows cols d.2.freeN fun i k => elemSound src.bits (d.1.getD i ([], [])).2 k)

/-! ## TST, TDRAIN to memory -/

/-- A failed TST. -/
def State.partTst (s : State) (h : Here) (j : Job) (sat : Bool) (t : BitVec 3) : State :=
  match j.shape t, memFmt j.words with
  | some p, some m =>
    let dst := m.num j.fmts
    if h.team.enginePoison [t] [] then s
    else
      let rows := (List.range p.rows).map fun i =>
        let v := (h.team.tile t.toNat).row p i
        moveRun p.fmt m j.fmts v.1 v.2 (cardScale j.words) j.mode sat
      let bytes := rows.map fun v => bytesOfCodes dst.bits v.1
      let scales := if dst.isMx then rows.map fun v => v.2.1.map (BitVec.ofNat 8) else []
      let runs := rowRuns (cardAddr j.words 0) p.rows (rowBytes dst p.cols) (field (card1 j.words) 40 24) ++
        (if dst.isMx then rowRuns (cardAddr j.words 1) p.rows (p.cols / 32) 0 else [])
      s.partWrites h j ((((bytes.map fun b => (dst.unit, b)) ++ scales.map fun b => (1, b)).zip runs).map
        fun (w : (Nat × List Byte) × Run) => (w.1.1, w.2, w.1.2, allSound w.1.2))
  | _, _ => s

/-- A failed TDRAIN to memory. -/
def State.partDrainMem (s : State) (h : Here) (j : Job) (sat clr acc : Bool) (f : Fmt) : State :=
  if h.team.enginePoison [] [acc] then s
  else
    let (r0, c0, rows, cols) := drainWindow (.mem f) j.words
    let t := f.num j.fmts
    let a := h.team.acc acc
    let vs := (List.range rows).map fun i => convertNums t j.mode sat (j.drainRow a (r0 + i) c0 cols)
    let whole := packTile f t (vs.map fun v => (v.1, v.2.1)) cols
    let ws : List (Nat × Run × List Byte) :=
      if (card1 j.words).getLsbD 33 then [(1, (cardAddr j.words 0, whole.length), whole)]
      else ((rowRuns (cardAddr j.words 0) rows (rowBytes t cols) (field (card1 j.words) 0 32)).zip
          (vs.map fun v => bytesOfCodes t.bits v.1)).map (fun w => (t.unit, w)) ++
        (if t.isMx then ((rowRuns (cardAddr j.words 1) rows (cols / 32) 0).zip (vs.map fun v => v.2.1.map (BitVec.ofNat 8))).map fun w => (1, w)
          else [])
    let s1 := s.partWrites h j (ws.map fun w => (w.1, w.2.1, w.2.2, allSound w.2.2))
    if clr then ({ s1 with freeN := s1.freeN + rows * cols } : State).modTeam h.team.info.uid fun u =>
      u.putAcc acc ((u.acc acc).mix (a.clearRows r0 rows c0 cols) r0 c0 rows cols s1.freeN fun _ _ => true)
    else s1

/-! ## CPY, COLL -/

/-- A failed CPY. -/
def State.partCpy (s : State) (h : Here) (j : Job) (sat : Bool) : State :=
  let run : Nat → Run := fun k => ((cardRegion j.words k).addr, (cardRegion j.words k).len)
  let d := s.partRead h j none (run 0)
  if cpyRaw j.words then d.2.partWrite h j 1 (run 1) d.1.1 d.1.2
  else match cpySrc j.words, cpyDst j.words with
    | some a, some b =>
      let src := a.num j.fmts
      let dst := b.num j.fmts
      let e := if src.isMx then d.2.partRead h j none (run 2) else (([], []), d.2)
      let n := 8 * (cardRegion j.words 0).len / src.bits
      let v := moveRun a b j.fmts (codesOf src.bits n d.1.1) (scaleCodes e.1.1) (cardScale j.words) j.mode sat
      let es := elemsSound src dst n d.1.2 e.1.2
      e.2.partWrites h j ((dst.unit, run 1, bytesOfCodes dst.bits v.1, bytesSound dst.bits es) ::
        (if dst.isMx then [(1, run 3, v.2.1.map (BitVec.ofNat 8), scalesSound dst es)] else []))
    | _, _ => s

/-- A failed COLL: each element may have been combined. -/
def State.partColl (s : State) (h : Here) (j : Job) (sat : Bool) : State :=
  let run : Nat → Run := fun k => ((cardRegion j.words k).addr, (cardRegion j.words k).len)
  match cpySrc j.words, cpyDst j.words, collType (cpyDst j.words) with
  | some a, some b, some ty =>
    let src := a.num j.fmts
    let w := if ty.is64 then 8 else 4
    let d := s.partRead h j none (run 0)
    let n := 8 * (cardRegion j.words 0).len / src.bits
    let v := convertRun src (b.num j.fmts) (codesOf src.bits n d.1.1) [] (cardScale j.words) j.mode sat
    let sc := Scope.ofCode ((card1 j.words).extractLsb' 47 2)
    ((List.range n).zip v.1).foldl (fun (s : State) e =>
      match s.soundPieces h j true true ((run 1).1 + BitVec.ofNat 64 (e.1 * w), w) with
      | none => s
      | some ps =>
        let s1 : State := { s with freeN := s.freeN + 1 }
        if elemSound src.bits d.1.2 e.1 && Config.freeBool s.freeN then
          (s1.combineAt h.team.agent sc ps w ty (Aop.ofCode (collOp j.words)) e.2).2
        else s1) d.2
  | _, _, _ => s

/-! ## All -/

/-- WHAT A JOB THAT ENDS FAILED LEAVES (R270). The other jobs fail only where an operand is poisoned, and would have written nothing. -/
def State.workPart (s : State) (h : Here) (j : Job) (c : Code) : State :=
  match j.instr with
  | .tld _ sat _ (.tile t) _ => if (card1 j.words).getLsbD 33 then s.partTldPacked h j c t else s.partTldTile h j sat t
  | .tld _ _ _ (.acc a) _ => s.partTldAcc h j a
  | .tst _ sat _ t _ => s.partTst h j sat t
  | .tdrain _ sat _ clr acc (.mem f) _ => s.partDrainMem h j sat clr acc f
  | .cpy _ sat _ _ => s.partCpy h j sat
  | .coll _ sat _ _ => s.partColl h j sat
  | _ => s

/-- THE WORK OF A JOB: the state that it leaves, or the page that it waits for, or the code with which it ends failed, with the state
that this leaves. -/
def State.work (s : State) (h : Here) (j : Job) (p : Pending) : Worked :=
  let r := s.workWhole h j p
  match r.1 with
  | .error (.fault c _ _) => (r.1, r.2.workPart h j c)
  | _ => r

end Sys2Proof.Machine
end

