-- ==== Sys2Proof/Machine/System.lean ====
section
/-! DEFINITION. System instructions and special registers (R212 to R221, Tables 03-8, 03-12, 03-13, 05-1, 05-6, 09-9, 11-7,
13-5, 13-7, 17-1, 21-5, 21-6, 23-4). -/

namespace Sys2Proof.Machine

open Sys2Proof

/-! ## Reading special registers -/

/-- `ROLE` (Table 05-1). -/
def Here.role (h : Here) : DWord :=
  let g := h.group
  BitVec.ofNat 64 (h.team.info.depth + g.kind * 2 ^ 8 + g.slot * 2 ^ 10 + g.barrel * 2 ^ 14 + g.num * 2 ^ 15 +
    (h.team.groups.length - 1) * 2 ^ 20 + (if h.team.xHeld g then 2 ^ 25 else 0) + (if h.inHandler then 2 ^ 26 else 0))

/-- `FLAGS` (Table 03-13): the job-level set, and the OR over the lanes set in EXEC. -/
def Here.flagsReg (h : Here) : DWord :=
  let own := laneNumbers.foldl (fun acc l => if laneBit h.strand.exec l then acc ||| h.group.flagsOf l else acc) (0 : Flags)
  h.team.jflags.zeroExtend 64 <<< 8 ||| own.zeroExtend 64

/-- `CLASSID` (R13). -/
def Here.classid (h : Here) : DWord := BitVec.ofNat 64 (dieClass (coreDie h.team.core) + coreDie h.team.core * 4)

/-- `GOVSTAT` (Table 23-4): the die's budget, 256 read as 255, and the team's stalls, which saturate. -/
def State.govstat (s : State) (h : Here) : DWord :=
  let level := min 255 (match s.dies[coreDie h.team.core]? with | some d => d.budget | none => 0)
  BitVec.ofNat 64 (level * 2 ^ 48 + min (2 ^ 48 - 1) h.team.govStalls)

/-- A handler register (Table 21-6); outside handler mode every one reads zero (R212). -/
def Here.handlerReg (h : Here) (n : BitVec 4) : DWord :=
  match h.group.handler with
  | some k =>
    if k.sid ≠ h.strand.sid then 0
    else match n.toNat with
      | 0 => k.cause
      | 1 => 0xA000000000C00000
      | 2 => k.hpc
      | _ => 0
  | none => 0

/-- A special register as SREAD reads it (Table 11-7); `TIME` apart. -/
def State.specReg (s : State) (h : Here) (r : SpecReg) : DWord :=
  match r with
  | .mode => h.group.rm.zeroExtend 64
  | .flags => h.flagsReg
  | .tags => h.team.tagsDone
  | .govstat => s.govstat h
  | .time => s.records.time
  | .classid => h.classid
  | .role => h.role
  | .gotbase => (s.ctx h.team.asid).got
  | .drscale => h.group.drscale.zeroExtend 64
  | .outcnt => BitVec.ofNat 64 h.group.outcnt
  | .trapbase => s.trapBase h.team.asid
  | .exec => h.strand.exec
  | .coreid => BitVec.ofNat 64 h.team.core
  | .fmt n => h.group.fmts.getD n.toNat (fmtReset n.toNat)
  | .tctl n => match h.team.tiles[n.toNat]? with | some t => t.ctl | none => 0
  | .handler n => h.handlerReg n

/-- SREAD (R212). TIME is read at issue, when pod time has moved on (Table 23-4). -/
def execSread (d : SReg) (r : SpecReg) (s : State) : Host.Outcome State Fault Refusal :=
  s.run fun h =>
    let x := if r = .time then s.readTime else (s.specReg h r, s)
    x.2.putHere ((h.writeS d x.1).retire 1 [])

/-! ## Writing special registers (Table 13-7) -/

/-- A special register written; registers that SWRITE may not name keep their values. -/
def Here.writeSpec (h : Here) (r : SpecReg) (x : DWord) : Here :=
  match r with
  | .mode => if x.extractLsb' 0 3 = 0 ∨ x.extractLsb' 0 3 = 7 then h else { h with group := { h.group with rm := x.extractLsb' 0 3 } }
  | .flags => { h with group := h.group.setFlags h.strand.exec fun _ f => f &&& ~~~(x.extractLsb' 0 5) }
  | .tags => { h with team := { h.team with tagsDone := h.team.tagsDone &&& ~~~x } }
  | .drscale => { h with group := { h.group with drscale := x.setWidth 32 } }
  | .exec => { h with strand := { h.strand with exec := x &&& h.strand.lanes } }
  | .fmt n => if descValid x then { h with group := { h.group with fmts := setAt 0 h.group.fmts n.toNat (x &&& descMask) } } else h
  | .govstat | .time | .classid | .role | .gotbase | .outcnt | .trapbase | .coreid | .tctl _ | .handler _ => h

/-- SWRITE (R212) -/
def execSwrite (r : SpecReg) (d : SReg) (s : State) : Host.Outcome State Fault Refusal :=
  s.run fun h => s.putHere ((h.writeSpec r (h.readS d)).retire 1 [])

/-! ## FENCE (R214, R316, R339, R367) -/

/-- The fence has a release part. -/
def FKind.releases : FKind → Bool
  | .acq => false
  | .rel | .ar | .sc => true

/-- FENCE: the strand waits until its earlier memory instructions are performed. A release at SYSTEM scope also waits for the
window after its remote writes, stalls while TSYNC is 0, and takes LINK_LOST when it covers lost writes. -/
def execFence (k : FKind) (sc : FScope) (s : State) : Host.Outcome State Fault Refusal :=
  s.run fun h =>
    let sys := sc == .system && FKind.releases k
    if h.grp.memPending h.strand.sid || (sys && !s.tsync) then s.putHere (h.wait s.clock (.fence sys))
    else if sys && s.remoteLost h.team.info.uid then s.takeFault h cLinkLost
    else (if sys then s.awaitRemote h.team.info.uid else s).putHere (h.retire 1 [])

/-! ## BAR (R215) -/

/-- BAR: the strand arrives, once, and is held until the barrier completes; a strand whose arrival belongs to a phase that has
completed goes on (R221). -/
def execBar (b : BitVec 4) (n1 : BitVec 5) (s : State) : Host.Outcome State Fault Refusal :=
  s.run fun h =>
    let r := h.team.bars.get ⟨0, n1.toNat + 1, [], []⟩ b.toNat
    let before := match h.strand.arrived with | some (c, p) => if c = b.toNat ∧ p ≠ r.phase then some p else none | none => none
    if before.any fun p => (r.full.find? fun f => f.1 == p).isSome then s.putHere (h.wait s.clock (.barrier b.toNat))
    else if before.isSome then s.putHere { (h.retire 1 []) with strand := { h.strand.retired 1 [] with arrived := none } }
    else
      let h1 := h.wait s.clock (.barrier b.toNat)
      let h2 := { h1 with
        team := { h1.team with bars := h1.team.bars.insert b.toNat { r with need := n1.toNat + 1 } }
        strand := { h1.strand with arrived := some (b.toNat, r.phase) } }
      (s.putHere h2).settle h.team.info.uid

/-! ## Traps and stops (R216 to R218) -/

/-- TRAP: takes the trap, with the next instruction as the PC of the frame. -/
def execTrap (t : BitVec 8) (s : State) : Host.Outcome State Fault Refusal :=
  s.run fun h => s.takeStop h (.trap cTrap t.toNat) (h.strand.pc + 4)

/-- BRK: a debug stop while DBGCTL.BKEN is 1, but for the strand that resumes at it; else a NOP. -/
def execBrk (v : BitVec 16) (s : State) : Host.Outcome State Fault Refusal :=
  s.run fun h =>
    if (s.ctx h.team.asid).dbgCtl.getLsbD 0 ∧ h.strand.skipStop ≠ some h.strand.pc
    then s.takeStop h (.dbg v.toNat) h.strand.pc
    else s.putHere (h.retire 1 [])

/-- RETT: NOT_HANDLER outside handler mode; a frame PC that is no recorded start takes BAD_TARGET; else the strands and the
replay queue come back from the frame. A frame that cannot be read is a fatal error of the context, as one that cannot be
written (R342; log entry 22). -/
def execRett (s : State) : Host.Outcome State Fault Refusal :=
  s.run fun h =>
    match h.group.handler with
    | none => s.takeFault h cNotHandler
    | some k =>
      if k.sid ≠ h.strand.sid then s.takeFault h cNotHandler
      else if s.runBusy h.team.asid (s.frameAddr h.team h.group) 0x5200 then
        s.stopHere h (.hold (.busy (s.frameAddr h.team h.group) 0x5200 h.team.asid false))
      else
        let r := s.machineRead h.team.agent (s.frameAddr h.team h.group) 0x5200
        match r.1 with
        | .error _ => (r.2.putHere h).contextFatal h.team.asid
        | .ok fr =>
          if !r.2.isStart h.team.asid (dwordOf ((fr.drop 8).take 8)) then r.2.takeFault h cBadTarget
          else r.2.putTeam (h.team.putGroup (h.grp.returned k.sid (if k.fault then 0 else 1) k.table k.captured fr))

/-! ## The extended-set lock, and WAITCNT (R219, R220) -/

/-- XLOCK (R80): ignored with X = 0 and when the group holds the lock; a lock held by the partner stalls the strand. -/
def execXlock (s : State) : Host.Outcome State Fault Refusal :=
  s.run fun h =>
    let k := h.team.info.header.setOf h.group.num
    if regX h.team h.group = 0 then s.putHere (h.retire 1 [])
    else match h.team.locks.find k with
      | none => s.putHere { (h.retire 1 []) with team := { h.team with locks := h.team.locks.insert k h.group.num } }
      | some g => s.putHere (if g = h.group.num then h.retire 1 [] else h.wait s.clock .xlock)

/-- A byte of a team's run lies in the extended set of a group (R77). -/
def inExtended (t : Team) (g : Group) (off : Nat) : Bool :=
  let first := t.info.header.extAt (t.info.header.setOf g.num)
  256 * first ≤ off && off < 256 * (first + regX t g)

/-- An outstanding instruction of the group will write an extended register: one that it names, or one that it reaches through the
private window (R77). -/
def Pending.writesExt (p : Pending) (t : Team) (g : Group) : Bool :=
  p.instr.vwrites.any (extended t g) ||
  (Instr.isStore p.instr && p.locs.any fun q => match q.2 with
    | .store u off => u == t.info.uid && inExtended t g off
    | .glob _ => false)

/-- An outstanding operation of the group will write an extended register. -/
def Here.writesExt (h : Here) : Bool := h.group.pending.any fun p => p.writesExt h.team h.group

/-- XFREE (R80): ignored unless the group holds the lock; waits for the writes of extended registers; the lock passes to a
partner stalled in XLOCK. -/
def execXfree (s : State) : Host.Outcome State Fault Refusal :=
  s.run fun h =>
    if regX h.team h.group = 0 ∨ !h.team.xHeld h.group then s.putHere (h.retire 1 [])
    else if h.writesExt then s.putHere (h.wait s.clock .xfree)
    else
      let r := h.retire 1 []
      s.putHere { r with team := r.whole.unlock r.group }

/-- WAITCNT (R220) -/
def execWaitcnt (c : BitVec 6) (s : State) : Host.Outcome State Fault Refusal :=
  s.run fun h => s.putHere (if h.group.outcnt ≤ c.toNat then h.retire 1 [] else h.wait s.clock (.count c.toNat))

end Sys2Proof.Machine
end

