-- ==== Sys2Proof/Machine/Ready.lean ====
section
/-! DEFINITION. When a strand is ready to issue (R83, Table 05-5): what holds strands back, and what releases them. -/

namespace Sys2Proof.Machine

open Sys2Proof

/-- The queue that a strand would pop can be popped, or would fault. -/
def State.mayPop (s : State) (h : Here) (q : Nat) : Bool :=
  match s.queues.find (queueKey h.team.core q) with
  | none => false
  | some k => foreign h.team h.group k || (!k.store && (k.count ≤ k.taken || !k.vecs.isEmpty))

/-- The queue that a strand would push to has room, or the push would fault. -/
def State.mayPush (s : State) (h : Here) (q : Nat) : Bool :=
  match pushRoom h.team h.group s.queues q with
  | .error (.hold _) => false
  | .error _ => true
  | .ok _ => !h.group.pushesTo (1536 + q)

/-- A store stream is written whole, and nothing outstanding pushes to it; or a write of it has failed. -/
def State.drained (s : State) (h : Here) (q : Nat) : Bool :=
  match s.queues.find (queueKey h.team.core q) with
  | none => true
  | some k => k.fault.isSome || (k.vecs.isEmpty && !h.group.pushesTo (1536 + q))

/-- What holds a strand is over (Table 05-5). Barriers, REJOINs and pages release their strands themselves. -/
def State.released (s : State) (h : Here) (k : Hold) : Bool :=
  let t := h.team
  match k with
  | .barrier _ | .rejoin _ | .page _ _ | .line _ _ => false
  | .busy va n asid _ => !s.runBusy asid va n
  | .xlock => match t.locks.find (t.info.header.setOf h.group.num) with
    | none => true
    | some g => g == h.group.num
  | .xfree => !h.writesExt
  | .ringFull n => match t.ring? n with
    | some r => r.fullFor r.ccur
    | none => true
  | .ringFree n => match t.ring? n with
    | some r => r.commits.isEmpty && t.stageFree n r
    | none => true
  | .tags all m => tagsMet all t.tagsDone m
  | .tagBusy n => !t.tagsFly.getLsbD n
  | .queueRead q => s.mayPop h q
  | .queueWrite q => s.mayPush h q
  | .queueDrain q => s.drained h q
  | .join => !s.hasChildren t.info.uid
  | .got va asid => !s.binds.any fun b => b.va == va && b.asid == asid
  | .count n => h.group.outcnt ≤ n
  | .fence sys => !h.grp.memPending h.strand.sid && (!sys || s.tsync)
  | .claims => s.openClaims t < 8
  | .handler => h.group.handler.isNone && h.group.dbg.isNone
  | .drain => h.group.pending.all Pending.capturable && h.group.pending.length ≤ 16
  | .groupMem n => !h.group.memBefore n
  | .trap n => !h.group.beforeTrap n

/-- The lookahead windows of the outstanding instructions let the strand issue one more (R92), and none of those issued again after
a stop is outstanding (R353). -/
def Group.windowOpen (g : Group) (sid : Nat) : Bool :=
  g.outstanding.all fun p => p.windows.find sid != some 0 && !p.replayed

/-- The handler of a fault holds the other strands of its group (R341); a debug stop holds its strand, and the others while STOPALL
is 1 (R355). -/
def State.stopsHold (s : State) (t : Team) (g : Group) (sid : Nat) : Bool :=
  (match g.handler with
    | some k => k.fault && k.sid != sid
    | none => false) ||
  (match g.dbg with
    | some d => d.sid == sid || (s.ctx t.asid).dbgCtl.getLsbD 1
    | none => false)

/-- A miss of the constant cache holds back the whole group (Table 05-5, R201). -/
def Hold.wholeGroup : Hold → Bool
  | .line _ _ => true
  | .busy _ _ _ b => b
  | _ => false

/-- Another strand of the group waits for a line of the constant cache. -/
def State.lineHeld (s : State) (h : Here) : Bool :=
  h.group.strands.any fun x => x.sid != h.strand.sid && (match x.hold with
    | some k => k.wholeGroup && !s.released { h with strand := x } k
    | none => false)

/-- The strand may issue. -/
def State.ready (s : State) (h : Here) : Bool :=
  (match h.strand.hold with
    | none => true
    | some k => s.released h k) &&
  h.group.windowOpen h.strand.sid && !s.stopsHold h.team h.group h.strand.sid && !s.lineHeld h

/-- The strand takes the trap of a wait cycle at its group's next turn (R128): it is still blocked. -/
def Here.inCycle (h : Here) : Bool :=
  h.strand.waitCycle.isSome && h.strand.hold.isSome && h.group.handler.isNone && h.group.dbg.isNone

/-- A team whose groups may issue (R357). -/
def Team.runs (t : Team) : Bool :=
  match t.mode with
  | .running | .drain _ => true
  | .saving | .flushing => false

/-- A list turned so that it begins at a place. -/
def rotated {α : Type} (n : Nat) (xs : List α) : List α := xs.drop n ++ xs.take n

/-- The strand that a group chooses at its turn (R83): round-robin among the ready ones, from the one after the last that issued. -/
def State.choose (s : State) (t : Team) (g : Group) : Option Strand :=
  (rotated g.rr g.strands).find? fun x => s.ready ⟨t, g, x⟩ || Here.inCycle ⟨t, g, x⟩

end Sys2Proof.Machine
end

