-- ==== Sys2Proof/Machine/Jobs.lean ====
section
/-! DEFINITION. Engine jobs on their way (R144 to R147, R268 to R270, R348): acceptance by the footprint table with its edges, start,
completion, and the trap of a failed job; the expander's watchdog (R152). -/

namespace Sys2Proof.Machine

open Sys2Proof

/-! ## Finding jobs -/

/-- A job by its number. -/
def State.job? (s : State) (uid : Nat) : Option Job := s.jobs.find? fun j => j.uid == uid

/-- Changes a job. -/
def State.modJob (s : State) (uid : Nat) (f : Job → Job) : State :=
  { s with jobs := s.jobs.map fun j => if j.uid = uid then f j else j }

/-- The strand that issued a job, as an agent. -/
def State.jobHere (s : State) (j : Job) : Option Here := do
  let t ← s.team? j.team
  let g ← t.group? j.group
  return ⟨t, g, g.strandFor j.sid⟩

/-- A job that drains into vector registers (R269). -/
def Job.toVector (j : Job) : Bool :=
  match j.instr with
  | .tdrain _ _ _ _ _ (.vec _ _ _) _ => true
  | _ => false

/-- Takes the instruction of a job off its group's outstanding ones. -/
def State.dropPendingOf (s : State) (j : Job) : State :=
  (s.modTeam j.team fun t => t.modGroup j.group fun g => { g with pending := g.pending.filter fun p => p.job != some j.uid }).settle j.team

/-! ## Acceptance (R147) -/

/-- Two regions overlap: global ones as virtual addresses of one ASID, others as bytes of the core store. -/
def State.jobsOverlap (s : State) (a b : Here) (x y : Region) : Bool :=
  match s.resolve a.team a.group false x.addr x.len, s.resolve b.team b.group false y.addr y.len with
  | .ok (.glob u), .ok (.glob v) => a.team.asid == b.team.asid && spacesOverlap (.glob u) x.len (.glob v) y.len
  | .ok u, .ok v => spacesOverlap u x.len v y.len
  | _, _ => false

/-- The edges that job `j` takes from job `k`: 2 * number + 1 when `k` must have completed, 2 * number when it must have performed
its reads. -/
def State.edgesFrom (s : State) (j k : Job) : List Nat :=
  match s.jobHere j, s.jobHere k with
  | some a, some b =>
    (List.range 4).flatMap fun n => (List.range 4).flatMap fun m =>
      let x := cardRegion j.words n
      let y := cardRegion k.words m
      if x.intent = 0 ∨ y.intent = 0 ∨ !s.jobsOverlap a b x y then []
      else (if 2 ≤ y.intent then [2 * k.uid + 1] else []) ++ (if y.intent % 2 = 1 ∧ 2 ≤ x.intent then [2 * k.uid] else [])
  | _, _ => []

/-- The team of a job runs (R357). -/
def State.jobRuns (s : State) (j : Job) : Bool := match s.team? j.team with | some t => t.runs | none => false

/-- A job may be accepted: its team runs, it is the first of its core that waits, the table has room, and its tag is not in flight. -/
def State.mayAccept (s : State) (j : Job) (t : Team) : Bool :=
  (match s.jobs.find? (fun k => k.core == j.core && k.phase == .waiting && s.jobRuns k) with | some k => k.uid == j.uid | none => false) &&
  (s.jobs.filter fun k => k.core == j.core && k.phase != .waiting).length < 32 &&
  (match j.tag with | some n => !t.tagsFly.getLsbD n | none => true)

/-- A tag's bit. -/
def tagBit (tag : Option Nat) : DWord := match tag with | some n => BitVec.ofNat 64 (2 ^ n) | none => 0

/-- JOB_ACCEPT: the table accepts the card; its tag is in flight and not done, and the instruction completes, unless it drains into
vector registers (R144, R147, R269). -/
def execJobAccept (job : Nat) (s : State) : Host.Outcome State Fault Refusal :=
  .next (match s.job? job with
    | none => s
    | some j => match s.team? j.team with
      | none => s
      | some t =>
        if !s.mayAccept j t then s
        else
          let edges := (s.jobs.filter fun k => k.core == j.core && k.phase != .waiting).flatMap (s.edgesFrom j)
          let s1 := (s.modJob job fun j => { j with phase := .accepted, edges := edges }).modTeam j.team fun t => { t with
            tagsFly := t.tagsFly ||| tagBit j.tag
            tagsDone := t.tagsDone &&& ~~~tagBit j.tag }
          if j.toVector then s1 else s1.dropPendingOf j)

/-! ## Start (R147, R269) -/

/-- An edge is satisfied. -/
def State.edgeMet (s : State) (e : Nat) : Bool :=
  match s.job? (e / 2) with
  | none => true
  | some k => e % 2 == 0 && k.phase == .started

/-- What a stop of a group captured: operations issued before the stop wait for these, those of the handler do not (R307). -/
def Group.capturedBefore (g : Group) (seq : Nat) : List Pending :=
  match g.handler with
  | some k => if seq < k.limit then k.captured.filter fun p => p.seq < seq else []
  | none => []

/-- Operations of a team without a card that were issued before a number and are not performed. -/
def Team.opsBefore (t : Team) (seq : Nat) : List Pending :=
  t.groups.flatMap fun g => ((g.outstanding.filter fun p => p.job.isNone && p.seq < seq) ++ g.capturedBefore seq)

/-- An earlier operation of the team has not finished with a tile or an accumulator that an operation names (R269). -/
def State.engineBusy (s : State) (t : Team) (seq : Nat) (i : Instr) : Bool :=
  s.jobs.any (fun j => j.team == t.info.uid && j.uid < seq && j.phase != .started && sharesEngine j.instr i) ||
  (t.opsBefore seq).any fun p => sharesEngine p.instr i

/-- The pushes of an outstanding instruction have room, and no older one of its group will push to the same queue (R223). -/
def Here.roomFor (h : Here) (qs : SMap QueueReg) (p : Pending) : Bool :=
  (p.instr.vwrites.filter isQueue).all fun n =>
    (match pushRoom h.team h.group qs (n - 1536) with | .error (.hold _) => false | _ => true) &&
    !h.group.outstanding.any fun o => o.seq < p.seq && o.instr.vwrites.contains n

/-- The outstanding instruction of a job, or one made from what the job captured. -/
def Here.jobPending (h : Here) (j : Job) : Pending :=
  (h.group.pending.find? fun p => p.job == some j.uid).getD { h.pend j.uid j.instr 0 j.exec [] with job := some j.uid }

/-- A matrix job. -/
def Job.isMatrix (j : Job) : Bool := match j.instr with | .tmma _ _ _ _ _ _ => true | _ => false

/-- The units that a matrix job spends in a window of 256 clocks: one for each clock in which it occupies the array (R389; log entry 41). -/
def Job.units (j : Job) : Nat := min 256 (Config.occupancy j.uid + 1)

/-- The governor of a job's die holds it: it would exceed the budget (R389). -/
def State.governed (s : State) (j : Job) : Bool := j.isMatrix && (s.die (coreDie j.core)).budget < j.units

/-- A job could start: its team runs, it is accepted, its edges are satisfied, what it names in the engine is free for it, and the queues
that it pushes to have room. -/
def State.couldStart (s : State) (j : Job) (h : Here) : Bool :=
  h.team.runs && j.phase == .accepted && j.park.isNone && j.edges.all s.edgeMet &&
  !s.engineBusy h.team j.uid j.instr && (!j.toVector || h.roomFor s.queues (h.jobPending j))

/-- A job may start: the governor of its die does not hold it either. -/
def State.mayStart (s : State) (j : Job) (h : Here) : Bool := s.couldStart j h && !s.governed j

/-- A job that has run. -/
def State.started (s : State) (j : Job) (fail : Option Code) : State :=
  (s.modJob j.uid fun j => { j with phase := .started, fail := fail }).dropPendingOf j

/-- JOB_START: the job runs, whole; or it waits for a page; or it ends failed, with what R270 lets it leave (R146, R270). -/
def execJobStart (job : Nat) (s : State) : Host.Outcome State Fault Refusal :=
  .next (match s.job? job with
    | none => s
    | some j => match s.jobHere j with
      | none => s
      | some h =>
        if !s.mayStart j h then s
        else
          let r := s.work h j (h.jobPending j)
          match r.1 with
          | .ok s1 => s1.started j none
          | .error (.fault c _ _) => r.2.started j (some c)
          | .error (.miss pages a) =>
            (r.2.noteMisses h.team.asid a pages).modJob job fun j => { j with park := some (pages.map (·.1), h.team.asid) }
          | .error (.hold _) => r.2)

/-! ## Completion (R144, R270, R339) -/

/-- A completion that is a release at SYSTEM scope waits while TSYNC is 0. -/
def State.mayComplete (s : State) (j : Job) : Bool := j.phase == .started && (j.scope != 4 || s.tsync)

/-- JOB_COMPLETE: the tag's DONE bit is set as a release at the card's scope; a failed job completes too, and its trap waits for its
strand. A SYSTEM release that covers lost writes ends the job failed (R367). -/
def execJobComplete (job : Nat) (s : State) : Host.Outcome State Fault Refusal :=
  .next (match s.job? job with
    | none => s
    | some j =>
      if !s.mayComplete j then s
      else
        let lost := j.scope = 4 ∧ s.remoteLost j.team
        let fail := if lost ∧ j.fail = none then some cLinkLost else j.fail
        let s1 := if j.scope = 4 ∧ !s.remoteLost j.team then s.awaitRemote j.team else s
        { s1 with jobs := s1.jobs.filter fun k => k.uid != job }.modTeam j.team fun (t : Team) => { t with
          tagsFly := t.tagsFly &&& ~~~tagBit j.tag
          tagsDone := t.tagsDone ||| tagBit j.tag
          fails := match fail with
            | some c => t.fails ++ ([⟨j.group, j.sid, c, j.tag.getD 0xFF, j.card⟩] : List JobFailure)
            | none => t.fails })

/-! ## JOB_FAIL (R348) -/

/-- The strand that receives a job's failure: the one that issued it; if it has exited the group's lowest-placed strand; if the
group has ended that of the lowest-numbered running group. -/
def Team.receiver (t : Team) (f : JobFailure) : Option (Group × Strand) :=
  let lowest := fun (g : Group) => g.strands.head?.map fun x => (g, x)
  match t.group? f.group with
  | some g => match g.strand? f.sid with
    | some x => some (g, x)
    | none => match lowest g with
      | some r => some r
      | none => t.groups.findSome? lowest
  | none => t.groups.findSome? lowest

/-- The report of a failed job. -/
def JobFailure.report (f : JobFailure) : Report := ⟨1, cJobFail, f.code * 256 + f.tag, none, 0, f.card, [], false⟩

/-- The oldest failure that a strand is to receive. -/
def Here.failure (h : Here) : Option JobFailure :=
  h.team.fails.find? fun f => match h.team.receiver f with
    | some (g, x) => g.num == h.group.num && x.sid == h.strand.sid
    | none => false

/-- A strand receives the failure of a job: it takes the trap, and resumes at its next instruction; or it is held until it can. -/
def State.takeFailure (s : State) (h : Here) (f : JobFailure) : State :=
  match s.stopHold h 1 with
  | some k => s.putHere (h.wait s.clock k)
  | none => s.takeStop { h with team := { h.team with fails := h.team.fails.erase f } } f.report h.strand.pc

/-- The strand that a failure of a team goes to, when it is that strand's oldest one, the strand is ready and nothing holds the trap. -/
def State.receives (s : State) (t : Team) (f : JobFailure) : Option Here :=
  match t.receiver f with
  | none => none
  | some (g, x) =>
    let h : Here := ⟨t, g, x⟩
    if h.failure = some f ∧ s.ready h ∧ (s.stopHold h 1).isNone then some h else none

/-- JOB_FAIL: the oldest failure of the team that its strand can receive now is delivered. A failure that no group can receive fails
the grid with the job's code. -/
def execJobFail (team : Nat) (s : State) : Host.Outcome State Fault Refusal :=
  .next (match s.team? team with
    | none => s
    | some t => match t.fails.find? fun f => (t.receiver f).isNone with
      | some f => (s.modTeam team fun (x : Team) => { x with fails := x.fails.erase f }).failGrid t.info.grid f.code
      | none => match t.fails.findSome? fun f => (s.receives t f).map fun h => (h, f) with
        | some (h, f) => s.takeFailure h f
        | none => s)

end Sys2Proof.Machine
end

