-- ==== Sys2Proof/Machine/LongLatency.lean ====
section
/-! DEFINITION. LONG_LATENCY_COMPLETE: when an outstanding instruction may complete (R92, R94, R223, R269, R314, R339), and its
completion. -/

namespace Sys2Proof.Machine

open Sys2Proof

/-! ## Order -/

/-- A range instruction (R203). -/
def Instr.isRange : Instr → Bool
  | .cwb _ _ _ _ | .cinv _ _ _ _ | .cwbinv _ _ _ _ => true
  | _ => false

/-- The places of two accesses overlap. -/
def Pending.overlaps (p o : Pending) : Bool :=
  match Instr.memUse p.instr, Instr.memUse o.instr with
  | some u, some v => p.locs.any fun x => o.locs.any fun y => x.2.overlaps u.bytes y.2 v.bytes
  | _, _ => false

/-- A memory instruction follows an older one of its strand: an acquire before it, a release, a range of MANUAL lines, bytes that
both reach (R94, R313, R314, R337, R339), or an access that a return from a stop issues again (R353). -/
def Pending.follows (p o : Pending) : Bool :=
  Instr.isMem p.instr && Instr.isMem o.instr && o.seq < p.seq &&
  (p.release || o.acquire || Instr.isRange p.instr || Instr.isRange o.instr || p.replayed || o.replayed ||
    p.overlaps o)

/-- Two outstanding instructions have a strand in common. -/
def Pending.sharesStrand (p o : Pending) : Bool :=
  p.sid == o.sid || (p.windows.find o.sid).isSome || (o.windows.find p.sid).isSome

/-- The COHERENT lines that an instruction reaches are at rest at their homes (R331). -/
def State.linesStable (s : State) (p : Pending) : Bool :=
  p.locs.all fun q => match q.2 with
    | .glob x => x.mt != 0 || !s.lineBusy (lineOf x.key)
    | .store _ _ => true

/-- The order of memory allows an outstanding instruction to be performed. -/
def State.memReady (s : State) (h : Here) (p : Pending) : Bool :=
  !(h.group.outstanding.any fun o => p.sharesStrand o && p.follows o) && s.linesStable p

/-- The order of the matrix engine allows an outstanding instruction to be performed: nothing that shares a tile or an accumulator
goes before it; a TLDR's stage is full; a TWAIT awaits every matrix operation issued before it (R269, R288, R297). -/
def State.matrixReady (s : State) (h : Here) (p : Pending) : Bool :=
  match p.instr with
  | .twait _ =>
    !s.jobs.any (fun j => j.team == h.team.info.uid && j.uid < p.seq && Instr.isMatrix j.instr) &&
    !(h.team.opsBefore p.seq).any fun o => Instr.isMatrix o.instr
  | .tldr _ _ _ n =>
    !s.engineBusy h.team p.seq p.instr &&
    (match h.team.ring? n.toNat with
      | some r => r.fullFor p.stage.1
      | none => true)
  | i => !s.engineBusy h.team p.seq i

/-- Schedule registers are read and written in order of issue (R302). -/
def Pending.scheduleBefore (p o : Pending) : Bool :=
  match p.instr, o.instr with
  | .schrd _ _ _, .schwr _ _ _ | .schwr _ _ _, .schwr _ _ _ | .schwr _ _ _, .schrd _ _ _ => o.seq < p.seq
  | _, _ => false

/-- An outstanding instruction may complete now. Card operations complete through their jobs; a refused page lets a parked access
go on. -/
def State.mayFinish (s : State) (h : Here) (p : Pending) : Bool :=
  p.park.isNone && p.job.isNone && h.roomFor s.queues p && s.memReady h p && s.matrixReady h p &&
  !h.group.outstanding.any p.scheduleBefore

/-! ## What completion does -/

/-- The lanes of a special function at completion. -/
def State.finishSpecial (s : State) (team group : Nat) (p : Pending) (fn : SpecialFn) (rnd : Rnd) (sat : Bool) (ty : Fmt) (vd : VReg) : State :=
  s.deliverLanes team group p ty vd (p.lanes (specialLane fn ty (rnd.resolve p.rm) sat (p.vals ty 0)))

/-- PERFORMS AN OUTSTANDING ACCESS, when its lines are at rest: a SYSTEM release first completes what it covers, waits for TSYNC, and takes
LINK_LOST when a write that it covers is lost (R339, R367); a store goes through to home where a die may hold a view (R329); the binder's
store ends its binding (R129). -/
def State.performMem (s : State) (h : Here) (p : Pending) (u : MemUse) : TaskDone :=
  let r := s.placesOf h p u
  match r.1 with
  | .error x => .stop x r.2
  | .ok ls =>
    if !r.2.atRest (locPlaces ls) || (locPlaces ls).any (fun x => x.mt == 0 && r.2.slotBars h.team.core (lineOf x.key)) then .wait
    else
      let sys := u.release && u.scope == .system && r.2.releases h p ls
      if sys && !r.2.tsync then .wait
      else if sys && r.2.remoteLost h.team.info.uid then .stop (.fault cLinkLost none 0) r.2
      else
        let s1 := if sys then r.2.awaitRemote h.team.info.uid else r.2
        match s1.throughLines p u ls with
        | t :: ts => .more (s1.sendThrough h p u ls (t :: ts))
        | [] =>
          let s2 := s1.accessPlaces h p (p.keeps ls)
          let done := s1.storedLanes h p ls
          .done (if u.access = .write then
            s2.bindStored h.team.info.uid h.group.num p.sid h.team.asid
              ((p.addrs.filter fun q => done.contains q.1).map fun q => q.2.toNat)
          else s2)

/-- PERFORMS A RANGE INSTRUCTION once the host has translated its MANUAL HOST pages (R203). -/
def State.rangeDone (s : State) (h : Here) (p : Pending) (k : CacheOp) (sc : Scope) : TaskDone :=
  match s.rangeMisses h.team.asid p.sa.toNat (p.sa.toNat + p.sb.toNat) p.refused with
  | [] => .done (s.performRange h p k sc)
  | m :: ms => .stop (.miss ((m :: ms).map fun n => (n, true)) .read) s

/-- PERFORMS AN OUTSTANDING INSTRUCTION. -/
def State.perform (s : State) (h : Here) (p : Pending) : TaskDone :=
  let u := h.team.info.uid
  let g := h.group.num
  match p.instr with
  | .vfdiv _ _ sat rnd ty vd _ _ =>
    .done (s.deliverLanes u g p ty vd (p.lanes (divLane ty (rnd.resolve p.rm) sat ⟨p.vals .b32 0, p.vals .b32 1, []⟩)))
  | .vexp2 _ _ sat rnd ty vd _ => .done (s.finishSpecial u g p .exp2 rnd sat ty vd)
  | .vlog2 _ _ sat rnd ty vd _ => .done (s.finishSpecial u g p .log2 rnd sat ty vd)
  | .vrcp _ _ sat rnd ty vd _ => .done (s.finishSpecial u g p .rcp rnd sat ty vd)
  | .vrsq _ _ sat rnd ty vd _ => .done (s.finishSpecial u g p .rsq rnd sat ty vd)
  | .vsqrt _ _ sat rnd ty vd _ => .done (s.finishSpecial u g p .sqrt rnd sat ty vd)
  | .vmatch _ _ ty vd _ _ =>
    let x := p.vals ty 0
    let y := p.vals ty (Fmt.pairLen ty)
    .done (s.deliver u g p [(vd.toNat, laneNumbers.map fun l => matchLane ty p.mask x y l)] noFlags none)
  | .vreduce _ _ rnd ty op vd _ => .done (s.finishReduce u g p rnd ty op vd)
  | .vscan _ _ rnd ty op vd _ => .done (s.finishScan u g p rnd ty op vd)
  | .tsort _ _ ty desc k vd _ => .done (s.finishSort u g p ty desc k vd)
  | .cwb _ sc _ _ => s.rangeDone h p .wb sc
  | .cinv _ sc _ _ => s.rangeDone h p .inval sc
  | .cwbinv _ sc _ _ => s.rangeDone h p .both sc
  | i =>
    match Instr.memUse i with
    | some use => s.performMem h p use
    | none => if Instr.isMatrix i || (match i with | .twait _ => true | _ => false) then .done (s.performMatrix h p) else s.performTask h p

/-- The outstanding instruction `id` of a group leaves it. -/
def State.dropPending (s : State) (team group id : Nat) : State :=
  (s.modTeam team fun t => t.modGroup group fun g => { g with pending := g.pending.filter fun p => p.id != id }).settle team

/-- Changes the outstanding instruction `id` of a group. -/
def State.modPending (s : State) (team group id : Nat) (f : Pending → Pending) : State :=
  s.modTeam team fun t => t.modGroup group fun g => g.mapPending fun p => if p.id = id then f p else p

/-- The strand that takes the fault which an instruction meets at its completion: its own, or the group's first. -/
def Group.faultStrand (g : Group) (sid : Nat) : Option Strand :=
  match g.strand? sid with
  | some x => some x
  | none => g.strands.head?

/-- A fault that an outstanding instruction meets at its completion: it ends without effect, and its strand takes the fault with the
instruction's address as the PC. While the strand cannot take it the instruction stays outstanding. -/
def State.lateFault (s : State) (team group : Nat) (p : Pending) (c : Code) (lane : Option Nat) (a : DWord) : State :=
  match s.owner team group p with
  | none => s
  | some h => match h.group.faultStrand p.sid with
    | none => (s.dropPending team group p.id).failGrid h.team.info.grid c
    | some x =>
      let g : Group := { h.group with pending := h.group.pending.filter fun q => q.id != p.id }
      let h1 : Here := ⟨h.team, g, x⟩
      match s.stopHold h1 0 with
      | some _ => s
      | none => (s.takeStop h1 (.fault c lane (if c = cLinkLost then 0 else a)) p.pc).settle team

/-- LONG_LATENCY_COMPLETE: the outstanding instruction at place `idx` of a group completes (R92): its destinations are written and
nothing waits for it any more. -/
def execLongLatencyComplete (team group idx : Nat) (s : State) : Host.Outcome State Fault Refusal :=
  .next (match (s.team? team).bind fun t => t.group? group with
    | none => s
    | some g => match g.pending[idx]? with
      | none => s
      | some p => match s.owner team group p with
        | none => s
        | some h =>
          if !s.mayFinish h p then s
          else match s.perform h p with
            | .done s1 => s1.dropPending team group p.id
            | .more s1 => s1
            | .wait => s
            | .stop (.hold _) s1 => s1
            | .stop (.miss pages a) s1 =>
              (if Instr.isRange p.instr then s1.noteRange h.team.asid pages else s1.noteMisses h.team.asid a pages).modPending team group p.id
                fun q => { q with park := some (pages.map (·.1), h.team.asid) }
            | .stop (.fault c lane a) s1 =>
              if h.team.mode = TeamMode.flushing then s1.dropPending team group p.id else s1.lateFault team group p c lane a)

/-- An outstanding instruction would complete, park or fault now. -/
def State.finishes (s : State) (team group : Nat) (p : Pending) : Bool :=
  match s.owner team group p with
  | none => false
  | some h => s.mayFinish h p && (match s.perform h p with
    | .done _ | .more _ | .stop (.miss _ _) _ => true
    | .wait | .stop (.hold _) _ => false
    | .stop (.fault _ _ _) s1 => h.team.mode == TeamMode.flushing || (match s1.owner team group p with
      | none => false
      | some h1 => match h1.group.faultStrand p.sid with
        | none => true
        | some x => (s1.stopHold ⟨h1.team, { h1.group with pending := h1.group.pending.filter fun q => q.id != p.id }, x⟩ 0).isNone))

/-! ## The expander's watchdog (R152) -/

/-- The bytes of the packed tile that a job reads, when its header passes. -/
def State.packedOf (s : State) (h : Here) (j : Job) (p : Shape) : Option (List Byte) :=
  let a := cardAddr j.words 0
  match s.jobAccess h j.words j.refused [(a, 16)] [] false with
  | (.error _, _) => none
  | (.ok (ps, _), s1) =>
    let hd := s1.readRuns h.team.agent none ps
    match packedHeader p (hd.1.headD []) with
    | none => none
    | some (size, _) => match hd.2.jobAccess h j.words j.refused [(a, size)] [] false with
      | (.error _, _) => none
      | (.ok (ps, _), s2) => (s2.readRuns h.team.agent none ps).1.head?

/-- The rows that an expansion cut off by its watchdog has emitted in full (log entry 42). -/
def State.cutRows (s : State) (p : Shape) : Nat := (Config.freeValue 16 s.freeN).toNat % p.rows

/-- The cycle bound of a packed TLD runs out. -/
def State.cutTld (s : State) (h : Here) (j : Job) (t : BitVec 3) : State :=
  match j.shape t with
  | none => s
  | some p => match (s.packedOf h j p).bind (expandPacked p) with
    | none => s
    | some (bs, xs) =>
      let s1 := s.modTeam j.team fun u => u.putTile t.toNat ((u.tile t.toNat).cutOff p (s.cutRows p) bs xs)
      { s1 with freeN := s1.freeN + 1 }.started j (some cLength)

/-- The outstanding instruction that bears a number, with its group and team. -/
def State.bySeq (s : State) (n : Nat) : Option (Here × Pending) :=
  s.teams.findSome? fun t => t.groups.findSome? fun g => (g.pending.find? fun p => p.seq == n).map fun p => (⟨t, g, g.strandFor p.sid⟩, p)

/-- The cycle bound of a TLDR of a packed tile runs out (R152, R297): it ends failed. -/
def State.cutTldr (s : State) (h : Here) (p : Pending) (n : BitVec 3) : State :=
  match p.shape n with
  | none => s
  | some sh =>
    let off := h.team.scratchOff p.stage.2.1
    match (if h.team.rowsBad off p.stage.2.2 then none else packedHeader sh (h.team.bytes off 16)) with
    | none => s
    | some (size, _) => match (if p.stage.2.2 < size then none else expandPacked sh (h.team.bytes off size)) with
      | none => s
      | some (bs, xs) =>
        let u := (h.team.failOp h.group.num p cLength).putTile n.toNat ((h.team.tile n.toNat).cutOff sh (s.cutRows sh) bs xs)
        ({ s with freeN := s.freeN + 1 }.putTeam u).dropPending u.info.uid h.group.num p.id

/-- EXPANDER_WATCHDOG: the cycle bound of a packed TLD, or of a TLDR of a packed tile, runs out while it expands; how many rows it has
emitted in full is a free value (log entry 4). It ends failed with LENGTH. `job` is its number. -/
def execExpanderWatchdog (job : Nat) (s : State) : Host.Outcome State Fault Refusal :=
  .next (match s.job? job with
    | some j => match s.jobHere j, j.instr with
      | some h, .tld _ _ _ (.tile t) _ => if !(card1 j.words).getLsbD 33 || !s.mayStart j h then s else s.cutTld h j t
      | _, _ => s
    | none => match s.bySeq job with
      | some (h, p) => match p.instr with
        | .tldr _ true n _ => if s.mayFinish h p then s.cutTldr h p n else s
        | _ => s
      | none => s)

end Sys2Proof.Machine
end

