-- ==== Sys2Proof/Machine/Stagers.lean ====
section
/-! DEFINITION. Stage rings at work: pending commits (R295), and stagers under their subscriptions (R20, R298 to R300, R348). -/

namespace Sys2Proof.Machine

open Sys2Proof

/-! ## Accesses of the atrium and its stagers -/

/-- The code that an agent outside the dies would meet at a place: LINK_LOST, or POISON of what it reads. -/
def State.atriumBad (s : State) (x : Xlat) : Option Code :=
  if s.lost x then some cLinkLost
  else if x.bar0.isSome then none
  else if x.mt = 1 then (if (s.llcLine (lineOf x.key)).2 then some cPoison else none)
  else match (if x.mt = 0 then none else s.llcAt x) with
    | some c => if c.poison then some cPoison else none
    | none => if s.poisoned (lineOf x.key) then some cPoison else none

/-- Reads bytes of one line for an agent outside the dies, on behalf of a core's die: MANUAL lines at the LLC. -/
def State.atriumRead (s : State) (a : Agent) (v : Option View) (x : Xlat) (n : Nat) : List Byte × State :=
  let s := if x.bar0.isNone then s.countHosts a [x] [] else s
  if x.mt = 1 ∧ x.bar0.isNone ∧ !s.lost x then (((s.llcLine (lineOf x.key)).1.drop (x.key % 128)).take n, s)
  else
    let r := s.loadX a v x n
    (match r.1 with | .ok bs => bs | .error _ => List.replicate n 0, r.2)

/-- Stores of an agent outside the dies: MANUAL lines at the LLC, others at their homes. -/
def State.atriumStore (s : State) (a : Agent) (ws : List Store) : State :=
  let ws := ws.filter fun w => match w.1 with | .glob x => !s.lost x | .store _ _ => false
  let s1 := (((barRuns ws).foldl (fun s r => s.barWrite r.1 r.2) s).countHosts a (storePlaces ws) []).noteStores a ws
  let man := globCells (fun x => x.bar0.isNone && x.mt == 1) ws
  let s2 := (linesOf man).foldl (fun s l => s.mergeLlc l (man.filter fun c => lineOf c.1 == l)) s1
  s2.homeStores .home ws

/-! ## COMMIT_PUSH (R295) -/

/-- The tags that a commit awaits have completed, and the accesses that its strand issued before it are performed: its push releases them. -/
def State.commitMet (s : State) (t : Team) (c : Commit) : Bool :=
  !(t.groups.any fun g => g.num == c.group && g.outstanding.any fun p =>
    p.seq < c.seq && Instr.isMem p.instr && (p.sid == c.sid || (p.windows.find c.sid).isSome)) &&
  !(s.jobs.any fun j => c.jobs.contains j.uid) &&
  !t.rings.any fun p => match p.2.sub with
    | some b => b.ending.isSome && c.jobs.contains b.seq
    | none => false

/-- The oldest commit of a ring may push. -/
def State.mayPushRing (s : State) (t : Team) (n : Nat) (r : Ring) : Bool :=
  match r.commits with
  | [] => false
  | c :: _ => s.commitMet t c && t.stageFree n r

/-- COMMIT_PUSH: the oldest pending commit of a ring pushes its stage. -/
def execCommitPush (team ring : Nat) (s : State) : Host.Outcome State Fault Refusal :=
  .next (match s.team? team with
    | none => s
    | some t => match t.ring? ring with
      | none => s
      | some r => if s.mayPushRing t ring r then s.putTeam (t.putRing ring { r.push with commits := r.commits.drop 1 }) else s)

/-! ## Tiles of a tensor (R298) -/

/-- One tile of a subscription's tensor: its first row and column, and how many of each lie inside the tensor. -/
structure TilePart where
  row : Nat
  col : Nat
  rows : Nat
  cols : Nat
  deriving DecidableEq, Repr

/-- Tile `k` of a subscription. -/
def Subscription.part (b : Subscription) (sh : Shape) (k : Nat) : TilePart :=
  let g := tensorGrid b.words
  let t := b.first + k
  let at_ := if b.w 3 31 1 = 1 then (t % g.1, t / g.1) else (t / g.2, t % g.2)
  let r := at_.1 * sh.rows
  let c := at_.2 * sh.cols
  ⟨r, c, min sh.rows (b.w 1 32 32 - r), min sh.cols (b.w 1 0 32 - c)⟩

/-- The format of the tensor in memory. -/
def Subscription.memFmt (b : Subscription) : Fmt := (Fmt.ofCode ((b.words.getD 3 0).extractLsb' 0 6)).getD .f32

/-- The scale of every conversion. -/
def Subscription.scale (b : Subscription) : Option Num := scaleOf ((b.words.getD 3 0).extractLsb' 32 32)

/-- The runs of the rows of a tile part in memory: address and length. -/
def Subscription.rowRuns (b : Subscription) (p : TilePart) : List (Nat × Nat) :=
  let t := b.memFmt.num b.fmts
  (List.range p.rows).map fun i => (b.w 0 0 57 + (p.row + i) * b.w 2 0 48 + p.col * t.bits / 8, rowBytes t p.cols)

/-- The runs of the scale bytes of a tile part. -/
def Subscription.scaleRuns (b : Subscription) (p : TilePart) : List (Nat × Nat) :=
  let t := b.memFmt.num b.fmts
  if t.isMx then
    (List.range p.rows).map fun i => (b.w 4 0 57 + (p.row + i) * ((b.w 1 0 32 + 31) / 32) + p.col / 32, (p.cols + 31) / 32)
  else []

/-- What runs of a stager meet: their pieces, the codes found, and the pages to wait for. -/
def State.stagerFinds (s : State) (asid : Nat) (a : Access) (refused : List Nat) : List (Nat × Nat) → Found × State
  | [] => (⟨[], [], []⟩, s)
  | (va, n) :: rest =>
    if 2 ^ 57 < va + n then
      let q := s.stagerFinds asid a refused rest
      (⟨[] :: q.1.pieces, cAddrSpace :: q.1.codes, q.1.miss⟩, q.2)
    else
      let r := s.linePieces asid a refused (lineRuns va n)
      let q := r.2.stagerFinds asid a refused rest
      (⟨r.1.1 :: q.1.pieces, r.1.2.1 ++ q.1.codes, r.1.2.2 ++ q.1.miss⟩, q.2)

/-- The pieces of a stager's runs, or the code with which its transfer fails, or the pages that it waits for; or it waits for the homes
that are at work on its lines (R331). -/
def State.stagerPieces (s : State) (asid : Nat) (a : Access) (refused : List Nat) (rs : List (Nat × Nat)) : Except Stop (List Pieces) × State :=
  let r := s.stagerFinds asid a refused rs
  match lowestOf r.1.codes, r.1.miss with
  | some c, _ => (.error (.fault c none 0), r.2)
  | none, m :: ms => (.error (.miss (m :: ms) a), r.2)
  | none, [] => if !r.2.atRest (piecePlaces r.1.pieces) then (.error (.hold (.busy 0 0 asid false)), s) else (.ok r.1.pieces, r.2)

/-- The code that the data of a stager's pieces decide. -/
def State.stagerCode (s : State) (reads : Bool) (ps : List Pieces) : Option Code :=
  lowestOf (ps.flatMap fun p => p.filterMap fun x => match x.1 with
    | .glob y => match s.atriumBad y with
      | some c => if reads || c == cLinkLost then some c else none
      | none => none
    | .store _ _ => none)

/-- Reads the pieces of a run. -/
def State.stagerRead (s : State) (a : Agent) (v : Option View) : Pieces → List Byte × State
  | [] => ([], s)
  | (.glob x, n) :: rest =>
    let r := s.atriumRead a v x n
    let q := r.2.stagerRead a v rest
    (r.1 ++ q.1, q.2)
  | (.store _ _, n) :: rest =>
    let q := s.stagerRead a v rest
    (List.replicate n 0 ++ q.1, q.2)

/-- Reads runs. -/
def State.stagerReads (s : State) (a : Agent) (v : Option View) : List Pieces → List (List Byte) × State
  | [] => ([], s)
  | p :: rest =>
    let r := s.stagerRead a v p
    let q := r.2.stagerReads a v rest
    (r.1 :: q.1, q.2)

/-- Codes with zeros up to a length. -/
def padCodes (n : Nat) (cs : List Nat) : List Nat := (cs ++ List.replicate n 0).take n

/-- The view under which a push reads COHERENT lines (R322): the same conditions as those of a TLD. -/
def Subscription.view (b : Subscription) (sh : Shape) : Option View :=
  let m := b.memFmt
  if m ≠ sh.fmt ∧ b.scale = none ∧ b.mode = .rne ∧ !b.sat then
    some ⟨Fmt.toCode m, Fmt.viewDesc m b.fmts, Fmt.toCode sh.fmt, Fmt.viewDesc sh.fmt b.fmts⟩
  else none

/-- The image of a tile from what its rows and scales hold in memory (R298), with the flags. -/
def Subscription.image (b : Subscription) (sh : Shape) (p : TilePart) (rows scales : List (List Byte)) : List Byte × Flags :=
  let m := b.memFmt
  let src := m.num b.fmts
  let each := (List.range sh.rows).map fun i =>
    if i < p.rows then
      moveRun m sh.fmt b.fmts (codesOf src.bits p.cols (rows.getD i [])) (scaleCodes (scales.getD i [])) b.scale b.mode b.sat
    else ([], [], 0)
  (each.flatMap (fun v => bytesOfCodes sh.num.bits (padCodes sh.cols v.1)) ++
    (if sh.num.isMx then each.flatMap fun v => (padCodes (sh.cols / 32) v.2.1).map (BitVec.ofNat 8) else []),
    each.foldl (fun f v => f ||| v.2.2) 0)

/-! ## Transfers -/

/-- Accesses of the team that were issued before the RSUB are performed (R299). -/
def Team.subReady (t : Team) (b : Subscription) : Bool := b.park.isNone && !t.memBefore b.seq

/-- A stager's transfer waits for pages. -/
def State.parkSub (s : State) (t : Team) (ring : Nat) (r : Ring) (b : Subscription) (pages : List (Nat × Bool)) (a : Access) : State :=
  (s.noteMisses t.asid a pages).modTeam t.info.uid fun t' =>
    t'.putRing ring { r with sub := some { b with park := some (pages.map (·.1), t.asid) } }

/-- A stager's transfer that fails (R348). -/
def Team.failSub (t : Team) (b : Subscription) (c : Code) : Team :=
  { t with fails := t.fails ++ ([⟨b.group, b.sid, c, 0xFF, b.desc⟩] : List JobFailure) }

/-- A push may be made now: of the next tile; or of one of the first S empty slots, or of one written back while the team was stopped
(R358); none once the subscription ends. -/
def Team.mayStage (t : Team) (ring : Nat) (r : Ring) (b : Subscription) : Bool :=
  t.runs && b.ending.isNone && t.subReady b && t.stageFree ring r &&
  (if b.out then b.pushed < r.stages || (b.pushed < b.count && b.pushed < r.stages + b.written) else b.pushed < b.count)

/-- The tile of a push read and converted: its image, with its flags. -/
def State.stageTile (s : State) (t : Team) (b : Subscription) (sh : Shape) : Except Stop (List Byte × Flags) × State :=
  let p := b.part sh b.pushed
  let rs := b.rowRuns p
  let r := s.stagerPieces t.asid .read b.refused (rs ++ b.scaleRuns p)
  match r.1 with
  | .error x => (.error x, r.2)
  | .ok ps => match r.2.stagerCode true ps with
    | some c => (.error (.fault c none 0), r.2)
    | none =>
      let d := r.2.stagerReads t.agent (b.view sh) (ps.take rs.length)
      let e := d.2.stagerReads t.agent none (ps.drop rs.length)
      (.ok (b.image sh p d.1 e.1), e.2)

/-- The pieces of a run that a stager may access. -/
def State.stagerSound (s : State) (asid : Nat) (a : Access) (refused : List Nat) (r : Nat × Nat) : Option Pieces :=
  match (s.stagerPieces asid a refused [r]).1 with
  | .ok ps => if (s.stagerCode (a == .read) ps).isNone then some ps.flatten else none
  | .error _ => none

/-- Reads a run line by line for a transfer that fails: its bytes, and which of them could be read. -/
def State.stagerPartRead (s : State) (t : Team) (b : Subscription) (a : Access) (v : Option View) (r : Nat × Nat) :
    (List Byte × List Bool) × State :=
  (lineRuns r.1 r.2).foldl (fun (q : (List Byte × List Bool) × State) x =>
    match q.2.stagerSound t.asid a b.refused x with
    | none => ((q.1.1 ++ List.replicate x.2 0, q.1.2 ++ List.replicate x.2 false), q.2)
    | some ps =>
      let d := q.2.stagerRead t.agent v ps
      ((q.1.1 ++ d.1, q.1.2 ++ List.replicate x.2 true), d.2)) (([], []), s)

/-- Reads several runs so. -/
def State.stagerPartReads (s : State) (t : Team) (b : Subscription) (a : Access) (v : Option View) :
    List (Nat × Nat) → List (List Byte × List Bool) × State
  | [] => ([], s)
  | r :: rest =>
    let d := s.stagerPartRead t b a v r
    let q := d.2.stagerPartReads t b a v rest
    (d.1 :: q.1, q.2)

/-- The image that a push which fails may have written to its stage, and which of its bytes (R270, R348). -/
def State.stagePart (s : State) (t : Team) (b : Subscription) (sh : Shape) : (List Byte × List Bool) × State :=
  let p := b.part sh b.pushed
  let src := b.memFmt.num b.fmts
  let d := s.stagerPartReads t b .read (b.view sh) (b.rowRuns p)
  let e := d.2.stagerPartReads t b .read none (b.scaleRuns p)
  let es := (List.range sh.rows).map fun i =>
    if i < p.rows then
      elemsSound src sh.num p.cols (d.1.getD i ([], [])).2 (e.1.getD i ([], [])).2 ++ List.replicate (sh.cols - p.cols) true
    else List.replicate sh.cols true
  (((b.image sh p (d.1.map (·.1)) (e.1.map (·.1))).1, es.flatMap (bytesSound sh.num.bits) ++ es.flatMap (scalesSound sh.num)), e.2)

/-- A ring whose stager has pushed. -/
def Ring.staged (r : Ring) (b : Subscription) : Ring :=
  { r.push with sub := some { b with pushed := b.pushed + 1, refused := [] } }

/-- STAGER_PUSH: the stager renders its next tile and pushes it, or pushes an empty slot (R299). A transfer that fails leaves in the
stage what a failed job would (R270, R348), and its push lands (log entry 24). -/
def execStagerPush (team ring : Nat) (s : State) : Host.Outcome State Fault Refusal :=
  .next (match s.team? team with
    | none => s
    | some t => match t.ring? ring with
      | none => s
      | some r => match r.sub with
        | none => s
        | some b =>
          if !t.mayStage ring r b then s
          else if b.out then s.putTeam (t.putRing ring (r.staged b))
          else match tensorShape b.fmts b.words r.fmt with
            | none => s
            | some sh =>
              let q := s.stageTile t b sh
              match q.1 with
              | .error (.miss pages a) => q.2.parkSub t ring r b pages a
              | .error (.fault c _ _) =>
                let k := q.2.stagePart t b sh
                let off := t.scratchOff (r.stageAt (r.pcur % r.stages))
                ({ k.2 with freeN := k.2.freeN + k.1.1.length } : State).modTeam team fun t =>
                  ((t.putBytes (cellsAt off (mixBytes k.2.freeN sh.num.unit k.1.2 (t.bytes off k.1.1.length) k.1.1))).putRing ring (r.staged b)).failSub b c
              | .error (.hold _) => s
              | .ok (bs, f) => q.2.modTeam team fun t =>
                (((t.putBytes (cellsAt (t.scratchOff (r.stageAt (r.pcur % r.stages))) bs)).putRing ring (r.staged b)).record (transferFlags f)))

/-- The stage of the next slot to be written back: that of the RREL after those whose slots are written. -/
def Ring.slotBack (r : Ring) (b : Subscription) : Nat := (r.ccur + 2 * r.stages * b.rrels + b.written - b.rrels) % r.stages

/-- Slots that a subscription will write back of those released: after an RUNSUB those released before it. -/
def Subscription.due (b : Subscription) : Nat := min b.count (if b.ending.isSome then b.limit else b.rrels)

/-- The slot is pushed again while tiles remain. -/
def Ring.again (r : Ring) (b : Subscription) : Bool := b.ending.isNone && r.stages ≤ b.pushed && b.pushed < b.count

/-- A released slot may be written back now. -/
def Team.mayWriteBack (t : Team) (ring : Nat) (r : Ring) (b : Subscription) : Bool :=
  b.out && b.written < b.due && t.subReady b && (!(t.runs && r.again b) || t.stageFree ring r)

/-- The bytes of a row with the bits beyond its last element as memory has them. -/
def mergeTail (bits n : Nat) (new old : List Byte) : List Byte :=
  let k := n * bits
  if k % 8 = 0 then new
  else
    let m : Byte := BitVec.ofNat 8 (2 ^ (k % 8) - 1)
    setAt 0 new (k / 8) ((new.getD (k / 8) 0 &&& m) ||| (old.getD (k / 8) 0 &&& ~~~m))

/-- A slot written back as its tile: the stores and the flags are made, or a page or a code is met. -/
def State.unstageTile (s : State) (t : Team) (r : Ring) (b : Subscription) (sh : Shape) : Except Stop Flags × State :=
  let p := b.part sh b.written
  let m := b.memFmt
  let dst := m.num b.fmts
  let off := t.scratchOff (r.stageAt (r.slotBack b))
  let rs := b.rowRuns p
  let q := s.stagerPieces t.asid .write b.refused (rs ++ b.scaleRuns p)
  match q.1 with
  | .error x => (.error x, q.2)
  | .ok ps =>
    let codes := (if t.rowsBad off sh.image then [cPoison] else []) ++ (match q.2.stagerCode false ps with | some c => [c] | none => [])
    match lowestOf codes with
    | some c => (.error (.fault c none 0), q.2)
    | none =>
      let bs := t.bytes off sh.image
      let each := (List.range p.rows).map fun i =>
        let cs := codesOf sh.num.bits p.cols ((bs.drop (i * sh.rb)).take sh.rb)
        let xs := if sh.num.isMx then scaleCodes ((bs.drop (sh.rows * sh.rb + i * (sh.cols / 32))).take (sh.cols / 32)) else []
        moveRun sh.fmt m b.fmts cs xs b.scale b.mode b.sat
      let old := if p.cols * dst.bits % 8 = 0 then ([], q.2) else q.2.stagerReads t.agent none (ps.take rs.length)
      let rows := (List.range p.rows).map fun i =>
        mergeTail dst.bits p.cols (bytesOfCodes dst.bits (each.getD i ([], [], 0)).1) (old.1.getD i [])
      let scales := if dst.isMx then each.map fun v => v.2.1.map (BitVec.ofNat 8) else []
      (.ok (each.foldl (fun f v => f ||| v.2.2) 0), old.2.atriumStore t.agent (runStores ps (rows ++ scales)))

/-- Writes a run of elements of `w` bytes as a stager's transfer that fails may have. -/
def State.stagerPartWrite (s : State) (t : Team) (b : Subscription) (w : Nat) (r : Nat × Nat) (bs : List Byte) : State :=
  let reach := (lineRuns r.1 r.2).flatMap fun x => List.replicate x.2 (s.stagerSound t.asid .write b.refused x).isSome
  let ks := writtenBytes s.freeN w ((List.range bs.length).map fun i => reach.getD i false)
  ((lineRuns r.1 r.2).foldl (fun (q : State × Nat) x =>
    (match q.1.stagerSound t.asid .write b.refused x with
      | none => q.1
      | some ps => q.1.atriumStore t.agent (mixStores ps ((bs.drop q.2).take x.2) ((ks.drop q.2).take x.2)), q.2 + x.2))
    ({ s with freeN := s.freeN + bs.length }, 0)).1

/-- What a write-back that fails leaves (R270, R348): nothing would have been written from a poisoned slot. -/
def State.unstagePart (s : State) (t : Team) (r : Ring) (b : Subscription) (sh : Shape) : State :=
  let p := b.part sh b.written
  let m := b.memFmt
  let dst := m.num b.fmts
  let off := t.scratchOff (r.stageAt (r.slotBack b))
  if t.rowsBad off sh.image then s
  else
    let bs := t.bytes off sh.image
    let each := (List.range p.rows).map fun i =>
      let cs := codesOf sh.num.bits p.cols ((bs.drop (i * sh.rb)).take sh.rb)
      let xs := if sh.num.isMx then scaleCodes ((bs.drop (sh.rows * sh.rb + i * (sh.cols / 32))).take (sh.cols / 32)) else []
      (moveRun sh.fmt m b.fmts cs xs b.scale b.mode b.sat)
    let old := if p.cols * dst.bits % 8 = 0 then ([], s) else s.stagerPartReads t b .write none (b.rowRuns p)
    let rows := (List.range p.rows).map fun i =>
      mergeTail dst.bits p.cols (bytesOfCodes dst.bits (each.getD i ([], [], 0)).1) (old.1.getD i ([], [])).1
    let scales := if dst.isMx then each.map fun v => v.2.1.map (BitVec.ofNat 8) else []
    (((b.rowRuns p).map (fun r => (dst.unit, r)) ++ (b.scaleRuns p).map fun r => (1, r)).zip (rows ++ scales)).foldl
      (fun (s : State) (w : (Nat × Nat × Nat) × List Byte) => s.stagerPartWrite t b w.1.1 w.1.2 w.2) old.2

/-- A ring whose stager has written a slot back, and pushed it again while tiles remain and the team runs. -/
def Ring.written (r : Ring) (b : Subscription) (runs : Bool) : Ring :=
  let b1 := { b with written := b.written + 1, refused := [] }
  if runs && r.again b then r.staged b1 else { r with sub := some b1 }

/-- STAGER_SLOT_WRITEBACK: the stager writes the oldest released slot back as its tile (R299). -/
def execStagerSlotWriteback (team ring : Nat) (s : State) : Host.Outcome State Fault Refusal :=
  .next (match s.team? team with
    | none => s
    | some t => match t.ring? ring with
      | none => s
      | some r => match r.sub with
        | none => s
        | some b => match tensorShape b.fmts b.words r.fmt with
          | none => s
          | some sh =>
            if !t.mayWriteBack ring r b then s
            else
              let q := s.unstageTile t r b sh
              match q.1 with
              | .error (.miss pages a) => q.2.parkSub t ring r b pages a
              | .error (.fault c _ _) =>
                (q.2.unstagePart t r b sh).modTeam team fun t => (t.putRing ring (r.written b t.runs)).failSub b c
              | .error (.hold _) => s
              | .ok f => q.2.modTeam team fun t => (t.putRing ring (r.written b t.runs)).record (transferFlags f))

/-! ## RUNSUB_COMPLETE (R300) -/

/-- An ended subscription has nothing left to write back. -/
def Subscription.finished (b : Subscription) : Bool :=
  b.ending.isSome && b.park.isNone && (!b.out || b.due ≤ b.written)

/-- RUNSUB_COMPLETE: the ring is bound to no stager any more, and the tag completes. -/
def execRunsubComplete (team ring : Nat) (s : State) : Host.Outcome State Fault Refusal :=
  .next (match s.team? team with
    | none => s
    | some t => match t.ring? ring with
      | none => s
      | some r => match r.sub with
        | none => s
        | some b =>
          if !b.finished then s
          else
            let c := b.ending.getD 0
            let bit : DWord := if c.getLsbD 6 then 0 else BitVec.ofNat 64 (2 ^ field c 0 6)
            s.putTeam { (t.putRing ring { r with stg := false, sub := none }) with
              tagsFly := t.tagsFly &&& ~~~bit
              tagsDone := t.tagsDone ||| bit })

end Sys2Proof.Machine
end

