-- ==== Sys2Proof/Machine/Loader.lean ====
section
/-! DEFINITION. The loader (R93, R111 to R114, R174 to R178): its pass over the bytes of a code segment, and its commands. -/

namespace Sys2Proof.Machine

open Sys2Proof

/-- A finding: its byte offset and its diagnostic code (Table 11-11). -/
abbrev Diag := Nat × Nat

/-- The finding reported: the lowest offset, and there the lowest code (R178). -/
def firstDiag (ds : List Diag) : Option Diag := firstMin (fun a b => a.1 < b.1 || (a.1 == b.1 && a.2 < b.2)) ds

/-! ## The segment table and the headers (R111, R113, R114) -/

/-- Doubleword `k` from an offset of the segment's bytes. -/
def segWord (bs : List Byte) (off k : Nat) : DWord := dwordOf ((bs.drop (off + 8 * k)).take 8)

/-- The header at an offset of a segment (Table 07-5). -/
def headerAt (base : Nat) (bs : List Byte) (off : Nat) : Header :=
  let h0 := segWord bs off 0
  let h1 := segWord bs off 1
  let h2 := segWord bs off 2
  { addr := base + off
    base := base
    contract := field h0 0 3
    idem := h0.getLsbD 7
    migr := h0.getLsbD 8
    maxDepth := field h0 9 4
    vn := field h1 40 6
    vb := field h1 46 7
    vx := field h1 53 7
    mn := field h1 20 6
    mb := field h1 26 7
    mx := field h1 33 7
    cn := field h1 0 6
    cb := field h1 6 7
    cx := field h1 13 7
    coloc := field h2 30 4
    stack := field h2 20 10
    shared := field h2 10 10
    scratch := field h2 0 10
    entry := base + field (segWord bs off 3) 0 32 }

/-- A role's sizes break R71. -/
def roleBad (n b x : Nat) : Bool := if n = 0 then b != 0 || x != 0 else b == 0 || 96 < b + x

/-- The role fields break R71. -/
def Header.rolesBad (h : Header) : Bool :=
  h.groups == 0 || 32 < h.groups || 1 < h.mn || roleBad h.vn h.vb h.vx || roleBad h.mn h.mb h.mx || roleBad h.cn h.cb h.cx

/-- The codes that a header takes, but for its ENTRY. -/
def headerCodes (base : Nat) (bs : List Byte) (off : Nat) : List Nat :=
  let h := headerAt base bs off
  let w := segWord bs off
  let arch := field (w 0) 3 4
  (if field (w 0) 13 51 ≠ 0 ∨ field (w 1) 60 4 ≠ 0 ∨ field (w 2) 34 30 ≠ 0 ∨ field (w 3) 32 32 ≠ 0 ∨
      w 4 ≠ 0 ∨ w 5 ≠ 0 ∨ w 6 ≠ 0 ∨ w 7 ≠ 0 ∨ 8 < h.maxDepth ∨ arch = 0 ∨ 12 < h.coloc ∨ h.scratch < h.shared then [0x3] else []) ++
  (if 4 < h.contract then [0x4] else []) ++ (if 1 < arch then [0x5] else []) ++ (if h.rolesBad then [0x6] else []) ++
  (if storeRoom < h.footprint then [0x7] else [])

/-- The codes of the segment table and of the length. -/
def tableCodes (bs : List Byte) : List Nat :=
  let n := field (segWord bs 0 0) 0 12
  (if n = 0 ∨ field (segWord bs 0 0) 12 52 ≠ 0 ∨ ((bs.drop 8).take 56).any (· != 0) then [0x1] else []) ++
  (if bs.length % 64 ≠ 0 ∨ bs.length < 64 * (n + 1) then [0x2] else [])

/-! ## The pass over the code (R174, R175) -/

/-- One position of the code region: its offset, the instruction (whatever registers it names) or the finding about its encoding,
and the bytes it takes. -/
structure Slot where
  off : Nat
  word : Word
  got : Except Finding Instr
  size : Nat

/-- The encoding at the start of some words. An SREAD or SWRITE of an unlisted number stands with another number in its place, for
what the pass asks of its operands; the finding about the number is made apart. -/
def slotForm (ws : List Word) : Except Finding Instr :=
  match formOfWords ws with
  | .ok p => .ok p.1
  | .error .specialReg =>
    let d := (unpackS (ws.headD 0)).d
    .ok (if (unpackS (ws.headD 0)).op = 0x60 then .sread d .mode else .swrite .mode d)
  | .error f => .error f

/-- The positions of a code region from an offset on; `skip` words belong to the instruction before. The region ends at a
terminator. -/
def codeSlots (base : Nat) : Nat → Nat → List Word → List Slot
  | _, _, [] => []
  | off, k + 1, _ :: ws => codeSlots base (off + 4) k ws
  | off, 0, w :: ws =>
    if (base + off) % 64 = 0 ∧ w = 0xFFFFFFFF ∧ ws.head? = some 0xFFFFFFFF then []
    else
      let n := (lengthOf w).getD 1
      ⟨off, w, slotForm (w :: ws.take 2), 4 * n⟩ :: codeSlots base (off + 4) (n - 1) ws

/-- The instruction of a position. -/
def Slot.instr (x : Slot) : Option Instr := x.got.toOption

/-- The byte offset of a static target, for an S-B instruction that has one (R175). -/
def Slot.target (x : Slot) : Option Int :=
  match x.instr with
  | some (.bra o) | some (.brp _ _ _ o) | some (.brd _ _ o) | some (.call _ o) | some (.split o) => some (x.off + 4 * o.toInt)
  | _ => none

/-- The target is an instruction start of the region. -/
def targetIn (starts : List Nat) (t : Int) : Bool := 0 ≤ t && starts.contains t.toNat

/-- Branch targets for R93: static targets, entries, and what follows a CALL or CALLS. -/
def branchTargets (xs : List Slot) (entries : List Nat) : List Nat :=
  xs.filterMap (fun x => match x.target with | some t => if 0 ≤ t then some t.toNat else none | none => none) ++ entries ++
  xs.filterMap fun x => match x.instr with
    | some (.call _ _) | some (.calls _ _) => some (x.off + x.size)
    | _ => none

/-- An instruction reads or writes a register that a long-latency one writes (R93); `s0` is never written (R76). -/
def touches (w l : Instr) : Bool :=
  (w.vreads ++ w.vwrites).any l.vwrites.contains || (w.sreads ++ w.swrites).any fun r => r != 0 && l.swrites.contains r

/-- The codes of a lookahead window (R93), given the positions after its instruction. -/
def windowCodes (targets : List Nat) (l : Instr) (n : Nat) (after : List Slot) : List Nat :=
  let w := after.take n
  (if w.any (fun x => match x.instr with | some i => i.isTransfer | none => false) then [0x30] else []) ++
  (if w.any (fun x => targets.contains x.off) then [0x31] else []) ++
  (if w.any (fun x => match x.instr with | some i => touches i l | none => false) then [0x32] else []) ++
  (if after.length < n then [0x33] else [])

/-- The findings of the lookahead windows. -/
def windowDiags (targets : List Nat) : List Slot → List Diag
  | [] => []
  | x :: rest =>
    (match x.instr with
      | some i => match i.lookahead with
        | some la => (windowCodes targets i la.toNat rest).map fun c => (x.off, c)
        | none => []
      | none => []) ++ windowDiags targets rest

/-- The findings of R176. -/
def pairDiags (xs : List Slot) : List Diag :=
  let rejoins := xs.filterMap fun x => if x.instr = some .rejoin then some x.off else none
  let splits := xs.filterMap fun x => match x.instr with
    | some (.split o) => some (x.off, (x.off : Int) + 4 * o.toInt)
    | _ => none
  let bars := xs.filterMap fun x => match x.instr with
    | some (.bar b n) => some (x.off, b, n)
    | _ => none
  ((splits.filter fun p => !((p.1 : Int) < p.2 && targetIn rejoins p.2)).map fun p => (p.1, 0x40)) ++
  ((rejoins.filter fun (r : Nat) => !splits.any fun p => p.2 == Int.ofNat r).map fun r => (r, 0x41)) ++
  (xs.filterMap fun x => match x.instr with
    | some (.brd _ _ _) => if splits.any fun p => p.1 < x.off && (x.off : Int) < p.2 then none else some (x.off, 0x42)
    | _ => none) ++
  (bars.filterMap fun p => match bars.find? fun q => q.2.1 == p.2.1 with
    | some q => if q.2.2 = p.2.2 then none else some (p.1, 0x43)
    | none => none)

/-- A number that the part does not list, in an SREAD or SWRITE (R170). -/
def unlistedReg (w : Word) : Bool :=
  let r := unpackS w
  w.extractLsb' 0 2 == 0 && (r.op == 0x60 || r.op == 0x61) && (SpecReg.ofCode r.imm16).isNone

/-- The registers of which each must lie in the footprint, the queues and the numbers above them too: those that VUNPACK and TSORT
write (R241, R252). -/
def Instr.footRun : Instr → List Nat
  | .vunpack g e src dst vd va => (Instr.vunpack g e src dst vd va).vwrites
  | .tsort g la ty desc k vd va => (Instr.tsort g la ty desc k vd va).vwrites
  | _ => []

/-- An instruction names a register beyond every footprint of the segment (R75). -/
def beyondFoot (regMax : Nat) (i : Instr) : Bool :=
  (Instr.named i).any (fun n => regMax ≤ n && n < 1536) || (Instr.footRun i).any (regMax ≤ ·)

/-- The findings of single instructions: encodings that are no instruction, registers that must not be named, and registers beyond every
footprint. The offending word of a finding about an instruction is its first word (log entry 11). -/
def slotDiags (regMax : Nat) (x : Slot) : List Diag :=
  match x.got with
  | .error f => [(x.off, f.code)]
  | .ok i =>
    (if unlistedReg x.word then [(x.off, 0x18)] else []) ++ (i.useFinding.toList.map fun f => (x.off, f.code)) ++
    (if beyondFoot regMax i then [(x.off, 0x21)] else [])

/-- What the pass finds in a segment: its findings, its headers and its instruction starts. -/
structure Pass where
  diags : List Diag
  headers : List Header
  starts : List Nat
  deriving DecidableEq, Repr

/-- THE LOADER'S PASS over the bytes of a segment at an address. -/
def loaderPass (base : Nat) (bs : List Byte) : Pass :=
  match tableCodes bs with
  | c :: _ => ⟨[(0, c)], [], []⟩
  | [] =>
    let n := field (segWord bs 0 0) 0 12
    let offs := (List.range n).map fun i => 64 * (i + 1)
    let hs := offs.map (headerAt base bs)
    let xs := codeSlots base (64 * (n + 1)) 0 (wordsOfBytes (bs.drop (64 * (n + 1))))
    let starts := xs.filterMap fun x => if x.instr.isSome then some x.off else none
    let entries := hs.map fun h => h.entry - base
    let regMax := (hs.flatMap fun h => [16 * (h.vb + h.vx), 16 * (h.mb + h.mx), 16 * (h.cb + h.cx)]).foldl max 0
    ⟨(offs.flatMap fun o => (headerCodes base bs o).map fun c => (o, c)) ++
      ((offs.zip entries).filterMap fun p => if starts.contains p.2 then none else some (p.1, 0x8)) ++
      xs.flatMap (slotDiags regMax) ++
      (xs.filterMap fun x => match x.target with | some t => if targetIn starts t then none else some (x.off, 0x20) | none => none) ++
      windowDiags (branchTargets xs entries) xs ++ pairDiags xs, hs, starts⟩

/-! ## Reads of the atrium (R104, R111) -/

/-- Reads bytes of one line at their home, for the atrium itself. -/
def State.homeRead (s : State) (asid : Nat) (x : Xlat) (n : Nat) : List Byte × State :=
  match x.bar0 with
  | some off => s.barRead off n
  | none =>
    let s := s.countHosts ⟨0, asid, 0⟩ [x] []
    if x.mt = 1 ∨ (x.mt = 2 ∧ (s.llcAt x).isSome) then (((s.llcLine (lineOf x.key)).1.drop (x.key % 128)).take n, s)
    else (s.mem.read x.key n, if x.mt = 0 then s.dirReadHome (lineOf x.key) else s)

/-- What a read by the atrium comes to. -/
inductive Fetched where
  | ok (bs : List Byte) (keys : List Nat)
  | bad (va : Nat)
  | miss (page : Nat) (host : Bool)
  | busy
  deriving DecidableEq, Repr

/-- Reads runs of lines through an ASID, up to the first byte that cannot be read; `keys` are the keys of the runs. -/
def State.atriumFetch (s : State) (asid : Nat) (refused : List Nat) : List (Nat × Nat) → Fetched × State
  | [] => (.ok [] [], s)
  | (va, n) :: rest =>
    if 2 ^ 57 < va + n then (.bad va, s)
    else
      let r := s.translate asid va .read
      match r.1 with
      | .bad _ => (.bad va, r.2)
      | .miss page host => (if refused.contains page then .bad va else .miss page host, r.2)
      | .ok x =>
        if (r.2.atriumBad x).isSome then (.bad va, r.2)
        else if !r.2.atRest [x] then (.busy, r.2)
        else
          let b := r.2.homeRead asid x n
          let q := b.2.atriumFetch asid refused rest
          (match q.1 with
            | .ok bs ks => .ok (b.1 ++ bs) (x.key :: ks)
            | f => f, q.2)

/-! ## The loader's commands -/

/-- The loader ends with a code at an offset. -/
def State.loaderEnd (s : State) (code off : Nat) : State :=
  { s with loader := { s.loader with busy := false, code := BitVec.ofNat 16 code, offset := BitVec.ofNat 32 off, park := none, refused := [] } }

/-- An admitted grid uses a header of a segment (R112). -/
def State.segUsed (s : State) (asid base : Nat) : Bool :=
  s.grids.any (fun g => g.asid == asid && g.header.base == base) ||
  s.tasks.any (fun t => t.info.header.base == base && (match s.grid? t.info.grid with | some g => g.asid == asid | none => false)) ||
  s.teams.any (fun t => t.asid == asid && t.info.header.base == base) ||
  s.saved.any fun t => t.asid == asid && t.info.header.base == base

/-- An unload ends when no admitted grid uses the segment. -/
def State.unloadEnd (s : State) : State :=
  let l := s.loader
  if s.segUsed l.asid l.atBase.toNat then s
  else { s with segs := s.segs.filter fun g => !(g.asid == l.asid && g.base == l.atBase.toNat) }.loaderEnd 0 0

/-- A load ends: the segment is recorded, or rejected with its first finding (R111, R178). Whether its image carries a verified
signature is a free value (log entry 4). -/
def State.loadEnd (s : State) : State :=
  let l := s.loader
  let base := l.atBase.toNat
  let len := l.atLen.toNat
  if !s.live l.asid then s.loaderEnd 9 0
  else if len < 64 ∨ 2 ^ 24 < len then s.loaderEnd 2 0
  else
    let r := s.atriumFetch l.asid l.refused (lineRuns base len)
    match r.1 with
    | .miss page host => { (r.2.noteMiss l.asid page .read host false) with loader := { l with park := some page } }
    | .busy => s
    | .bad va => r.2.loaderEnd 9 (va - base)
    | .ok bs keys =>
      let p := loaderPass base bs
      match firstDiag p.diags with
      | some d => r.2.loaderEnd d.2 d.1
      | none =>
        let g : Segment := ⟨l.asid, base, len, p.starts, p.headers, sortNats (keys.map (· / 32768)), Config.freeBool r.2.freeN⟩
        { r.2 with segs := r.2.segs ++ [g], freeN := r.2.freeN + 1 }.loaderEnd 0 0

/-- LOADER_LOAD: a write of LDCMD that starts a load. -/
def execLoaderLoad (asid : Nat) (s : State) : Host.Outcome State Fault Refusal :=
  .next (if asid < 256 then s.regWrite 0x1010 (BitVec.ofNat 64 (asid + 2 ^ 8)) else s)

/-- LOAD_COMPLETE: the pass in progress ends, or waits for a page; an unload that waits ends when nothing uses the segment. -/
def execLoadComplete (s : State) : Host.Outcome State Fault Refusal :=
  .next (if !s.loader.busy || s.loader.park.isSome then s else if s.loader.unload then s.unloadEnd else s.loadEnd)

/-- LOADER_UNLOAD: a write of LDCMD that unloads a segment, at once when no admitted grid uses it. -/
def execLoaderUnload (asid : Nat) (s : State) : Host.Outcome State Fault Refusal :=
  .next (if asid < 256 ∧ !s.loader.busy then
      let s1 := s.regWrite 0x1010 (BitVec.ofNat 64 (asid + 2 ^ 9))
      if s1.loader.busy then s1.unloadEnd else s1
    else s)

end Sys2Proof.Machine
end

