-- ==== Sys2Proof/Machine/Launch.lean ====
section
/-! DEFINITION. Launch queues at work (R101 to R110): the doorbell, reading and checking records, admission, and the completion of
grids. -/

namespace Sys2Proof.Machine

open Sys2Proof

/-! ## Registers of a queue -/

/-- LAUNCH_DOORBELL: a write of t to a queue's LQTAIL (R102). -/
def execLaunchDoorbell (q : Nat) (t : DWord) (s : State) : Host.Outcome State Fault Refusal :=
  .next (if q < 64 then s.regWrite (64 * q + 0x20) t else s)

/-- LQSTAT_STOP_CLEAR: a one written to STOP (R104). -/
def execLqstatStopClear (q : Nat) (s : State) : Host.Outcome State Fault Refusal :=
  .next (if q < 64 then s.regWrite (64 * q + 0x28) 1 else s)

/-- LQSTAT_READ: a read of LQSTAT by the host (R104). -/
def execLqstatRead (q : Nat) (s : State) : Host.Outcome State Fault Refusal :=
  .next (if q < 64 then
      let r := s.regRead (64 * q + 0x28)
      { r.2 with records := { r.2.records with lastRead := bytesOfNum 8 r.1.toNat } }
    else s)

/-! ## Records (R104 to R106) -/

/-- TILED. -/
def recTiled (w : List DWord) : Bool := (w.getD 3 0).getLsbD 12
/-- TEAMS. -/
def recTeams (w : List DWord) : Nat := field (w.getD 3 0) 40 20
/-- TBASE. -/
def recTbase (w : List DWord) : Nat := field (w.getD 7 0) 32 32
/-- DEPN. -/
def recDepn (w : List DWord) : Nat := field (w.getD 3 0) 14 2
/-- G. -/
def recGrid (w : List DWord) : Nat :=
  (field (w.getD 2 0) 0 16 + 1) * (field (w.getD 2 0) 16 16 + 1) * (field (w.getD 2 0) 32 16 + 1)

/-- The first and the number of the teams that a record runs. -/
def recRange (w : List DWord) : Nat × Nat := if recTeams w = 0 then (0, recGrid w) else (recTbase w, recTeams w)

/-- A reserved field that is not zero (R105, Table 07-4); a dependence entry from DEPN on counts as one (log entry 31). -/
def recReserved (w : List DWord) : Bool :=
  field (w.getD 0 0) 57 7 != 0 || field (w.getD 3 0) 60 4 != 0 || field (w.getD 3 0) 0 12 != 0 ||
  (!recTiled w && field (w.getD 2 0) 48 16 != 0) || (List.range 3).any fun k => recDepn w ≤ k && w.getD (4 + k) 0 != 0

/-- An invalid shape (R106). -/
def recShapeBad (w : List DWord) : Bool :=
  if recTiled w then recTeams w == 0 || field (w.getD 2 0) 0 7 != 0
  else if recTeams w = 0 then recTbase w != 0 else recGrid w < recTbase w + recTeams w

/-- The ERR code of a record, before its schedule set is read: check, reserved fields, header, shape. -/
def State.recordErr (s : State) (asid : Nat) (bs : List Byte) : Option Nat :=
  let w := dwordsOf bs 8
  if (crc32c (bs.take 56)).toNat ≠ field (w.getD 7 0) 0 32 then some 1
  else if recReserved w then some 2
  else if field (w.getD 0 0) 0 6 ≠ 0 ∨ (s.header? asid (field (w.getD 0 0) 0 57)).isNone then some 3
  else if recShapeBad w then some 4 else none

/-- A schedule set that is refused (R122, R309). -/
def setBad (ws : List DWord) : Bool :=
  [11, 13, 15].any (fun k => ws.getD k 0 != 0) || !(Sched.ofSet ws).valid

/-- Refuses the record at LQHEAD (R104). A record whose fields were read signals its counter with the failure signal. -/
def State.refuseRecord (s : State) (q err : Nat) (w : Option (List DWord)) : State :=
  let s1 := (s.modLq q fun l => { l with err := BitVec.ofNat 4 err, errIdx := l.head, stop := true, got := none, park := none, refused := [] }).msixSignal 3
  match w with
  | some w =>
    let c := w.getD 3 0
    if c.getLsbD 13 then s1.signal (field c 28 12) (field c 16 12) true else s1
  | none => s1

/-- The queue waits for a page. -/
def State.parkLq (s : State) (q asid page : Nat) (host : Bool) : State :=
  (s.noteMiss asid page .read host false).modLq q fun l => { l with park := some page }

/-- A record read and checked waits for admission; LQHEAD names the next record. -/
def State.holdRecord (s : State) (q : Nat) (w set : List DWord) : State :=
  s.modLq q fun l => { l with got := some (w, set), head := l.head + 1, park := none, refused := [], since := s.clock }

/-- A queue may read its next record. -/
def State.mayRead (s : State) (q : Nat) : Bool :=
  let l := s.lq q
  q < 64 && s.manage.ready.getLsbD 1 && l.enabled && !l.stop && l.got.isNone && l.park.isNone && l.head != l.tail

/-- The bytes in which a record is read: one that was rewritten after its tail write was accepted is read in a mixture of its old and its new
bytes, free at each byte (R103; log entry 4). -/
def State.recordBytes (s : State) (l : LaunchQueue) (bs : List Byte) : List Byte × State :=
  let old := l.seen.get bs l.head.toNat
  if old = bs then (bs, s)
  else ((List.range bs.length).map fun i => if Config.freeBool (s.freeN + i) then old.getD i 0 else bs.getD i 0,
    { s with freeN := s.freeN + bs.length })

/-- RECORD_READ: the next record of a queue is read and checked (R103 to R106). -/
def execRecordRead (q : Nat) (s : State) : Host.Outcome State Fault Refusal :=
  .next (
    if !s.mayRead q then s
    else
      let l := s.lq q
      if !s.live l.asid then s.refuseRecord q 6 none
      else
        let r := s.atriumFetch l.asid l.refused (lineRuns (l.base.toNat + 64 * (l.head.toNat % l.size)) 64)
        match r.1 with
        | .bad _ => r.2.refuseRecord q 7 none
        | .miss page host => r.2.parkLq q l.asid page host
        | .busy => s
        | .ok cs _ =>
          let m := r.2.recordBytes l cs
          let w := dwordsOf m.1 8
          match m.2.recordErr l.asid m.1 with
          | some e => m.2.refuseRecord q e (some w)
          | none =>
            if !recTiled w then m.2.holdRecord q w []
            else
              let t := m.2.atriumFetch l.asid l.refused (lineRuns (w.getD 2 0).toNat 128)
              match t.1 with
              | .bad _ => t.2.refuseRecord q 7 none
              | .miss page host => t.2.parkLq q l.asid page host
              | .busy => s
              | .ok cs _ => if setBad (dwordsOf cs 16) then t.2.refuseRecord q 4 (some w) else t.2.holdRecord q w (dwordsOf cs 16))

/-! ## Admission (R108, R115, R130) -/

/-- A dependence is satisfied. -/
def State.depMet (s : State) (d : DWord) : Bool :=
  let c := s.counter (field d 52 12)
  c.getLsbD 63 || field d 0 52 ≤ field c 0 63

/-- A record that is held may be admitted: its dependences are satisfied, there is a task entry, and its context is not switched
out (R361). -/
def State.mayAdmit (s : State) (q : Nat) : Bool :=
  let l := s.lq q
  q < 64 && l.enabled && !l.stop && !(s.ctx l.asid).out && s.entries < s.taskCap &&
  (match l.got with
    | some (w, _) => (List.range (recDepn w)).all fun k => s.depMet (w.getD (4 + k) 0)
    | none => false)

/-- A failed dependence. -/
def State.depFailed (s : State) (w : List DWord) : Bool :=
  (List.range (recDepn w)).any fun k => (s.counter (field (w.getD (4 + k) 0) 52 12)).getLsbD 63

/-- The completion of a grid that fails before it is run (R108, R110): recorded and signalled. -/
def State.stillborn (s : State) (q idx asid : Nat) (w : List DWord) (c : Code) : State :=
  let s1 := s.record 7 ⟨.queue, q⟩ [q, idx, asid, c]
  let x := w.getD 3 0
  if x.getLsbD 13 then s1.signal (field x 28 12) (field x 16 12) true else s1

/-- A grid's launched teams as units to place. -/
def launchTeams (s : State) (grid : Nat) (h : Header) (w : List DWord) (cls : Nat) : List TaskInfo :=
  (List.range (recRange w).2).map fun i =>
    { uid := s.uid + 1 + i
      grid := grid
      number := (recRange w).1 + i
      header := h
      s1 := w.getD 1 0
      s2 := BitVec.ofNat 64 ((recRange w).1 + i)
      s3 := w.getD 2 0
      depth := 0
      parent := none
      admitted := s.clock
      cls := cls
      removed := 0 }

/-- RECORD_ADMIT: a held record is admitted (R108, R115): bound under R28, its teams dealt in ascending number. It is not read again when
LQCFG.ASID has been rewritten meanwhile (log entry 31). -/
def execRecordAdmit (q : Nat) (s : State) : Host.Outcome State Fault Refusal :=
  .next (
    if !s.mayAdmit q then s
    else
      let l := s.lq q
      match l.got with
      | none => s
      | some (w, set) =>
        let s1 := s.modLq q fun l => { l with got := none }
        let idx := (l.head - 1).toNat
        match s.header? l.asid (field (w.getD 0 0) 0 57) with
        | none => (s1.modLq q fun l => { l with head := l.head - 1 }).refuseRecord q 3 (some w)
        | some h =>
          if s.depFailed w then s1.stillborn q idx l.asid w cDepFailed
          else match s.bindClass h.contract 0 with
            | none => s1.stillborn q idx l.asid w cClassLost
            | some cls =>
              let x := w.getD 3 0
              let g : Grid := {
                uid := s.uid
                lq := q
                record := idx
                asid := l.asid
                account := l.account
                header := h
                sigEn := x.getLsbD 13
                sigCtr := field x 28 12
                sigInc := field x 16 12
                tiled := recTiled w
                high := (recRange w).1 + (recRange w).2 - 1
                spawnedTeams := 0
                cls := cls
                removed := 0
                failed := none
                sched := if recTiled w then some (Sched.ofSet set) else none
                ended := 0
                runTime := 0 }
              let ts := launchTeams s1 s.uid h w cls
              let s2 := { s1 with grids := s1.grids ++ [g], uid := s1.uid + 1 + ts.length }.deal ts
              if (s2.lq q).exporting then s2.withhold q else s2)

/-! ## Completion and failure of a grid (R109, R110) -/

/-- A grid has teams. -/
def State.gridHasTeams (s : State) (g : Nat) : Bool :=
  s.tasks.any (fun t => t.info.grid == g) || s.teams.any (fun t => t.info.grid == g) || s.saved.any fun t => t.info.grid == g

/-- The signal of a grid. -/
def State.gridSignal (s : State) (g : Grid) (failed : Bool) : State :=
  if g.sigEn then s.signal g.sigCtr g.sigInc failed else s

/-- GRID_COMPLETE: a grid whose teams have all ended leaves and signals its counter (R109). -/
def execGridComplete (grid : Nat) (s : State) : Host.Outcome State Fault Refusal :=
  .next (match s.grid? grid with
    | none => s
    | some g =>
      if g.failed.isSome || s.gridHasTeams grid then s
      else { s with grids := s.grids.filter fun x => x.uid != grid }.gridSignal g false)

/-- GRID_FAIL: a failed grid whose last team has ended completes as failed (R110). -/
def execGridFail (grid : Nat) (s : State) : Host.Outcome State Fault Refusal :=
  .next (match s.grid? grid with
    | none => s
    | some g =>
      if g.failed.isNone || s.gridHasTeams grid then s
      else { s with grids := s.grids.filter fun x => x.uid != grid }.gridSignal g true)

end Sys2Proof.Machine
end

