-- ==== Sys2Proof/Machine/Place.lean ====
section
/-! DEFINITION. Placing teams (R115 to R120): from die queues to gallery queues, from gallery queues to cores, stealing, the start of a
team (R69, R78, R116, R117) and its end (R70, R119). -/

namespace Sys2Proof.Machine

open Sys2Proof

/-! ## What may be placed -/

/-- A queued task may be moved on: its grid has not failed, its context is neither switched out nor being pre-empted (R357, R361), and
its grid is not withheld for export (R130; log entry 31). -/
def State.placeable (s : State) (k : Task) : Bool :=
  match s.grid? k.info.grid with
  | none => false
  | some g =>
    g.failed.isNone && !(s.ctx g.asid).out && !(s.manage.preempt.busy && s.manage.preempt.asid == g.asid) &&
    !((s.lq g.lq).exporting && !g.tiled)

/-- The cores of a gallery. -/
def galleryCores (d g : Nat) : List Nat := (List.range 12).map (coreId d g)

/-- The cores of a die. -/
def dieCores (d : Nat) : List Nat := (List.range 8).flatMap (galleryCores d)

/-- The galleries on which a task may be put: those that its grid's GALMASK names, unless that leaves none. -/
def State.galleriesFor (s : State) (i : TaskInfo) : List Nat :=
  let all := List.range 8
  match s.sched? i.grid with
  | some c =>
    let m := if i.parent.isNone then all.filter fun g => (c.reg 10).getLsbD g else all
    if m.isEmpty then all else m
  | none => all

/-- A task is a member of a co-location block (R116). -/
def TaskInfo.inBlock (i : TaskInfo) : Bool := 2 ≤ i.header.coloc

/-- Tasks of a place, in queue order. -/
def State.queueAt (s : State) (p : Place) : List Task := s.tasks.filter fun t => t.place == p

/-- Tasks of a gallery queue in the order in which they are taken: co-location blocks wait at its head (R115, R116). -/
def State.galleryQueue (s : State) (d g : Nat) : List Task :=
  let q := s.queueAt (.gallery d g)
  q.filter (fun t => t.info.inBlock) ++ q.filter fun t => !t.info.inBlock

/-- Free slots of a gallery. -/
def State.gallerySlots (s : State) (d g : Nat) : Nat := ((galleryCores d g).map s.freeSlots).sum

/-- Of some galleries, the one with the most free slots, the lowest among equals. -/
def State.widest (s : State) (d : Nat) (gs : List Nat) : Option Nat :=
  firstMin (fun a b => s.gallerySlots d b < s.gallerySlots d a) gs

/-- The grid of a task whose queue entry is bad fails when the entry is read (R362). -/
def State.badEntry (s : State) (k : Task) : State := s.failGrid k.info.grid cQueuePoison

/-! ## TEAM_TO_GALLERY (R115) -/

/-- The members of a task's block in a queue, in ascending team number. -/
def blockIn (q : List Task) (i : TaskInfo) : List Task :=
  (sortNats ((q.filter fun t => sameBlock t.info i).map fun t => t.info.number)).filterMap fun n =>
    q.find? fun t => sameBlock t.info i && t.info.number == n

/-- The gallery that could take a task of a die queue now. -/
def State.galleryFor (s : State) (d : Nat) (head : Bool) (k : Task) : Option Nat :=
  if !s.placeable k then none
  else if k.info.inBlock then (if head then s.widest d (s.galleriesFor k.info) else none)
  else s.widest d ((s.galleriesFor k.info).filter fun g => (galleryCores d g).any fun c => s.fits c k.info.header)

/-- The first task of a die queue that can move on, with its gallery. -/
def State.firstMove (s : State) (d : Nat) : Bool → List Task → Option (Task × Nat)
  | _, [] => none
  | head, k :: ks => match s.galleryFor d head k with
    | some g => some (k, g)
    | none => s.firstMove d false ks

/-- The task that a die's distributor moves next. -/
def State.toGallery? (s : State) (d : Nat) : Option (Task × Nat) :=
  if s.dieUp d then s.firstMove d true (s.queueAt (.die d)) else none

/-- Tasks moved to the end of a gallery queue. -/
def State.moveTasks (s : State) (ks : List Task) (d g : Nat) : State :=
  { s with tasks := (s.tasks.filter fun t => !ks.any fun k => k.info.uid == t.info.uid) ++
      ks.map fun (k : Task) => { k with place := Place.gallery d g } }

/-- TEAM_TO_GALLERY: a die's distributor moves the first team of its queue that some core can place; a block moves when it is at the
head. -/
def execTeamToGallery (die : Nat) (s : State) : Host.Outcome State Fault Refusal :=
  .next (match s.toGallery? die with
    | none => s
    | some (k, g) =>
      if k.poisoned then s.badEntry k
      else s.moveTasks (if k.info.inBlock then blockIn (s.queueAt (.die die)) k.info else [k]) die g)

/-! ## The start of a team (R69, R78, R116, R117) -/

/-- The slot that the next group of a team takes, as 16 * barrel + slot: the lowest free slot of the barrel with more free slots,
barrel 0 when they are equal. -/
def nextSlot (held : List Nat) : Nat :=
  let used := fun b => (held.filter fun x => x / 16 == b).length
  let b := if used 1 < used 0 then 1 else 0
  16 * b + (((List.range 16).find? fun k => !held.contains (16 * b + k)).getD 0)

/-- The slots that `n` groups take. -/
def takeSlots : Nat → List Nat → List Nat
  | 0, _ => []
  | n + 1, held => nextSlot held :: takeSlots n (nextSlot held :: held)

/-- The random state of a lane at group start (R56). -/
def Rng.start (number group lane : Nat) : Rng :=
  ⟨0x9E3779B9, BitVec.ofNat 32 (lane + 1), BitVec.ofNat 32 number, BitVec.ofNat 32 group⟩

/-- The one strand of a group that starts: the launch gives work to all 64 lanes (R67; log entry 45). -/
def Strand.start (pc : DWord) (clock : Nat) : Strand where
  sid := 0
  lanes := allLanes
  exec := allLanes
  pc := pc
  stack := []
  fwd := []
  parked := []
  hold := none
  refused := []
  since := clock
  skipStop := none
  waitCycle := none
  arrived := none

/-- A group at its start (R78, R117, Tables 03-8, 03-12). -/
def Group.start (i : TaskInfo) (n slot clock : Nat) : Group where
  kind := i.header.kindOf n
  num := n
  barrel := slot / 16
  slot := slot % 16
  sregs := (SMap.put (SMap.put (SMap.put [] 0 1 i.s1) 0 2 i.s2) 0 3 i.s3)
  preds := []
  rm := 1
  drscale := 0x3F800000
  fmts := (List.range 16).map fmtReset
  flags := List.replicate 64 0
  rng := laneNumbers.map (Rng.start i.number n)
  strands := [Strand.start (BitVec.ofNat 64 i.header.entry) clock]
  rr := 0
  pending := []
  due := clock
  handler := none
  dbg := none
  ended := false
  nextId := 1

/-- An empty accumulator. -/
def Acc.start : Acc := ⟨[], [], false⟩

/-- A tile register at the start of a team. -/
def Tile.start : Tile := ⟨[], [], 0, false⟩

/-- A team that starts on a core, its groups in given slots. -/
def Team.start (i : TaskInfo) (asid lq core clock : Nat) (slots : List Nat) : Team where
  info := i
  asid := asid
  lq := lq
  core := core
  groups := (List.range i.header.groups).map fun n => Group.start i n (slots.getD n 0) clock
  rows := []
  rowPoison := []
  tagsDone := 0
  tagsFly := 0
  jflags := 0
  rings := []
  tiles := List.replicate 8 Tile.start
  accs := List.replicate 2 Acc.start
  bars := []
  locks := []
  spawned := false
  govStalls := 0
  aliases := []
  started := clock
  fails := []
  mode := .running
  frames := []
  openJobs := []
  bound := []

/-- A queued task starts as a team on a core. -/
def State.startTeam (s : State) (core : Nat) (k : Task) : State :=
  match s.grid? k.info.grid with
  | none => s
  | some g =>
    let t := Team.start k.info g.asid g.lq core s.clock (takeSlots k.info.header.groups (s.slotsHeld core))
    { s with teams := s.teams ++ [t], tasks := s.tasks.filter fun x => x.info.uid != k.info.uid }

/-! ## TEAM_PLACE (R116, R120 step 1) -/

/-- The cores of a gallery that can take any of some tasks, in ascending identity. -/
def State.takers (s : State) (d g : Nat) (ks : List Task) : List Nat :=
  (galleryCores d g).filter fun c => ks.all fun k => s.fits c k.info.header

/-- What a gallery's queue gives up next to one of its cores: the tasks with the cores that take them. A block is taken only from the
head, and whole: as many cores as it has members take them (log entry 31). -/
def State.firstTaken (s : State) (core : Nat) : List Task → List Task → Option (List (Nat × Task))
  | _, [] => none
  | before, k :: ks =>
    let d := coreDie core
    let g := coreGallery core
    let block := if k.info.inBlock then blockIn (k :: ks) k.info else [k]
    let cs := s.takers d g block
    let next := s.firstTaken core (before ++ [k]) ks
    if !s.placeable k then s.firstTaken core before ks
    else if k.info.inBlock then
      if before.any (fun b => b.info.inBlock) then next
      else if block.length ≤ cs.length && cs.head? == some core then some (cs.zip block) else next
    else if cs.head? == some core then some [(core, k)] else next

/-- What a core takes from its gallery's queue. -/
def State.place? (s : State) (core : Nat) : Option (List (Nat × Task)) :=
  if coreNamed core && s.dieUp (coreDie core) then
    s.firstTaken core [] (s.galleryQueue (coreDie core) (coreGallery core))
  else none

/-- TEAM_PLACE: a core takes the first task of its gallery's queue that fits, when it is the lowest core that fits it; a block is taken
at once by as many cores. -/
def execTeamPlace (core : Nat) (s : State) : Host.Outcome State Fault Refusal :=
  .next (match s.place? core with
    | none => s
    | some ps => match ps.find? fun p => p.2.poisoned with
      | some p => s.badEntry p.2
      | none => ps.foldl (fun s p => s.startTeam p.1 p.2) s)

/-! ## TASK_STEAL (R120 steps 2 and 3) -/

/-- A task that a core may take from a die queue: its grid's GALMASK names the gallery, and no lower core of it could place the task (R115,
R116). -/
def State.stealable (s : State) (core : Nat) (k : Task) : Bool :=
  !k.info.inBlock && s.placeable k && (s.galleriesFor k.info).contains (coreGallery core) &&
  (s.takers (coreDie core) (coreGallery core) [k]).head? == some core

/-- The place of a task among those of one admission time and one die queue: launched teams in ascending team number, and before spawned
ones, which stand in order of creation (R120; log entry 31). -/
def TaskInfo.turn (i : TaskInfo) : Nat := if i.parent.isNone then i.number else 2 ^ 48 + i.uid

/-- The oldest of tasks on die queues: by admission, then by die, then in their turn (R120). -/
def olderTask (a b : Task) : Bool :=
  let d := Place.onDie
  a.info.admitted < b.info.admitted || (a.info.admitted == b.info.admitted &&
    (d a.place < d b.place || (d a.place == d b.place && (a.info.turn < b.info.turn || (a.info.turn == b.info.turn && a.info.uid < b.info.uid)))))

/-- What a core takes when its gallery's queue has nothing for it. -/
def State.steal? (s : State) (core : Nat) : Option Task :=
  if !(coreNamed core && s.dieUp (coreDie core)) || (s.place? core).isSome then none
  else
    let d := coreDie core
    match (s.queueAt (.die d)).find? (s.stealable core) with
    | some k => some k
    | none => firstMin olderTask (s.tasks.filter fun k => match k.place with
        | .die e => e != d && k.info.header.migr && k.info.cls == dieClass d && (s.dealDies k.info).contains d && s.stealable core k
        | .gallery _ _ => false)

/-- TASK_STEAL: a core takes a task from its die's queue, or the oldest that may move from another's. -/
def execTaskSteal (core : Nat) (s : State) : Host.Outcome State Fault Refusal :=
  .next (match s.steal? core with
    | none => s
    | some k => if k.poisoned then s.badEntry k else s.startTeam core k)

/-! ## TEAM_END (R70, R119) -/

/-- A team may end: its groups have ended, its jobs and streams are done, its children have ended. -/
def State.mayEnd (s : State) (t : Team) : Bool :=
  s.over t && !s.hasChildren t.info.uid && t.mode != .flushing

/-- TEAM_END: a team whose groups have all ended and whose children have ended leaves. -/
def execTeamEnd (team : Nat) (s : State) : Host.Outcome State Fault Refusal :=
  .next (match s.team? team with
    | none => s
    | some t =>
      if s.mayEnd t then
        ((s.removeTeam team).modGrid t.info.grid fun g =>
          { g with ended := g.ended + 1, runTime := g.runTime + (s.clock - t.started) }).preemptCheck
      else s)

end Sys2Proof.Machine
end

