-- ==== Sys2Proof/Machine/Probes.lean ====
section
/-! DEFINITION. The wait-cycle probe (R100, R128, Table 05-7): what blocked units await, the sending of a probe, its copies, and the trap
that its return leaves pending. -/

namespace Sys2Proof.Machine

open Sys2Proof

/-! ## Units (Tables 05-7, 21-2) -/

/-- The identity of a unit (Table 21-2); 0 when there is no such unit any more, and for a job and a stream, which are never blocked and
have none. -/
def State.unitId (s : State) (u : ProbeUnit) : DWord :=
  match u with
  | .strand t g x => match s.at ⟨t, g, x⟩ with
    | some h => BitVec.ofNat 64 (2 ^ 60 + h.team.core * 2 ^ 48 + h.group.barrel * 2 ^ 47 + h.group.slot * 2 ^ 43 +
        h.group.place x * 2 ^ 39)
    | none => 0
  | .team t => match s.team? t with
    | some t => BitVec.ofNat 64 (2 * 2 ^ 60 + t.lq * 2 ^ 48 + t.info.number)
    | none => 0
  | .launch q i => BitVec.ofNat 64 (3 * 2 ^ 60 + q * 2 ^ 48 + i)
  | .counter n => BitVec.ofNat 64 (4 * 2 ^ 60 + n)
  | .job _ | .stream _ => 0
  | .task u => match s.tasks.find? (fun k => k.info.uid == u) with
    | some k => BitVec.ofNat 64 (5 * 2 ^ 60 + (match s.grid? k.info.grid with | some g => g.lq | none => 0) * 2 ^ 48 +
        k.info.number)
    | none => 0

/-- The strands of a group as units. -/
def Group.units (t : Team) (g : Group) : List ProbeUnit := g.strands.map fun x => .strand t.info.uid g.num x.sid

/-- The strands of a team's groups of some kinds, one group apart. -/
def Team.kindUnits (t : Team) (kinds : List Nat) (but : Nat) : List ProbeUnit :=
  (t.groups.filter fun g => !g.ended && kinds.contains g.kind && g.num != but).flatMap (Group.units t)

/-- Children of a team. -/
def State.childUnits (s : State) (uid : Nat) : List ProbeUnit :=
  ((s.teams.filter fun t => t.info.parent == some uid).map fun t => ProbeUnit.team t.info.uid) ++
  ((s.tasks.filter fun t => t.info.parent == some uid).map fun t => ProbeUnit.task t.info.uid)

/-- The stager's subscription of a ring has passed its last tile. -/
def Ring.finished (r : Ring) : Bool :=
  match r.sub with
  | some b => b.count ≤ b.pushed
  | none => false

/-- The jobs of a team that carry tags of a mask. -/
def State.jobUnits (s : State) (team : Nat) (m : DWord) : List ProbeUnit :=
  (s.jobs.filter fun j => j.team == team && (match j.tag with | some n => m.getLsbD n | none => false)).map fun j => .job j.uid

/-- What a held strand awaits. -/
def State.strandAwaits (s : State) (h : Here) : List ProbeUnit :=
  let t := h.team
  let g := h.group
  let self := ProbeUnit.strand t.info.uid g.num h.strand.sid
  match h.strand.hold with
  | some (.barrier b) =>
    let r := t.bars.get ⟨0, 1, [], []⟩ b
    if t.groups.length < r.need then g.units t
    else (t.groups.filter fun g => !g.ended).flatMap fun g =>
      (g.strands.filter fun x => x.arrived != some (b, r.phase)).map fun x => .strand t.info.uid g.num x.sid
  | some (.rejoin e) => (g.strands.filter fun x => x.carries e.id && !x.atRejoin e.id).map fun x => .strand t.info.uid g.num x.sid
  | some .xlock => match t.locks.find (t.info.header.setOf g.num) with
    | some n => match t.group? n with
      | some p => p.units t
      | none => []
    | none => []
  | some (.ringFull n) => match t.ring? n with
    | some r => if r.stg then (if r.finished then [self] else []) else t.kindUnits [0] g.num
    | none => []
  | some (.ringFree n) => match t.ring? n with
    | some r => if r.commits.isEmpty then t.kindUnits [1, 2] g.num else []
    | none => []
  | some (.tags all m) =>
    if (all && m &&& ~~~(t.tagsFly ||| t.tagsDone) != 0) || (!all && m &&& (t.tagsFly ||| t.tagsDone) == 0) then [self]
    else s.jobUnits t.info.uid m
  | some (.tagBusy n) => s.jobUnits t.info.uid (BitVec.ofNat 64 (2 ^ n))
  | some (.queueRead q) | some (.queueWrite q) | some (.queueDrain q) => [.stream (queueKey t.core q)]
  | some .join => s.childUnits t.info.uid
  | some (.got va asid) => (s.binds.filter fun b => b.va == va && b.asid == asid).map fun b => .strand b.team b.group b.sid
  | some .claims => [.team t.info.uid]
  | _ => []

/-- A strand is blocked: what holds it is not over. -/
def State.blocked (s : State) (h : Here) : Bool :=
  match h.strand.hold with
  | some k => !s.released h k
  | none => false

/-- The live strands of a team. -/
def Team.live (t : Team) : List Here :=
  (t.groups.filter fun g => !g.ended).flatMap fun g => g.strands.map fun x => ⟨t, g, x⟩

/-- A resident team is blocked when all its live strands are. -/
def State.teamBlocked (s : State) (t : Team) : Bool := !t.live.isEmpty && t.live.all s.blocked

/-- The cores on which a queued task could be placed from the queue in which it is (R115, R120). -/
def State.couldTake (s : State) (k : Task) : List Nat :=
  let on := fun d => (s.galleriesFor k.info).flatMap (galleryCores d)
  match k.place with
  | .gallery d g => galleryCores d g
  | .die d => on d ++ (if k.info.header.migr && !k.info.inBlock then ((s.dealDies k.info).filter fun e => e != d).flatMap on else [])

/-- A record below the tail of a launch queue that the queue is still to read. -/
def State.unreadRecord (s : State) (l : LaunchQueue) (idx : Nat) : Option (List DWord) :=
  if (BitVec.ofNat 32 idx - l.head).toNat < (l.tail - l.head).toNat then
    (s.peekBytes l.asid (l.base.toNat + 64 * (idx % l.size)) 64).map fun bs => dwordsOf bs 8
  else none

/-- A record of a launch queue that is not admitted: the one that is held, or one that the queue is still to read (R108). -/
def State.queuedRecord (s : State) (q idx : Nat) : Option (List DWord) :=
  let l := s.lq q
  match l.got with
  | some (w, _) => if (l.head - 1).toNat = idx then some w else s.unreadRecord l idx
  | none => s.unreadRecord l idx

/-- The dependences of a record that are not satisfied, as units. -/
def State.depUnits (s : State) (w : List DWord) : List ProbeUnit :=
  ((List.range (recDepn w)).filter fun k => !s.depMet (w.getD (4 + k) 0)).map fun k => .counter (field (w.getD (4 + k) 0) 52 12)

/-- The records that name a counter in SIGEN: of admitted grids, and queued ones (R128). -/
def State.signallers (s : State) (n : Nat) : List ProbeUnit :=
  ((s.grids.filter fun g => g.sigEn && g.sigCtr == n).map fun g => .launch g.lq g.record) ++
  s.lqs.flatMap fun p =>
    let l := p.2
    let is := (if l.got.isSome then [(l.head - 1).toNat] else []) ++ (List.range (l.tail - l.head).toNat).map fun k => (l.head + BitVec.ofNat 32 k).toNat
    (is.filter fun i => match s.queuedRecord p.1 i with
      | some w => (w.getD 3 0).getLsbD 13 && field (w.getD 3 0) 28 12 == n
      | none => false).map fun i => .launch p.1 i

/-- What a unit awaits, if it is blocked. -/
def State.unitAwaits (s : State) (u : ProbeUnit) : Option (List ProbeUnit) :=
  match u with
  | .strand t g x => match s.at ⟨t, g, x⟩ with
    | some h => if s.blocked h then some (s.strandAwaits h) else none
    | none => none
  | .team t => match s.team? t with
    | some t => if s.teamBlocked t then some (t.live.flatMap s.strandAwaits) else none
    | none => none
  | .launch q i => match s.queuedRecord q i with
    | some w => match s.depUnits w with
      | [] => none
      | us => some us
    | none => none
  | .counter n => some (s.signallers n)
  | .job _ | .stream _ => none
  | .task u => match s.tasks.find? (fun k => k.info.uid == u) with
    | some k =>
      let cs := s.couldTake k
      some ((s.teams.filter fun t => cs.contains t.core && !s.over t).map fun t => .team t.info.uid)
    | none => none

/-! ## WAIT_PROBE_SEND -/

/-- The unit on whose behalf a strand sends: its team at JOIN and at a NEXTTILE that awaits its own team, else the strand. -/
def Here.probeUnit (h : Here) : ProbeUnit :=
  match h.strand.hold with
  | some .join | some .claims => .team h.team.info.uid
  | _ => .strand h.team.info.uid h.group.num h.strand.sid

/-- What the sender's unit awaits, if it is blocked; a NEXTTILE is blocked whatever else its team does. -/
def State.senderAwaits (s : State) (h : Here) : Option (List ProbeUnit) :=
  if h.strand.hold = some .claims then (if s.blocked h then some (s.strandAwaits h) else none) else s.unitAwaits h.probeUnit

/-- The unit lies on a cycle whose trap is pending. -/
def State.onCycle (s : State) (id : DWord) : Bool :=
  s.teams.any fun t => t.groups.any fun g => g.strands.any fun x => match x.waitCycle with
    | some us => us.contains id
    | none => false

/-- WCPROBE atrium clocks of 1.6 GHz have passed since a core clock of 1.2 GHz (R5). -/
def State.probeDue (s : State) (since : Nat) : Bool := 3 * s.wcprobe ≤ 4 * (s.clock - since)

/-- What a strand that may send a probe awaits. -/
def State.maySend (s : State) (h : Here) : Option (List ProbeUnit) :=
  if h.strand.waitCycle.isNone && s.probeDue h.strand.since && !s.onCycle (s.unitId h.probeUnit) then
    (match s.senderAwaits h with
      | some [] => none
      | us => us)
  else none

/-- A probe sent to some units: at most 64 copies. -/
def State.sendProbe (s : State) (by_ : Waiter) (self : ProbeUnit) (us : List ProbeUnit) : State :=
  let us := us.take 64
  { s with
    uid := s.uid + 1
    probes := s.probes ++ us.map fun u => (⟨s.uid, by_, us.length, [s.unitId self], u⟩ : Probe) }

/-- The record that a launch queue holds, as a unit. -/
def LaunchQueue.heldUnit (l : LaunchQueue) (q : Nat) : ProbeUnit := .launch q (l.head - 1).toNat

/-- WAIT_PROBE_SEND: a strand, or the record that a launch queue holds, blocked for WCPROBE clocks sends a probe; the interval starts
again. -/
def execWaitProbeSend (sort : WaiterSort) (n : Nat) (place : Nat × Nat) (s : State) : Host.Outcome State Fault Refusal :=
  .next (match sort.sender n place with
    | .strand team group sid => match s.at ⟨team, group, sid⟩ with
      | none => s
      | some h => match s.maySend h with
        | none => s
        | some us => (s.modStrand team group sid fun x => { x with since := s.clock }).sendProbe (.strand team group sid) h.probeUnit us
    | .launch q =>
      let l := s.lq q
      if l.got.isNone || !s.probeDue l.since then s
      else match s.unitAwaits (l.heldUnit q) with
        | none => s
        | some us => (s.modLq q fun l => { l with since := s.clock }).sendProbe (.launch q) (l.heldUnit q) us)

/-! ## WAIT_PROBE_ARRIVE -/

/-- A probe has returned: the trap is pending at its sender, which is still blocked. -/
def State.cycleFound (s : State) (p : Probe) (h : Here) : State :=
  if s.blocked h && h.strand.waitCycle.isNone then
    s.modStrand h.team.info.uid h.group.num h.strand.sid fun x => { x with waitCycle := some (p.path.take 16) }
  else s

/-- A probe copied to the units that a blocked unit awaits, as long as it has copies left. -/
def State.copyProbe (s : State) (p : Probe) (us : List ProbeUnit) : State :=
  let us := us.take (64 - p.copies)
  let n := p.copies + us.length
  let ps := us.map fun u => { p with path := p.path ++ [s.unitId p.target], target := u, copies := n }
  { s with probes := (s.probes.map fun q => if q.id = p.id then { q with copies := n } else q) ++ ps }

/-- A copy reaches a unit other than its sender, which copies it onward, or discards it when it is not blocked. -/
def State.passProbe (s : State) (p : Probe) : State :=
  if s.onCycle (p.path.headD 0) then s
  else match s.unitAwaits p.target with
    | none => s
    | some us => s.copyProbe p us

/-- WAIT_PROBE_ARRIVE: a copy reaches a unit; or it returns to its sender, whose strand then has a trap pending. A launch has no strand: its
probe ends there (log entry 33). -/
def execWaitProbeArrive (idx : Nat) (s : State) : Host.Outcome State Fault Refusal :=
  .next (match s.probes[idx]? with
    | none => s
    | some p =>
      let s1 := { s with probes := s.probes.eraseIdx idx }
      match p.sender with
      | .strand t g x => match s.at ⟨t, g, x⟩ with
        | none => s1
        | some h => if p.target = h.probeUnit ∧ !s.onCycle (p.path.headD 0) then s1.cycleFound p h else s1.passProbe p
      | .launch q => if p.target = (s.lq q).heldUnit q then s1 else s1.passProbe p)

end Sys2Proof.Machine
end

