-- ==== Sys2Proof/Machine/Translation.lean ====
section
/-! DEFINITION. Translation events: answers to page requests (R155, R376), ATS (R153, R155), migration counts (R157) and invalidations
(R156, R377). -/

namespace Sys2Proof.Machine

open Sys2Proof

/-! ## Page requests -/

/-- PAGE_RESPONSE: the driver answers a page: PRSPVA and PRSPCMD are written (Table 23-2, R376). -/
def execPageResponse (va : DWord) (asid : Nat) (success : Bool) (s : State) : Host.Outcome State Fault Refusal :=
  .next ((s.regWrite 0x6020 va).regWrite 0x6028
    (BitVec.ofNat 64 (asid % 256 + (if success then 2 ^ 8 else 0) + 2 ^ 9)))

/-- HOST_PAGE_RESPONSE: the host answers the PRI request for a page of a HOST leaf. -/
def execHostPageResponse (va : DWord) (asid : Nat) (success : Bool) (s : State) : Host.Outcome State Fault Refusal :=
  .next (s.hostResponse va asid success)

/-- The HOST leaf that a walk finds for an address. -/
def State.hostLeaf (s : State) (asid va : Nat) : Option DWord :=
  if !s.walkable asid va then none
  else match s.walk (field (s.ctx asid).root 15 37 * 32768) va with
    | .leaf e _ _ => if pteHost e then some e else none
    | _ => none

/-- A translation request of an ASID for a page is with the host. -/
def State.atsWaits (s : State) (asid page : Nat) : Bool :=
  s.misses.any fun m => m.asid == asid && m.page == page && m.host && !m.denied

/-- The host refuses the translation that only range instructions wait for: they pass over the page, and nothing more is asked (R203). -/
def State.rangeDenied (s : State) (asid page : Nat) : Bool :=
  s.misses.any fun m => m.asid == asid && m.page == page && m.ranged

/-- ATS_TRANSLATION: the host answers a translation request for a HOST leaf with the page's address, and the parked accesses are
executed afresh; or it refuses, and a page request leaves the package (R155), as soon as fewer than 64 are outstanding (R370). A leaf that
is no HOST leaf any more is walked again. -/
def execAtsTranslation (va : DWord) (asid : Nat) (answer : Option Nat) (s : State) : Host.Outcome State Fault Refusal :=
  .next (
    let page := va.toNat / 32768
    if !s.atsWaits asid page then s
    else match s.hostLeaf asid (page * 32768) with
      | none => s.pageAnswer page asid true
      | some e => match answer with
        | some a =>
          let t : TlbEntry := ⟨asid, page * 32768, 32768, e, some (a / 32768 * 32768)⟩
          ({ s with tlb := s.tlb ++ [t] } : State).pageAnswer page asid true
        | none =>
          if s.rangeDenied asid page then s.pageAnswer page asid false
          else ({ s with misses := s.misses.map fun (m : Miss) =>
            if m.asid = asid ∧ m.page = page then { m with denied := true } else m } : State).priPost)

/-! ## Migration counts -/

/-- Core clocks in 2²⁰ atrium clocks (R5). -/
def decayClocks : Nat := 786432

/-- The counts are due to halve. -/
def State.decayDue (s : State) : Bool := s.migDecays < s.clock / decayClocks

/-- MIGRATION_COUNT_DECAY: every count halves; regions whose count has fallen below the low threshold may be requested again. -/
def execMigrationCountDecay (s : State) : Host.Outcome State Fault Refusal :=
  .next (
    if !s.decayDue then s
    else
      let cs := (s.migCounts.map fun (c : Nat × Nat) => (c.1, c.2 / 2)).filter fun c => c.2 != 0
      let s1 := { s with
        migDecays := s.migDecays + 1
        migCounts := cs
        migAsked := s.migAsked.filter fun k => cs.any fun c => c.1 == k && Config.migrationThreshold 1 ≤ c.2 }
      s1.migPost)

/-! ## Invalidations -/

/-- The driver's write that starts an invalidation of some kind. -/
def State.invGo (s : State) (asid kind : Nat) : State :=
  s.regWrite 0x5000 (BitVec.ofNat 64 (asid % 256 + kind * 2 ^ 8 + 2 ^ 10))

/-- INVALIDATE_RANGE: of an ASID, the range of INVVA and INVLEN. -/
def execInvalidateRange (asid : Nat) (s : State) : Host.Outcome State Fault Refusal := .next (s.invGo asid 0)

/-- INVALIDATE_ASID -/
def execInvalidateAsid (asid : Nat) (s : State) : Host.Outcome State Fault Refusal := .next (s.invGo asid 1)

/-- INVALIDATE_ALL -/
def execInvalidateAll (s : State) : Host.Outcome State Fault Refusal := .next (s.invGo 0 2)

/-- ATS_INVALIDATION: the host's invalidation of a range of an ASID drops what ATS translated. -/
def execAtsInvalidation (va : DWord) (len : Nat) (asid : Nat) (s : State) : Host.Outcome State Fault Refusal :=
  .next (s.invalStart (some asid) va.toNat len true)

/-- An instruction of a group was translated before an invalidation began and has not been performed. -/
def Group.translatedBefore (g : Group) (limit : Nat) : Bool :=
  g.outstanding.any fun p => p.seq < limit && !p.locs.isEmpty

/-- An invalidation is finished: every access and every job translated with an old entry has been performed. -/
def State.invalDone (s : State) (v : Inval) : Bool :=
  let mine := fun (a : Nat) => match v.asid with | none => true | some b => a == b
  !(s.teams.any fun t => mine t.asid && t.groups.any fun g => g.translatedBefore v.limit) &&
  !(s.jobs.any fun j => j.phase == .started && j.uid < v.limit &&
    (match s.team? j.team with | some t => mine t.asid | none => false))

/-- INVALIDATION_COMPLETE: the first invalidation that is finished; the driver's one is signalled on vector 5 (R371). -/
def execInvalidationComplete (s : State) : Host.Outcome State Fault Refusal :=
  .next (match s.invals.find? s.invalDone with
    | none => s
    | some v =>
      let s1 := { s with invals := s.invals.erase v }
      if v.host then s1 else s1.msixSignal 5)

end Sys2Proof.Machine
end

