-- ==== Sys2Proof/Machine/Preempt.lean ====
section
/-! DEFINITION. Pre-emption (R357 to R361, R375): its start and end, the saving, the flushing and the restoring of teams. -/

namespace Sys2Proof.Machine

open Sys2Proof

/-! ## The driver's writes (R361, R375) -/

/-- PREEMPT_GO: a write to PREEMPT with GO. -/
def execPreemptGo (asid : Nat) (deadline : BitVec 32) (s : State) : Host.Outcome State Fault Refusal :=
  .next (s.regWrite 0x4000 (BitVec.ofNat 64 (asid % 256 + 2 ^ 8 + deadline.toNat * 2 ^ 32)))

/-- PREEMPT_SWITCH: with GO and SWITCH. -/
def execPreemptSwitch (asid : Nat) (deadline : BitVec 32) (s : State) : Host.Outcome State Fault Refusal :=
  .next (s.regWrite 0x4000 (BitVec.ofNat 64 (asid % 256 + 2 ^ 8 + 2 ^ 9 + deadline.toNat * 2 ^ 32)))

/-- PREEMPT_RESUME: with RESUME. -/
def execPreemptResume (asid : Nat) (s : State) : Host.Outcome State Fault Refusal :=
  .next (s.regWrite 0x4000 (BitVec.ofNat 64 (asid % 256 + 2 ^ 10)))

/-- A draining team whose deadline has come. -/
def State.deadlineDue (s : State) (t : Team) : Bool :=
  match t.mode with
  | .drain d => d ≤ s.clock
  | .running | .saving | .flushing => false

/-- PREEMPT_DEADLINE: a team in Drain that has not ended by D is saved. -/
def execPreemptDeadline (team : Nat) (s : State) : Host.Outcome State Fault Refusal :=
  .next (match s.team? team with
    | none => s
    | some t => if s.deadlineDue t then s.putTeam { t with mode := .saving } else s)

/-! ## Bindings of units that have to be placed again (R29) -/

/-- A launched team, whose binding is that of its grid. -/
def TaskInfo.launched (i : TaskInfo) : Bool := i.parent.isNone

/-- A unit under its present binding: a launched team has that of its grid. -/
def State.rebound (s : State) (i : TaskInfo) : TaskInfo :=
  if i.launched then match s.grid? i.grid with
    | some g => { i with cls := g.cls, removed := g.removed }
    | none => i
  else i

/-- Whether no class is left for a unit. -/
def TaskInfo.classLost (i : TaskInfo) : Bool := i.removed.getLsbD i.cls

/-- A unit is placed again: its grid fails when no class is left. -/
def State.placeAgain (s : State) (i : TaskInfo) : State :=
  match s.grid? i.grid with
  | none => s
  | some g =>
    if g.failed.isSome then s
    else if i.classLost then s.failGrid g.uid cClassLost
    else s.dealOne i

/-! ## TEAM_SAVE (R358, R374, R375) -/

/-- A team has no started job, and no outstanding instruction of it would complete. -/
def State.settled (s : State) (t : Team) : Bool :=
  !s.jobs.any (fun j => j.team == t.info.uid && j.phase == .started) &&
  !t.groups.any fun g => g.pending.any (s.finishes t.info.uid g.num)

/-- The rings are at rest: no commit would push, and the slots released are written back. -/
def State.ringsRest (s : State) (t : Team) : Bool :=
  !t.rings.any fun p => s.mayPushRing t p.1 p.2 || (match p.2.sub with
    | some b => b.out && b.written < b.due
    | none => false)

/-- Bytes of the save area that a team takes. -/
def Header.saveSize (h : Header) : Nat := 65536 + (h.footprint + 65535) / 65536 * 65536

/-- Bytes of the save area of a context that saved teams hold. -/
def State.saveUsed (s : State) (asid : Nat) : Nat := ((s.saved.filter fun t => t.asid == asid).map fun t => t.info.header.saveSize).sum

/-- The home is at work on a line of the frames of a team's groups (R331). -/
def State.framesBusy (s : State) (t : Team) : Bool :=
  t.groups.any fun g => (g.handler.isSome || g.dbg.isSome) && s.runBusy t.asid (s.frameAddr t g) 0x5200

/-- The home is at work on a line that the saving of a team reads or writes (R331). -/
def State.saveBusy (s : State) (t : Team) : Bool :=
  s.framesBusy t || s.runBusy t.asid ((s.ctx t.asid).save.toNat + s.saveUsed t.asid) t.info.header.saveSize

/-- A team that is being saved has reached the point at which its state is written: what has started is complete, what is outstanding
is captured and fits into the replay queues or waits for its card, and its store streams are drained. -/
def State.saveReady (s : State) (t : Team) : Bool :=
  t.mode == .saving && s.settled t && s.ringsRest t &&
  t.groups.all (fun g => g.pending.all (fun p => p.job.isSome || p.capturable) && (g.pending.filter Pending.capturable).length ≤ 16) &&
  (!s.queues.any fun p => p.2.team == t.info.uid && p.2.store && !p.2.vecs.isEmpty && p.2.fault.isNone) && !s.saveBusy t

/-- The save area's bytes for a team are written. The spec does not lay them out: each is a free value (log entry 4), and what was saved
stands in `State.saved`. -/
def State.saveWrite (s : State) (t : Team) : Option State :=
  let c := s.ctx t.asid
  let n := t.info.header.saveSize
  let used := s.saveUsed t.asid
  if c.saveLen.toNat < used + n then none
  else
    let bs : List Byte := (List.range n).map fun i => Config.freeValue 8 (s.freeN + i)
    { s with freeN := s.freeN + n }.machineWrite t.agent (c.save.toNat + used) bs

/-- The trap frames of a team's stopped groups. -/
def State.readFrames (s : State) (t : Team) : List Group → Option (SMap (List Byte)) × State
  | [] => (some [], s)
  | g :: gs =>
    if g.handler.isNone && g.dbg.isNone then s.readFrames t gs
    else
      let r := s.machineRead t.agent (s.frameAddr t g) 0x5200
      match r.1 with
      | .error _ => (none, r.2)
      | .ok bs =>
        let q := r.2.readFrames t gs
        (q.1.map fun m => m.insert g.num bs, q.2)

/-- An outstanding instruction as a restored group issues it again; one that waits for its card stays as it is. -/
def Pending.again (p : Pending) : Pending :=
  if p.job.isSome then p else { p with locs := [], park := none, refused := [], replayed := true }

/-- A team as it is saved. -/
def State.savedTeam (s : State) (t : Team) (frames : SMap (List Byte)) : Team :=
  { t with
    info := s.rebound t.info
    groups := t.groups.map fun g => { g with pending := g.pending.map Pending.again }
    rings := t.rings.map fun p => (p.1, { p.2 with sub := p.2.sub.map fun b => { b with park := none, refused := [] } })
    started := s.clock - t.started
    frames := frames
    openJobs := s.jobs.filter fun j => j.team == t.info.uid
    bound := (s.queues.filter fun p => p.2.team == t.info.uid).map fun p => (p.1 % 16, { p.2 with park := none, refused := [] }) }

/-- A team goes into the save area. -/
def State.putSaved (s : State) (t : Team) (frames : SMap (List Byte)) : State :=
  { s with
    teams := s.teams.filter fun x => x.info.uid != t.info.uid
    saved := s.saved ++ [s.savedTeam t frames]
    jobs := s.jobs.filter fun j => j.team != t.info.uid
    queues := s.queues.filter fun p => p.2.team != t.info.uid
    manage := { s.manage with preempt := { s.manage.preempt with saved := s.manage.preempt.saved + 1 } } }

/-- A team that does not fit in the remaining save area stays (R375). -/
def State.stays (s : State) (t : Team) : State :=
  { s.putTeam { t with mode := .running } with manage := { s.manage with preempt := { s.manage.preempt with partialSave := true } } }

/-- TEAM_SAVE -/
def execTeamSave (team : Nat) (s : State) : Host.Outcome State Fault Refusal :=
  .next (match s.team? team with
    | none => s
    | some t =>
      if !s.saveReady t then s
      else match s.saveWrite t with
        | none => (s.stays t).preemptCheck
        | some s1 =>
          let r := s1.readFrames t t.groups
          match r.1 with
          | none => r.2.contextFatal t.asid
          | some fs =>
            let s2 := r.2.putSaved t fs
            (if (s2.rebound t.info).classLost then s2.failGrid t.info.grid cClassLost else s2).preemptCheck)

/-! ## TEAM_FLUSH (R110, R126, R360) -/

/-- An outstanding instruction completes sooner or later, whatever its team does no more: a memory instruction, a SPAWN or an ATOMDONE,
unless it or an older one waits for room in a queue that nothing will make. -/
def State.completesYet (s : State) (t : Team) (g : Group) (p : Pending) : Bool :=
  (Instr.isMem p.instr || (match p.instr with | .spawn _ _ | .atomdone _ _ _ => true | _ => false)) &&
  g.pending.all fun o => p.seq < o.seq || Here.roomFor ⟨t, g, g.strandFor o.sid⟩ s.queues o

/-- A team that stops for good has nothing left that will complete: what waits for a page or for its turn in memory completes first
(R110, R360). -/
def State.flushReady (s : State) (t : Team) : Bool :=
  t.mode == .flushing && s.settled t && !t.groups.any fun g => g.pending.any (s.completesYet t g)

/-- A resident team is discarded and, unless its grid has failed, its claims are voided and it is queued again. -/
def State.discard (s : State) (t : Team) : State :=
  match s.grid? t.info.grid with
  | none => s.removeTeam t.info.uid
  | some g =>
    if g.failed.isSome then s.removeTeam t.info.uid
    else (((s.voidClaims g.uid (some t.info.uid)).removeTeam t.info.uid).placeAgain (s.rebound t.info)).withholdAll

/-- TEAM_FLUSH -/
def execTeamFlush (team : Nat) (s : State) : Host.Outcome State Fault Refusal :=
  .next (match s.team? team with
    | none => s
    | some t =>
      if !s.flushReady t then s
      else
        let failed := match s.grid? t.info.grid with | some g => g.failed.isSome | none => true
        let s1 := s.discard t
        (if failed then s1
          else { s1 with manage := { s1.manage with preempt := { s1.manage.preempt with flushed := s1.manage.preempt.flushed + 1 } } }).preemptCheck)

/-! ## TEAM_RESTORE (R359) -/

/-- A saved team. -/
def State.savedTeam? (s : State) (uid : Nat) : Option Team := s.saved.find? fun t => t.info.uid == uid

/-- Groups that still hold a slot. -/
def Team.liveGroups (t : Team) : List Group := t.groups.filter fun g => !g.ended

/-- Jobs of a saved team that its old core's table held. -/
def Team.openAccepted (t : Team) : Nat := (t.openJobs.filter fun j => j.phase != .waiting).length

/-- A saved team fits on a core (R116); its queues and its rings are free there, and the table has room for its open jobs. -/
def State.fitsSaved (s : State) (core : Nat) (t : Team) : Bool :=
  s.coreHeld core + t.info.header.footprint ≤ storeRoom && t.liveGroups.length ≤ s.freeSlots core &&
  (t.info.header.mn == 0 || !(s.onCore core).any fun u => 0 < u.info.header.mn) &&
  t.bound.all (fun p => (s.queues.find (16 * core + p.1)).isNone) &&
  s.coreRings core + (t.rings.filter fun p => p.2.active).length ≤ 8 &&
  (s.jobs.filter fun j => j.core == core && j.phase != .waiting).length + t.openAccepted ≤ 32

/-- A saved team may be restored: its context is neither switched out nor being pre-empted. -/
def State.restorable (s : State) (t : Team) : Bool :=
  !(s.ctx t.asid).out && !(s.manage.preempt.busy && s.manage.preempt.asid == t.asid)

/-- The slots that a restored team's groups take, in group order. -/
def reslot : List Group → List Nat → List Group
  | [], _ => []
  | g :: gs, held =>
    if g.ended then g :: reslot gs held
    else { g with barrel := nextSlot held / 16, slot := nextSlot held % 16 } :: reslot gs (nextSlot held :: held)

/-- What still holds a strand that is restored: a BAR, at which it has arrived; every other instruction at which it was held is issued
afresh (R221, R307). -/
def Hold.kept : Hold → Option Hold
  | .barrier b => some (.barrier b)
  | _ => none

/-- A group that resumes: its forwarding windows are empty (R90), and what its strands were held at is issued afresh. -/
def Group.resumed (g : Group) (clock : Nat) : Group :=
  { g.modStrands fun x => { x with fwd := [], since := clock, refused := [], hold := x.hold.bind Hold.kept } with due := clock }

/-- A team as it resumes on a core. -/
def Team.resumed (t : Team) (core clock : Nat) (held : List Nat) : Team :=
  { t with
    core := core
    aliases := if t.aliases.contains t.core then t.aliases else t.aliases ++ [t.core]
    groups := (reslot t.groups held).map fun g => g.resumed clock
    started := clock - t.started
    mode := .running
    frames := []
    openJobs := []
    bound := [] }

/-- Writes the frames of a restored team where its groups' slots now have them. -/
def State.writeFrames (s : State) (t : Team) : SMap (List Byte) → Option State
  | [] => some s
  | (n, bs) :: rest => match t.group? n with
    | none => s.writeFrames t rest
    | some g => match s.machineWrite t.agent (s.frameAddr t g) bs with
      | none => none
      | some s1 => s1.writeFrames t rest

/-- An open job re-enters: one that a table held takes its edges afresh. -/
def State.reenter (s : State) (core : Nat) (j : Job) : State :=
  let j1 := { j with core := core, edges := [], park := none, refused := [] }
  if j.phase = .waiting then { s with jobs := s.jobs ++ [j1] }
  else
    let edges := (s.jobs.filter fun k => k.core == core && k.phase != .waiting).flatMap (s.edgesFrom j1)
    { s with jobs := s.jobs ++ [{ j1 with edges := edges }] }

/-- One saved team restored on a core. -/
def State.restoreOne (s : State) (core : Nat) (t : Team) : State :=
  let u := t.resumed core s.clock (s.slotsHeld core)
  let s1 := { s with
    saved := s.saved.filter fun x => x.info.uid != t.info.uid
    teams := s.teams ++ [u]
    queues := t.bound.foldl (fun (q : SMap QueueReg) (p : Nat × QueueReg) => q.insert (16 * core + p.1) p.2) s.queues }
  let s2 := t.openJobs.foldl (fun s j => s.reenter core j) s1
  match s2.writeFrames u t.frames with
  | some s3 => s3
  | none => s2.contextFatal t.asid

/-- The cores and teams of a restore: one team, or the saved members of its block on cores of one gallery, beginning with the core
named. -/
def State.restore? (s : State) (t : Team) (core : Nat) : Option (List (Nat × Team)) :=
  if !(coreNamed core && s.dieUp (coreDie core) && dieClass (coreDie core) == t.info.cls && s.restorable t) then none
  else if !t.info.inBlock then (if s.fitsSaved core t then some [(core, t)] else none)
  else
    let block := s.saved.filter fun x => sameBlock x.info t.info
    let cs := (galleryCores (coreDie core) (coreGallery core)).filter fun c => block.all fun x => s.fitsSaved c x
    if block.length ≤ cs.length && cs.head? == some core then some (cs.zip block) else none

/-- The home is at work on a line of a frame that a restore writes (R331). -/
def State.restoreBusy (s : State) (ps : List (Nat × Team)) : Bool :=
  ps.any fun p => s.framesBusy (p.2.resumed p.1 s.clock (s.slotsHeld p.1))

/-- TEAM_RESTORE -/
def execTeamRestore (team core : Nat) (s : State) : Host.Outcome State Fault Refusal :=
  .next (match s.savedTeam? team with
    | none => s
    | some t => match s.restore? t core with
      | none => s
      | some ps => if s.restoreBusy ps then s else ps.foldl (fun s p => s.restoreOne p.1 p.2) s)

end Sys2Proof.Machine
end

