-- ==== Sys2Proof/Machine/Messages.lean ====
section
/-! DEFINITION. The coherence protocol between dies and homes (R328 to R333, R340, Tables 19-5 to 19-7) and the tokens of a die (R326,
R327). Data is always current in `State.mem`; messages move states. -/

namespace Sys2Proof.Machine

open Sys2Proof

/-! ## Links (R330) -/

/-- A message sent to a die; a fenced die gets none. -/
def State.sendDown (s : State) (d : Nat) (m : DownMsg) : State :=
  if s.manage.fenced.getLsbD d then s else s.modDie d fun x => { x with down := x.down ++ [m] }

/-- The oldest message from a die, taken off its link. -/
def State.takeUp (s : State) (d : Nat) : State := s.modDie d fun x => { x with up := x.up.drop 1 }

/-- The oldest message to a die, taken off its link. -/
def State.takeDown (s : State) (d : Nat) : State := s.modDie d fun x => { x with down := x.down.drop 1 }

/-- The oldest message from a die. -/
def State.headUp (s : State) (d : Nat) : Option UpMsg := (s.die d).up.head?

/-- The oldest message to a die. -/
def State.headDown (s : State) (d : Nat) : Option DownMsg := (s.die d).down.head?

/-! ## The home's directory -/

/-- The state of a die for a line at its home. -/
def State.setDir (s : State) (line d : Nat) (st : DirState) (v : Option View) : State :=
  s.modDir line fun x =>
    let dies := x.dies.put (.i, none) d (st, v)
    { x with dies := dies, vs := dies.any fun p => p.2.2.isSome }

/-- The owner of a line other than a die. -/
def DirLine.ownerBut (x : DirLine) (d : Nat) : Option Nat := (x.dies.find? fun p => p.1 != d && owned p.2).map (·.1)

/-- The dies other than some that hold a line at full precision. -/
def DirLine.fullBut (x : DirLine) (but : List Nat) : List Nat := (x.dies.filter fun p => !but.contains p.1 && fullHeld p.2).map (·.1)

/-- The home enters a transient state (Table 19-7). -/
def State.enter (s : State) (line : Nat) (t : Transient) (req : Nat × UpMsg) (owner : Option Nat) (acks : List (Nat × Bool)) : State :=
  s.modDir line fun x => { x with trans := t, serving := some req, owner := owner, acks := acks, since := s.clock, reported := false }

/-- The home is at rest again. -/
def State.rest (s : State) (line : Nat) : State :=
  s.modDir line fun x => { x with trans := .stable, serving := none, owner := none, acks := [], since := 0, reported := false }

/-- The answer to a request in service. -/
def State.answer (s : State) (req : Nat × UpMsg) : State :=
  let d := req.1
  match req.2 with
  | .rds line v =>
    let others := (s.dirLine line).dies.any fun p => p.1 != d
    let st : DirState := if v.isSome || others then .s else .e
    (s.setDir line d st v).sendDown d (.data line st v)
  | .rdx line => (s.setDir line d .m none).sendDown d (.data line .m none)
  | .upg line => (s.setDir line d .m none).sendDown d (.grant line)
  | .wt line _ _ => s.sendDown d (.wtack line)
  | .wb _ | .ack _ | .fdata _ | .writtenBack _ => s

/-- INV to some dies. -/
def State.invAll (s : State) (line : Nat) (ds : List Nat) : State := ds.foldl (fun s d => s.sendDown d (.inv line)) s

/-- Serves a request for write permission: owner and other holders give it up first. -/
def State.serveExclusive (s : State) (line : Nat) (req : Nat × UpMsg) : State :=
  let d := req.1
  let x := s.dirLine line
  match x.ownerBut d with
  | some o =>
    let hs := x.fullBut [d, o]
    ((s.sendDown o (.fwdx line)).invAll line hs).enter line (if hs.isEmpty then .fwd else .fwdFan) req (some o) (hs.map fun h => (h, true))
  | none =>
    let hs := x.fullBut [d]
    if hs.isEmpty then (s.rest line).answer req else (s.invAll line hs).enter line .fan req none (hs.map fun h => (h, true))

/-- Performs a written-through store in the LLC and tells the dies whose rendering changed, as SUBUPD has it for the class through which it
was made (R323, R324, R329). -/
def State.serveThrough (s : State) (line cls : Nat) (cs : List (Nat × Byte)) (req : Nat × UpMsg) : State :=
  let old := s.mem.read (128 * line) 128
  let s1 := (s.homeWrite cs).llcPass (cs.filter fun c => hostBase ≤ c.1)
  let new := s1.mem.read (128 * line) 128
  let ds := (s1.dirLine line).dies.filter fun p => p.1 != req.1 &&
    (match p.2.2 with | some v => v.changed old new (cs.map fun c => c.1 % 128) | none => false)
  let upd := s1.manage.subupd.getLsbD cls
  let s2 := ds.foldl (fun s p => s.sendDown p.1 (if upd then .upd line else .inv line)) s1
  if ds.isEmpty then (s2.rest line).answer req
  else s2.enter line .fan req none (ds.map fun p => (p.1, !upd))

/-- Serves a request for data or permission once the LLC has the line. A die that asks again has dropped its copy silently, and a UPG
whose die's entry is I any more is an RDX (R332). -/
def State.serveData (s : State) (req : Nat × UpMsg) : State :=
  let d := req.1
  match req.2 with
  | .rds line _ =>
    let s1 := s.setDir line d .i none
    match (s1.dirLine line).ownerBut d with
    | some o => (s1.sendDown o (.fwds line)).enter line .fwd req (some o) []
    | none => (s1.rest line).answer req
  | .rdx line => (s.setDir line d .i none).serveExclusive line req
  | .upg line =>
    if fullHeld ((s.dirLine line).of d) then s.serveExclusive line req else s.serveExclusive line (d, .rdx line)
  | .wt line cls cs => s.serveThrough line cls cs req
  | .wb _ | .ack _ | .fdata _ | .writtenBack _ => s

/-- Serves a request (R331): a line that no die holds may be absent from the LLC, which the spec leaves to its replacement: a free
value (log entry 4). -/
def State.serve (s : State) (req : Nat × UpMsg) : State :=
  let line := req.2.line
  let fills : Bool := match req.2 with
    | .rds _ _ | .rdx _ => ((s.dirLine line).dies.filter fun p => p.1 != req.1).isEmpty
    | _ => false
  if fills then
    let s1 := { s with freeN := s.freeN + 1 }
    if Config.freeBool s.freeN then s1.enter line .fill req none [] else s1.serveData req
  else s.serveData req

/-- A message put into a line's queue: in order of arrival, those that arrive in one atrium clock in ascending die id (R331). -/
def queued (q : List (Nat × Nat × UpMsg)) (e : Nat × Nat × UpMsg) : List (Nat × Nat × UpMsg) :=
  let after := fun (x : Nat × Nat × UpMsg) => x.1 == e.1 && e.2.1 < x.2.1
  q.filter (fun x => !after x) ++ e :: q.filter after

/-- A request arrives: it waits in the queue of its line, which a home at rest serves from the next atrium clock on (log entry 36). -/
def State.arrive (s : State) (d : Nat) (m : UpMsg) : State :=
  s.modDir m.line fun x => { x with queue := queued x.queue (s.atriumNow, d, m) }

/-- The request in service has all that it waited for. -/
def State.finishServing (s : State) (line : Nat) : State :=
  match (s.dirLine line).serving with
  | some req => (s.rest line).answer req
  | none => s.rest line

/-- The owner has answered: the home waits for ACKs that are owed, or completes. -/
def State.forwarded (s : State) (line : Nat) : State :=
  if (s.dirLine line).acks.isEmpty then s.finishServing line
  else s.modDir line fun x => { x with trans := .fan, owner := none }

/-- An ACK of a die is counted. -/
def State.acked (s : State) (line d : Nat) : State :=
  let x := s.dirLine line
  let inv := x.acks.any fun a => a.1 == d && a.2
  let s1 := if inv then s.setDir line d .i none else s
  let s2 := s1.modDir line fun x => { x with acks := x.acks.filter fun a => a.1 != d }
  if x.acks.any (fun a => a.1 == d) && (s2.dirLine line).acks.isEmpty && x.trans == .fan then s2.finishServing line
  else s2

/-- The state of an owner that has supplied data. -/
def afterForward (req : Option (Nat × UpMsg)) (st : DirState) : DirState :=
  match req with
  | some (_, .rds _ _) => if st = .o then .o else .s
  | _ => .i

/-- The owner's answer: with the data (it keeps S or O after FWDS), or that it holds the line no more. -/
def State.ownerAnswers (s : State) (line d : Nat) (kept : Bool) : State :=
  let x := s.dirLine line
  if x.owner != some d || !(x.trans == .fwd || x.trans == .fwdFan) then s
  else
    let st := if kept then afterForward x.serving (x.of d).1 else .i
    (s.setDir line d st none).forwarded line

/-! ## Die to home -/

/-- Delivers the oldest message of a die's link when it is of the kind named. -/
def State.deliverUp (s : State) (d : Nat) (f : UpMsg → Option (State → State)) : State :=
  match (s.headUp d).bind f with
  | some g => g (s.takeUp d)
  | none => s

/-- RDS -/
def execRds (die : Nat) (s : State) : Host.Outcome State Fault Refusal :=
  .next (s.deliverUp die fun m => match m with | .rds _ _ => some fun s => s.arrive die m | _ => none)

/-- RDX -/
def execRdx (die : Nat) (s : State) : Host.Outcome State Fault Refusal :=
  .next (s.deliverUp die fun m => match m with | .rdx _ => some fun s => s.arrive die m | _ => none)

/-- UPG -/
def execUpg (die : Nat) (s : State) : Host.Outcome State Fault Refusal :=
  .next (s.deliverUp die fun m => match m with | .upg _ => some fun s => s.arrive die m | _ => none)

/-- WB: accepted in every home state (R333). -/
def execWb (die : Nat) (s : State) : Host.Outcome State Fault Refusal :=
  .next (s.deliverUp die fun m => match m with
    | .wb line => some fun s => (s.setDir line die .i none).sendDown die (.wback line)
    | _ => none)

/-- WT -/
def execWt (die : Nat) (s : State) : Host.Outcome State Fault Refusal :=
  .next (s.deliverUp die fun m => match m with | .wt _ _ _ => some fun s => s.arrive die m | _ => none)

/-- ACK -/
def execAck (die : Nat) (s : State) : Host.Outcome State Fault Refusal :=
  .next (s.deliverUp die fun m => match m with | .ack line => some fun s => s.acked line die | _ => none)

/-- FDATA -/
def execFdata (die : Nat) (s : State) : Host.Outcome State Fault Refusal :=
  .next (s.deliverUp die fun m => match m with | .fdata line => some fun s => s.ownerAnswers line die true | _ => none)

/-- WRITTEN_BACK -/
def execWrittenBack (die : Nat) (s : State) : Host.Outcome State Fault Refusal :=
  .next (s.deliverUp die fun m => match m with | .writtenBack line => some fun s => s.ownerAnswers line die false | _ => none)

/-! ## Home to die -/

/-- Delivers the oldest message to a die when it is of the kind named. -/
def State.deliverDown (s : State) (d : Nat) (f : DownMsg → Option (State → State)) : State :=
  match (s.headDown d).bind f with
  | some g => g (s.takeDown d)
  | none => s

/-- A die comes to hold a line, all its tokens in the die cache; what it asked for is answered. -/
def State.dieGets (s : State) (d line : Nat) (st : DirState) (v : Option View) : State :=
  s.modDieLine d line fun x => { x with state := st, view := v, want := none, tokens := ⟨[], none⟩ }

/-- A die drops its copy; a request of its own stays outstanding (R332). -/
def State.dieDrops (s : State) (d line : Nat) : State :=
  s.modDieLine d line fun x => { x with state := .i, view := none, tokens := ⟨[], none⟩ }

/-- A die's knowledge of a line. -/
def State.dieKnows (s : State) (d line : Nat) : DieLine := (s.die d).lines.get DieLine.reset line

/-- DATA -/
def execData (die : Nat) (s : State) : Host.Outcome State Fault Refusal :=
  .next (s.deliverDown die fun m => match m with | .data line st v => some fun s => s.dieGets die line st v | _ => none)

/-- GRANT: the die enters M. -/
def execGrant (die : Nat) (s : State) : Host.Outcome State Fault Refusal :=
  .next (s.deliverDown die fun m => match m with
    | .grant line => some fun s => s.modDieLine die line fun x => { x with state := .m, view := none, want := none }
    | _ => none)

/-- INV: the die drops its copy and sends ACK. -/
def execInv (die : Nat) (s : State) : Host.Outcome State Fault Refusal :=
  .next (s.deliverDown die fun m => match m with
    | .inv line => some fun s => (s.dieDrops die line).sendUp die (.ack line)
    | _ => none)

/-- UPD: the die replaces its rendering, and sends ACK. -/
def execUpd (die : Nat) (s : State) : Host.Outcome State Fault Refusal :=
  .next (s.deliverDown die fun m => match m with | .upd line => some fun s => s.sendUp die (.ack line) | _ => none)

/-- The die holds a line as its owner, outside its write-back buffer. -/
def DieLine.supplies (x : DieLine) : Bool := (x.state == .e || x.state == .m || x.state == .o) && !x.inBuffer

/-- FWDS: the owner supplies the data and keeps S or O (R340); a line evicted or in the write-back buffer is answered WRITTEN_BACK. -/
def execFwds (die : Nat) (s : State) : Host.Outcome State Fault Refusal :=
  .next (s.deliverDown die fun m => match m with
    | .fwds line => some fun s =>
      if (s.dieKnows die line).supplies then
        (s.modDieLine die line fun x => { x with state := if x.state = .o then .o else .s }).sendUp die (.fdata line)
      else s.sendUp die (.writtenBack line)
    | _ => none)

/-- FWDX: the owner supplies the data and goes to I. -/
def execFwdx (die : Nat) (s : State) : Host.Outcome State Fault Refusal :=
  .next (s.deliverDown die fun m => match m with
    | .fwdx line => some fun s =>
      if (s.dieKnows die line).supplies then (s.dieDrops die line).sendUp die (.fdata line)
      else s.sendUp die (.writtenBack line)
    | _ => none)

/-- WBACK: the write-back buffer is free. -/
def execWback (die : Nat) (s : State) : Host.Outcome State Fault Refusal :=
  .next (s.deliverDown die fun m => match m with
    | .wback line => some fun s => s.modDieLine die line fun x => { x with inBuffer := false }
    | _ => none)

/-- WTACK: the store that was written through is performed; the line is at rest for the instruction that waits for it (R329). -/
def execWtack (die : Nat) (s : State) : Host.Outcome State Fault Refusal :=
  .next (s.deliverDown die fun m => match m with | .wtack _ => some fun s => s | _ => none)

/-! ## Homes at work -/

/-- A message of a line is on a link. -/
def State.onLink (s : State) (line : Nat) : Bool :=
  s.dies.any fun x => x.up.any (fun m => m.line == line) || x.down.any fun m => m.line == line

/-- Serves the head of a line's queue, which has been taken off it: a die's request, or a store that the atrium makes, for which no message
of the line may be under way. -/
def State.serveHead (s : State) (line : Nat) (req : Nat × UpMsg) : State :=
  if req.1 < 12 then s.serve req
  else match req.2 with
    | .wt _ cls cs =>
      let rest := (s.dirLine line).queue
      let s1 := s.modDir line fun x => { x with queue := [] }
      (((s1.homeWrite cs).coherentAfter s1.mem .home (fun _ => cls) cs)).modDir line fun x => { x with queue := rest }
    | _ => s

/-- HOME_QUEUE_SERVE: a home at rest serves the head of a line's queue (R331). -/
def execHomeQueueServe (line : Nat) (s : State) : Host.Outcome State Fault Refusal :=
  .next (
    let x := s.dirLine line
    match x.queue with
    | [] => s
    | (at_, req) :: rest =>
      if x.trans != .stable || s.atriumNow ≤ at_ || (12 ≤ req.1 && s.onLink line) then s
      else (s.modDir line fun x => { x with queue := rest }).serveHead line req)

/-- HOME_FILL_DATA: data from HBM or the host arrives, and the request is served. -/
def execHomeFillData (line : Nat) (s : State) : Host.Outcome State Fault Refusal :=
  .next (
    let x := s.dirLine line
    match x.trans, x.serving with
    | .fill, some req => (s.rest line).serveData req
    | _, _ => s)

/-- A code of a home state. -/
def Transient.code : Transient → Nat
  | .stable => 0
  | .fill => 1
  | .fwd => 2
  | .fan => 3
  | .fwdFan => 4

/-- A line has been transient for longer than 65 536 atrium clocks (R5, R386) and has not been recorded. -/
def State.transientDue (s : State) (line : Nat) : Bool :=
  let x := s.dirLine line
  x.trans != .stable && !x.reported && 3 * 65536 < 4 * (s.clock - x.since)

/-- HOME_TRANSIENT_RECORD -/
def execHomeTransientRecord (line : Nat) (s : State) : Host.Outcome State Fault Refusal :=
  .next (
    let x := s.dirLine line
    if s.transientDue line then (s.modDir line fun x => { x with reported := true }).record 9 ⟨.atrium, 0⟩ [line, x.trans.code, x.queue.length]
    else s)

/-! ## Tokens (R326, R327) -/

/-- The die may write the line (Table 19-5). -/
def DieLine.mayWrite (x : DieLine) : Bool := x.view.isNone && (x.state == .e || x.state == .m)

/-- The die may read the line at full precision. -/
def DieLine.mayRead (x : DieLine) : Bool := x.view.isNone && x.state != .i

/-- The die holds what an access needs: write permission, a copy at full precision, or for a view load a copy at its view (Table 19-5). -/
def DieLine.serves (x : DieLine) (write : Bool) (v : Option View) : Bool :=
  if write then x.mayWrite else x.mayRead || (x.state != .i && v.isSome && x.view == v)

/-- The request that a die sends for an access that it cannot serve: an upgrade for a line held at full precision, else a read, at the view
of a view load; a copy at another view is dropped first (R322, R330). -/
def State.askHome (s : State) (d line : Nat) (write : Bool) (v : Option View) : State :=
  let x := s.dieKnows d line
  if x.want.isSome || s.manage.fenced.getLsbD d || 12 ≤ d then s
  else
    let m : UpMsg := if !write then .rds line v else if x.mayRead then .upg line else .rdx line
    (s.modDieLine d line fun x => if x.view.isSome then { x with state := .i, view := none, want := some m } else { x with want := some m }).sendUp d m

/-- A line that a die cache evicts to make room: which, if any, its replacement decides, a free value (log entry 4). S and E go
silently; a line in M or O is kept in the write-back buffer until WBACK (R330). -/
def State.evict (s : State) (d keep : Nat) : State :=
  let ls := ((s.die d).lines.filter fun p => p.1 != keep && p.2.state != .i && p.2.want.isNone && !p.2.inBuffer && !s.lineBusy p.1).map (·.1)
  let n := (Config.freeValue 64 s.freeN).toNat
  let s1 := { s with freeN := s.freeN + 1 }
  match ls[n]? with
  | none => s1
  | some line =>
    let st := (s1.dieKnows d line).state
    if st = .m ∨ st = .o then
      ((s1.dieDrops d line).modDieLine d line fun x => { x with inBuffer := true }).sendUp d (.wb line)
    else s1.dieDrops d line

/-- Tokens of a line moved to a core of a die that holds it. -/
def State.moveTokens (s : State) (core line : Nat) (all : Bool) : State :=
  s.modDieLine (coreDie core) line fun x => { x with tokens := x.tokens.take core all }

/-- The accesses outstanding on a core to a COHERENT line. -/
def State.accessesTo (s : State) (core line : Nat) : List Pending :=
  (s.teams.filter fun t => t.core == core).flatMap fun t => t.groups.flatMap fun g => g.pending.filter fun p =>
    (locPlaces p.locs).any fun x => x.mt == 0 && lineOf x.key == line

/-- The view at which a core's oldest access to a line reads it (R320). -/
def State.viewWanted (s : State) (core line : Nat) : Option View :=
  match s.accessesTo core line with
  | p :: _ => match p.instr with
    | .vldt _ _ _ _ v _ _ _ => some (viewOf p.fmts v)
    | _ => none
  | [] => none

/-- Counts a request of a core for tokens that has failed (R327). -/
def DieState.failed (x : DieState) (core line : Nat) : DieState :=
  let old := x.tries.get (0, 0) core
  { x with tries := x.tries.put (0, 0) core (line, if old.1 = line then min 4 (old.2 + 1) else 1) }

/-- TOKEN_REQUEST: a core's request for tokens: the holders on its die move them, when the die may give the access and serves no other core's
persistent request for the line; else the request fails, the die asks the home, and its cache may evict a line. -/
def execTokenRequest (core line : Nat) (write : Bool) (s : State) : Host.Outcome State Fault Refusal :=
  .next (
    let d := coreDie core
    let x := s.dieKnows d line
    let v := if write then none else s.viewWanted core line
    if !coreNamed core then s
    else if s.slotBars core line then s.modDie d fun x => x.failed core line
    else if x.serves write v then
      (if x.view.isSome then s else s.moveTokens core line write).modDie d fun x => { x with tries := x.tries.put (0, 0) core (0, 0) }
    else
      let s1 := s.modDie d fun x => x.failed core line
      if x.want.isSome then s1 else (s1.askHome d line write v).evict d line)

/-- The persistent request that a die cache serves: the one in service, else the next, ascending, after the last core served (R327). -/
def DieState.nextPersistent (x : DieState) : Option Persistent :=
  match x.served.bind fun c => x.persistent.find? fun p => p.core == c with
  | some p => some p
  | none => match firstMin (fun a b => a.core < b.core) (x.persistent.filter fun p => x.lastServed < p.core) with
    | some p => some p
    | none => firstMin (fun a b => a.core < b.core) x.persistent

/-- Serves a persistent request of a die until the core has performed its access: every holder sends its tokens to the core when the die may
give the access; else the die asks the home. The slot of a core that has no access to the line any more is freed. -/
def State.servePersistent (s : State) (d : Nat) : State :=
  match (s.die d).nextPersistent with
  | none => s
  | some p =>
    if (s.accessesTo p.core p.line).isEmpty then s.freeSlot (.core p.core) p.line
    else
      let s1 := s.modDie d fun x => { x with served := some p.core }
      let v := if p.write then none else s.viewWanted p.core p.line
      if (s.dieKnows d p.line).serves p.write v then
        if (s.dieKnows d p.line).view.isSome then s1 else s1.moveTokens p.core p.line true
      else s1.askHome d p.line p.write v

/-- PERSISTENT_REQUEST: a core whose requests for a line have failed four times takes its slot of the die, unless it holds it, and the slots
are served in turn (R327). -/
def execPersistentRequest (core line : Nat) (write : Bool) (s : State) : Host.Outcome State Fault Refusal :=
  .next (
    let d := coreDie core
    let x := s.die d
    if !coreNamed core || !s.dieUp d then s
    else
      let due := x.tries.get (0, 0) core == (line, 4) && !(s.accessesTo core line).isEmpty && !x.persistent.any fun p => p.core == core
      let s1 := if due then s.modDie d fun x => { x with
          persistent := x.persistent ++ [(⟨core, line, write⟩ : Persistent)]
          tries := x.tries.put (0, 0) core (0, 0) }
        else s
      s1.servePersistent d)

end Sys2Proof.Machine
end

