-- ==== Sys2Proof/Machine/Failures.lean ====
section
/-! DEFINITION. Failures: the fencing of a die (R24, R334, R365, R368), its teams (R29, R365), ports and stacks (R367, R372), and the
containment of errors (R362, R363, R388, Table 21-9). -/

namespace Sys2Proof.Machine

open Sys2Proof

/-! ## Changes of READY and FENCED -/

/-- What a bit of READY stands for, as the source of a record (Table 23-1). -/
def readySource (n : Nat) : Source :=
  if n = 0 then ⟨.toard, 0⟩ else if n = 1 then ⟨.atrium, 0⟩
  else if n < 14 then ⟨.die, n - 2⟩ else if n < 22 then ⟨.stack, n - 14⟩ else ⟨.port, n - 22⟩

/-- What a bit of FENCED stands for (Table 23-1). -/
def fencedSource (n : Nat) : Source := if n < 12 then ⟨.die, n⟩ else ⟨.stack, n - 12⟩

/-- A change of READY or FENCED is recorded and signalled on vector 1 (R371, Table 23-6b). -/
def State.readinessChange (s : State) (src : Source) : State :=
  (s.record 2 src [s.manage.ready.toNat, s.manage.fenced.toNat]).msixSignal 1

/-- A bit of a doubleword set. -/
def withBit (d : DWord) (n : Nat) : DWord := d ||| BitVec.ofNat 64 (2 ^ n)

/-- A FENCED bit set. -/
def State.fenceBit (s : State) (n : Nat) : State :=
  { s with manage := { s.manage with fenced := withBit s.manage.fenced n } }.readinessChange (fencedSource n)

/-- READY bits set. -/
def State.readyBit (s : State) (n : Nat) : State :=
  { s with manage := { s.manage with ready := withBit s.manage.ready n } }.readinessChange (readySource n)

/-! ## The homes when a die is fenced (R334) -/

/-- A die's copy was the only current one: it was O, or M without view holders, whose stores home performs (R329, Table 19-5). -/
def DirLine.onlyAt (x : DirLine) (d : Nat) : Bool := (x.of d).1 == .o || ((x.of d).1 == .m && !x.vs)

/-- The request in service was the fenced die's own: nobody waits for it. The dies that owe an answer are taken to have given it. -/
def State.abandon (s : State) (line : Nat) (x : DirLine) : State :=
  let s1 := (x.acks.filter (·.2)).foldl (fun s a => s.setDir line a.1 .i none) s
  let s2 := match x.owner with
    | some o => s1.setDir line o (afterForward x.serving (x.of o).1) none
    | none => s1
  s2.rest line

/-- One line at its home when a die is fenced. -/
def State.fenceLine (s : State) (d line : Nat) : State :=
  let x := s.dirLine line
  let s1 := if x.onlyAt d then s.poisonLine line else s
  let s2 := s1.modDir line fun y => { y with queue := y.queue.filter fun q => q.1 != d }
  if (match x.serving with | some q => q.1 == d | none => false) then (s2.abandon line x).setDir line d .i none
  else
    let s3 := s2.acked line d
    if x.owner == some d then ((s3.poisonLine line).ownerAnswers line d false).setDir line d .i none
    else s3.setDir line d .i none

/-- A level belongs to a die. -/
def CacheLevel.onDie (l : CacheLevel) (d : Nat) : Bool :=
  match l with
  | .l1 c => coreDie c == d
  | .die e => e == d
  | .llc => false
  | .const c => coreDie c == d

/-- The homes and the caches when a die is fenced: what only the die held is lost (R334, R368). -/
def State.fenceMemory (s : State) (d : Nat) : State :=
  let s1 := (s.dir.map (·.1)).foldl (fun s line => s.fenceLine d line) s
  { s1 with copies := s1.copies.filter fun c => !c.level.onDie d }.modDie d fun x =>
    { x with up := [], down := [], lines := [], tries := [], persistent := [], served := none }

/-! ## The teams of a failed die (R29, R365) -/

/-- A team resident on the failed die may be flushed. -/
def Team.flushable (t : Team) : Bool := t.info.header.idem && !t.spawned

/-- One resident team of the failed die: a team of a failed grid goes; one that may be flushed is discarded, completing nothing, and waits
to be rebound; any other fails its grid. -/
def State.dieTeam (s : State) (t : Team) : State × List TaskInfo :=
  match s.grid? t.info.grid with
  | none => (s.removeTeam t.info.uid, [])
  | some g =>
    if g.failed.isSome then (s.removeTeam t.info.uid, [])
    else if t.flushable then ((s.voidClaims g.uid (some t.info.uid)).removeTeam t.info.uid, [t.info])
    else (((s.voidClaims g.uid (some t.info.uid)).failGrid g.uid cClassLost).removeTeam t.info.uid, [])

/-- The resident teams of the failed die; the tasks that are to be placed again. -/
def State.dieTeams (s : State) : List Team → State × List TaskInfo
  | [] => (s, [])
  | t :: ts =>
    let r := s.dieTeam t
    let q := r.1.dieTeams ts
    (q.1, r.2 ++ q.2)

/-- One grid is rebound after a class is removed from its choices (R29): with no class left it keeps the old one, which is removed. -/
def State.rebindGrid (s : State) (old : Nat) (g : Grid) : State :=
  if g.failed.isSome || g.cls != old then s
  else
    let removed := g.removed ||| BitVec.ofNat 4 (2 ^ old)
    let cls := (s.rebindClass g.header.contract removed old).getD old
    s.modGrid g.uid fun g => { g with removed := removed, cls := cls }

/-- The binding of a unit that has to be placed: that of its grid; its own, rebound when its class is the one removed, when it was
spawned. -/
def State.rebindTask (s : State) (old : Nat) (i : TaskInfo) : TaskInfo :=
  if i.launched then s.rebound i
  else if i.cls != old then i
  else
    let removed := i.removed ||| BitVec.ofNat 4 (2 ^ old)
    { i with removed := removed, cls := (s.rebindClass i.header.contract removed old).getD old }

/-- Saved teams of a class are rebound; the grid of one that has no class left fails. -/
def State.rebindSaved (s : State) (old : Nat) : State :=
  let ts := s.saved.filter fun t => t.info.cls == old
  let s1 := { s with saved := s.saved.map fun (t : Team) => if t.info.cls = old then { t with info := s.rebindTask old t.info } else t }
  ts.foldl (fun s t => if (s.rebindTask old t.info).classLost then s.failGrid t.info.grid cClassLost else s) s1

/-- A SPAWN that has made some of its children: those to come are rebound as these are. -/
def State.rebindSpawn (s : State) (old asid : Nat) (p : Pending) : Pending :=
  match p.instr, s.header? asid p.sa.toNat with
  | .spawn _ _, some hd =>
    if p.stage.2.1 = old + 1 then
      let removed := BitVec.ofNat 4 p.stage.2.2 ||| BitVec.ofNat 4 (2 ^ old)
      { p with stage := (p.stage.1, (s.rebindClass hd.contract removed old).getD old + 1, removed.toNat) }
    else p
  | _, _ => p

/-- The resident teams on surviving dies: a spawned one carries its own binding, which changes for when it is saved or flushed, and so does
that of the children it is spawning; each finishes where it is (R29). -/
def State.rebindResident (s : State) (old : Nat) : State :=
  { s with teams := s.teams.map fun (t : Team) => { t with
      info := if t.info.launched then t.info else s.rebindTask old t.info
      groups := t.groups.map fun g => g.mapPending (s.rebindSpawn old t.asid) } }

/-- The units of a class that wait or were flushed are rebound and dealt again in their order. -/
def State.rebindAll (s : State) (d : Nat) (flushed : List TaskInfo) : State :=
  let old := dieClass d
  let s1 := (s.grids.foldl (fun s g => s.rebindGrid old g) s).rebindResident old
  let moves := fun (k : Task) => k.info.cls == old || Place.onDie k.place == d
  let is := ((s1.tasks.filter moves).map (·.info) ++ flushed).map (s1.rebindTask old)
  let bad := (s1.tasks.filter fun k => moves k && k.poisoned).map fun k => k.info.uid
  let s2 := is.foldl State.placeAgain ({ s1 with tasks := s1.tasks.filter fun k => !moves k }.rebindSaved old)
  ({ s2 with tasks := s2.tasks.map fun (k : Task) => if bad.contains k.info.uid then { k with poisoned := true } else k } : State).withholdAll

/-- A team of the failed die that waits for its children only: its streams and its stagers are part of the die and do nothing more (R368). -/
def State.silence (s : State) (t : Team) : State :=
  { s with
    teams := s.teams.map fun (x : Team) =>
      if x.info.uid = t.info.uid then { x with rings := x.rings.map fun p => (p.1, { p.2 with sub := none, commits := [] }) } else x
    queues := s.queues.filter fun p => p.2.team != t.info.uid }

/-- THE FAILURE OF A DIE (R334, R365): it is fenced, what only it held is lost, its claims are released, and its teams are flushed or fail
their grids; teams bound to its class that wait are rebound. A die fenced already changes nothing (log entry 25). -/
def State.failDie (s : State) (d : Nat) : State :=
  if 12 ≤ d || s.manage.fenced.getLsbD d then s
  else
    let s1 := ((s.record 5 ⟨.die, d⟩ [d]).fenceBit d).fenceMemory d
    let here := s1.teams.filter fun t => coreDie t.core == d
    let r := ((here.filter s1.over).foldl State.silence s1).dieTeams (here.filter fun t => !s1.over t)
    (r.1.rebindAll d r.2).preemptCheck

/-- DIE_FAILURE -/
def execDieFailure (die : Nat) (s : State) : Host.Outcome State Fault Refusal := .next (s.failDie die)

/-- LINK_MODULES_LOST: the link goes on with the modules that remain; with none left the die is fenced (R24). -/
def execLinkModulesLost (die n : Nat) (s : State) : Host.Outcome State Fault Refusal :=
  .next (
    if 12 ≤ die || n = 0 || (s.die die).modules = 0 then s
    else
      let s1 := (s.modDie die fun x => { x with modules := x.modules - n }).record 6 ⟨.die, die⟩ [die, n]
      if (s1.die die).modules = 0 then s1.failDie die else s1)

/-! ## Ports and stacks -/

/-- UALINK_PORT_LOST: the last port toward a package is lost; its accesses take LINK_LOST from then on (R367). -/
def execUalinkPortLost (port pkg : Nat) (s : State) : Host.Outcome State Fault Refusal :=
  .next (
    let s1 := if port < 8 then { s with manage := { s.manage with ready := s.manage.ready &&& ~~~BitVec.ofNat 64 (2 ^ (22 + port)) } } else s
    { s1 with records := { s1.records with lostPackages := addNat pkg s1.records.lostPackages } }.readinessChange ⟨.port, port⟩)

/-- STACK_FAILURE: the stack's FENCED bit is set (R372, Table 23-1). -/
def execStackFailure (stack : Nat) (s : State) : Host.Outcome State Fault Refusal :=
  .next (if 8 ≤ stack || s.manage.fenced.getLsbD (12 + stack) then s else s.fenceBit (12 + stack))

/-! ## Errors (R362, Table 21-9) -/

/-- ERROR_CORRECTABLE: corrected, recorded, and without any other effect. -/
def execErrorCorrectable (source : Nat) (s : State) : Host.Outcome State Fault Refusal := .next (s.record 3 ⟨.unit, source⟩ [source])

/-- The structure of an error as its record states it. -/
def ErrSite.code : ErrSite → List Nat
  | .queueSram u => [0, u]
  | .counterOneCopy n => [1, n]
  | .counterBoth n a => [2, n, a]
  | .coreRow t r => [3, t, r]
  | .tile t n => [4, t, n]
  | .accumulator t n => [5, t, n]
  | .cache (.l1 c) l => [6, c, l]
  | .cache (.die d) l => [7, d, l]
  | .memoryLine l => [8, l]
  | .linkFlit d => [9, d]
  | .check p l => [10, p, l]
  | .contextFatal a => [11, a]

/-- The core of a team's rows, as the source of a record. -/
def State.coreSource (s : State) (team : Nat) : Source := ⟨.core, match s.team? team with | some t => t.core | none => 0⟩

/-- The source of the record of an error. -/
def State.errorSource (s : State) : ErrSite → Source
  | .queueSram _ | .counterOneCopy _ | .counterBoth _ _ | .memoryLine _ => ⟨.atrium, 0⟩
  | .coreRow t _ | .tile t _ | .accumulator t _ => s.coreSource t
  | .cache (.l1 c) _ => ⟨.core, c⟩
  | .cache (.die d) _ | .linkFlit d => ⟨.die, d⟩
  | .check p _ => ⟨.place, p⟩
  | .contextFatal a => ⟨.context, a⟩

/-- The task entry of a unit is poisoned: the launched teams of a grid share their grid's entry (R115). -/
def State.poisonEntry (s : State) (uid : Nat) : State :=
  match s.tasks.find? (fun k => k.info.uid == uid) with
  | none => s
  | some k =>
    { s with tasks := s.tasks.map fun (x : Task) =>
        if x.info.uid = uid ∨ (k.info.launched ∧ x.info.launched ∧ x.info.grid = k.info.grid) then { x with poisoned := true } else x }

/-- An error in a cache: a clean line is dropped and fetched again; a dirty one is poisoned at home. While messages of the line are under way
its home hears of the loss from the die's answers. -/
def State.cacheError (s : State) (c : CacheSite) (line : Nat) : State :=
  let level : CacheLevel := match c with | .l1 k => .l1 k | .die d => .die d
  let d := match c with | .l1 k => coreDie k | .die d => d
  let s1 := match s.copyAt level line with
    | some k => (if k.dirty = 0 then s else s.poisonLine line).dropCopy level line
    | none => s
  let x := s.dieKnows d line
  let dirty := (x.state == .m || x.state == .o) && !(s.dirLine line).vs && (match c with
    | .l1 k => x.tokens.owner == some k
    | .die _ => true)
  if !dirty then s1
  else if s.lineBusy line then (s1.poisonLine line).dieDrops d line
  else (s1.poisonLine line).hold line d .i none

/-- The containment of an uncorrectable error. -/
def State.contain (s : State) (e : ErrSite) : State :=
  match e with
  | .queueSram u => s.poisonEntry u
  | .counterOneCopy _ => s
  | .counterBoth n a => ({ s with freeN := s.freeN + 1 }.putCounter n (Config.freeValue 64 s.freeN)).contextFatal a
  | .coreRow t r => s.modTeam t fun t => { t with rowPoison := addNat r t.rowPoison }
  | .tile t n => s.modTeam t fun t => { t with tiles := t.tiles.modify n fun x => { x with poison := true } }
  | .accumulator t n => s.modTeam t fun t => { t with accs := t.accs.modify n fun x => { x with poison := true } }
  | .cache c l => s.cacheError c l
  | .memoryLine l => s.poisonLine l
  | .linkFlit _ => s
  | .check p l => (s.poisonLine l).record 12 ⟨.place, p⟩ [p, l]
  | .contextFatal a => s.contextFatal a

/-- ERROR_UNCORRECTABLE: recorded, and contained where it was found. A failed check has a record of its own kind (R388). -/
def execErrorUncorrectable (site : ErrSite) (s : State) : Host.Outcome State Fault Refusal :=
  .next (match site with
    | .check _ _ => s.contain site
    | e => (s.record 4 (s.errorSource e) (ErrSite.code e)).contain e)

end Sys2Proof.Machine
end

