-- ==== Sys2Proof/Machine/HostAccess.lean ====
section
/-! DEFINITION. Accesses from outside the package: BAR2 and register writes by the host (R6, R371), other packages over UALink (R338, R379,
R388), and the governor's windows (R389). -/

namespace Sys2Proof.Machine

open Sys2Proof

/-! ## Device memory at its home -/

/-- Lines of a run of device memory. -/
def linesIn (off n : Nat) : List Nat := if n = 0 then [] else (List.range (lineOf (off + n - 1) - lineOf off + 1)).map fun i => lineOf off + i

/-- Some line of a run is poisoned. -/
def State.anyPoison (s : State) (off n : Nat) : Bool := (linesIn off n).any s.poisoned

/-- Owners of the lines of a run supply their data (R340). -/
def State.gatherHome (s : State) (off n : Nat) : State := (linesIn off n).foldl State.dirReadHome s

/-- The home is at work on a line of a run of device memory: an access from outside waits (R331). -/
def State.outsideBusy (s : State) (off n : Nat) : Bool := s.busyLines.any fun l => (linesIn off n).contains l

/-- A read at the home slices from outside the dies: what the caller gets, and whether it comes with the poison indication (R388). -/
def State.outsideRead (s : State) (off n : Nat) : State :=
  if s.outsideBusy off n then s
  else
    let bs := (List.range n).map fun i => if off + i < s.manage.memSize then s.mem.byte (off + i) else 0xFF
    let bad := s.anyPoison off (min n (s.manage.memSize - off))
    let s1 := s.gatherHome off (min n (s.manage.memSize - off))
    { s1 with records := { s1.records with lastRead := bs, lastPoison := bad } }

/-- The class of a line that is written from outside (R324; log entry 36): that of a leaf that the translation caches hold for it. -/
def State.lineClass (s : State) (line : Nat) : Nat :=
  match s.tlb.find? (fun e =>
    let b := match e.hostBase with | some h => hostBase + h | none => pteFrame e.leaf
    b ≤ 128 * line && 128 * line < b + e.size) with
  | some e => pteCls e.leaf
  | none => 0

/-- A write at the home slices from outside the dies; one that comes with poison poisons its lines (R388). -/
def State.outsideWrite (s : State) (off : Nat) (bs : List Byte) (ep : Bool) : State :=
  if s.outsideBusy off bs.length then s
  else
    let cs := (cellsAt off bs).filter fun c => c.1 < s.manage.memSize
    let s1 := s.homeWrite cs
    let s2 := s1.coherentAfter s.mem .home s1.lineClass cs
    if ep then (linesOf cs).foldl State.poisonLine s2 else s2

/-! ## The host -/

/-- The size of BAR2 (R371). -/
def bar2Size : Nat := 2 ^ 39

/-- HOST_BAR2_READ -/
def execHostBar2Read (off n : Nat) (s : State) : Host.Outcome State Fault Refusal :=
  .next (if bar2Size < off + n then s else s.outsideRead off n)

/-- HOST_BAR2_WRITE -/
def execHostBar2Write (off : Nat) (bytes : List Byte) (ep : Bool) (s : State) : Host.Outcome State Fault Refusal :=
  .next (if bar2Size < off + bytes.length then s else s.outsideWrite off bytes ep)

/-- REGISTER_WRITE: the host writes the whole register at an offset of BAR0. -/
def execRegisterWrite (off : Nat) (v : DWord) (s : State) : Host.Outcome State Fault Refusal :=
  .next (if off % 8 = 0 ∧ off < bar0Size then s.regWrite off v else s)

/-! ## Other packages -/

/-- An atomic of another package at its home (R200, R379): none on poisoned lines, whose answer carries the indication (R335). -/
def State.remoteAtomic (s : State) (off n : Nat) (f : Nat → Option Nat) : State :=
  let r := s.outsideRead off n
  if s.outsideBusy off n || r.records.lastPoison then r
  else match f (numOfBytes r.records.lastRead) with
    | some v => r.outsideWrite off (bytesOfNum n v) false
    | none => r

/-- A run lies in device memory. -/
def State.inMemory (s : State) (off n : Nat) : Bool := off + n ≤ s.manage.memSize

/-- UALINK_REMOTE_ACCESS: performed at home; an address at which there is no memory answers a free value (log entry 4) and takes no
write. -/
def execUalinkRemoteAccess (r : RemoteReq) (s : State) : Host.Outcome State Fault Refusal :=
  let free := fun (n : Nat) => { s with
    freeN := s.freeN + n
    records := { s.records with lastRead := (List.range n).map fun i => Config.freeValue 8 (s.freeN + i), lastPoison := false } }
  .next (match r with
    | .read off n => if s.inMemory off n then s.outsideRead off n else free n
    | .write off data ep => if s.inMemory off data.length then s.outsideWrite off data ep else s
    | .atomic op ty off x =>
      let n := if ty.is64 then 8 else 4
      if s.inMemory off n then s.remoteAtomic off n fun old => some (combine ty op old (x.toNat % 2 ^ (8 * n))).1 else free n
    | .cas off n e x =>
      if s.inMemory off n then s.remoteAtomic off n fun old => if old = e.toNat % 2 ^ (8 * n) then some (x.toNat % 2 ^ (8 * n)) else none
      else free n)

/-! ## The governor (R389) -/

/-- Teams of a die of which the governor holds a job under a budget: one that could start and would exceed it. -/
def State.heldTeams (s : State) (die budget : Nat) : List Team :=
  s.teams.filter fun t => coreDie t.core == die && s.jobs.any fun j =>
    j.team == t.info.uid && j.isMatrix && budget < j.units && (match s.jobHere j with | some h => s.couldStart j h | none => false)

/-- GOVERNOR_WINDOW: a window of 256 clocks of a die begins, once, with a budget within 32 of the last one; each team of which it holds a job
counts it, and its account. -/
def execGovernorWindow (die budget : Nat) (s : State) : Host.Outcome State Fault Refusal :=
  .next (
    let old := (s.die die).budget
    if 12 ≤ die || 256 < budget || old + 32 < budget || budget + 32 < old || s.clock / 256 ≤ (s.die die).window then s
    else
      let s1 := s.modDie die fun (d : DieState) => { d with budget := budget, window := s.clock / 256 }
      (s.heldTeams die budget).foldl (fun (s : State) (t : Team) =>
        (s.modTeam t.info.uid fun (t : Team) => { t with govStalls := t.govStalls + 1 }).account (s.accountOf t) 28 1) s1)

end Sys2Proof.Machine
end

