-- ==== Sys2Proof/Machine/Issue.lean ====
section
/-! DEFINITION. The barrels (R82, R83): whose turn is next, the fetch of its instruction (R112, R177), and the debug stops that a
turn may give instead (R354, R355). -/

namespace Sys2Proof.Machine

open Sys2Proof

/-! ## The clock -/

/-- Cores that hold a team of an account, each once, as (account, core). -/
def State.busyCores (s : State) : List (Nat × Nat) :=
  s.teams.foldl (fun acc t =>
    let p := (s.accountOf t, t.core)
    if s.over t || acc.contains p then acc else acc ++ [p]) []

/-- The core clock moves on; the accounts count the clocks of their cores by class (Table 23-6). -/
def State.tick (s : State) (c : Nat) : State :=
  let n : DWord := BitVec.ofNat 64 (c - s.clock)
  { s.busyCores.foldl (fun s p => s.account p.1 (dieClass (coreDie p.2)) n) s with clock := c }

/-! ## Turns (R82, R83) -/

/-- The next clock of a group's slot at which it may issue. -/
def Group.turnAt (g : Group) (clock : Nat) : Nat :=
  let m := max clock g.due
  m + (g.slot + 16 - m % 16) % 16

/-- A turn: its clock, the core and the barrel, and the strand that takes it. -/
structure Opening where
  clock : Nat
  core : Nat
  barrel : Nat
  cursor : Cursor
  deriving DecidableEq, Repr

/-- The turn of a group that has a ready strand. -/
def State.openingOf (s : State) (t : Team) (g : Group) : Option Opening :=
  if g.ended || !t.runs then none
  else (s.choose t g).map fun x => ⟨g.turnAt s.clock, t.core, g.barrel, ⟨t.info.uid, g.num, x.sid⟩⟩

/-- Of two turns of one clock on one core the first: of groups of one team the lower-numbered one's, as R80 and R215 order XLOCK and
BAR; else that of the lower barrel. -/
def Opening.lower (a b : Opening) : Bool :=
  if a.cursor.team = b.cursor.team then a.cursor.group < b.cursor.group else a.barrel < b.barrel

/-- A turn comes before another: earlier, or at one clock on a lower core, or the first of its core. -/
def Opening.before (a b : Opening) : Bool :=
  a.clock < b.clock || (a.clock == b.clock && (a.core < b.core || (a.core == b.core && a.lower b)))

/-- The next turn of all barrels. -/
def State.nextTurn (s : State) : Option Opening :=
  firstMin Opening.before (s.teams.flatMap fun t => t.groups.filterMap (s.openingOf t))

/-- The turn taken: the clock reaches it, the slot's next clock is 16 later, and the choice goes on after its strand. -/
def State.beginTurn (s : State) (k : Opening) : State :=
  { (s.tick k.clock).modTeam k.cursor.team fun t => t.modGroup k.cursor.group fun g =>
      { g with due := k.clock + 16, rr := g.place k.cursor.sid + 1 } with cur := some k.cursor }

/-! ## Fetch -/

/-- One word of code (R112, R154): a page that is not there parks the strand, or faults when it has been refused. -/
def State.fetchWord (s : State) (h : Here) (va : Nat) : Except Stop Word × State :=
  let r := s.translate h.team.asid va .fetch
  match r.1 with
  | .bad c => (.error (.fault c none 0), r.2)
  | .miss page host =>
    (.error (if h.strand.refused.contains page then .fault cPage none 0 else .miss [(page, host)] .fetch), r.2)
  | .ok x =>
    if r.2.lost x then (.error (.fault cLinkLost none 0), r.2)
    else if r.2.poisoned (lineOf x.key) then (.error (.fault cPoison none 0), r.2)
    else
      let b := fun i => r.2.mem.byte (x.key + i)
      (.ok (wordOfBytes (b 0) (b 1) (b 2) (b 3)), if x.host then r.2.countHost h.team.asid x.pa else r.2)

/-- Words of code one after another. -/
def State.fetchWords (s : State) (h : Here) : Nat → Nat → Except Stop (List Word) × State
  | _, 0 => (.ok [], s)
  | va, n + 1 =>
    let r := s.fetchWord h va
    match r.1 with
    | .error x => (.error x, r.2)
    | .ok w =>
      let q := r.2.fetchWords h (va + 4) n
      match q.1 with
      | .error x => (.error x, q.2)
      | .ok ws => (.ok (w :: ws), q.2)

/-- The instruction at the strand's PC: an address that is no recorded instruction start takes BAD_TARGET (R177), and so does a
recorded start that holds no instruction any more (log entry 23). Whether the page is executable is the translation's to say (R154). -/
def State.fetch (s : State) (h : Here) : Except Stop Instr × State :=
  let bad : Except Stop Instr := .error (.fault cBadTarget none 0)
  if !s.recorded h.team.asid h.strand.pc then (bad, s)
  else
    let r := s.fetchWord h h.strand.pc.toNat
    match r.1 with
    | .error x => (.error x, r.2)
    | .ok w => match lengthOf w with
      | none => (bad, r.2)
      | some n =>
        let q := r.2.fetchWords h h.strand.pc.toNat n
        match q.1 with
        | .error x => (.error x, q.2)
        | .ok ws => match decodeWords ws with
          | .ok (i, _) => (.ok i, q.2)
          | .error _ => (bad, q.2)

/-! ## Debug stops at a turn (R354, R355) -/

/-- The strand's next instruction lies at an enabled breakpoint, while BKEN is 1, and it does not resume from there. -/
def State.atBreakpoint (s : State) (h : Here) (n : Nat) : Bool :=
  let c := s.ctx h.team.asid
  let b := c.dbgBp.getD n 0
  n < 4 && c.dbgCtl.getLsbD 0 && h.strand.skipStop != some h.strand.pc && b.getLsbD 0 &&
    field b 2 55 == field h.strand.pc 2 55 && field h.strand.pc 57 7 == 0

/-- The first breakpoint at the strand's next instruction. -/
def State.breakpoint? (s : State) (h : Here) : Option Nat := (List.range 4).find? (s.atBreakpoint h)

/-- BREAKPOINT_STOP: the strand whose turn it is stops before the instruction at the breakpoint. -/
def execBreakpointStop (bp : Nat) (s : State) : Host.Outcome State Fault Refusal :=
  .next (match s.here with
    | none => s
    | some h => if s.atBreakpoint h bp then s.takeStop h (.dbg bp) h.strand.pc else s)

/-- The strand of a group whose turn it is, or would be next. -/
def State.turnStrand (s : State) (t : Team) (g : Group) : Option Strand :=
  match s.cur with
  | some c => if c.team = t.info.uid ∧ c.group = g.num then g.strand? c.sid else s.choose t g
  | none => s.choose t g

/-- A group stops for HALT: its context has HALT set, and it has not stopped for the debugger. -/
def State.halts (s : State) (t : Team) (g : Group) : Bool := (s.ctx t.asid).dbgCtl.getLsbD 2 && g.dbg.isNone

/-- DEBUG_HALT_STOP: a group takes a debug stop at its turn while HALT is 1. What INFO holds is a free value (log entry 4). -/
def execDebugHaltStop (team group : Nat) (s : State) : Host.Outcome State Fault Refusal :=
  .next (match s.team? team with
    | none => s
    | some t => match t.group? group with
      | none => s
      | some g => match s.turnStrand t g with
        | none => s
        | some x =>
          if s.halts t g then
            { s with freeN := s.freeN + 1 }.takeStop ⟨t, g, x⟩ (.halt (Config.freeValue 16 s.freeN).toNat) x.pc
          else s)

/-! ## Issue -/

/-- What a turn comes to: an instruction executed in a state, or a state reached without one. -/
inductive Issued where
  | run (i : Instr) (s : State)
  | done (s : State)
  deriving DecidableEq, Repr

/-- The report of a wait cycle (R128). -/
def Report.cycle (units : List DWord) : Report := ⟨1, cWaitCycle, 0, none, 0, 0, units, false⟩

/-- The turn of the strand executed for: a trap of a wait cycle, the failure of a job (R348), a debug stop, or its next instruction. -/
def State.turn (s : State) (h : Here) : Issued :=
  if h.inCycle then
    .done (s.takeStop { h with strand := { h.strand with waitCycle := none } } (.cycle (h.strand.waitCycle.getD [])) h.strand.pc)
  else if let some f := h.failure then .done (s.takeFailure h f)
  else if s.halts h.team h.group then .run (.debugHaltStop h.team.info.uid h.group.num) s
  else match s.breakpoint? h with
    | some n => .run (.breakpointStop n) s
    | none =>
      let r := s.fetch h
      match r.1 with
      | .ok i => .run i r.2
      | .error x => .done (r.2.stopHere h x)

/-- THE BARRELS MOVE ON: the next turn is taken, or, when no strand is ready, the clock. -/
def State.issueNext (s : State) : Issued :=
  match s.nextTurn with
  | none => .done { s.tick (s.clock + 1) with cur := none }
  | some k =>
    let s1 := s.beginTurn k
    match s1.here with
    | some h => s1.turn h
    | none => .done s1

end Sys2Proof.Machine
end

