-- ==== Sys2Proof/Machine/Mailbox.lean ====
section
/-! DEFINITION. Toard's mailbox commands (R349, R354 to R356, R380, R381, R385 to R387, Table 23-5) and pod time (R380). -/

namespace Sys2Proof.Machine

open Sys2Proof

/-! ## Running a command -/

/-- An argument of the mailbox. -/
def State.arg (s : State) (n : Nat) : DWord := s.manage.mbox.args.getD n 0

/-- Results of a command (R385): done, bad argument, refused. -/
def resDone : Nat := 0
def resBad : Nat := 2
def resRefused : Nat := 3

/-- Runs the command that the mailbox has taken, when it is the one named and Toard's firmware runs: its effect and its result. -/
def State.command (s : State) (code : Nat) (f : Nat × State) : State :=
  if s.toardRuns ∧ s.manage.mbox.cmd = some (BitVec.ofNat 8 code) then f.2.mailboxEnd f.1 else s

/-- Bytes into the host buffer. -/
def State.toBuffer (s : State) (bs : List Byte) : State :=
  { s with mem := s.mem.setAll ((List.range bs.length).map fun i => (hostBase + (s.manage.mbox.buf.toNat + i) % 2 ^ 64, bs.getD i 0)) }

/-- Bytes of the host buffer. -/
def State.fromBuffer (s : State) (n : Nat) : List Byte :=
  (List.range n).map fun i => s.mem.byte (hostBase + (s.manage.mbox.buf.toNat + i) % 2 ^ 64)

/-! ## Measurement (R381) -/

/-- MRn ← SHA-256(MRn ‖ digest). -/
def State.measure (s : State) (n : Nat) (digest : List Byte) : State :=
  let q := s.records
  { s with records := { q with mr := q.mr.modify n fun m => digestOf (sha256 (digestBytes m ++ fit 32 digest)) } }

/-- The bytes of a loaded segment, where its context reaches each of them without a miss. -/
def State.segmentBytes (s : State) (g : Segment) : Option (List Byte) :=
  (List.range g.len).mapM fun i => (s.peekLeaf g.asid (g.base + i)).map fun e => s.mem.byte (e.place (g.base + i)).key

/-! ## SET_TRAPBASE -/

/-- The segment with a verified signature in which an address is a recorded start. -/
def State.signedStart (s : State) (asid : Nat) (a : DWord) : Option Segment :=
  s.segs.find? fun g => g.asid == asid && g.signed && g.base ≤ a.toNat && g.starts.contains (a.toNat - g.base)

/-- TRAPBASE of a context. -/
def State.putTrapBase (s : State) (asid : Nat) (a : DWord) : State := s.modCtx asid fun c => { c with trapBase := a }

/-- SET_TRAPBASE (R349): the digest of a segment that is not reached whole is a free value (log entry 4). -/
def execSetTrapbase (s : State) : Host.Outcome State Fault Refusal :=
  .next (s.command 1 (
    let asid := (s.arg 0).toNat
    let a := s.arg 1
    if 256 ≤ asid then (resBad, s)
    else if a = 0 then (resDone, s.putTrapBase asid 0)
    else match s.signedStart asid a with
      | none => (resRefused, s)
      | some g =>
        let s1 := s.putTrapBase asid a
        (resDone, match s.segmentBytes g with
          | some bs => s1.measure 16 (sha256 bs)
          | none => { s1 with freeN := s1.freeN + 1 }.measure 16 (digestBytes (Config.freeValue 256 s1.freeN)))))

/-! ## Debugging (R354 to R356) -/

/-- DBG_SET: DBGCTL or a breakpoint register of a context. -/
def execDbgSet (s : State) : Host.Outcome State Fault Refusal :=
  .next (s.command 2 (
    let asid := (s.arg 0).toNat
    let r := (s.arg 1).toNat
    let v := s.arg 2
    if 256 ≤ asid ∨ 4 < r then (resBad, s)
    else if r = 0 then (resDone, s.modCtx asid fun c => { c with dbgCtl := v &&& 7 })
    else (resDone, s.modCtx asid fun c => { c with dbgBp := c.dbgBp.set (r - 1) (v &&& 0x01FFFFFFFFFFFFFD) })))

/-- The stopped group that ARG0 to ARG2 name: ASID, core identity, barrel and slot. -/
def State.stopped (s : State) : Option (Team × Group × DebugStop) :=
  let at_ := (s.arg 2).toNat
  (s.teams.filter fun t => t.asid == (s.arg 0).toNat && t.core == (s.arg 1).toNat).findSome? fun t =>
    (t.groups.find? fun g => !g.ended && 16 * g.barrel + g.slot == at_).bind fun g => g.dbg.map fun d => (t, g, d)

/-- Resumes a handler strand that stopped (R351, R352). -/
def State.resumeHandler (s : State) (t : Team) (g : Group) (d : DebugStop) : State :=
  s.putTeam (t.putGroup { g.modStrand d.sid fun x => { x with
    skipStop := if d.mark = some x.pc then some x.pc else none, hold := none } with dbg := none })

/-- DBG_RESUME: RETT for a stopped group. A frame whose PC is no recorded start, or that cannot be read, leaves it stopped (log
entry 26). -/
def execDbgResume (s : State) : Host.Outcome State Fault Refusal :=
  .next (if s.stopped.any fun x => s.runBusy x.1.asid (s.frameAddr x.1 x.2.1) 0x5200 then s else s.command 3 (match s.stopped with
    | none => (resBad, s)
    | some (t, g, d) =>
      if d.inHandler then (resDone, s.resumeHandler t g d)
      else
        let r := s.machineRead t.agent (s.frameAddr t g) 0x5200
        match r.1 with
        | .error _ => (resRefused, r.2)
        | .ok fr =>
          if !r.2.isStart t.asid (dwordOf ((fr.drop 8).take 8)) then (resRefused, r.2)
          else (resDone, r.2.putTeam (t.putGroup (g.returned d.sid 2 d.table d.captured fr)))))

/-- The places in a stopped group's private window that ARG3 names, one for each part of a 256-byte row: rows of the base set, the
extended set and the stack lie apart (R77, R136). A range that leaves the window has none. -/
def State.window (s : State) (t : Team) (g : Group) : Option (List (Space × Nat)) :=
  let n := field (s.arg 3) 32 32
  let off := field (s.arg 3) 0 32
  if 2 ^ 24 < off + n then none
  else ((List.range ((off + n + 255) / 256 - off / 256)).mapM fun i =>
    let lo := max off (256 * (off / 256 + i))
    let k := min (off + n) (256 * (off / 256 + i + 1)) - lo
    match s.resolve t g true (BitVec.ofNat 64 (0xA * 2 ^ 60 + lo)) k with
    | .ok x => some (x, k)
    | .error _ => none)

/-- Reads parts of a stopped group's private window. -/
def State.readWindow (s : State) (t : Team) : List (Space × Nat) → Option (List Byte) × State
  | [] => (some [], s)
  | (.store _ off, n) :: rest => let q := s.readWindow t rest; (q.1.map fun bs => t.bytes off n ++ bs, q.2)
  | (.glob va, n) :: rest =>
    let r := s.machineRead t.agent va n
    match r.1 with
    | .error _ => (none, r.2)
    | .ok bs => let q := r.2.readWindow t rest; (q.1.map fun cs => bs ++ cs, q.2)

/-- Writes parts of a stopped group's private window. -/
def State.writeWindow (s : State) (t : Team) : List (Space × Nat) → List Byte → Option State
  | [], _ => some s
  | (.store _ off, n) :: rest, bs =>
    (s.modTeam t.info.uid fun u => u.putBytes (cellsAt off (bs.take n))).writeWindow t rest (bs.drop n)
  | (.glob va, n) :: rest, bs => match s.machineWrite t.agent va (bs.take n) with
    | some s1 => s1.writeWindow t rest (bs.drop n)
    | none => none

/-- DBG_READ: bytes of the private window of a stopped group to the host buffer. -/
def execDbgRead (s : State) : Host.Outcome State Fault Refusal :=
  .next (s.command 4 (match s.stopped with
    | none => (resBad, s)
    | some (t, g, _) => match s.window t g with
      | none => (resBad, s)
      | some ps =>
        let r := s.readWindow t ps
        match r.1 with
        | some bs => (resDone, r.2.toBuffer bs)
        | none => (resRefused, r.2)))

/-- DBG_WRITE: bytes of the host buffer into the private window of a stopped group. -/
def execDbgWrite (s : State) : Host.Outcome State Fault Refusal :=
  .next (s.command 5 (match s.stopped with
    | none => (resBad, s)
    | some (t, g, _) => match s.window t g with
      | none => (resBad, s)
      | some ps => match s.writeWindow t ps (s.fromBuffer (ps.map (·.2)).sum) with
        | some s1 => (resDone, s1)
        | none => (resRefused, s)))

/-! ## Accounts and records (R386, R387) -/

/-- A counter of an account as ACCT_READ finds it: bytes moved and energy are measured, so that counters 12 to 27 have grown by free amounts
since they were last read (log entry 4); an account that has held no core since it was cleared has moved nothing. -/
def State.accountCounter (s : State) (acct k : Nat) : DWord :=
  let vs := s.records.accounts.get (List.replicate 32 0) acct
  let v := vs.getD k 0
  if (vs.take 4).all (· == 0) then v
  else if k = 27 then v + Config.energyEstimate (s.freeN + k)
  else if 12 ≤ k ∧ k ≤ 26 then v + Config.freeValue 64 (s.freeN + k)
  else v

/-- ACCT_READ -/
def execAcctRead (s : State) : Host.Outcome State Fault Refusal :=
  .next (s.command 6 (
    let a := (s.arg 0).toNat
    if 64 ≤ a then (resBad, s)
    else
      let vs := (List.range 32).map (s.accountCounter a)
      (resDone, ({ s with
        freeN := s.freeN + 32
        records := { s.records with accounts := s.records.accounts.put (List.replicate 32 0) a vs } } : State).toBuffer
          (vs.flatMap fun v => bytesOfNum 8 v.toNat))))

/-- ACCT_CLEAR -/
def execAcctClear (s : State) : Host.Outcome State Fault Refusal :=
  .next (s.command 7 (
    let a := (s.arg 0).toNat
    if 64 ≤ a then (resBad, s)
    else (resDone, { s with records := { s.records with accounts := s.records.accounts.erase a } })))

/-- BB_READ: the black box's records from a number on, oldest first. -/
def execBbRead (s : State) : Host.Outcome State Fault Refusal :=
  .next (s.command 8 (
    let n := (s.arg 1).toNat
    if n = 0 ∨ 8192 < n then (resBad, s)
    else
      let rs := s.records.bb.filter fun r => (r.seq - (s.arg 0).setWidth 32).toNat < n
      (resDone, s.toBuffer (rs.flatMap BbRecord.bytes))))

/-- MR_EXTEND -/
def execMrExtend (s : State) : Host.Outcome State Fault Refusal :=
  .next (s.command 9 (
    let n := (s.arg 0).toNat
    if n < 17 ∨ 23 < n then (resBad, s) else (resDone, s.measure n (s.fromBuffer 32))))

/-- MR_READ -/
def execMrRead (s : State) : Host.Outcome State Fault Refusal :=
  .next (s.command 10 (resDone, s.toBuffer (s.records.mr.flatMap digestBytes)))

/-! ## Time (R380) -/

/-- The values of n. -/
def windowLengths : List Nat := [1, 2, 4, 5, 8, 10, 16, 20, 25, 32]

/-- TIME_SET -/
def execTimeSet (s : State) : Host.Outcome State Fault Refusal :=
  .next (s.command 11 (
    let n := (s.arg 0).toNat
    if windowLengths.contains n then
      (resDone, { s with records := { s.records with nextWindow := some (n, (s.arg 1).toNat) } })
    else (resBad, s)))

/-- WINDOW_LENGTH_CHANGE: the named second has come. -/
def execWindowLengthChange (s : State) : Host.Outcome State Fault Refusal :=
  .next (match s.records.nextWindow with
    | some (_, sec) => s.timeTo (sec * 1000000000)
    | none => s)

/-- TSYNC_CHANGE: the time error leaves its bound, or is within it again; the change is recorded and signalled (Table 23-2). -/
def execTsyncChange (ok : Bool) (s : State) : Host.Outcome State Fault Refusal :=
  .next (
    if s.tsync = ok then s
    else
      let m := s.manage
      let ready := if ok then withBit m.ready 30 else m.ready &&& ~~~BitVec.ofNat 64 (2 ^ 30)
      ({ s with manage := { m with ready := ready } }.record 10 ⟨.toard, 0⟩ [if ok then 1 else 0]).msixSignal 1)

end Sys2Proof.Machine
end

