-- ==== Sys2Proof/Machine/Spdm.lean ====
section
/-! DEFINITION. The SPDM 1.3 responder (R383, R384). The order in which requests are accepted on one connection is that of SPDM 1.3
(PRESUMED, log entry 27). -/

namespace Sys2Proof.Machine

open Sys2Proof

/-- The connection of a transport: the management I3C or PCI Express. -/
def State.spdm (s : State) (i3c : Bool) : Spdm := if i3c then s.records.spdmI3c else s.records.spdmPcie

/-- Sets the connection of a transport. -/
def State.putSpdm (s : State) (i3c : Bool) (c : Spdm) : State :=
  { s with records := if i3c then { s.records with spdmI3c := c } else { s.records with spdmPcie := c } }

/-- The responder answers. -/
def State.respond (s : State) (r : SpdmResponse) : State := { s with records := { s.records with response := some r } }

/-- Signatures of the attestation key (R383). -/
def leafCount : Nat := 1048576

/-- Toard advances the leaf counter, before it releases the signature that the leaf gives: the leaf and the signature (R383). The remaining
leaves are recorded at 65 536, 4 096 and 0. -/
def State.sign (s : State) : (Nat × List Byte) × State :=
  let left := s.records.leaves - 1
  let leaf := leafCount - s.records.leaves
  let s1 := { s with freeN := s.freeN + 1, records := { s.records with leaves := left } }
  ((leaf, Config.lmsSignature leaf s.freeN), if left = 65536 ∨ left = 4096 ∨ left = 0 then s1.record 11 ⟨.toard, 0⟩ [left] else s1)

/-- A request that needs its algorithms agreed; none is answered otherwise. -/
def State.agreed (s : State) (i3c : Bool) (f : State → State) : State :=
  if !s.toardRuns then s else if (s.spdm i3c).algs then f s else s.respond .error

/-- GET_VERSION: a new connection (version 1.3). -/
def execGetVersion (i3c : Bool) (s : State) : Host.Outcome State Fault Refusal :=
  .next (if s.toardRuns then (s.putSpdm i3c ⟨true, false, false⟩).respond (.version 1 3) else s)

/-- GET_CAPABILITIES: no secure sessions. -/
def execGetCapabilities (i3c : Bool) (s : State) : Host.Outcome State Fault Refusal :=
  .next (
    if !s.toardRuns then s
    else if (s.spdm i3c).version then (s.putSpdm i3c { s.spdm i3c with caps := true }).respond (.capabilities false)
    else s.respond .error)

/-- NEGOTIATE_ALGORITHMS: SHA-256, no base asymmetric algorithm, the extended one 0x0001. -/
def execNegotiateAlgorithms (i3c : Bool) (s : State) : Host.Outcome State Fault Refusal :=
  .next (
    if !s.toardRuns then s
    else if (s.spdm i3c).caps then (s.putSpdm i3c { s.spdm i3c with algs := true }).respond (.algorithms true [] [1])
    else s.respond .error)

/-- GET_DIGESTS: the SHA-256 digest of slot 0's chain. -/
def execGetDigests (i3c : Bool) (s : State) : Host.Outcome State Fault Refusal :=
  .next (s.agreed i3c fun s => s.respond (.digests (sha256 Config.certificateChain)))

/-- GET_CERTIFICATE: slot 0 only. -/
def execGetCertificate (i3c : Bool) (slot : Nat) (s : State) : Host.Outcome State Fault Refusal :=
  .next (s.agreed i3c fun s => s.respond (if slot = 0 then .certificate Config.certificateChain else .error))

/-- CHALLENGE: one leaf, or refused when none remains. -/
def execChallenge (i3c : Bool) (slot : Nat) (s : State) : Host.Outcome State Fault Refusal :=
  .next (s.agreed i3c fun s =>
    if slot ≠ 0 ∨ s.records.leaves = 0 then s.respond .error
    else s.sign.2.respond (.challengeAuth s.sign.1.1 s.sign.1.2))

/-- The measurement blocks that a request names: none for 0, one for 1 to 24, all for 255 (SPDM 1.3). -/
def measurementBlocks (block : Nat) : Option (List Nat) :=
  if block = 0 then some []
  else if block ≤ 24 then some [block]
  else if block = 255 then some ((List.range 24).map (· + 1))
  else none

/-- GET_MEASUREMENTS: blocks 1 to 24 hold MR0 to MR23; a signed answer takes one leaf, or is refused when none remains. -/
def execGetMeasurements (i3c : Bool) (block : Nat) (signed : Bool) (s : State) : Host.Outcome State Fault Refusal :=
  .next (s.agreed i3c fun s => match measurementBlocks block with
    | none => s.respond .error
    | some bs =>
      let held := bs.map fun b => (b, s.records.mr.getD (b - 1) 0)
      if !signed then s.respond (.measurements 24 held none)
      else if s.records.leaves = 0 then s.respond .error
      else s.sign.2.respond (.measurements 24 held (some s.sign.1)))

end Sys2Proof.Machine
end

