-- ==== Sys2Proof/Machine/Boot.lean ====
section
/-! DEFINITION. Resets (R370, R381, R386) and readiness (R378, R382). -/

namespace Sys2Proof.Machine

open Sys2Proof

/-! ## Resets -/

/-- What lies outside the part: host memory, other packages' memory. -/
def Memory.outside (m : Memory) : Memory := m.filter fun c => 2 ^ 51 ≤ c.1

/-- Every reset: all is as `State.reset`, but for what lies outside the part or outlives a reset: the leaf counter in its protected storage
(R383), pod time, which never goes back (R338), the interrupts already signalled, and the model's own fields. -/
def State.anyReset (s : State) (mem : Memory) : State :=
  let r := State.reset
  { r with
    mem := mem
    schedule := s.schedule
    uid := s.uid
    freeN := s.freeN
    records := { r.records with leaves := s.records.leaves, time := s.records.time, msix := s.records.msix } }

/-- COLD_RESET: the black box is cleared too; device memory reads as memory nothing has written (log entry 28). -/
def execColdReset (s : State) : Host.Outcome State Fault Refusal := .next (s.anyReset s.mem.outside)

/-- WARM_RESET, and Function Level Reset (R370): the black box survives, and device memory with its poison (log entry 28). -/
def execWarmReset (s : State) : Host.Outcome State Fault Refusal :=
  .next (
    let r := s.anyReset s.mem
    { r with poison := s.poison, records := { r.records with bb := s.records.bb, seq := s.records.seq } })

/-! ## The boot chain -/

/-- READY.ATRIUM. -/
def State.atriumRuns (s : State) : Bool := s.manage.ready.getLsbD 1

/-- An image is measured before it runs (R381), and its stage recorded. -/
def State.boot (s : State) (mr : Nat) : State := (s.measure mr (Config.imageDigest mr)).record 1 ⟨.toard, 0⟩ [mr]

/-- The chain stops at an image that fails its check (R382). -/
def State.stopChain (s : State) : State := { s with manage := { s.manage with chainStopped := true } }

/-- Toard's firmware runs: a mailbox command that was given before is taken; an unknown one ends (R385). -/
def State.toardStarts (s : State) : State :=
  match s.manage.mbox.cmd with
  | some c => if knownCommand c then s else s.mailboxEnd 1
  | none => s

/-- TOARD_READY: the ROM is measured; a firmware that fails its check does not run. -/
def execToardReady (verified : Bool) (s : State) : Host.Outcome State Fault Refusal :=
  .next (
    if s.toardRuns || s.manage.chainStopped then s
    else if verified then (((s.boot 0).boot 1).readyBit 0).toardStarts
    else (s.boot 0).stopChain)

/-- The stacks that are ready and have not failed. -/
def State.stacksReady (s : State) : List Nat :=
  (List.range 8).filter fun i => s.manage.ready.getLsbD (14 + i) && !s.manage.fenced.getLsbD (12 + i)

/-- The atrium forms the memory map from the stacks ready at this moment: 64 GiB each (R378). -/
def State.formMap (s : State) : State :=
  { s with manage := { s.manage with
    mapFormed := true
    memSize := 2 ^ 36 * s.stacksReady.length } }

/-- The map is formed when all eight stacks are ready. -/
def State.mapDue (s : State) : State :=
  if s.atriumRuns && !s.manage.mapFormed && s.stacksReady.length == 8 then s.formMap else s

/-- ATRIUM_READY -/
def execAtriumReady (verified : Bool) (s : State) : Host.Outcome State Fault Refusal :=
  .next (
    if !s.toardRuns || s.atriumRuns || s.manage.chainStopped then s
    else if verified then ((s.boot 2).readyBit 1).mapDue
    else s.stopChain)

/-- STACK_READY: a stack that is ready once the map is formed stays outside it. -/
def execStackReady (stack : Nat) (s : State) : Host.Outcome State Fault Refusal :=
  .next (
    if 8 ≤ stack || s.manage.ready.getLsbD (14 + stack) || s.manage.fenced.getLsbD (12 + stack) then s
    else (s.readyBit (14 + stack)).mapDue)

/-- STACK_WAIT_TIMEOUT: the atrium has waited 2 s. -/
def execStackWaitTimeout (s : State) : Host.Outcome State Fault Refusal :=
  .next (if s.atriumRuns && !s.manage.mapFormed then s.formMap else s)

/-- Some die has become ready since the reset: its emulation firmware, which is one image for every die, is measured. -/
def State.emulationRuns (s : State) : Bool := field s.manage.ready 2 12 != 0

/-- Every die is absent. -/
def State.noDies (s : State) : State := (List.range 12).foldl (fun s d => if s.manage.fenced.getLsbD d then s else s.fenceBit d) s

/-- DIE_READY: an engine firmware that fails its check leaves its die absent, and the emulation firmware every die; that one is checked
before the first die is ready. -/
def execDieReady (die : Nat) (images : DieImages) (s : State) : Host.Outcome State Fault Refusal :=
  .next (
    if 12 ≤ die || !s.atriumRuns || s.manage.ready.getLsbD (2 + die) || s.manage.fenced.getLsbD die then s
    else match images with
      | .engineFails => s.fenceBit die
      | .emulationFails => if s.emulationRuns then s else s.noDies
      | .verified =>
        let s1 := s.boot (3 + die)
        (if s.emulationRuns then s1 else s1.boot 15).readyBit (2 + die))

/-- DIE_READY_TIMEOUT: a die that is not ready 2 s after the atrium is absent. -/
def execDieReadyTimeout (die : Nat) (s : State) : Host.Outcome State Fault Refusal :=
  .next (
    if 12 ≤ die || !s.atriumRuns || s.manage.ready.getLsbD (2 + die) || s.manage.fenced.getLsbD die then s
    else s.fenceBit die)

/-- UALINK_PORT_TRAINED -/
def execUalinkPortTrained (port : Nat) (s : State) : Host.Outcome State Fault Refusal :=
  .next (if 8 ≤ port || s.manage.ready.getLsbD (22 + port) then s else s.readyBit (22 + port))

end Sys2Proof.Machine
end

