-- ==== Sys2Proof/Machine/Control.lean ====
section
/-! DEFINITION. Control transfer (R206 to R211, R86 to R89). -/

namespace Sys2Proof.Machine

open Sys2Proof

/-- The target of an S-B instruction (R206). -/
def Here.target (h : Here) (off : BitVec 16) : DWord := h.strand.pc + off.signExtend 64 <<< 2

/-- Control goes to a target, with the changes `f`; a target that is no recorded instruction start takes BAD_TARGET and changes
nothing (R177, R206, R210). -/
def State.goTo (s : State) (h : Here) (a : DWord) (f : Here → Here) : State :=
  if s.isStart h.team.asid a then s.putHere ((f h).jump a) else s.takeFault h cBadTarget

/-- The instruction after an S instruction. -/
def State.fall (s : State) (h : Here) : State := s.putHere (h.retire 1 [])

/-- BRA -/
def execBra (off : BitVec 16) (s : State) : Host.Outcome State Fault Refusal := s.run fun h => s.goTo h (h.target off) id

/-- A predicate with its negation, in the active lanes. -/
def Here.tested (h : Here) (neg : Bool) (p : PReg) : Mask := (if neg then ~~~h.readP p else h.readP p) &&& h.strand.exec

/-- The test of BRP (R207). -/
def BrTest.takes (t : BrTest) (m ex : Mask) : Bool :=
  match t with
  | .any => m != 0
  | .all => m == ex
  | .none => m == 0

/-- BRP -/
def execBrp (t : BrTest) (neg : Bool) (p : PReg) (off : BitVec 16) (s : State) : Host.Outcome State Fault Refusal :=
  s.run fun h => if BrTest.takes t (h.tested neg p) h.strand.exec then s.goTo h (h.target off) id else s.fall h

/-- Slice `k` as a mask (R67). -/
def sliceMask (k : Nat) : Mask := (0xF : Mask) <<< (4 * k)

/-- The lanes that go with the taken strand (R86): whole slices whose active lanes are all taken, else the taken lanes. -/
def takeLanes (lanes ex t : Mask) : Mask :=
  (List.range 16).foldl (fun acc k =>
    let a := ex &&& sliceMask k
    let tk := a &&& t
    if a ≠ 0 ∧ tk = a then acc ||| (lanes &&& sliceMask k) else acc ||| tk) 0

/-- A divergent BRD whose group has room for one more strand (R86): the taken strand is appended. -/
def Here.split (h : Here) (take : Mask) (target : DWord) : Here :=
  let r := h.retire 1 []
  let x : Strand := { r.strand with
    sid := h.group.nextId
    lanes := h.strand.lanes &&& take
    exec := h.strand.exec &&& take
    pc := target
    parked := []
    arrived := none
    waitCycle := none }
  { r with
    strand := { r.strand with lanes := h.strand.lanes &&& ~~~take, exec := h.strand.exec &&& ~~~take }
    group := { (r.group.mapPending fun p => match p.windows.find h.strand.sid with
        | some n => { p with windows := p.windows.insert x.sid n }
        | none => p) with
      nextId := r.group.nextId + 1
      strands := r.group.strands ++ [x] } }

/-- A divergent BRD that would make a 17th strand (R87): the taken lanes are parked. -/
def Here.park (h : Here) (take : Mask) (target : DWord) (e : SplitEntry) : Here :=
  let r := h.retire 1 []
  { r with strand := { r.strand with
      exec := h.strand.exec &&& ~~~take
      parked := r.strand.parked ++ [⟨take, h.strand.exec &&& take, target, e⟩] } }

/-- BRD (R208): none taken falls through, all taken branches, else the strand splits or parks. -/
def execBrd (neg : Bool) (p : PReg) (off : BitVec 16) (s : State) : Host.Outcome State Fault Refusal :=
  s.run fun h =>
    let t := h.tested neg p
    let a := h.target off
    if t = 0 then s.fall h
    else if t = h.strand.exec then s.goTo h a id
    else if !s.isStart h.team.asid a then s.takeFault h cBadTarget
    else match h.strand.stack.getLast? with
      | none => s.takeFault h cSplitDepth
      | some e =>
        let take := takeLanes h.strand.lanes h.strand.exec t
        s.putHere (if 16 ≤ h.group.strands.length then h.park take a e else h.split take a)

/-- SPLIT (R209): the entry carries a number of its own, so that strands that descend from this SPLIT are known (R88). -/
def execSplit (off : BitVec 16) (s : State) : Host.Outcome State Fault Refusal :=
  s.run fun h =>
    if 16 ≤ h.strand.stack.length then s.takeFault h cSplitDepth
    else
      let r := h.retire 1 []
      s.putHere { r with
        group := { r.group with nextId := r.group.nextId + 1 }
        strand := { r.strand with stack := h.strand.stack ++ [⟨h.target off, h.group.nextId⟩] } }

/-- The lanes parked under an entry that have not run, in the order in which they run: the last parked first. -/
def Strand.unrun (x : Strand) (e : SplitEntry) : List Parked :=
  (x.parked.filter fun p => p.entry == e && p.target != e.addr).reverse

/-- At its REJOIN a strand first runs the lanes it has parked (R87); when all have run they unite. -/
def Strand.resumeParked (x : Strand) (e : SplitEntry) : Strand :=
  match x.unrun e with
  | p :: _ => { x with
      exec := p.exec
      pc := p.target
      parked := x.parked.map fun q => if q = p then ⟨q.lanes, x.exec, e.addr, e⟩ else q }
  | [] => { x with
      exec := (x.parked.filter fun p => p.entry == e).foldl (fun m p => m ||| p.exec) x.exec
      parked := x.parked.filter fun p => p.entry != e }

/-- REJOIN (R88, R209): ignored unless its address is that of the top entry. -/
def execRejoin (s : State) : Host.Outcome State Fault Refusal :=
  s.run fun h =>
    match h.strand.stack.getLast? with
    | none => s.fall h
    | some e =>
      if e.addr ≠ h.strand.pc then s.fall h
      else if !(h.strand.unrun e).isEmpty then s.putHere { h with strand := h.strand.resumeParked e }
      else
        let h1 := { h with strand := h.strand.resumeParked e }
        (s.putHere (h1.wait s.clock (.rejoin e))).fuse h.team.info.uid h.group.num e

/-- JMPS -/
def execJmps (a : SReg) (s : State) : Host.Outcome State Fault Refusal := s.run fun h => s.goTo h (h.readS a) id

/-- CALL: the link and the transfer happen together (R210). -/
def execCall (n : SReg) (off : BitVec 16) (s : State) : Host.Outcome State Fault Refusal :=
  s.run fun h => s.goTo h (h.target off) fun h => h.writeS n (h.strand.pc + 4)

/-- CALLS: sa is read before sd is written (R210). -/
def execCalls (d a : SReg) (s : State) : Host.Outcome State Fault Refusal :=
  s.run fun h => s.goTo h (h.readS a) fun h => h.writeS d (h.strand.pc + 4)

/-- RET -/
def execRet (a : SReg) (s : State) : Host.Outcome State Fault Refusal := s.run fun h => s.goTo h (h.readS a) id

/-- EXIT -/
def execExit (s : State) : Host.Outcome State Fault Refusal := s.run fun h => s.exitStrand h

end Sys2Proof.Machine
end

