-- ==== Sys2Proof/Machine/Scalar.lean ====
section
/-! DEFINITION. Integer, address and predicate S instructions (R185 to R195) and the address tests (R204, R205). -/

namespace Sys2Proof.Machine

open Sys2Proof

/-! ## Shared forms -/

/-- An S instruction whose whole effect is one scalar result (R186, R187). -/
def State.scalarOp (s : State) (d : SReg) (f : Here → DWord) : Host.Outcome State Fault Refusal :=
  s.run fun h => s.putHere ((h.writeS d (f h)).retire 1 [])

/-- An S instruction whose whole effect is one predicate result (R195). -/
def State.predOp (s : State) (d : PReg) (f : Here → Mask) : Host.Outcome State Fault Refusal :=
  s.run fun h => s.putHere ((h.writeP d (f h)).retire 1 [])

/-- SDIV and SREM: the group issues nothing on the three turns that follow (R84, R190). -/
def State.divOp (s : State) (d : SReg) (f : Here → DWord) : Host.Outcome State Fault Refusal :=
  s.run fun h =>
    let h1 := (h.writeS d (f h)).retire 1 []
    s.putHere { h1 with group := { h1.group with due := h1.group.due + 48 } }

/-- The 10-bit immediate, sign-extended (R193). -/
def imm10 (i : BitVec 10) : DWord := i.signExtend 64

/-- A condition as a scalar. -/
def boolS (b : Bool) : DWord := if b then 1 else 0

/-! ## R189 -/

/-- NOP -/
def execNop (s : State) : Host.Outcome State Fault Refusal := s.run fun h => s.putHere (h.retire 1 [])
/-- SADD -/
def execSadd (d a b : SReg) (s : State) : Host.Outcome State Fault Refusal := s.scalarOp d fun h => h.readS a + h.readS b
/-- SSUB -/
def execSsub (d a b : SReg) (s : State) : Host.Outcome State Fault Refusal := s.scalarOp d fun h => h.readS a - h.readS b
/-- SMUL -/
def execSmul (d a b : SReg) (s : State) : Host.Outcome State Fault Refusal := s.scalarOp d fun h => h.readS a * h.readS b

/-- Bits 127:64 of a product. -/
def mulHigh (u : Bool) (x y : DWord) : DWord :=
  if u then BitVec.ofNat 64 (x.toNat * y.toNat / 2 ^ 64) else BitVec.ofInt 64 (x.toInt * y.toInt / 2 ^ 64)

/-- SMULH -/
def execSmulh (u : Bool) (d a b : SReg) (s : State) : Host.Outcome State Fault Refusal :=
  s.scalarOp d fun h => mulHigh u (h.readS a) (h.readS b)
/-- SAND -/
def execSand (d a b : SReg) (s : State) : Host.Outcome State Fault Refusal := s.scalarOp d fun h => h.readS a &&& h.readS b
/-- SOR -/
def execSor (d a b : SReg) (s : State) : Host.Outcome State Fault Refusal := s.scalarOp d fun h => h.readS a ||| h.readS b
/-- SXOR -/
def execSxor (d a b : SReg) (s : State) : Host.Outcome State Fault Refusal := s.scalarOp d fun h => h.readS a ^^^ h.readS b
/-- SANDN -/
def execSandn (d a b : SReg) (s : State) : Host.Outcome State Fault Refusal := s.scalarOp d fun h => h.readS a &&& ~~~(h.readS b)

/-- The smaller of two, signed or unsigned. -/
def minS (u : Bool) (x y : DWord) : DWord := if (if u then x.ult y else x.slt y) then x else y
/-- The larger of two. -/
def maxS (u : Bool) (x y : DWord) : DWord := if (if u then x.ult y else x.slt y) then y else x

/-- SMIN -/
def execSmin (u : Bool) (d a b : SReg) (s : State) : Host.Outcome State Fault Refusal :=
  s.scalarOp d fun h => minS u (h.readS a) (h.readS b)
/-- SMAX -/
def execSmax (u : Bool) (d a b : SReg) (s : State) : Host.Outcome State Fault Refusal :=
  s.scalarOp d fun h => maxS u (h.readS a) (h.readS b)
/-- SCLZ -/
def execSclz (d a : SReg) (s : State) : Host.Outcome State Fault Refusal :=
  s.scalarOp d fun h => BitVec.ofNat 64 (clz 64 (h.readS a).toNat)
/-- SPOPC -/
def execSpopc (d a : SReg) (s : State) : Host.Outcome State Fault Refusal :=
  s.scalarOp d fun h => BitVec.ofNat 64 (popcount 64 (h.readS a).toNat)

/-! ## R190 -/

/-- The quotient of R190. -/
def divS (u : Bool) (x y : DWord) : DWord :=
  if y = 0 then 0xFFFFFFFFFFFFFFFF
  else if u then x / y
  else BitVec.ofInt 64 (x.toInt.tdiv y.toInt)

/-- The remainder of R190. -/
def remS (u : Bool) (x y : DWord) : DWord :=
  if y = 0 then x
  else if u then x % y
  else BitVec.ofInt 64 (x.toInt.tmod y.toInt)

/-- SDIV -/
def execSdiv (u : Bool) (d a b : SReg) (s : State) : Host.Outcome State Fault Refusal :=
  s.divOp d fun h => divS u (h.readS a) (h.readS b)
/-- SREM -/
def execSrem (u : Bool) (d a b : SReg) (s : State) : Host.Outcome State Fault Refusal :=
  s.divOp d fun h => remS u (h.readS a) (h.readS b)

/-! ## R191 -/

/-- The shift amount of R191. -/
def amount (y : DWord) : Nat := (y &&& 63).toNat

/-- SSHL -/
def execSshl (d a b : SReg) (s : State) : Host.Outcome State Fault Refusal := s.scalarOp d fun h => h.readS a <<< amount (h.readS b)
/-- SSHR -/
def execSshr (d a b : SReg) (s : State) : Host.Outcome State Fault Refusal := s.scalarOp d fun h => h.readS a >>> amount (h.readS b)
/-- SSAR -/
def execSsar (d a b : SReg) (s : State) : Host.Outcome State Fault Refusal :=
  s.scalarOp d fun h => (h.readS a).sshiftRight (amount (h.readS b))
/-- SBFX -/
def execSbfx (sx : Bool) (d a b : SReg) (s : State) : Host.Outcome State Fault Refusal :=
  s.scalarOp d fun h => BitVec.ofNat 64 (bfx sx 64 (h.readS a).toNat (h.readS b).toNat)
/-- SBFI -/
def execSbfi (d a b : SReg) (s : State) : Host.Outcome State Fault Refusal :=
  s.scalarOp d fun h => BitVec.ofNat 64 (bfi 64 (h.readS a).toNat (h.readS b).toNat (h.readS d).toNat)

/-! ## R192 -/

/-- SLEA -/
def execSlea (k : BitVec 4) (d a b : SReg) (s : State) : Host.Outcome State Fault Refusal :=
  s.scalarOp d fun h => h.readS a + h.readS b <<< k.toNat
/-- SCMP -/
def execScmp (c : Cond) (d a b : SReg) (s : State) : Host.Outcome State Fault Refusal :=
  s.scalarOp d fun h => boolS (c.holds 64 (h.readS a).toNat (h.readS b).toNat)
/-- SSEL -/
def execSsel (neg : Bool) (p : PReg) (d a b : SReg) (s : State) : Host.Outcome State Fault Refusal :=
  s.scalarOp d fun h => if (h.readP p &&& h.strand.exec != 0) != neg then h.readS a else h.readS b

/-! ## R193 and R194 -/

/-- SADDI -/
def execSaddi (d a : SReg) (imm : BitVec 10) (s : State) : Host.Outcome State Fault Refusal :=
  s.scalarOp d fun h => h.readS a + imm10 imm
/-- SANDI -/
def execSandi (d a : SReg) (imm : BitVec 10) (s : State) : Host.Outcome State Fault Refusal :=
  s.scalarOp d fun h => h.readS a &&& imm10 imm
/-- SORI -/
def execSori (d a : SReg) (imm : BitVec 10) (s : State) : Host.Outcome State Fault Refusal :=
  s.scalarOp d fun h => h.readS a ||| imm10 imm
/-- SXORI -/
def execSxori (d a : SReg) (imm : BitVec 10) (s : State) : Host.Outcome State Fault Refusal :=
  s.scalarOp d fun h => h.readS a ^^^ imm10 imm
/-- SSHLI -/
def execSshli (d a : SReg) (k : BitVec 6) (s : State) : Host.Outcome State Fault Refusal := s.scalarOp d fun h => h.readS a <<< k.toNat
/-- SSHRI -/
def execSshri (d a : SReg) (k : BitVec 6) (s : State) : Host.Outcome State Fault Refusal := s.scalarOp d fun h => h.readS a >>> k.toNat
/-- SSARI -/
def execSsari (d a : SReg) (k : BitVec 6) (s : State) : Host.Outcome State Fault Refusal :=
  s.scalarOp d fun h => (h.readS a).sshiftRight k.toNat
/-- SMOVI -/
def execSmovi (d : SReg) (imm : BitVec 16) (s : State) : Host.Outcome State Fault Refusal := s.scalarOp d fun _ => imm.signExtend 64
/-- SMOVHI -/
def execSmovhi (d : SReg) (imm : BitVec 16) (s : State) : Host.Outcome State Fault Refusal :=
  s.scalarOp d fun h => h.readS d <<< 16 ||| imm.zeroExtend 64

/-! ## Predicates (R195) -/

/-- PAND -/
def execPand (d a b : PReg) (s : State) : Host.Outcome State Fault Refusal := s.predOp d fun h => h.readP a &&& h.readP b
/-- POR -/
def execPor (d a b : PReg) (s : State) : Host.Outcome State Fault Refusal := s.predOp d fun h => h.readP a ||| h.readP b
/-- PXOR -/
def execPxor (d a b : PReg) (s : State) : Host.Outcome State Fault Refusal := s.predOp d fun h => h.readP a ^^^ h.readP b
/-- PANDN -/
def execPandn (d a b : PReg) (s : State) : Host.Outcome State Fault Refusal := s.predOp d fun h => h.readP a &&& ~~~(h.readP b)
/-- PCNT -/
def execPcnt (d : SReg) (a : PReg) (s : State) : Host.Outcome State Fault Refusal :=
  s.scalarOp d fun h => BitVec.ofNat 64 (popcount 64 (h.readP a).toNat)
/-- PFROMS -/
def execPfroms (d : PReg) (a : SReg) (s : State) : Host.Outcome State Fault Refusal := s.predOp d fun h => h.readS a
/-- PTOS -/
def execPtos (d : SReg) (a : PReg) (s : State) : Host.Outcome State Fault Refusal := s.scalarOp d fun h => h.readP a

/-! ## Address tests (R204, R205) -/

/-- SptestLocal (R204, R359: an alias names the team's new place). -/
def sptestLocal (t : Team) (a : DWord) : Bool :=
  match windowOf a with
  | some 0xB => t.answers (field a 36 11)
  | some 0xC => field a 40 3 == coreGallery t.core || t.aliases.any fun c => coreGallery c == field a 40 3
  | some _ => true
  | none => false

/-- SPTEST's result. -/
def sptestResult (t : Team) (a : DWord) : DWord :=
  BitVec.ofNat 64 ((windowOf a).getD 0xF + (if sptestLocal t a then 16 else 0))

/-- A window's code. -/
def Window.code : Window → Nat
  | .global => 0x0
  | .priv => 0xA
  | .scratch => 0xB
  | .shared => 0xC

/-- The specific form of a generic address (R205). -/
def specificForm (w : Window) (a : DWord) : Nat :=
  match w with
  | .global => field a 0 57
  | .priv => field a 0 24
  | .scratch => field a 0 24
  | .shared => field a 24 4 * 2 ^ 24 + field a 0 24

/-- SPCAST's result (R205). -/
def spcastResult (t : Team) (w : Window) (a b : DWord) : DWord :=
  if !b.getLsbD 0 then
    (if windowOf a = some (Window.code w) ∧ sptestLocal t a then BitVec.ofNat 64 (specificForm w a) else 0)
  else
    let n := a.toNat
    BitVec.ofNat 64 (match w with
      | .global => if n < 2 ^ 57 then n else 0
      | .priv => if n < 2 ^ 24 then 0xA * 2 ^ 60 + n else 0
      | .scratch => if n < 2 ^ 24 then 0xB * 2 ^ 60 + t.core * 2 ^ 36 + n else 0
      | .shared => if n < 2 ^ 28 ∧ n / 2 ^ 24 ≤ 11 then 0xC * 2 ^ 60 + coreGallery t.core * 2 ^ 40 + n else 0)

/-- SPTEST -/
def execSptest (d a : SReg) (s : State) : Host.Outcome State Fault Refusal := s.scalarOp d fun h => sptestResult h.team (h.readS a)
/-- SPCAST -/
def execSpcast (w : Window) (d a b : SReg) (s : State) : Host.Outcome State Fault Refusal :=
  s.scalarOp d fun h => spcastResult h.team w (h.readS a) (h.readS b)

end Sys2Proof.Machine
end

