-- ==== Sys2Proof/Machine/Dispatch.lean ====
section
/-! DEFINITION. The meaning of each instruction: one arm per constructor of `Instr`. -/

namespace Sys2Proof.Machine

open Sys2Proof

/-- One step of the table on behalf of the strand or the unit that it names. -/
def exec (i : Instr) (s : State) : Host.Outcome State Fault Refusal :=
  match i with
  | .nop => Sys2Proof.Machine.execNop s
  | .sadd d a b => Sys2Proof.Machine.execSadd d a b s
  | .ssub d a b => Sys2Proof.Machine.execSsub d a b s
  | .smul d a b => Sys2Proof.Machine.execSmul d a b s
  | .smulh u d a b => Sys2Proof.Machine.execSmulh u d a b s
  | .sdiv u d a b => Sys2Proof.Machine.execSdiv u d a b s
  | .srem u d a b => Sys2Proof.Machine.execSrem u d a b s
  | .sand d a b => Sys2Proof.Machine.execSand d a b s
  | .sor d a b => Sys2Proof.Machine.execSor d a b s
  | .sxor d a b => Sys2Proof.Machine.execSxor d a b s
  | .sandn d a b => Sys2Proof.Machine.execSandn d a b s
  | .sshl d a b => Sys2Proof.Machine.execSshl d a b s
  | .sshr d a b => Sys2Proof.Machine.execSshr d a b s
  | .ssar d a b => Sys2Proof.Machine.execSsar d a b s
  | .smin u d a b => Sys2Proof.Machine.execSmin u d a b s
  | .smax u d a b => Sys2Proof.Machine.execSmax u d a b s
  | .sclz d a => Sys2Proof.Machine.execSclz d a s
  | .spopc d a => Sys2Proof.Machine.execSpopc d a s
  | .sbfx sx d a b => Sys2Proof.Machine.execSbfx sx d a b s
  | .sbfi d a b => Sys2Proof.Machine.execSbfi d a b s
  | .slea k d a b => Sys2Proof.Machine.execSlea k d a b s
  | .scmp c d a b => Sys2Proof.Machine.execScmp c d a b s
  | .ssel neg p d a b => Sys2Proof.Machine.execSsel neg p d a b s
  | .saddi d a imm => Sys2Proof.Machine.execSaddi d a imm s
  | .sandi d a imm => Sys2Proof.Machine.execSandi d a imm s
  | .sori d a imm => Sys2Proof.Machine.execSori d a imm s
  | .sxori d a imm => Sys2Proof.Machine.execSxori d a imm s
  | .sshli d a k => Sys2Proof.Machine.execSshli d a k s
  | .sshri d a k => Sys2Proof.Machine.execSshri d a k s
  | .ssari d a k => Sys2Proof.Machine.execSsari d a k s
  | .smovi d imm => Sys2Proof.Machine.execSmovi d imm s
  | .smovhi d imm => Sys2Proof.Machine.execSmovhi d imm s
  | .pand d a b => Sys2Proof.Machine.execPand d a b s
  | .por d a b => Sys2Proof.Machine.execPor d a b s
  | .pxor d a b => Sys2Proof.Machine.execPxor d a b s
  | .pandn d a b => Sys2Proof.Machine.execPandn d a b s
  | .pcnt d a => Sys2Proof.Machine.execPcnt d a s
  | .pfroms d a => Sys2Proof.Machine.execPfroms d a s
  | .ptos d a => Sys2Proof.Machine.execPtos d a s
  | .sld la sz acq sc d a => Sys2Proof.Machine.execSld la sz acq sc d a s
  | .sst la sz rel sc d a => Sys2Proof.Machine.execSst la sz rel sc d a s
  | .sldc d a imm => Sys2Proof.Machine.execSldc d a imm s
  | .sldgot d imm => Sys2Proof.Machine.execSldgot d imm s
  | .satom la op dbl sc d a => Sys2Proof.Machine.execSatom la op dbl sc d a s
  | .scas la dbl ord sc d a => Sys2Proof.Machine.execScas la dbl ord sc d a s
  | .cwb la sc a b => Sys2Proof.Machine.execCwb la sc a b s
  | .cinv la sc a b => Sys2Proof.Machine.execCinv la sc a b s
  | .cwbinv la sc a b => Sys2Proof.Machine.execCwbinv la sc a b s
  | .sptest d a => Sys2Proof.Machine.execSptest d a s
  | .spcast w d a b => Sys2Proof.Machine.execSpcast w d a b s
  | .bra off => Sys2Proof.Machine.execBra off s
  | .brp t neg p off => Sys2Proof.Machine.execBrp t neg p off s
  | .brd neg p off => Sys2Proof.Machine.execBrd neg p off s
  | .split off => Sys2Proof.Machine.execSplit off s
  | .rejoin => Sys2Proof.Machine.execRejoin s
  | .jmps a => Sys2Proof.Machine.execJmps a s
  | .call n off => Sys2Proof.Machine.execCall n off s
  | .calls d a => Sys2Proof.Machine.execCalls d a s
  | .ret a => Sys2Proof.Machine.execRet a s
  | .exit => Sys2Proof.Machine.execExit s
  | .sread d r => Sys2Proof.Machine.execSread d r s
  | .swrite r d => Sys2Proof.Machine.execSwrite r d s
  | .fence k sc => Sys2Proof.Machine.execFence k sc s
  | .bar b n1 => Sys2Proof.Machine.execBar b n1 s
  | .trap t => Sys2Proof.Machine.execTrap t s
  | .brk v => Sys2Proof.Machine.execBrk v s
  | .rett => Sys2Proof.Machine.execRett s
  | .xlock => Sys2Proof.Machine.execXlock s
  | .xfree => Sys2Proof.Machine.execXfree s
  | .waitcnt c => Sys2Proof.Machine.execWaitcnt c s
  | .vadd g eph sat ty vd va vb => Sys2Proof.Machine.execVadd g eph sat ty vd va vb s
  | .vsub g eph sat ty vd va vb => Sys2Proof.Machine.execVsub g eph sat ty vd va vb s
  | .vmul g eph sat ty vd va vb => Sys2Proof.Machine.execVmul g eph sat ty vd va vb s
  | .vmulh g eph sat ty vd va vb => Sys2Proof.Machine.execVmulh g eph sat ty vd va vb s
  | .vmad g eph sat ty vd va vb => Sys2Proof.Machine.execVmad g eph sat ty vd va vb s
  | .vand g eph ty vd va vb => Sys2Proof.Machine.execVand g eph ty vd va vb s
  | .vor g eph ty vd va vb => Sys2Proof.Machine.execVor g eph ty vd va vb s
  | .vxor g eph ty vd va vb => Sys2Proof.Machine.execVxor g eph ty vd va vb s
  | .vandn g eph ty vd va vb => Sys2Proof.Machine.execVandn g eph ty vd va vb s
  | .vshl g eph ty vd va vb => Sys2Proof.Machine.execVshl g eph ty vd va vb s
  | .vshr g eph ty vd va vb => Sys2Proof.Machine.execVshr g eph ty vd va vb s
  | .vsar g eph ty vd va vb => Sys2Proof.Machine.execVsar g eph ty vd va vb s
  | .vmin g eph ty vd va vb => Sys2Proof.Machine.execVmin g eph ty vd va vb s
  | .vmax g eph ty vd va vb => Sys2Proof.Machine.execVmax g eph ty vd va vb s
  | .vabsd g eph sat ty vd va vb => Sys2Proof.Machine.execVabsd g eph sat ty vd va vb s
  | .vcmp g c ty pd va vb => Sys2Proof.Machine.execVcmp g c ty pd va vb s
  | .vsel g eph neg p ty vd va vb => Sys2Proof.Machine.execVsel g eph neg p ty vd va vb s
  | .vmov g eph ty vd vb => Sys2Proof.Machine.execVmov g eph ty vd vb s
  | .vclz g eph ty vd va => Sys2Proof.Machine.execVclz g eph ty vd va s
  | .vpopc g eph ty vd va => Sys2Proof.Machine.execVpopc g eph ty vd va s
  | .vbfx g eph ty vd va vb => Sys2Proof.Machine.execVbfx g eph ty vd va vb s
  | .vbfi g eph ty vd va vb => Sys2Proof.Machine.execVbfi g eph ty vd va vb s
  | .vdot4 g eph ty vd va vb => Sys2Proof.Machine.execVdot4 g eph ty vd va vb s
  | .vfadd g eph sat rnd ty vd va vb => Sys2Proof.Machine.execVfadd g eph sat rnd ty vd va vb s
  | .vfsub g eph sat rnd ty vd va vb => Sys2Proof.Machine.execVfsub g eph sat rnd ty vd va vb s
  | .vfmul g eph sat rnd ty vd va vb => Sys2Proof.Machine.execVfmul g eph sat rnd ty vd va vb s
  | .vfma g eph sat rnd ty vd va vb => Sys2Proof.Machine.execVfma g eph sat rnd ty vd va vb s
  | .vfmin g eph sat rnd ty vd va vb => Sys2Proof.Machine.execVfmin g eph sat rnd ty vd va vb s
  | .vfmax g eph sat rnd ty vd va vb => Sys2Proof.Machine.execVfmax g eph sat rnd ty vd va vb s
  | .vfcmp g c ty pd va vb => Sys2Proof.Machine.execVfcmp g c ty pd va vb s
  | .vfclass g eph ty vd va => Sys2Proof.Machine.execVfclass g eph ty vd va s
  | .vfrnd g eph rnd ty vd va => Sys2Proof.Machine.execVfrnd g eph rnd ty vd va s
  | .vfdiv g la sat rnd ty vd va vb => Sys2Proof.Machine.execVfdiv g la sat rnd ty vd va vb s
  | .vexp2 g la sat rnd ty vd va => Sys2Proof.Machine.execVexp2 g la sat rnd ty vd va s
  | .vlog2 g la sat rnd ty vd va => Sys2Proof.Machine.execVlog2 g la sat rnd ty vd va s
  | .vrcp g la sat rnd ty vd va => Sys2Proof.Machine.execVrcp g la sat rnd ty vd va s
  | .vrsq g la sat rnd ty vd va => Sys2Proof.Machine.execVrsq g la sat rnd ty vd va s
  | .vsqrt g la sat rnd ty vd va => Sys2Proof.Machine.execVsqrt g la sat rnd ty vd va s
  | .vcvt g eph sat rnd src dst vd va => Sys2Proof.Machine.execVcvt g eph sat rnd src dst vd va s
  | .vpack g eph sat rnd src dst vd va => Sys2Proof.Machine.execVpack g eph sat rnd src dst vd va s
  | .vunpack g eph src dst vd va => Sys2Proof.Machine.execVunpack g eph src dst vd va s
  | .vlns g eph rnd ty vd va vb => Sys2Proof.Machine.execVlns g eph rnd ty vd va vb s
  | .vlin g eph ty vd va vb => Sys2Proof.Machine.execVlin g eph ty vd va vb s
  | .vlmul g eph ty vd va vb => Sys2Proof.Machine.execVlmul g eph ty vd va vb s
  | .vladd g eph ty vd va vb => Sys2Proof.Machine.execVladd g eph ty vd va vb s
  | .vrand g eph op => Sys2Proof.Machine.execVrand g eph op s
  | .vflg g eph op => Sys2Proof.Machine.execVflg g eph op s
  | .vshuf g eph ty vd va vb => Sys2Proof.Machine.execVshuf g eph ty vd va vb s
  | .vbcast g eph ty vd va vb => Sys2Proof.Machine.execVbcast g eph ty vd va vb s
  | .vrdlane g ty sd va vb => Sys2Proof.Machine.execVrdlane g ty sd va vb s
  | .vwrlane g eph ty vd sa vb => Sys2Proof.Machine.execVwrlane g eph ty vd sa vb s
  | .vreduce g la rnd ty op vd va => Sys2Proof.Machine.execVreduce g la rnd ty op vd va s
  | .vscan g la rnd ty op vd va => Sys2Proof.Machine.execVscan g la rnd ty op vd va s
  | .vmatch g la ty vd va vb => Sys2Proof.Machine.execVmatch g la ty vd va vb s
  | .vcompact g eph vd va => Sys2Proof.Machine.execVcompact g eph vd va s
  | .tsort g la ty desc k vd va => Sys2Proof.Machine.execTsort g la ty desc k vd va s
  | .assertu g ty va => Sys2Proof.Machine.execAssertu g ty va s
  | .vld g la acq sc ty vd base off => Sys2Proof.Machine.execVld g la acq sc ty vd base off s
  | .vst g la rel sc ty vd base off => Sys2Proof.Machine.execVst g la rel sc ty vd base off s
  | .vlds g la acq sc ty vd base off => Sys2Proof.Machine.execVlds g la acq sc ty vd base off s
  | .vsts g la rel sc ty vd base off => Sys2Proof.Machine.execVsts g la rel sc ty vd base off s
  | .vldt g la acq sc view vd base off => Sys2Proof.Machine.execVldt g la acq sc view vd base off s
  | .vatom g la ord sc op ty vd base off => Sys2Proof.Machine.execVatom g la ord sc op ty vd base off s
  | .vcas g la ord sc vd base off => Sys2Proof.Machine.execVcas g la ord sc vd base off s
  | .vpref g level base off => Sys2Proof.Machine.execVpref g level base off s
  | .tcfg t v => Sys2Proof.Machine.execTcfg t v s
  | .tld la sat rnd m card => Sys2Proof.Machine.execTld la sat rnd m card s
  | .tst la sat rnd t card => Sys2Proof.Machine.execTst la sat rnd t card s
  | .tldr la pk t ring => Sys2Proof.Machine.execTldr la pk t ring s
  | .tmov la op => Sys2Proof.Machine.execTmov la op s
  | .tzero la m => Sys2Proof.Machine.execTzero la m s
  | .tmma la m acc a b card => Sys2Proof.Machine.execTmma la m acc a b card s
  | .tdrain la sat rnd clr acc dest card => Sys2Proof.Machine.execTdrain la sat rnd clr acc dest card s
  | .tbest la sat rnd acc tie two max clr dist vd par => Sys2Proof.Machine.execTbest la sat rnd acc tie two max clr dist vd par s
  | .tcupd la acc t vi => Sys2Proof.Machine.execTcupd la acc t vi s
  | .tcfin la sat rnd t acc clr => Sys2Proof.Machine.execTcfin la sat rnd t acc clr s
  | .twait la => Sys2Proof.Machine.execTwait la s
  | .cpy la sat rnd card => Sys2Proof.Machine.execCpy la sat rnd card s
  | .coll la sat rnd card => Sys2Proof.Machine.execColl la sat rnd card s
  | .tagwait all m => Sys2Proof.Machine.execTagwait all m s
  | .tagff done d m => Sys2Proof.Machine.execTagff done d m s
  | .tagclr m => Sys2Proof.Machine.execTagclr m s
  | .rinit ring b g => Sys2Proof.Machine.execRinit ring b g s
  | .racq d ring => Sys2Proof.Machine.execRacq d ring s
  | .rcommit ring m => Sys2Proof.Machine.execRcommit ring m s
  | .rwait d ring => Sys2Proof.Machine.execRwait d ring s
  | .rrel ring => Sys2Proof.Machine.execRrel ring s
  | .rsub out sat rnd ring t g => Sys2Proof.Machine.execRsub out sat rnd ring t g s
  | .runsub ring g => Sys2Proof.Machine.execRunsub ring g s
  | .qcfg st q b g => Sys2Proof.Machine.execQcfg st q b g s
  | .schrd la d k => Sys2Proof.Machine.execSchrd la d k s
  | .schwr la a k => Sys2Proof.Machine.execSchwr la a k s
  | .nexttile la d => Sys2Proof.Machine.execNexttile la d s
  | .atomdone la d a => Sys2Proof.Machine.execAtomdone la d a s
  | .spawn la a => Sys2Proof.Machine.execSpawn la a s
  | .join => Sys2Proof.Machine.execJoin s
  | .longLatencyComplete team group idx => Sys2Proof.Machine.execLongLatencyComplete team group idx s
  | .breakpointStop bp => Sys2Proof.Machine.execBreakpointStop bp s
  | .debugHaltStop team group => Sys2Proof.Machine.execDebugHaltStop team group s
  | .governorWindow die budget => Sys2Proof.Machine.execGovernorWindow die budget s
  | .jobAccept job => Sys2Proof.Machine.execJobAccept job s
  | .jobStart job => Sys2Proof.Machine.execJobStart job s
  | .jobComplete job => Sys2Proof.Machine.execJobComplete job s
  | .jobFail team => Sys2Proof.Machine.execJobFail team s
  | .expanderWatchdog job => Sys2Proof.Machine.execExpanderWatchdog job s
  | .commitPush team ring => Sys2Proof.Machine.execCommitPush team ring s
  | .stagerPush team ring => Sys2Proof.Machine.execStagerPush team ring s
  | .stagerSlotWriteback team ring => Sys2Proof.Machine.execStagerSlotWriteback team ring s
  | .runsubComplete team ring => Sys2Proof.Machine.execRunsubComplete team ring s
  | .queueStreamFill core q => Sys2Proof.Machine.execQueueStreamFill core q s
  | .queueStreamWrite core q => Sys2Proof.Machine.execQueueStreamWrite core q s
  | .launchDoorbell q t => Sys2Proof.Machine.execLaunchDoorbell q t s
  | .lqstatStopClear q => Sys2Proof.Machine.execLqstatStopClear q s
  | .lqstatRead q => Sys2Proof.Machine.execLqstatRead q s
  | .recordRead q => Sys2Proof.Machine.execRecordRead q s
  | .recordAdmit q => Sys2Proof.Machine.execRecordAdmit q s
  | .teamToGallery die => Sys2Proof.Machine.execTeamToGallery die s
  | .teamPlace core => Sys2Proof.Machine.execTeamPlace core s
  | .taskSteal core => Sys2Proof.Machine.execTaskSteal core s
  | .teamEnd team => Sys2Proof.Machine.execTeamEnd team s
  | .gridComplete grid => Sys2Proof.Machine.execGridComplete grid s
  | .gridFail grid => Sys2Proof.Machine.execGridFail grid s
  | .loaderLoad asid => Sys2Proof.Machine.execLoaderLoad asid s
  | .loadComplete => Sys2Proof.Machine.execLoadComplete s
  | .loaderUnload asid => Sys2Proof.Machine.execLoaderUnload asid s
  | .waitProbeSend sort n place => Sys2Proof.Machine.execWaitProbeSend sort n place s
  | .waitProbeArrive idx => Sys2Proof.Machine.execWaitProbeArrive idx s
  | .pageResponse va asid success => Sys2Proof.Machine.execPageResponse va asid success s
  | .hostPageResponse va asid success => Sys2Proof.Machine.execHostPageResponse va asid success s
  | .migrationCountDecay => Sys2Proof.Machine.execMigrationCountDecay s
  | .invalidateRange asid => Sys2Proof.Machine.execInvalidateRange asid s
  | .invalidateAsid asid => Sys2Proof.Machine.execInvalidateAsid asid s
  | .invalidateAll => Sys2Proof.Machine.execInvalidateAll s
  | .atsInvalidation va len asid => Sys2Proof.Machine.execAtsInvalidation va len asid s
  | .invalidationComplete => Sys2Proof.Machine.execInvalidationComplete s
  | .preemptGo asid deadline => Sys2Proof.Machine.execPreemptGo asid deadline s
  | .preemptSwitch asid deadline => Sys2Proof.Machine.execPreemptSwitch asid deadline s
  | .preemptResume asid => Sys2Proof.Machine.execPreemptResume asid s
  | .preemptDeadline team => Sys2Proof.Machine.execPreemptDeadline team s
  | .teamSave team => Sys2Proof.Machine.execTeamSave team s
  | .teamFlush team => Sys2Proof.Machine.execTeamFlush team s
  | .teamRestore team core => Sys2Proof.Machine.execTeamRestore team core s
  | .dieFailure die => Sys2Proof.Machine.execDieFailure die s
  | .linkModulesLost die n => Sys2Proof.Machine.execLinkModulesLost die n s
  | .ualinkPortLost port pkg => Sys2Proof.Machine.execUalinkPortLost port pkg s
  | .errorCorrectable source => Sys2Proof.Machine.execErrorCorrectable source s
  | .errorUncorrectable site => Sys2Proof.Machine.execErrorUncorrectable site s
  | .rds die => Sys2Proof.Machine.execRds die s
  | .rdx die => Sys2Proof.Machine.execRdx die s
  | .upg die => Sys2Proof.Machine.execUpg die s
  | .wb die => Sys2Proof.Machine.execWb die s
  | .wt die => Sys2Proof.Machine.execWt die s
  | .ack die => Sys2Proof.Machine.execAck die s
  | .fdata die => Sys2Proof.Machine.execFdata die s
  | .writtenBack die => Sys2Proof.Machine.execWrittenBack die s
  | .data die => Sys2Proof.Machine.execData die s
  | .grant die => Sys2Proof.Machine.execGrant die s
  | .inv die => Sys2Proof.Machine.execInv die s
  | .upd die => Sys2Proof.Machine.execUpd die s
  | .fwds die => Sys2Proof.Machine.execFwds die s
  | .fwdx die => Sys2Proof.Machine.execFwdx die s
  | .wback die => Sys2Proof.Machine.execWback die s
  | .wtack die => Sys2Proof.Machine.execWtack die s
  | .homeQueueServe line => Sys2Proof.Machine.execHomeQueueServe line s
  | .homeFillData line => Sys2Proof.Machine.execHomeFillData line s
  | .homeTransientRecord line => Sys2Proof.Machine.execHomeTransientRecord line s
  | .persistentRequest core line write => Sys2Proof.Machine.execPersistentRequest core line write s
  | .hostBar2Read off n => Sys2Proof.Machine.execHostBar2Read off n s
  | .hostBar2Write off bytes ep => Sys2Proof.Machine.execHostBar2Write off bytes ep s
  | .ualinkRemoteAccess r => Sys2Proof.Machine.execUalinkRemoteAccess r s
  | .registerWrite off v => Sys2Proof.Machine.execRegisterWrite off v s
  | .setTrapbase => Sys2Proof.Machine.execSetTrapbase s
  | .dbgSet => Sys2Proof.Machine.execDbgSet s
  | .dbgResume => Sys2Proof.Machine.execDbgResume s
  | .dbgRead => Sys2Proof.Machine.execDbgRead s
  | .dbgWrite => Sys2Proof.Machine.execDbgWrite s
  | .acctRead => Sys2Proof.Machine.execAcctRead s
  | .acctClear => Sys2Proof.Machine.execAcctClear s
  | .bbRead => Sys2Proof.Machine.execBbRead s
  | .mrExtend => Sys2Proof.Machine.execMrExtend s
  | .mrRead => Sys2Proof.Machine.execMrRead s
  | .timeSet => Sys2Proof.Machine.execTimeSet s
  | .windowLengthChange => Sys2Proof.Machine.execWindowLengthChange s
  | .tsyncChange ok => Sys2Proof.Machine.execTsyncChange ok s
  | .getVersion i3c => Sys2Proof.Machine.execGetVersion i3c s
  | .getCapabilities i3c => Sys2Proof.Machine.execGetCapabilities i3c s
  | .negotiateAlgorithms i3c => Sys2Proof.Machine.execNegotiateAlgorithms i3c s
  | .getDigests i3c => Sys2Proof.Machine.execGetDigests i3c s
  | .getCertificate i3c slot => Sys2Proof.Machine.execGetCertificate i3c slot s
  | .challenge i3c slot => Sys2Proof.Machine.execChallenge i3c slot s
  | .getMeasurements i3c block signed => Sys2Proof.Machine.execGetMeasurements i3c block signed s
  | .coldReset => Sys2Proof.Machine.execColdReset s
  | .warmReset => Sys2Proof.Machine.execWarmReset s
  | .toardReady verified => Sys2Proof.Machine.execToardReady verified s
  | .atriumReady verified => Sys2Proof.Machine.execAtriumReady verified s
  | .stackReady stack => Sys2Proof.Machine.execStackReady stack s
  | .stackWaitTimeout => Sys2Proof.Machine.execStackWaitTimeout s
  | .dieReady die images => Sys2Proof.Machine.execDieReady die images s
  | .dieReadyTimeout die => Sys2Proof.Machine.execDieReadyTimeout die s
  | .ualinkPortTrained port => Sys2Proof.Machine.execUalinkPortTrained port s
  | .tokenRequest core line write => Sys2Proof.Machine.execTokenRequest core line write s
  | .atsTranslation va asid answer => Sys2Proof.Machine.execAtsTranslation va asid answer s
  | .stackFailure stack => Sys2Proof.Machine.execStackFailure stack s

end Sys2Proof.Machine
end

