-- ==== Sys2Proof/Machine/Agenda.lean ====
section
/-! DEFINITION. Which event the part takes of its own when the schedule names none (log entry 3): the first, in a fixed order, that would
change the state. What comes from outside the part, and what the spec leaves to timing or replacement, comes only from the schedule. -/

namespace Sys2Proof.Machine

open Sys2Proof

/-- The state that an event gives, executed for no strand. -/
def State.happens (i : Instr) (s : State) : Host.Outcome State Fault Refusal := exec i { s with cur := none }

/-- What an event gives when it is not without effect. -/
def State.effective (s : State) (i : Instr) : Option (Host.Outcome State Fault Refusal) :=
  match s.happens i with
  | .next s1 => if s1 = { s with cur := none } then none else some (.next s1)
  | o => some o

/-- The numbers below a list's length. -/
def places {α : Type} (l : List α) : List Nat := List.range l.length

/-- Engine jobs, and what their failures leave for a team. -/
def State.jobEvents (s : State) : List Instr :=
  (s.jobs.flatMap fun j => match j.phase with
    | .waiting => [Instr.jobAccept j.uid]
    | .accepted => [Instr.jobStart j.uid]
    | .started => [Instr.jobComplete j.uid]) ++
  (s.teams.filter fun t => !t.fails.isEmpty).map fun t => Instr.jobFail t.info.uid

/-- Outstanding instructions, rings and stagers of a team. -/
def Team.events (t : Team) : List Instr :=
  (t.groups.flatMap fun g => (places g.pending).map fun k => Instr.longLatencyComplete t.info.uid g.num k) ++
  t.rings.flatMap fun r =>
    [.commitPush t.info.uid r.1, .stagerSlotWriteback t.info.uid r.1, .stagerPush t.info.uid r.1, .runsubComplete t.info.uid r.1]

/-- Streams of queue registers. -/
def State.streamEvents (s : State) : List Instr :=
  s.queues.map fun p => if p.2.store then Instr.queueStreamWrite (p.1 / 16) (p.1 % 16) else Instr.queueStreamFill (p.1 / 16) (p.1 % 16)

/-- Messages on the links of a die: the oldest each way. -/
def DieState.events (x : DieState) (d : Nat) : List Instr :=
  (match x.up.head? with
    | some (.rds _ _) => [Instr.rds d]
    | some (.rdx _) => [Instr.rdx d]
    | some (.upg _) => [Instr.upg d]
    | some (.wb _) => [Instr.wb d]
    | some (.wt _ _ _) => [Instr.wt d]
    | some (.ack _) => [Instr.ack d]
    | some (.fdata _) => [Instr.fdata d]
    | some (.writtenBack _) => [Instr.writtenBack d]
    | none => []) ++
  (match x.down.head? with
    | some (.data _ _ _) => [Instr.data d]
    | some (.grant _) => [Instr.grant d]
    | some (.inv _) => [Instr.inv d]
    | some (.upd _) => [Instr.upd d]
    | some (.fwds _) => [Instr.fwds d]
    | some (.fwdx _) => [Instr.fwdx d]
    | some (.wback _) => [Instr.wback d]
    | some (.wtack _) => [Instr.wtack d]
    | none => []) ++
  match x.nextPersistent with
  | some p => [Instr.persistentRequest p.core p.line p.write]
  | none => []

/-- The coherence machinery. -/
def State.coherenceEvents (s : State) : List Instr :=
  (places s.dies).flatMap (fun d => (s.die d).events d) ++
  s.dir.flatMap fun p => [.homeFillData p.1, .homeQueueServe p.1, .homeTransientRecord p.1]

/-- Pre-emption. -/
def State.preemptEvents (s : State) : List Instr :=
  s.teams.flatMap fun t => match t.mode with
    | .running => []
    | .drain _ => [Instr.preemptDeadline t.info.uid]
    | .saving => [Instr.teamSave t.info.uid]
    | .flushing => [Instr.teamFlush t.info.uid]

/-- The command that the mailbox has taken. -/
def State.mailboxEvents (s : State) : List Instr :=
  match s.manage.mbox.cmd with
  | none => []
  | some c => match [Instr.setTrapbase, .dbgSet, .dbgResume, .dbgRead, .dbgWrite, .acctRead, .acctClear, .bbRead, .mrExtend, .mrRead,
      .timeSet][c.toNat - 1]? with
    | some i => [i]
    | none => []

/-- The cores of the part, ascending. -/
def allCores : List Nat := (List.range 12).flatMap dieCores

/-- The dispatcher, from grids that end to records that are read. -/
def State.dispatchEvents (s : State) : List Instr :=
  (s.teams.map fun t => Instr.teamEnd t.info.uid) ++
  (s.grids.flatMap fun g => [Instr.gridComplete g.uid, Instr.gridFail g.uid]) ++
  (s.saved.flatMap fun t => allCores.map fun c => Instr.teamRestore t.info.uid c) ++
  (if s.tasks.isEmpty then [] else
    (allCores.map fun c => Instr.teamPlace c) ++ (List.range 12).map (fun d => Instr.teamToGallery d) ++
    allCores.map fun c => Instr.taskSteal c) ++
  [Instr.loadComplete] ++
  s.lqs.flatMap fun p => [Instr.recordAdmit p.1, Instr.recordRead p.1]

/-- Windows of dies whose governor holds a job: the budget stays as it is unless the schedule says otherwise. -/
def State.governorEvents (s : State) : List Instr :=
  (List.range 12).filterMap fun d =>
    let b := (s.die d).budget
    if (s.heldTeams d b).isEmpty then none else some (.governorWindow d b)

/-- Probes, invalidations and counts. -/
def State.slowEvents (s : State) : List Instr :=
  (if s.probes.isEmpty then [] else [Instr.waitProbeArrive 0]) ++
  (s.teams.flatMap fun t => t.live.map fun h => Instr.waitProbeSend .strand t.info.uid (h.group.num, h.strand.sid)) ++
  (s.lqs.map fun p => Instr.waitProbeSend .launch p.1 (0, 0)) ++
  [Instr.invalidationComplete, Instr.migrationCountDecay]

/-- The events that the part may take of its own, in the order in which they are tried. -/
def State.agenda (s : State) : List Instr :=
  s.jobEvents ++ s.teams.flatMap Team.events ++ s.streamEvents ++ s.coherenceEvents ++ s.preemptEvents ++ s.mailboxEvents ++
  s.dispatchEvents ++ s.governorEvents ++ s.slowEvents

/-- An issued turn executed. -/
def Issued.outcome : Issued → Host.Outcome State Fault Refusal
  | .run i s => exec i s
  | .done s => .next s

/-- What the part does of its own: its first event with an effect, or the barrels' next issue. -/
def State.runs (s : State) : Host.Outcome State Fault Refusal :=
  match s.agenda.findSome? s.effective with
  | some o => o
  | none => s.issueNext.outcome

/-- One turn of the schedule. -/
def State.takes (s : State) : Turn → Host.Outcome State Fault Refusal
  | .event i => s.happens i
  | .issue => s.issueNext.outcome
  | .evict l line => .next (if s.mayEvict l line then s.evictCopy l line else s)

end Sys2Proof.Machine
end

