-- ==== Sys2Proof/Machine/Fetched.lean ====
section
/-! DEFINITION. A package in which one strand is about to fetch a given instruction: what a driver's load and launch would have set
(log entry 29). -/

namespace Sys2Proof.Machine

open Sys2Proof

/-- Where the instruction stands: the virtual and the physical address. -/
def fetchAt : Nat := 0x8000

/-- The header of a team of one VECTOR group of 16 registers, with one row of stack and 1 KiB of scratchpad. -/
def fetchHeader : Header where
  addr := fetchAt
  base := fetchAt
  contract := 0
  idem := false
  migr := false
  maxDepth := 0
  vn := 1
  vb := 1
  vx := 0
  mn := 0
  mb := 0
  mx := 0
  cn := 0
  cb := 0
  cx := 0
  coloc := 1
  stack := 1
  shared := 0
  scratch := 1
  entry := fetchAt

/-- The grid of the team. -/
def fetchGrid (uid : Nat) : Grid where
  uid := uid
  lq := 0
  record := 0
  asid := 0
  account := 0
  header := fetchHeader
  sigEn := false
  sigCtr := 0
  sigInc := 0
  tiled := false
  high := 0
  spawnedTeams := 0
  cls := 0
  removed := 0
  failed := none
  sched := none
  ended := 0
  runTime := 0

/-- The team. -/
def fetchTeam (uid clock : Nat) : Team :=
  Team.start ⟨uid + 1, uid, 0, fetchHeader, 0, 0, 0, 0, none, clock, 0, 0⟩ 0 0 0 clock [0]

/-- A leaf of 32 KiB that may be executed (Table 09-8). -/
def fetchLeaf : DWord := BitVec.ofNat 64 (fetchAt + 2 ^ 8 + 2 ^ 3 + 2 ^ 0)

/-- The bytes of an instruction of at most 96 bits. -/
def fetchBytes (nbits w : Nat) : List Byte := bytesOfNum 12 (w % 2 ^ nbits)

/-- The package with one team, whose strand's next instruction is the one given, and whose next turn is its issue. -/
def State.fetchReady (s : State) (nbits w : Nat) : State :=
  { s with
    teams := [fetchTeam s.uid s.clock]
    grids := [fetchGrid s.uid]
    segs := [⟨0, fetchAt, 64, [0], [], [1], false⟩]
    ctxs := s.ctxs.insert 0 { Ctx.reset with root := 1 }
    tlb := ⟨0, fetchAt, 32768, fetchLeaf, none⟩ :: s.tlb
    poison := s.poison.filter fun l => l != lineOf fetchAt
    mem := s.mem.setAll (cellsAt fetchAt (fetchBytes nbits w))
    schedule := [.issue]
    uid := s.uid + 2 }

end Sys2Proof.Machine
end

