-- ==== Sys2Proof/Machine/Step.lean ====
section
/-! DEFINITION. One step of the package. -/

namespace Sys2Proof.Machine

open Sys2Proof

/-- ONE STEP: the next turn of the schedule; with an empty schedule, what the part does of its own (log entry 3). -/
def step (s : State) : Host.Outcome State Fault Refusal :=
  match s.schedule with
  | [] => s.runs
  | t :: rest => { s with schedule := rest }.takes t

/-- The state in which the very next step fetches and executes the instruction whose bits are `w` (log entry 29). -/
def State.withFetchWord (s : State) (nbits w : Nat) : State := s.fetchReady nbits w

end Sys2Proof.Machine
end

