-- ==== Sys2Proof/Safety.lean ====
section
/-! DEFINITION. What a safe run is: steps that answer a next state. -/

namespace Sys2Proof.Machine

open Sys2Proof

/-- A step goes on. -/
def Goes (o : Host.Outcome State Fault Refusal) : Prop := ∃ t, o = .next t

/-- One state follows another by a step. -/
def Follows (s t : State) : Prop := step s = .next t

/-- A state is reached from another by steps. -/
inductive Reaches : State → State → Prop where
  | refl (s : State) : Reaches s s
  | step (s t u : State) (h : Reaches s t) (f : Follows t u) : Reaches s u

/-- A state is safe: every step of every run from it goes on. -/
def Safe (s : State) : Prop := ∀ t, Reaches s t → Goes (step t)

end Sys2Proof.Machine
end

