-- ==== Sys2Proof/Claims.lean ====
section
/-! DEFINITION. The terms in which the statements say what an instruction does and what it leaves as it was. `s` and `t` are the states
before and after, `h` and `k` the contents of the strand executed for, its group and its team in them. -/

namespace Sys2Proof.Claims

open Sys2Proof Sys2Proof.Machine

/-! ## What is left as it was -/

/-- Nothing but the teams differs: memory, jobs, queues, contexts, registers of the host interface and all else are equal. -/
def OnlyTeams (s t : State) : Prop := t = { s with teams := t.teams }

/-- Nothing but the teams and the queue registers differs. -/
def OnlyTeamsQueues (s t : State) : Prop := t = { s with teams := t.teams, queues := t.queues }

/-- Memory reads as before at every address. -/
def MemoryKept (s t : State) : Prop := ∀ a, t.mem.byte a = s.mem.byte a

/-- Other teams, other groups of the team and other strands of the group are as before. -/
def OthersKept (s t : State) (h k : Here) : Prop :=
  (∀ u, u ≠ h.team.info.uid → t.team? u = s.team? u) ∧
  (∀ n, n ≠ h.group.num → k.team.group? n = h.team.group? n) ∧
  (∀ x, x ≠ h.strand.sid → k.group.strand? x = h.group.strand? x)

/-- The team is as before but for its groups: its rows, tiles, accumulators, tags, rings, locks, barriers and job-level flags. -/
def TeamKept (h k : Here) : Prop := k.team = { h.team with groups := k.team.groups }

/-- The strand keeps its lanes, its EXEC, its split stack and its parked lanes. -/
def StrandKept (h k : Here) : Prop :=
  k.strand.sid = h.strand.sid ∧ k.strand.lanes = h.strand.lanes ∧ k.strand.exec = h.strand.exec ∧ k.strand.stack = h.strand.stack ∧
  k.strand.parked = h.strand.parked

/-- Scalars are as before. -/
def ScalarsKept (h k : Here) : Prop := ∀ r, k.readS r = h.readS r

/-- Predicates are as before. -/
def PredsKept (h k : Here) : Prop := ∀ p, k.readP p = h.readP p

/-- Lane flags are as before. -/
def FlagsKept (h k : Here) : Prop := k.group.flags = h.group.flags

/-- Random state is as before. -/
def RngKept (h k : Here) : Prop := k.group.rng = h.group.rng

/-- MODE, DRSCALE and the FMT registers are as before. -/
def ModesKept (h k : Here) : Prop := k.group.rm = h.group.rm ∧ k.group.drscale = h.group.drscale ∧ k.group.fmts = h.group.fmts

/-- The group's identity is as before, and the same long-latency instructions are outstanding. -/
def GroupKept (h k : Here) : Prop :=
  k.group.kind = h.group.kind ∧ k.group.num = h.group.num ∧ k.group.barrel = h.group.barrel ∧ k.group.slot = h.group.slot ∧
  k.group.ended = h.group.ended ∧ k.group.pending.map (·.id) = h.group.pending.map (·.id)

/-! ## Results -/

/-- The scalar `d` holds `v`, unless it is `s0`, which reads zero; the others are as before. -/
def ScalarIs (h k : Here) (d : SReg) (v : DWord) : Prop :=
  k.readS d = (if d = 0 then 0 else v) ∧ ∀ r, r ≠ d → k.readS r = h.readS r

/-- The predicate `d` holds `v`, unless it is `p0`, which reads all ones; the others are as before. -/
def PredIs (h k : Here) (d : PReg) (v : Mask) : Prop :=
  k.readP d = (if d = 0 then allLanes else v) ∧ ∀ p, p ≠ d → k.readP p = h.readP p

/-- THE INSTRUCTION COMPLETES: `exec` answers a next state, in which the strand has moved on by the instruction's `n` words and is held by
nothing; other strands, groups and teams are as before; and `P` holds. -/
def Completes (s : State) (h : Here) (i : Instr) (n : Nat) (P : State → Here → Prop) : Prop :=
  ∃ t k, exec i s = .next t ∧ t.here = some k ∧ k.strand.pc = h.strand.pc + BitVec.ofNat 64 (4 * n) ∧ k.strand.hold = none ∧
    OthersKept s t h k ∧ StrandKept h k ∧ P t k

/-- What every S instruction without a vector, memory or control effect leaves. -/
def Quiet (s t : State) (h k : Here) : Prop :=
  OnlyTeams s t ∧ TeamKept h k ∧ FlagsKept h k ∧ RngKept h k ∧ ModesKept h k ∧ GroupKept h k

/-- What an instruction leaves that changes its team, but no lane, mode or outstanding instruction. -/
def GroupQuiet (s t : State) (h k : Here) : Prop :=
  OnlyTeams s t ∧ PredsKept h k ∧ FlagsKept h k ∧ RngKept h k ∧ ModesKept h k ∧ GroupKept h k

/-- The instruction has no effect but to move on by its `n` words. -/
def Passes (s : State) (h : Here) (i : Instr) (n : Nat) : Prop :=
  Completes s h i n fun t k => ScalarsKept h k ∧ PredsKept h k ∧ Quiet s t h k

/-- The strand does not issue the instruction: it is held before it, for the reason `c`, and nothing else changes. -/
def HeldBy (s : State) (h : Here) (i : Instr) (c : Hold) : Prop :=
  ∃ t k, exec i s = .next t ∧ t.here = some k ∧ k.strand.pc = h.strand.pc ∧ k.strand.hold = some c ∧ OthersKept s t h k ∧
    StrandKept h k ∧ ScalarsKept h k ∧ PredsKept h k ∧ Quiet s t h k

/-- The instruction's whole effect is one scalar result. -/
def ScalarResult (s : State) (h : Here) (i : Instr) (d : SReg) (v : DWord) : Prop :=
  Completes s h i 1 fun t k => ScalarIs h k d v ∧ PredsKept h k ∧ Quiet s t h k

/-- The instruction's whole effect is one predicate result. -/
def PredResult (s : State) (h : Here) (i : Instr) (d : PReg) (v : Mask) : Prop :=
  Completes s h i 1 fun t k => PredIs h k d v ∧ ScalarsKept h k ∧ Quiet s t h k

/-- The instruction transfers control to `a`; what else it does `P` says. -/
def GoesTo (s : State) (h : Here) (i : Instr) (a : DWord) (P : Here → Prop) : Prop :=
  ∃ t k, exec i s = .next t ∧ t.here = some k ∧ k.strand.pc = a ∧ k.strand.hold = none ∧ OthersKept s t h k ∧ StrandKept h k ∧
    PredsKept h k ∧ Quiet s t h k ∧ P k

/-- The comparisons of Table 11-5 on two 64-bit patterns. -/
def Compares (c : Cond) (x y : DWord) : Prop :=
  match c with
  | .eq => x = y
  | .ne => x ≠ y
  | .lt => x.toInt < y.toInt
  | .le => x.toInt ≤ y.toInt
  | .gt => x.toInt > y.toInt
  | .ge => x.toInt ≥ y.toInt
  | .ltu => x.toNat < y.toNat
  | .leu => x.toNat ≤ y.toNat
  | .gtu => x.toNat > y.toNat
  | .geu => x.toNat ≥ y.toNat

/-! ## Vector instructions -/

/-- A vector instruction may issue with the mask `m`: its role and its registers are in order, the pushes it makes have room, and the
registers that it reads give `vs`, which leaves the queues `qs`. -/
def VecReady (s : State) (h : Here) (i : Instr) (m : Mask) (vs : List Lanes) (qs : SMap QueueReg) : Prop :=
  s.here = some h ∧ h.issueFault i = none ∧ s.pushStop h i.vwrites = none ∧ h.fetch m i.vreads s.queues = .ok (vs, qs)

/-- The registers `ws` have been written under the mask `m`: into the banks and the queues; or, with `eph`, into the forwarding window
alone. -/
def Wrote (t : State) (h k : Here) (qs : SMap QueueReg) (m : Mask) (eph : Bool) (ws : List (Nat × Lanes)) : Prop :=
  let w := if eph then (h.team, qs) else writeRegs h.team h.group qs m ws
  k.team = { w.1 with groups := k.team.groups } ∧ t.queues = w.2 ∧ k.strand.fwd = (fwdEntry eph m ws :: h.strand.fwd).take 8

/-- Each active lane's flags have those of `f` added; the others are as before. -/
def FlagsRaised (h k : Here) (m : Mask) (f : Nat → Flags) : Prop :=
  ∀ l, l < 64 → k.group.flagsOf l = if laneBit m l then h.group.flagsOf l ||| f l else h.group.flagsOf l

/-- What a vector instruction leaves that neither raises flags nor draws. -/
def VecQuiet (s t : State) (h k : Here) : Prop :=
  OnlyTeamsQueues s t ∧ FlagsKept h k ∧ RngKept h k ∧ ModesKept h k ∧ GroupKept h k

/-- A short-latency instruction whose whole effect is its vector result `ws`. -/
def VecResult (s : State) (h : Here) (i : Instr) (n : Nat) (m : Mask) (qs : SMap QueueReg) (eph : Bool) (ws : List (Nat × Lanes)) : Prop :=
  Completes s h i n fun t k => Wrote t h k qs m eph ws ∧ ScalarsKept h k ∧ PredsKept h k ∧ VecQuiet s t h k

/-- A short-latency instruction that also raises flags and draws random numbers, lane by lane. -/
def VecFlagResult (s : State) (h : Here) (i : Instr) (n : Nat) (m : Mask) (qs : SMap QueueReg) (eph : Bool) (ty : Fmt) (vd : VReg)
    (rs : List LaneRes) : Prop :=
  Completes s h i n fun t k => Wrote t h k qs m eph (destOf ty vd (rs.map (·.val))) ∧ ScalarsKept h k ∧ PredsKept h k ∧
    FlagsRaised h k m (flagsFrom rs) ∧
    (∀ l, l < 64 → k.group.rngOf l = if laneBit m l then (rs.getD l ⟨0, 0, ⟨0, 0, 0, 0⟩⟩).rng else h.group.rngOf l) ∧
    OnlyTeamsQueues s t ∧ ModesKept h k ∧ GroupKept h k

/-- A vector instruction whose result is a predicate written in the active lanes: true where `f` holds. -/
def VecPredResult (s : State) (h : Here) (i : Instr) (n : Nat) (m : Mask) (qs : SMap QueueReg) (pd : PReg) (f : Nat → Prop) : Prop :=
  Completes s h i n fun t k => (∃ v : Mask, PredIs h k pd v ∧
      ∀ l, l < 64 → (laneBit v l = true ↔ if laneBit m l then f l else laneBit (h.readP pd) l = true)) ∧
    ScalarsKept h k ∧ TeamKept h k ∧ t.queues = qs ∧ OnlyTeamsQueues s t ∧ RngKept h k ∧ ModesKept h k ∧ GroupKept h k

/-- The lanes of `r` in the active lanes are `f` of the operand lanes. -/
def Lanewise (m : Mask) (o : Args) (r : List DWord) (f : DWord → DWord → DWord → DWord) : Prop :=
  r.length = 64 ∧ ∀ l, l < 64 → laneBit m l = true → laneOf r l = f (laneOf o.a l) (laneOf o.b l) (laneOf o.d l)

/-- Each element of the active lanes of `r` is the code of `f` of the operands' elements. -/
def Codewise (ty : Fmt) (m : Mask) (o : Args) (r : List DWord) (f : Nat → Nat → Nat → Nat) : Prop :=
  r.length = 64 ∧ ∀ l, l < 64 → laneBit m l = true → ∀ k, k < ty.count →
    elemOf ty (laneOf r l) k = f (elemOf ty (laneOf o.a l) k) (elemOf ty (laneOf o.b l) k) (elemOf ty (laneOf o.d l) k) % 2 ^ ty.elemBits

/-- Each element of the active lanes of `r` is the exact integer `f` of the operands' elements, clamped to the type's range with `sat`, and
reduced modulo the element's width (R228). -/
def Exactly (ty : Fmt) (sat : Bool) (m : Mask) (o : Args) (r : List DWord) (f : Int → Int → Int → Int) : Prop :=
  let n := ty.elemBits
  let lo : Int := if ty.isSigned then -(2 ^ (n - 1)) else 0
  let hi : Int := if ty.isSigned then 2 ^ (n - 1) - 1 else 2 ^ n - 1
  r.length = 64 ∧ ∀ l, l < 64 → laneBit m l = true → ∀ k, k < ty.count →
    let v := f (elemInt ty (elemOf ty (laneOf o.a l) k)) (elemInt ty (elemOf ty (laneOf o.b l) k)) (elemInt ty (elemOf ty (laneOf o.d l) k))
    (elemOf ty (laneOf r l) k : Int) = (if sat then max lo (min hi v) else v) % 2 ^ n

/-- The comparisons of Table 11-5 on two codes of `n` bits. -/
def CodesCompare (c : Cond) (n x y : Nat) : Prop :=
  match c with
  | .eq => x = y
  | .ne => x ≠ y
  | .lt => signedOf n x < signedOf n y
  | .le => signedOf n x ≤ signedOf n y
  | .gt => signedOf n x > signedOf n y
  | .ge => signedOf n x ≥ signedOf n y
  | .ltu => x < y
  | .leu => x ≤ y
  | .gtu => x > y
  | .geu => x ≥ y

/-! ## Long-latency instructions -/

/-- A long-latency instruction has issued (R92): it is the last of the group's outstanding ones, with what it captured in `p`, the strand
has moved on, and the registers it will write stand in the forwarding window as written to the banks. -/
def Launches (s : State) (h : Here) (i : Instr) (n : Nat) (qs : SMap QueueReg) (p : Pending) (P : State → Here → Prop) : Prop :=
  Completes s h i n fun t k =>
    k.group.pending = (h.group.shorten h.strand.sid).pending ++ [p] ∧
    k.strand.fwd = (i.vwrites.map (fun r => ⟨r, none⟩) :: h.strand.fwd).take 8 ∧
    t = { s with teams := t.teams, queues := qs, uid := s.uid + 1, tlb := t.tlb } ∧ TeamKept h k ∧ ScalarsKept h k ∧ PredsKept h k ∧
    FlagsKept h k ∧ ModesKept h k ∧ P t k

/-- An instruction that may issue as a long-latency one with the mask `m`. -/
def LongReady (s : State) (h : Here) (i : Instr) (m : Mask) (vs : List Lanes) (qs : SMap QueueReg) : Prop :=
  s.here = some h ∧ h.issueFault i = none ∧ s.ownQueues h i.vwrites = none ∧ h.fetch m i.vreads s.queues = .ok (vs, qs) ∧
  h.group.outcnt < 32

/-- The outstanding instruction at place `idx` of a group, which may complete now. -/
def Outstanding (s : State) (team group idx : Nat) (t : Team) (g : Group) (p : Pending) : Prop :=
  s.team? team = some t ∧ t.group? group = some g ∧ g.pending[idx]? = some p ∧ s.mayFinish ⟨t, g, g.strandFor p.sid⟩ p = true

/-- The outstanding instruction completes (R92): it leaves the group's outstanding ones, its registers `ws` have been written under its mask,
its lanes' flags `fl` have been added, and the scalar of `sc` has been written; `P` says what else has changed. -/
def Finishes (s : State) (team group idx : Nat) (t0 : Team) (g0 : Group) (p : Pending) (ws : List (Nat × Lanes)) (fl : Nat → Flags)
    (sc : Option (SReg × DWord)) (P : State → Prop) : Prop :=
  let w := writeRegs t0 g0 s.queues p.mask ws
  ∃ t t1 g1, exec (.longLatencyComplete team group idx) s = .next t ∧ t.team? team = some t1 ∧ t1.group? group = some g1 ∧
    g1.pending.map (·.id) = (g0.pending.map (·.id)).filter (· != p.id) ∧
    t1.rows = w.1.rows ∧ t1.rowPoison = w.1.rowPoison ∧ t.queues = w.2 ∧
    (∀ l, l < 64 → g1.flagsOf l = if laneBit p.mask l then g0.flagsOf l ||| fl l else g0.flagsOf l) ∧
    (∀ r, g1.readSAs p.sid r = match sc with
      | some (d, v) => if r = d ∧ d ≠ 0 then v else g0.readSAs p.sid r
      | none => g0.readSAs p.sid r) ∧
    g1.preds = g0.preds ∧ (∀ u, u ≠ team → t.team? u = s.team? u) ∧ P t

/-- The number of units of 2^-1200 that a finite value is (R60); an infinity or a NaN has none. -/
def units (x : Sys2Proof.Num) : Int :=
  match x with
  | .fin neg m k _ => signedUnits neg m k accUnit
  | _ => 0

/-- A job has been issued (R145): it is the last of its core's, its instruction outstanding until the card is accepted, and the strand has
moved on. -/
def IssuesJob (s : State) (h : Here) (i : Instr) (la : BitVec 4) (j : Job) (a : DWord) : Prop :=
  Completes s h i 2 fun t k =>
    t = { s with teams := t.teams, jobs := s.jobs ++ [j], uid := s.uid + 1 } ∧
    k.group.pending = (h.group.shorten h.strand.sid).pending ++ [{ h.pend s.uid i la h.strand.exec [] with sa := a, job := some s.uid }] ∧
    TeamKept h k ∧ ScalarsKept h k ∧ PredsKept h k ∧ FlagsKept h k ∧ RngKept h k ∧ ModesKept h k

/-- An outstanding matrix operation completes: it leaves the group's outstanding ones; the team's engine, rows, flags and failures are what
`P` says of it, and nothing but teams and queues changes. -/
def Worked (s : State) (team group idx : Nat) (g0 : Group) (p : Pending) (P : Team → Prop) : Prop :=
  ∃ t t1 g1, exec (.longLatencyComplete team group idx) s = .next t ∧ t.team? team = some t1 ∧ t1.group? group = some g1 ∧
    g1.pending.map (·.id) = (g0.pending.map (·.id)).filter (· != p.id) ∧ OnlyTeamsQueues s t ∧ (∀ u, u ≠ team → t.team? u = s.team? u) ∧ P t1

/-! ## Memory -/

/-- `n` bytes of one line of COHERENT or UNCACHED memory of this package, a line that is not poisoned and of which there is no MANUAL
copy; of a COHERENT one no message is under way, and no persistent request is being served (R327, R331). -/
def AtHome (s : State) (l : Loc) (x : Xlat) (n : Nat) : Prop :=
  l = .glob x ∧ x.host = false ∧ x.bar0 = none ∧ remotePkg x.pa = none ∧ x.mt ≠ 1 ∧ x.pa % 128 + n ≤ 128 ∧
  s.poisoned (x.pa / 128) = false ∧ (∀ c ∈ s.copies, c.line ≠ x.pa / 128) ∧
  (x.mt = 0 → x.pa / 128 ∉ s.busyLines ∧ ∀ c, s.slotBars c (x.pa / 128) = false)

/-- Where the model's memory holds the bytes of a place: those of host memory stand above those of devices (R372). -/
def placeOf (x : Xlat) : Nat := if x.host then 2 ^ 64 + x.pa else x.pa

/-- No die holds the COHERENT line of a place at a view, so that a store to it is not written through (R329). -/
def NoView (s : State) (x : Xlat) : Prop := x.mt = 0 → (s.dirLine (placeOf x / 128)).vs = false

/-- `n` bytes of one line of COHERENT or UNCACHED memory of this package, of another that is not lost, or of the host, as `AtHome` has them.
Where they are the host's, counting the access asks for no migration (R157): the page-request ring has no room, or no count is near the
threshold. -/
def Reached (s : State) (l : Loc) (x : Xlat) (n : Nat) : Prop :=
  let a := placeOf x
  l = .glob x ∧ x.bar0 = none ∧ (∀ q, x.host = false → remotePkg x.pa = some q → q ∉ s.records.lostPackages) ∧ x.mt ≠ 1 ∧
  a % 128 + n ≤ 128 ∧ s.poisoned (a / 128) = false ∧ (∀ c ∈ s.copies, c.line ≠ a / 128) ∧
  (x.mt = 0 → a / 128 ∉ s.busyLines ∧ ∀ c, s.slotBars c (a / 128) = false) ∧
  (x.host = true → s.prqRoom = false ∨
    (1 < Config.migrationThreshold 0 ∧ ∀ c ∈ s.migCounts, c.2 + 1 < Config.migrationThreshold 0))

/-- What an outstanding store of team `T` releases at SYSTEM scope is not lost, and pod time has been established (R339, R367). -/
def ReleaseMet (s : State) (T : Nat) (sc : Scope) (p : Pending) : Prop :=
  sc = .system → p.release = true → s.tsync = true ∧ s.remoteLost T = false

/-- A load has been performed: but for teams and queues only the coherence machinery has moved. -/
def OnlyLoaded (s t : State) : Prop := t = { s with teams := t.teams, queues := t.queues, dir := t.dir, dies := t.dies }

/-- A store or an atomic has been performed: but for teams, queues and the coherence machinery only memory differs, and what a release or
the binder's store (R129, R339) ends. -/
def OnlyStored (s t : State) : Prop :=
  t = { s with teams := t.teams, queues := t.queues, dir := t.dir, dies := t.dies, mem := t.mem, binds := t.binds, records := t.records } ∧
  ∀ b ∈ t.binds, b ∈ s.binds

/-- An access to MANUAL memory or a range of its lines has been performed: but for teams and queues only copies and memory differ, and what
a release or the binder's store ends. -/
def OnlyCopies (s t : State) : Prop :=
  ∃ (m : Memory) (p : List Nat) (b : List GotBinding) (r : Records),
    t = { s with teams := t.teams, queues := t.queues, copies := t.copies, mem := m, poison := p, binds := b, records := r }

/-- Byte `j` of a number, least significant first (R3). -/
def byteOf (v j : Nat) : Byte := BitVec.ofNat 8 (v / 256 ^ j)

/-- Atomics on `n` bytes one after another: lane `l` gets the old number, and its new one is written if there is one. -/
def atomRun (n : Nat) (f : Nat → Nat → Option Nat) : List (Nat × Nat) → (Nat → Byte) → List (Nat × Nat) × (Nat → Byte)
  | [], m => ([], m)
  | (l, a) :: rest, m =>
    let old := numOfBytes ((List.range n).map fun j => m (a + j))
    let m1 := match f l old with
      | some v => fun b => if a ≤ b ∧ b < a + n then byteOf v (b - a) else m b
      | none => m
    let r := atomRun n f rest m1
    ((l, old) :: r.1, r.2)

/-- `n` bytes at a global address of a context can be read, and `f` says what they hold: for each 128-byte line of them the translation
caches hold a leaf of COHERENT or UNCACHED device memory of this package; the line is at rest at its home (R331), not poisoned, and there
is no MANUAL copy of it. -/
def Readable (s : State) (asid va n : Nat) (f : Nat → Byte) : Prop :=
  s.live asid = true ∧ va + n ≤ 2 ^ 57 ∧ ∀ r ∈ lineRuns va n, ∃ e,
    s.tlb.find? (fun e => e.asid == asid && e.base ≤ r.1 && r.1 < e.base + e.size) = some e ∧
    let x := e.place r.1
    AtHome s (.glob x) x r.2 ∧ ∀ j, j < r.2 → f (r.1 - va + j) = s.mem.byte (x.pa + j)

/-- `n` bytes at a global address of a context can be written, byte `j` of them at the physical address `b j`, no two at one: as `Readable`
has it, and each leaf permits it (R112, R154). -/
def Writable (s : State) (asid va n : Nat) (b : Nat → Nat) : Prop :=
  s.live asid = true ∧ va + n ≤ 2 ^ 57 ∧ (∀ i j, i < n → j < n → b i = b j → i = j) ∧ ∀ r ∈ lineRuns va n, ∃ e,
    s.tlb.find? (fun e => e.asid == asid && e.base ≤ r.1 && r.1 < e.base + e.size) = some e ∧
    let x := e.place r.1
    AtHome s (.glob x) x r.2 ∧ e.leaf.getLsbD 2 = true ∧ (∀ q ∈ s.segs, x.pa / 32768 ∉ q.pages) ∧
    ∀ j, j < r.2 → b (r.1 - va + j) = x.pa + j

/-- A team as it has been saved (R358): its information `i`, how long it has run, its rows, tiles, accumulators, rings, groups, open jobs and
queue bindings, but for the pages that a stager or a stream awaits, which is asked for afresh. -/
def SavedAs (s : State) (t : Team) (i : TaskInfo) (w : Team) : Prop :=
  w.info = i ∧ w.core = t.core ∧ w.asid = t.asid ∧ w.lq = t.lq ∧ w.started = s.clock - t.started ∧ w.rows = t.rows ∧ w.rowPoison = t.rowPoison ∧
  w.tiles = t.tiles ∧ w.accs = t.accs ∧ w.tagsDone = t.tagsDone ∧ w.tagsFly = t.tagsFly ∧ w.jflags = t.jflags ∧ w.locks = t.locks ∧
  w.bars = t.bars ∧ w.fails = t.fails ∧ w.aliases = t.aliases ∧
  w.rings = t.rings.map (fun p => (p.1, { p.2 with sub := p.2.sub.map fun b => { b with park := none, refused := [] } })) ∧
  w.openJobs = s.jobs.filter (fun j => j.team == t.info.uid) ∧
  w.bound = (s.queues.filter fun q => q.2.team == t.info.uid).map (fun q => (q.1 % 16, { q.2 with park := none, refused := [] })) ∧
  w.groups.map (fun g => { g with pending := [] }) = t.groups.map (fun g => { g with pending := [] }) ∧
  w.groups.map (fun g => g.pending.map fun p => (p.id, p.instr, p.mask, p.sa, p.sb, p.sd, p.vops, p.job)) =
    t.groups.map (fun g => g.pending.map fun p => (p.id, p.instr, p.mask, p.sa, p.sb, p.sd, p.vops, p.job))

/-- Where a byte of a region lies: in memory, or in the rows of a team. -/
inductive Spot where
  | mem (a : Nat)
  | store (team off : Nat)
  deriving DecidableEq, Repr

/-- The byte at a spot. -/
def Spot.read (z : Spot) (s : State) : Byte :=
  match z with
  | .mem a => s.mem.byte a
  | .store u o => match s.team? u with
    | some t => byteOf ((t.row (o / 256)).getD (o % 256 / 4) 0).toNat (o % 4)
    | none => 0

/-- A job of a team's group can access the `n` bytes at a generic address, which lie at the spots `f`. In global memory the translation
caches hold a leaf of COHERENT or UNCACHED device memory of this package for each 128-byte line of them; the line is at rest at its home,
not poisoned, and there is no MANUAL copy of it; for a write the leaf permits it. In the core store rows that are read hold no poison. -/
def Reaches (s : State) (t : Team) (g : Group) (write : Bool) (a : DWord) (n : Nat) (f : Nat → Spot) : Prop :=
  (s.live t.asid = true ∧ a.toNat + n ≤ 2 ^ 57 ∧ ∀ r ∈ lineRuns a.toNat n, ∃ e,
    s.tlb.find? (fun e => e.asid == t.asid && e.base ≤ r.1 && r.1 < e.base + e.size) = some e ∧
    let x := e.place r.1
    AtHome s (.glob x) x r.2 ∧ (write = true → e.leaf.getLsbD 2 = true ∧ ∀ q ∈ s.segs, x.pa / 32768 ∉ q.pages) ∧
    ∀ j, j < r.2 → f (r.1 - a.toNat + j) = .mem (x.pa + j)) ∨
  (∃ u o w, s.resolve t g false a n = .ok (.store u o) ∧ s.team? u = some w ∧
    (write = true ∨ ∀ r ∈ w.rowPoison, r * 256 + 256 ≤ o ∨ o + n ≤ r * 256) ∧ ∀ j, j < n → f j = .store u (o + j))

/-- The number that `n` bytes hold, least significant first (R3). -/
def numAt (s : State) (n : Nat) (f : Nat → Spot) : Nat := numOfBytes ((List.range n).map fun j => (f j).read s)

/-- The spots `zs` have been written and no other memory and no other row has. -/
def WroteOnly (s t : State) (zs : List Spot) : Prop := ∀ z : Spot, z ∉ zs → z.read t = z.read s

/-! ## Strands that meet -/

/-- Of the strands `xs` those that carry the entry `e` have fused, and `zs` are left (R88): the fused strand stands where the first of them
stood, with the union of their lane sets and of their EXEC, behind the REJOIN, without the entry and with an empty forwarding window. -/
def Fused (xs : List Strand) (e : SplitEntry) (zs : List Strand) : Prop :=
  ∃ x rest y, xs.filter (fun z => z.carries e.id) = x :: rest ∧ y.sid = x.sid ∧
    (∀ l, laneBit y.lanes l = (x :: rest).any fun z => laneBit z.lanes l) ∧
    (∀ l, laneBit y.exec l = (x :: rest).any fun z => laneBit z.exec l) ∧
    y.pc = e.addr + 4 ∧ y.stack = x.stack.dropLast ∧ y.fwd = [] ∧ y.hold = none ∧
    zs = (xs.filter fun z => z.sid == x.sid || !(x :: rest).any fun c => c.sid == z.sid).map fun z => if z.sid = x.sid then y else z

/-- The strand has issued its BAR and goes on behind it (R215). -/
def PastBar (x y : Strand) : Prop :=
  y.sid = x.sid ∧ y.pc = x.pc + 4 ∧ y.hold = none ∧ y.arrived = none ∧ y.exec = x.exec ∧ y.lanes = x.lanes ∧ y.stack = x.stack

/-! ## Events -/

/-- A counter has taken a signal, when there is one: `inc` added to its bits 62:0, FAIL set with `fail`; the others are as before. -/
def Signalled (s t : State) (on : Bool) (ctr inc : Nat) (fail : Bool) : Prop :=
  (on = true → (t.counter ctr).toNat % 2 ^ 63 = ((s.counter ctr).toNat + inc) % 2 ^ 63 ∧
    (t.counter ctr).getLsbD 63 = (fail || (s.counter ctr).getLsbD 63)) ∧
  ∀ n, n ≠ ctr ∨ on = false → t.counter n = s.counter n

/-- A record of a type is the last of the black box, and time and the event ring have moved on with it. -/
def Recorded (s t : State) (type : Nat) : Prop :=
  t.records.seq = s.records.seq + 1 ∧ s.records.time.toNat ≤ t.records.time.toNat ∧
  ∃ r, t.records.bb.getLast? = some r ∧ r.type = BitVec.ofNat 8 type ∧ r.seq = s.records.seq

/-- A team that has just started from a task entry (R69, R117): one strand in each of its groups, at the entry with all lanes, `s1` to `s3` as
dispatched, all else zero. -/
def Started (i : TaskInfo) (core : Nat) (t : Team) : Prop :=
  t.info = i ∧ t.core = core ∧ t.mode = .running ∧ t.rows = [] ∧ t.tagsFly = 0 ∧ t.tagsDone = 0 ∧ t.rings = [] ∧
  t.groups.map (·.num) = List.range i.header.groups ∧
  ∀ g ∈ t.groups, g.kind = i.header.kindOf g.num ∧ g.readS 1 = i.s1 ∧ g.readS 2 = i.s2 ∧ g.readS 3 = i.s3 ∧
    (∀ r : SReg, 3 < r.toNat → g.readS r = 0) ∧ g.pending = [] ∧ (∀ l, l < 64 → g.flagsOf l = 0) ∧
    (∀ l, l < 64 → g.rngOf l = ⟨0x9E3779B9, BitVec.ofNat 32 (l + 1), BitVec.ofNat 32 i.number, BitVec.ofNat 32 g.num⟩) ∧
    ∃ x, g.strands = [x] ∧ x.pc = BitVec.ofNat 64 i.header.entry ∧ x.exec = allLanes ∧ x.lanes = allLanes ∧ x.stack = [] ∧ x.hold = none

/-- The accesses parked on a 32 KiB page of an ASID have heard the answer (R155, R376): their strands are held no more and issue afresh,
after a refusal with the page noted; the others are as before. No request for the page is left; those for other pages are. -/
def PageAnswered (s t : State) (page asid : Nat) (ok : Bool) : Prop :=
  let noted := fun (r : List Nat) => if ok then r else addNat page r
  let waits : Option Hold → Bool := fun k => match k with
    | some (.page ps a) | some (.line ps a) => a == asid && ps.contains page
    | _ => false
  let names := fun (ms : List Miss) => ms.map fun m => (m.asid, m.page, m.access, m.host)
  names t.misses = names (s.misses.filter fun m => !(m.asid == asid && m.page == page)) ∧ t.mem = s.mem ∧
  (∀ c h, s.at c = some h → ∃ k, t.at c = some k ∧ k.strand = if h.team.asid = asid ∧ waits h.strand.hold = true then
    { h.strand with hold := none, refused := noted h.strand.refused } else h.strand) ∧
  (∀ n j, s.job? n = some j → t.job? n = some (if (match j.park with | some (ps, a) => a == asid && ps.contains page | none => false) then
    { j with park := none, refused := noted j.refused } else j))

/-- Nothing has happened but a record: time, the black box, the event ring with its tail, and interrupts. -/
def OnlyRecorded (s t : State) (type : Nat) : Prop :=
  Recorded s t type ∧ (∀ a, a < hostBase → t.mem.byte a = s.mem.byte a) ∧
  t = { s with mem := t.mem, manage := { s.manage with evTail := t.manage.evTail }, records := t.records, freeN := t.freeN }

/-- A context has had a fatal error (R364): its grids that had not failed have CONTEXT_FATAL, their teams stop for good, its queues have
stopped. -/
def FatalTo (s t : State) (asid : Nat) : Prop :=
  (∀ n g, s.grid? n = some g → g.asid = asid → g.failed = none →
    (∃ g1, t.grid? n = some g1 ∧ g1.failed = some 0x33) ∧ ∀ u ∈ t.teams, u.info.grid = n → u.mode = .flushing) ∧
  ∀ q, (s.lq q).enabled = true → (s.lq q).asid = asid → (t.lq q).stop = true

end Sys2Proof.Claims
end

