-- ==== Sys2Proof/Certificates/Slice0/Obligations.lean ====
section
/-! DEFINITION. The statements for the provers, family by family. Each says what an instruction or the machine does, what it leaves unchanged,
and when it completes; `Sys2Proof.Claims` holds the terms they are said in. -/

section

open Sys2Proof Sys2Proof.Machine Sys2Proof.Claims

/-! ## Integer, address and predicate instructions -/

/-- R190: SDIV and SREM divide with truncation toward zero, and the group issues nothing on its three turns that follow; turns of a group
are 16 clocks apart (R82). -/
def Obligations.Division : Prop :=
  ∀ (s : State) (h : Here) (u : Bool) (d a b : SReg), s.here = some h →
    let x := h.readS a
    let y := h.readS b
    let result := fun (i : Instr) (v : DWord) =>
      Completes s h i 1 fun t k => ScalarIs h k d v ∧ PredsKept h k ∧ Quiet s t h k ∧ k.group.due = h.group.due + 3 * 16
    encode (.sdiv u d a b) = [(BitVec.ofBool u).setWidth 4 ++ b ++ a ++ d ++ (0x05 : BitVec 8) ++ (0 : BitVec 2)] ∧
    encode (.srem u d a b) = [(BitVec.ofBool u).setWidth 4 ++ b ++ a ++ d ++ (0x06 : BitVec 8) ++ (0 : BitVec 2)] ∧
    (y = 0 → result (.sdiv u d a b) 0xFFFFFFFFFFFFFFFF ∧ result (.srem u d a b) x) ∧
    (u = false → x.toInt = -2 ^ 63 → y.toInt = -1 → result (.sdiv u d a b) x ∧ result (.srem u d a b) 0) ∧
    (y ≠ 0 → u = true → result (.sdiv u d a b) (BitVec.ofNat 64 (x.toNat / y.toNat)) ∧
      result (.srem u d a b) (BitVec.ofNat 64 (x.toNat % y.toNat))) ∧
    (y ≠ 0 → u = false → ¬(x.toInt = -2 ^ 63 ∧ y.toInt = -1) →
      ∃ q r : Int, (q.natAbs = x.toInt.natAbs / y.toInt.natAbs ∧ (q < 0 → (x.toInt < 0 ↔ 0 < y.toInt)) ∧
          (0 < q → (x.toInt < 0 ↔ y.toInt < 0))) ∧
        r = x.toInt - q * y.toInt ∧ (r ≠ 0 → (r < 0 ↔ x.toInt < 0)) ∧
        result (.sdiv u d a b) (BitVec.ofInt 64 q) ∧ result (.srem u d a b) (BitVec.ofInt 64 r))

/-- Table 13-1, with R76 and R186: each integer instruction writes one scalar and nothing else, `nop` nothing. R191: shifts by sb[5:0],
and the bit fields at sb[5:0] of width Min(sb[13:8] + 1, 64 - pos). -/
def Obligations.IntegerResults : Prop :=
 (∀ (s : State) (h : Here) (u : Bool) (d a b : SReg), s.here = some h →
    let x := h.readS a
    let y := h.readS b
    let wide := fun v : DWord => if u then v.zeroExtend 128 else v.signExtend 128
    let less := if u then x.toNat ≤ y.toNat else x.toInt ≤ y.toInt
    Passes s h .nop 1 ∧
    ScalarResult s h (.sadd d a b) d (x + y) ∧
    ScalarResult s h (.ssub d a b) d (x - y) ∧
    ScalarResult s h (.smul d a b) d (x * y) ∧
    ScalarResult s h (.smulh u d a b) d ((wide x * wide y).extractLsb' 64 64) ∧
    ScalarResult s h (.sand d a b) d (x &&& y) ∧
    ScalarResult s h (.sor d a b) d (x ||| y) ∧
    ScalarResult s h (.sxor d a b) d (x ^^^ y) ∧
    ScalarResult s h (.sandn d a b) d (x &&& ~~~y) ∧
    ScalarResult s h (.smin u d a b) d (if less then x else y) ∧
    ScalarResult s h (.smax u d a b) d (if less then y else x) ∧
    (∃ n, n ≤ 64 ∧ (∀ k, k < n → x.getLsbD (63 - k) = false) ∧ (n < 64 → x.getLsbD (63 - n) = true) ∧
      ScalarResult s h (.sclz d a) d (BitVec.ofNat 64 n)) ∧
    ScalarResult s h (.spopc d a) d (BitVec.ofNat 64 ((List.range 64).countP x.getLsbD))) ∧
 (∀ (s : State) (h : Here) (sx : Bool) (d a b : SReg), s.here = some h →
    let x := h.readS a
    let old := h.readS d
    let k := ((h.readS b).extractLsb' 0 6).toNat
    let w := min (((h.readS b).extractLsb' 8 6).toNat + 1) (64 - k)
    let inField := fun j => decide (k ≤ j) && decide (j < k + w)
    ScalarResult s h (.sshl d a b) d (x <<< k) ∧
    ScalarResult s h (.sshr d a b) d (x >>> k) ∧
    ScalarResult s h (.ssar d a b) d (x.sshiftRight k) ∧
    (∃ v : DWord, (∀ j, j < 64 → v.getLsbD j = if j < w then x.getLsbD (k + j) else sx && x.getLsbD (k + w - 1)) ∧
      ScalarResult s h (.sbfx sx d a b) d v) ∧
    (∃ v : DWord, (∀ j, j < 64 → v.getLsbD j = if inField j then x.getLsbD (j - k) else old.getLsbD j) ∧
      ScalarResult s h (.sbfi d a b) d v))

/-- R192: SLEA, SCMP and SSEL; SSEL tests its predicate in the active lanes. R204 and R205: SPTEST and SPCAST, for a team without aliases
(R359). -/
def Obligations.AddressesAndTests : Prop :=
 (∀ (s : State) (h : Here) (m : BitVec 4) (c : Cond) (neg : Bool) (p : PReg) (d a b : SReg), s.here = some h →
    let x := h.readS a
    let y := h.readS b
    let some1 := ∃ l, l < 64 ∧ laneBit (h.readP p) l = true ∧ laneBit h.strand.exec l = true
    ScalarResult s h (.slea m d a b) d (x + y * BitVec.ofNat 64 (2 ^ m.toNat)) ∧
    (Compares c x y → ScalarResult s h (.scmp c d a b) d 1) ∧
    (¬Compares c x y → ScalarResult s h (.scmp c d a b) d 0) ∧
    ((some1 ↔ neg = false) → ScalarResult s h (.ssel neg p d a b) d x) ∧
    (¬(some1 ↔ neg = false) → ScalarResult s h (.ssel neg p d a b) d y)) ∧
 (∀ (s : State) (h : Here) (w : Window) (d a b : SReg), s.here = some h → h.team.aliases = [] →
    let x := h.readS a
    let n := x.toNat
    let top := n / 2 ^ 60
    let core := n / 2 ^ 36 % 2048
    let gallery := n / 2 ^ 40 % 8
    let valid := (top = 0x0 ∧ n < 2 ^ 57) ∨ (top = 0xA ∧ n % 2 ^ 60 < 2 ^ 24) ∨
      (top = 0xB ∧ n % 2 ^ 60 / 2 ^ 47 = 0 ∧ n % 2 ^ 36 / 2 ^ 24 = 0) ∨
      (top = 0xC ∧ n % 2 ^ 60 / 2 ^ 43 = 0 ∧ n % 2 ^ 40 / 2 ^ 28 = 0)
    let isLocal := (top = 0xB → core = h.team.core) ∧ (top = 0xC → gallery = coreGallery h.team.core)
    (valid → isLocal → ScalarResult s h (.sptest d a) d (BitVec.ofNat 64 (top + 16))) ∧
    (valid → ¬isLocal → ScalarResult s h (.sptest d a) d (BitVec.ofNat 64 top)) ∧
    (¬valid → ScalarResult s h (.sptest d a) d 0xF) ∧
    ((h.readS b).getLsbD 0 = false → valid → isLocal → top = Window.code w →
      ScalarResult s h (.spcast w d a b) d (BitVec.ofNat 64 (match w with
        | .global => n
        | .priv | .scratch => n % 2 ^ 24
        | .shared => n % 2 ^ 28))) ∧
    ((h.readS b).getLsbD 0 = false → ¬(valid ∧ isLocal ∧ top = Window.code w) → ScalarResult s h (.spcast w d a b) d 0) ∧
    ((h.readS b).getLsbD 0 = true →
      ScalarResult s h (.spcast w d a b) d (BitVec.ofNat 64 (match w with
        | .global => if n < 2 ^ 57 then n else 0
        | .priv => if n < 2 ^ 24 then 0xA * 2 ^ 60 + n else 0
        | .scratch => if n < 2 ^ 24 then 0xB * 2 ^ 60 + h.team.core * 2 ^ 36 + n else 0
        | .shared => if n < 2 ^ 28 ∧ n / 2 ^ 24 ≤ 11 then 0xC * 2 ^ 60 + coreGallery h.team.core * 2 ^ 40 + n else 0))))

/-- R193 and R194: the immediate instructions' words and results. -/
def Obligations.Immediates : Prop :=
  ∀ (s : State) (h : Here) (d a : SReg) (i : BitVec 10) (k : BitVec 6) (w : BitVec 16), s.here = some h →
    let x := h.readS a
    let imm := fun (op : BitVec 8) (n : BitVec 10) => [n ++ a ++ d ++ op ++ (0 : BitVec 2)]
    encode (.saddi d a i) = imm 0x17 i ∧ encode (.sandi d a i) = imm 0x18 i ∧ encode (.sori d a i) = imm 0x19 i ∧
    encode (.sxori d a i) = imm 0x1A i ∧ encode (.sshli d a k) = imm 0x1B (k.zeroExtend 10) ∧
    encode (.sshri d a k) = imm 0x1C (k.zeroExtend 10) ∧ encode (.ssari d a k) = imm 0x1D (k.zeroExtend 10) ∧
    encode (.smovi d w) = [w ++ d ++ (0x1E : BitVec 8) ++ (0 : BitVec 2)] ∧
    encode (.smovhi d w) = [w ++ d ++ (0x1F : BitVec 8) ++ (0 : BitVec 2)] ∧
    ScalarResult s h (.saddi d a i) d (x + BitVec.ofInt 64 i.toInt) ∧
    ScalarResult s h (.sandi d a i) d (x &&& BitVec.ofInt 64 i.toInt) ∧
    ScalarResult s h (.sori d a i) d (x ||| BitVec.ofInt 64 i.toInt) ∧
    ScalarResult s h (.sxori d a i) d (x ^^^ BitVec.ofInt 64 i.toInt) ∧
    ScalarResult s h (.sshli d a k) d (BitVec.ofNat 64 (x.toNat * 2 ^ k.toNat)) ∧
    ScalarResult s h (.sshri d a k) d (BitVec.ofNat 64 (x.toNat / 2 ^ k.toNat)) ∧
    ScalarResult s h (.ssari d a k) d (BitVec.ofInt 64 (x.toInt / 2 ^ k.toNat)) ∧
    ScalarResult s h (.smovi d w) d (BitVec.ofInt 64 w.toInt) ∧
    ScalarResult s h (.smovhi d w) d (BitVec.ofNat 64 ((h.readS d).toNat * 65536 + w.toNat))

/-- R195: the predicate instructions act on all 64 lanes whatever EXEC holds. -/
def Obligations.Predicates : Prop :=
  ∀ (s : State) (h : Here) (d a b : PReg) (sd sa : SReg), s.here = some h →
    let x := h.readP a
    let y := h.readP b
    PredResult s h (.pand d a b) d (x &&& y) ∧
    PredResult s h (.por d a b) d (x ||| y) ∧
    PredResult s h (.pxor d a b) d (x ^^^ y) ∧
    PredResult s h (.pandn d a b) d (x &&& ~~~y) ∧
    ScalarResult s h (.pcnt sd a) sd (BitVec.ofNat 64 ((List.range 64).countP x.getLsbD)) ∧
    PredResult s h (.pfroms d sa) d (h.readS sa) ∧
    ScalarResult s h (.ptos sd a) sd x

/-! ## Control transfer, special registers, waits and barriers -/

/-- R206, R207, R208 and R210: each transfer to a recorded instruction start moves the whole strand there; a branch that is not taken
falls through. R177, R206 and R210: a transfer to anything else takes BAD_TARGET with nothing changed; a divergent BRD at depth 0 and a
SPLIT at depth 16 take SPLIT_DEPTH (R86, R88). What taking a fault does, `ExceptionEntry` says. -/
def Obligations.ControlTransfer : Prop :=
 (∀ (s : State) (h : Here) (off : BitVec 16) (neg : Bool) (p : PReg) (d a : SReg), s.here = some h →
    let target := h.strand.pc + 4 * BitVec.ofInt 64 off.toInt
    let start := fun v => s.isStart h.team.asid v = true
    let m := (if neg then ~~~h.readP p else h.readP p) &&& h.strand.exec
    let ex := h.strand.exec
    (start target → GoesTo s h (.bra off) target (ScalarsKept h)) ∧
    (start target → m ≠ 0 → GoesTo s h (.brp .any neg p off) target (ScalarsKept h)) ∧
    (start target → m = ex → GoesTo s h (.brp .all neg p off) target (ScalarsKept h)) ∧
    (start target → m = 0 → GoesTo s h (.brp .none neg p off) target (ScalarsKept h)) ∧
    (m = 0 → Passes s h (.brp .any neg p off) 1) ∧
    (m ≠ ex → Passes s h (.brp .all neg p off) 1) ∧
    (m ≠ 0 → Passes s h (.brp .none neg p off) 1) ∧
    (m = 0 → Passes s h (.brd neg p off) 1) ∧
    (start target → m ≠ 0 → m = ex → GoesTo s h (.brd neg p off) target (ScalarsKept h)) ∧
    (start (h.readS a) → GoesTo s h (.jmps a) (h.readS a) (ScalarsKept h)) ∧
    (start (h.readS a) → GoesTo s h (.ret a) (h.readS a) (ScalarsKept h)) ∧
    (start (h.readS a) → GoesTo s h (.calls d a) (h.readS a) fun k => ScalarIs h k d (h.strand.pc + 4)) ∧
    (start target → GoesTo s h (.call d off) target fun k => ScalarIs h k d (h.strand.pc + 4))) ∧
 (∀ (s : State) (h : Here) (off : BitVec 16) (neg : Bool) (p : PReg) (d a : SReg), s.here = some h →
    let target := h.strand.pc + 4 * BitVec.ofInt 64 off.toInt
    let bad := fun v => s.isStart h.team.asid v = false
    let m := (if neg then ~~~h.readP p else h.readP p) &&& h.strand.exec
    (bad target → exec (.bra off) s = .next (s.takeFault h cBadTarget) ∧
      exec (.call d off) s = .next (s.takeFault h cBadTarget) ∧
      (m ≠ 0 → exec (.brp .any neg p off) s = .next (s.takeFault h cBadTarget) ∧
        exec (.brd neg p off) s = .next (s.takeFault h cBadTarget)) ∧
      (m = h.strand.exec → exec (.brp .all neg p off) s = .next (s.takeFault h cBadTarget)) ∧
      (m = 0 → exec (.brp .none neg p off) s = .next (s.takeFault h cBadTarget))) ∧
    (bad (h.readS a) → exec (.jmps a) s = .next (s.takeFault h cBadTarget) ∧ exec (.ret a) s = .next (s.takeFault h cBadTarget) ∧
      exec (.calls d a) s = .next (s.takeFault h cBadTarget)) ∧
    (s.isStart h.team.asid target = true → m ≠ 0 → m ≠ h.strand.exec → h.strand.stack = [] →
      exec (.brd neg p off) s = .next (s.takeFault h cSplitDepth)) ∧
    (16 ≤ h.strand.stack.length → exec (.split off) s = .next (s.takeFault h cSplitDepth)))

/-- R86 and R87: a divergent BRD splits the strand: whole slices whose active lanes are all taken move with their lanes of the lane set,
mixed slices give the taken lanes; with sixteen strands the taken lanes are parked. R88 and R209: SPLIT pushes its target; a REJOIN whose
address is not that of the top entry is ignored; one that is stops the strand while another strand that carries the entry has not stopped
there, and pops the entry when the strand is alone in carrying it; when the others have all stopped there, they fuse. R87: at its REJOIN a
strand first runs the lanes that it parked, the last parked first; when all have run they unite. R89 and R211: EXIT removes the strand; its
issued long-latency instructions stay outstanding; the group ends when no strand and no long-latency operation is left; strands that waited
for it at their REJOIN fuse. The EXIT of a handler strand ends handler mode, and what its frame captured is outstanding again (log entry
21). -/
def Obligations.DivergenceAndRejoin : Prop :=
 (∀ (s : State) (h : Here) (off : BitVec 16) (neg : Bool) (p : PReg) (e : SplitEntry), s.here = some h →
    let target := h.strand.pc + 4 * BitVec.ofInt 64 off.toInt
    let ex := h.strand.exec
    let m := (if neg then ~~~h.readP p else h.readP p) &&& ex
    let whole := fun l : Nat => (∃ j, j < 64 ∧ j / 4 = l / 4 ∧ laneBit ex j = true) ∧
      ∀ j, j < 64 → j / 4 = l / 4 → laneBit ex j = true → laneBit m j = true
    s.isStart h.team.asid target = true → m ≠ 0 → m ≠ ex → h.strand.stack.getLast? = some e →
    ∃ (t : State) (k : Here) (take : Mask), exec (.brd neg p off) s = .next t ∧ t.here = some k ∧
      (∀ l, l < 64 → (whole l → laneBit take l = laneBit h.strand.lanes l) ∧ (¬whole l → laneBit take l = laneBit m l)) ∧
      k.strand.pc = h.strand.pc + 4 ∧ k.strand.exec = ex &&& ~~~take ∧ k.strand.stack = h.strand.stack ∧ k.strand.hold = none ∧
      ScalarsKept h k ∧ PredsKept h k ∧ OnlyTeams s t ∧ TeamKept h k ∧ FlagsKept h k ∧ RngKept h k ∧ ModesKept h k ∧
      k.group.pending.map (·.id) = h.group.pending.map (·.id) ∧
      (h.group.strands.length < 16 → k.strand.lanes = h.strand.lanes &&& ~~~take ∧
        ∃ x : Strand, x.sid = h.group.nextId ∧ x.lanes = h.strand.lanes &&& take ∧ x.exec = ex &&& take ∧ x.pc = target ∧
          x.stack = h.strand.stack ∧ x.fwd = k.strand.fwd ∧ x.hold = none ∧
          k.group.strands = (h.group.strands ++ [x]).map fun y => if y.sid = h.strand.sid then k.strand else y) ∧
      (16 ≤ h.group.strands.length → k.strand.lanes = h.strand.lanes ∧
        k.group.strands = h.group.strands.map (fun y => if y.sid = h.strand.sid then k.strand else y) ∧
        k.strand.parked = h.strand.parked ++ [⟨take, ex &&& take, target, e⟩])) ∧
 (∀ (s : State) (h : Here) (off : BitVec 16) (e : SplitEntry), s.here = some h →
    let others := h.group.strands.filter fun x => x.sid != h.strand.sid
    (h.strand.stack.length < 16 → ∃ t k n, exec (.split off) s = .next t ∧ t.here = some k ∧ k.strand.pc = h.strand.pc + 4 ∧
      k.strand.stack = h.strand.stack ++ [⟨h.strand.pc + 4 * BitVec.ofInt 64 off.toInt, n⟩] ∧ k.strand.exec = h.strand.exec ∧
      k.strand.lanes = h.strand.lanes ∧ OthersKept s t h k ∧ ScalarsKept h k ∧ PredsKept h k ∧ Quiet s t h k) ∧
    (h.strand.stack = [] → Passes s h .rejoin 1) ∧
    (h.strand.stack.getLast? = some e → e.addr ≠ h.strand.pc → Passes s h .rejoin 1) ∧
    (h.strand.stack.getLast? = some e → e.addr = h.strand.pc → h.strand.parked = [] →
      (∃ x ∈ others, x.carries e.id = true ∧ x.atRejoin e.id = false) →
      ∃ t k, exec .rejoin s = .next t ∧ t.here = some k ∧ k.strand.pc = h.strand.pc ∧ k.strand.hold = some (.rejoin e) ∧
        OthersKept s t h k ∧ StrandKept h k ∧ ScalarsKept h k ∧ PredsKept h k ∧ Quiet s t h k) ∧
    (h.strand.stack.getLast? = some e → e.addr = h.strand.pc → h.strand.parked = [] → s.jobs = [] → h.team.fails = [] →
      (∀ x ∈ others, x.carries e.id = false) →
      ∃ t k, exec .rejoin s = .next t ∧ t.here = some k ∧ k.strand.pc = h.strand.pc + 4 ∧ k.strand.hold = none ∧
        k.strand.stack = h.strand.stack.dropLast ∧ k.strand.fwd = [] ∧ k.strand.exec = h.strand.exec ∧ k.strand.lanes = h.strand.lanes ∧
        ScalarsKept h k ∧ PredsKept h k ∧ OnlyTeams s t ∧ FlagsKept h k ∧ RngKept h k ∧ ModesKept h k) ∧
    (h.strand.stack.getLast? = some e → e.addr = h.strand.pc → h.strand.parked = [] →
      (∀ x ∈ others, x.carries e.id = true → x.atRejoin e.id = true) →
      ∃ t T g, exec .rejoin s = .next t ∧ t.team? h.team.info.uid = some T ∧ T.group? h.group.num = some g ∧
        Fused h.grp.strands e g.strands ∧ g.sregs = h.group.sregs ∧ g.preds = h.group.preds ∧ g.flags = h.group.flags ∧
        T.rows = h.team.rows ∧ t.mem = s.mem ∧ t.queues = s.queues) ∧
    (∀ ps p, h.strand.stack.getLast? = some e → e.addr = h.strand.pc → h.strand.parked = ps ++ [p] → p.entry = e → p.target ≠ e.addr →
      ∃ t k, exec .rejoin s = .next t ∧ t.here = some k ∧ k.strand.pc = p.target ∧ k.strand.exec = p.exec ∧
        k.strand.lanes = h.strand.lanes ∧ k.strand.stack = h.strand.stack ∧
        k.strand.parked = (ps ++ [p]).map (fun q => if q = p then ⟨q.lanes, h.strand.exec, e.addr, e⟩ else q) ∧
        OthersKept s t h k ∧ ScalarsKept h k ∧ PredsKept h k ∧ Quiet s t h k) ∧
    (h.strand.stack.getLast? = some e → e.addr = h.strand.pc → (∀ q ∈ h.strand.parked, q.entry = e ∧ q.target = e.addr) →
      (∀ x ∈ others, x.carries e.id = false) →
      ∃ t k, exec .rejoin s = .next t ∧ t.here = some k ∧ k.strand.pc = h.strand.pc + 4 ∧ k.strand.parked = [] ∧
        (∀ l, laneBit k.strand.exec l = (laneBit h.strand.exec l || h.strand.parked.any fun q => laneBit q.exec l)) ∧
        k.strand.stack = h.strand.stack.dropLast ∧ k.strand.fwd = [] ∧ k.strand.lanes = h.strand.lanes)) ∧
 (∀ (s : State) (h : Here), s.here = some h → h.strand.stack = [] → h.group.handler = none →
    ∃ t T g, exec .exit s = .next t ∧ t.team? h.team.info.uid = some T ∧ T.group? h.group.num = some g ∧
      g.strands.map (·.sid) = (h.group.strands.map (·.sid)).filter (· != h.strand.sid) ∧
      g.pending.map (·.id) = h.group.pending.map (·.id) ∧
      (h.group.ended = false → (g.ended = true ↔ (∀ x ∈ h.group.strands, x.sid = h.strand.sid) ∧ h.group.pending = [])) ∧
      (∀ u, u ≠ h.team.info.uid → t.team? u = s.team? u) ∧ t.mem = s.mem ∧ t.jobs = s.jobs ∧ t.queues = s.queues) ∧
 (∀ (s : State) (h : Here) (e : SplitEntry) (q : Handler), s.here = some h → h.team.bars = [] →
    let others := h.group.strands.filter fun x => x.sid != h.strand.sid
    (h.strand.stack = [e] → h.group.handler = none → (∃ x ∈ others, x.carries e.id = true) →
      (∀ x ∈ others, x.carries e.id = true → x.atRejoin e.id = true) →
      ∃ t T g, exec .exit s = .next t ∧ t.team? h.team.info.uid = some T ∧ T.group? h.group.num = some g ∧
        Fused others e g.strands ∧ g.pending.map (·.id) = h.group.pending.map (·.id) ∧ t.mem = s.mem ∧ t.queues = s.queues) ∧
    (h.strand.stack = [] → h.group.handler = some q → q.sid = h.strand.sid →
      ∃ t T g, exec .exit s = .next t ∧ t.team? h.team.info.uid = some T ∧ T.group? h.group.num = some g ∧ g.handler = none ∧
        g.strands = others ∧ g.pending.map (·.id) = h.group.pending.map (·.id) ++ q.captured.map (·.id) ∧ t.mem = s.mem))

/-- R212 with Tables 03-8, 03-12, 03-13, 05-1, 05-4, 05-6, 09-9, 13-5, 21-5, 21-6 and 23-4: what SREAD reads. Outside handler mode a
handler register reads zero. Table 13-7: what SWRITE writes. An RM of 000 or 111 and a descriptor that is not valid are ignored. -/
def Obligations.SpecialRegisters : Prop :=
 (∀ (s : State) (h : Here) (d : SReg) (n : BitVec 4) (tl : BitVec 3) (k : Handler), s.here = some h →
    let rd := fun r v => ScalarResult s h (.sread d r) d v
    rd .mode (h.group.rm.zeroExtend 64) ∧
    (∃ v : DWord, rd .flags v ∧ v.toNat < 2 ^ 16 ∧
      (∀ j, j < 8 → v.getLsbD j = (List.range 64).any fun l => laneBit h.strand.exec l && (h.group.flagsOf l).getLsbD j) ∧
      (∀ j, j < 8 → v.getLsbD (8 + j) = h.team.jflags.getLsbD j)) ∧
    rd .tags h.team.tagsDone ∧
    rd .classid (BitVec.ofNat 64 (dieClass (h.team.core / 128) + h.team.core / 128 * 4)) ∧
    rd .role (BitVec.ofNat 64 (h.team.info.depth + h.group.kind * 2 ^ 8 + h.group.slot * 2 ^ 10 + h.group.barrel * 2 ^ 14 +
      h.group.num * 2 ^ 15 + (h.team.groups.length - 1) * 2 ^ 20 + (if h.team.xHeld h.group then 2 ^ 25 else 0) +
      (if h.inHandler then 2 ^ 26 else 0))) ∧
    rd .gotbase (s.ctx h.team.asid).got ∧
    rd .drscale (h.group.drscale.zeroExtend 64) ∧
    rd .outcnt (BitVec.ofNat 64 h.group.pending.length) ∧
    rd .trapbase (s.ctx h.team.asid).trapBase ∧
    rd .exec h.strand.exec ∧
    rd .coreid (BitVec.ofNat 64 h.team.core) ∧
    (∀ f, h.group.fmts[n.toNat]? = some f → rd (.fmt n) f) ∧
    (∀ x, h.team.tiles[tl.toNat]? = some x → rd (.tctl tl) x.ctl) ∧
    (∀ x, s.dies[h.team.core / 128]? = some x →
      rd .govstat (BitVec.ofNat 64 (min 255 x.budget * 2 ^ 48 + min (2 ^ 48 - 1) h.team.govStalls))) ∧
    (h.inHandler = false → rd (.handler n) 0) ∧
    (h.group.handler = some k → h.inHandler = true → rd (.handler 0) k.cause ∧ rd (.handler 1) 0xA000000000C00000 ∧
      rd (.handler 2) k.hpc) ∧
    (∃ (t : State) (q : Here) (x : DWord), exec (.sread d .time) s = .next t ∧ t.here = some q ∧
      q.strand.pc = h.strand.pc + 4 ∧ ScalarIs h q d x ∧ PredsKept h q ∧ t.records.time = x ∧ s.records.time.toNat ≤ x.toNat ∧
      t.mem = s.mem ∧ t.jobs = s.jobs ∧ t.queues = s.queues ∧ FlagsKept h q ∧ ModesKept h q ∧ RngKept h q)) ∧
 (∀ (s : State) (h : Here) (a : SReg) (n : BitVec 4), s.here = some h →
    let x := h.readS a
    let quiet := fun (t : State) (k : Here) => ScalarsKept h k ∧ PredsKept h k ∧ OnlyTeams s t ∧ RngKept h k ∧
      k.group.pending.map (·.id) = h.group.pending.map (·.id)
    let wr := fun (r : SpecReg) (P : Here → Prop) => Completes s h (.swrite r a) 1 fun t k => quiet t k ∧ P k
    wr .mode (fun k => k.group.rm = (if x.toNat % 8 = 0 ∨ x.toNat % 8 = 7 then h.group.rm else BitVec.ofNat 3 (x.toNat % 8)) ∧
      k.group.drscale = h.group.drscale ∧ k.group.fmts = h.group.fmts ∧ FlagsKept h k ∧ TeamKept h k) ∧
    wr .flags (fun k => (∀ l, l < 64 → k.group.flagsOf l =
        if laneBit h.strand.exec l then h.group.flagsOf l &&& ~~~(x.extractLsb' 0 5) else h.group.flagsOf l) ∧
      ModesKept h k ∧ TeamKept h k) ∧
    wr .tags (fun k => k.team.tagsDone = h.team.tagsDone &&& ~~~x ∧ k.team.tagsFly = h.team.tagsFly ∧ k.team.rings = h.team.rings ∧
      k.team.rows = h.team.rows ∧ ModesKept h k ∧ FlagsKept h k) ∧
    wr .drscale (fun k => k.group.drscale = x.setWidth 32 ∧ k.group.rm = h.group.rm ∧ k.group.fmts = h.group.fmts ∧ FlagsKept h k ∧
      TeamKept h k) ∧
    (n.toNat < h.group.fmts.length → wr (.fmt n) fun k => k.group.fmts[n.toNat]? =
        (if descValid x then some (x &&& descMask) else h.group.fmts[n.toNat]?) ∧
      (∀ m, m ≠ n.toNat → k.group.fmts[m]? = h.group.fmts[m]?) ∧ k.group.rm = h.group.rm ∧ k.group.drscale = h.group.drscale ∧
      FlagsKept h k ∧ TeamKept h k) ∧
    (∃ t k, exec (.swrite .exec a) s = .next t ∧ t.here = some k ∧ k.strand.pc = h.strand.pc + 4 ∧
      k.strand.exec = x &&& h.strand.lanes ∧ k.strand.lanes = h.strand.lanes ∧ k.strand.stack = h.strand.stack ∧ OthersKept s t h k ∧
      quiet t k ∧ ModesKept h k ∧ FlagsKept h k ∧ TeamKept h k))

/-- R214, R219, R80 and R220: what FENCE, XLOCK, XFREE and WAITCNT wait for, and that they then complete. R215: a strand of a team of one
group that issues a BAR for one group, its group having no other strand and no memory instruction outstanding, completes the barrier; one
whose barrier wants more groups is held, arrived. The last strand of a group, or the last of two groups, that arrives completes the barrier,
and the strands that were held there go on. R339: a SYSTEM release ends at the moment from which its remote writes may be seen. R80: XFREE
gives the lock to the partner that is stalled in XLOCK. -/
def Obligations.WaitsAndBarriers : Prop :=
 (∀ (s : State) (h : Here) (k : FKind) (sc : FScope) (c : BitVec 6), s.here = some h →
    let set := h.team.info.header.setOf h.group.num
    let lock := h.team.locks.find set
    let first := 256 * h.team.info.header.extAt set
    let reaches := fun (p : Pending) => p.instr.vwrites.any (extended h.team h.group) = true ∨ (Instr.isStore p.instr = true ∧
      ∃ q ∈ p.locs, ∃ off, q.2 = .store h.team.info.uid off ∧ first ≤ off ∧ off < first + 256 * regX h.team h.group)
    (h.group.pending.length ≤ c.toNat → Passes s h (.waitcnt c) 1) ∧
    (c.toNat < h.group.pending.length → HeldBy s h (.waitcnt c) (.count c.toNat)) ∧
    (h.grp.memPending h.strand.sid = false → ¬(sc = .system ∧ k ≠ .acq) → Passes s h (.fence k sc) 1) ∧
    (h.grp.memPending h.strand.sid = false → s.tsync = true →
      s.records.remote.find? (fun p => p.1 == h.team.info.uid) = none → Passes s h (.fence k sc) 1) ∧
    (h.grp.memPending h.strand.sid = false → s.tsync = true → sc = .system → k ≠ .acq → s.remoteLost h.team.info.uid = true →
      exec (.fence k sc) s = .next (s.takeFault h cLinkLost)) ∧
    (h.grp.memPending h.strand.sid = true →
      HeldBy s h (.fence k sc) (.fence (sc == .system && k != .acq))) ∧
    (s.tsync = false → sc = .system → k ≠ .acq → HeldBy s h (.fence k sc) (.fence true)) ∧
    (regX h.team h.group = 0 → Passes s h .xlock 1 ∧ Passes s h .xfree 1) ∧
    (regX h.team h.group ≠ 0 → lock = none → Completes s h .xlock 1 fun t q => q.team.locks.find set = some h.group.num ∧
      ScalarsKept h q ∧ PredsKept h q ∧ OnlyTeams s t ∧ FlagsKept h q ∧ ModesKept h q) ∧
    (lock = some h.group.num → Passes s h .xlock 1) ∧
    (∀ g, regX h.team h.group ≠ 0 → lock = some g → g ≠ h.group.num → HeldBy s h .xlock .xlock) ∧
    (lock ≠ some h.group.num → Passes s h .xfree 1) ∧
    (regX h.team h.group ≠ 0 → lock = some h.group.num →
      (∃ p ∈ h.group.pending, reaches p) → HeldBy s h .xfree .xfree) ∧
    (regX h.team h.group ≠ 0 → lock = some h.group.num →
      (∀ p ∈ h.group.pending, ¬reaches p) →
      (∀ g ∈ h.team.groups, g.num ≠ h.group.num → h.team.info.header.setOf g.num = set → ∀ x ∈ g.strands, x.hold ≠ some .xlock) →
      Completes s h .xfree 1 fun t q => q.team.locks.find set = none ∧ ScalarsKept h q ∧ PredsKept h q ∧ OnlyTeams s t ∧
        FlagsKept h q ∧ ModesKept h q) ∧
    (∀ w ∈ h.team.groups, regX h.team h.group ≠ 0 → lock = some h.group.num → (∀ p ∈ h.group.pending, ¬reaches p) →
      w.num ≠ h.group.num → h.team.info.header.setOf w.num = set → (∃ x ∈ w.strands, x.hold = some .xlock) →
      (∀ g ∈ h.team.groups, h.team.info.header.setOf g.num = set → g.num = h.group.num ∨ g.num = w.num) →
      Completes s h .xfree 1 fun t q => q.team.locks.find set = some w.num ∧ ScalarsKept h q ∧ PredsKept h q ∧ OnlyTeams s t ∧
        FlagsKept h q ∧ ModesKept h q) ∧
    (∀ due ps, h.grp.memPending h.strand.sid = false → s.tsync = true → sc = .system → k ≠ .acq → s.remoteLost h.team.info.uid = false →
      s.records.remote.find? (fun p => p.1 == h.team.info.uid) = some (h.team.info.uid, due, ps) →
      let till := match s.records.nextWindow with
        | some (n, sec) => if sec * 1000000000 < due then sec * 1000000000 + 2 * (n * 500) else due
        | none => due
      till < 2 ^ 64 → Completes s h (.fence k sc) 1 fun t q => t = { s with teams := t.teams, records := t.records } ∧
        t.records.time.toNat = max s.records.time.toNat till ∧ s.remoteOf h.team.info.uid = ps ∧ t.remoteOf h.team.info.uid = [] ∧
        ScalarsKept h q ∧ PredsKept h q ∧ TeamKept h q ∧ FlagsKept h q ∧ RngKept h q ∧ ModesKept h q ∧ GroupKept h q)) ∧
 (∀ (s : State) (h : Here) (b : BitVec 4) (n : BitVec 5), s.here = some h → h.team.groups = [h.group] →
    h.group.strands = [h.strand] → h.group.ended = false → h.strand.arrived = none → h.team.bars = [] →
    h.group.outstanding.any (fun p => Instr.isMem p.instr) = false →
    (n = 0 → ∃ t k, exec (.bar b n) s = .next t ∧ t.here = some k ∧ k.strand.pc = h.strand.pc + 4 ∧ k.strand.hold = none ∧
      k.strand.arrived = none ∧ ScalarsKept h k ∧ PredsKept h k ∧ StrandKept h k ∧ OnlyTeams s t) ∧
    (n ≠ 0 → ∃ t k, exec (.bar b n) s = .next t ∧ t.here = some k ∧ k.strand.pc = h.strand.pc ∧
      k.strand.hold = some (.barrier b.toNat) ∧ k.strand.arrived = some (b.toNat, 0) ∧ ScalarsKept h k ∧ PredsKept h k ∧
      StrandKept h k ∧ OnlyTeams s t)) ∧
 (∀ (s : State) (h : Here) (b : BitVec 4) (a : Group) (x : Strand) (ph : Nat), s.here = some h → h.strand.arrived = none →
    x.arrived = some (b.toNat, ph) → x.hold = some (.barrier b.toNat) →
    let quiet := fun (g : Group) => g.ended = false ∧ g.outstanding.any (fun p => Instr.isMem p.instr) = false
    let issues := fun (n : BitVec 5) (P : Team → Prop) => ∃ t T, exec (.bar b n) s = .next t ∧ OnlyTeams s t ∧
      t.team? h.team.info.uid = some T ∧ T.bars.find b.toNat = some ⟨ph + 1, n.toNat + 1, [], []⟩ ∧ T.rows = h.team.rows ∧ P T
    (h.team.groups = [a, h.group] ∨ h.team.groups = [h.group, a] → a.num ≠ h.group.num → quiet a → quiet h.group →
      a.strands = [x] → h.group.strands = [h.strand] → h.team.bars = [(b.toNat, ⟨ph, 2, [a.num], []⟩)] →
      issues 1 fun T => (∃ g y, T.group? a.num = some g ∧ g.strands = [y] ∧ PastBar x y) ∧
        ∃ g y, T.group? h.group.num = some g ∧ g.strands = [y] ∧ PastBar h.strand y) ∧
    (h.team.groups = [h.group] → quiet h.group → h.group.strands = [x, h.strand] ∨ h.group.strands = [h.strand, x] →
      x.sid ≠ h.strand.sid → h.team.bars = [(b.toNat, ⟨ph, 1, [], []⟩)] →
      issues 0 fun T => ∃ g, T.group? h.group.num = some g ∧
        (∃ y ∈ g.strands, PastBar x y) ∧ ∃ y ∈ g.strands, PastBar h.strand y))

/-! ## Taking an exception and returning from one -/

/-- R341, R350 and R352: a strand that takes a fault becomes its group's handler strand: the frame has been written, the PC is TRAPBASE,
EXEC the lane set, the forwarding window empty, `s56` to `s63` read zero, the instructions outstanding are captured, and everything else
is as it was. That each of them is captured is the model's choice (log entry 13), where R344 also lets one complete first. The premises say
that nothing makes the strand wait (R344, R351), that a handler is set, and that the frame could be written to memory. R216, R350 and R352:
TRAP takes the trap with its number as INFO and the next instruction as the frame's PC; a trap captures nothing, and waits for the scalar and
vector instructions that the group issued before (R262; log entry 13). -/
def Obligations.ExceptionEntry : Prop :=
 (∀ (s s1 : State) (h : Here) (c : Code) (lane : Option Nat) (a : DWord), s.here = some h →
    let r := Report.fault c lane (if c = cLinkLost then 0 else a)
    h.group.handler = none → h.group.dbg = none → (s.ctx h.team.asid).trapBase ≠ 0 →
    (∀ p ∈ h.group.pending, p.capturable = true) → h.group.pending.length ≤ 16 →
    s.runBusy h.team.asid (s.frameAddr h.team h.grp) 0x5400 = false →
    s.machineWrite h.team.agent (s.frameAddr h.team h.grp) (frameBytes r h.grp h.strand h.strand.pc h.group.pending) = some s1 →
    s1.teams = s.teams → s1.cur = s.cur →
    ∃ k q, (s.takeAddrFault h c lane a).here = some k ∧ k.group.handler = some q ∧
      q.sid = h.strand.sid ∧ q.fault = true ∧ q.hpc = h.strand.pc ∧ q.captured = h.group.pending ∧
      q.cause = r.cause h.group.strands.length h.group.pending.length ∧
      k.inHandler = true ∧ k.strand.pc = (s.ctx h.team.asid).trapBase ∧ k.strand.exec = h.strand.lanes ∧
      k.strand.lanes = h.strand.lanes ∧ k.strand.stack = h.strand.stack ∧ k.strand.fwd = [] ∧ k.strand.hold = none ∧
      k.group.pending = [] ∧
      (∀ x : SReg, x.toNat < 56 → k.readS x = h.readS x) ∧ (∀ x : SReg, 56 ≤ x.toNat → k.readS x = 0) ∧
      PredsKept h k ∧ TeamKept h k ∧ FlagsKept h k ∧ RngKept h k ∧ ModesKept h k ∧ OthersKept s (s.takeAddrFault h c lane a) h k ∧
      (s.takeAddrFault h c lane a).mem = s1.mem) ∧
 (∀ (s s1 : State) (h : Here) (t : BitVec 8), s.here = some h →
    let r := Report.trap cTrap t.toNat
    let before := fun (n : Nat) => ∃ p ∈ h.group.pending, Instr.beforeTrap p.instr = true ∧ p.seq < n
    let limit := match h.strand.hold with | some (.trap n) => n | _ => s.uid
    h.group.handler = none → h.group.dbg = none → (s.ctx h.team.asid).trapBase ≠ 0 →
    (before limit → HeldBy s h (.trap t) (.trap limit)) ∧
    (¬before limit → s.runBusy h.team.asid (s.frameAddr h.team h.grp) 0x5400 = false →
    s.machineWrite h.team.agent (s.frameAddr h.team h.grp) (frameBytes r h.grp h.strand (h.strand.pc + 4) []) = some s1 →
    s1.teams = s.teams → s1.cur = s.cur →
    ∃ u k q, exec (.trap t) s = .next u ∧ u.here = some k ∧ k.group.handler = some q ∧
      q.sid = h.strand.sid ∧ q.fault = false ∧ q.hpc = h.strand.pc + 4 ∧ q.captured = [] ∧
      q.cause = BitVec.ofNat 64 (0x20 + 2 ^ 8 + (h.group.strands.length - 1) * 2 ^ 10 + t.toNat * 2 ^ 32) ∧
      k.strand.pc = (s.ctx h.team.asid).trapBase ∧ k.strand.exec = h.strand.lanes ∧ k.strand.lanes = h.strand.lanes ∧
      k.strand.stack = h.strand.stack ∧ k.strand.fwd = [] ∧
      k.group.pending.map (·.id) = h.group.pending.map (·.id) ∧
      (∀ x : SReg, x.toNat < 56 → k.readS x = h.readS x) ∧ (∀ x : SReg, 56 ≤ x.toNat → k.readS x = 0) ∧
      PredsKept h k ∧ TeamKept h k ∧ FlagsKept h k ∧ ModesKept h k ∧ OthersKept s u h k ∧ u.mem = s1.mem))

/-- R341 and R351: without a handler a fault or a trap fails the grid with its code; a fault, a TRAP, a GOT_BIND or a JOB_FAIL in the
handler strand fails the grid with DOUBLE_FAULT, and no frame is written; while another strand of the group is the handler strand it holds
the strand. R343, Tables 21-1, 21-2 and 21-4: what the frame says: its header, the units of a wait cycle, the strand entries and the replay
entries. R218 and R352: RETT outside handler mode takes NOT_HANDLER; a frame PC that is no recorded instruction start takes BAD_TARGET; else
it completes: the strand goes on at the frame's PC, out of handler mode and with an empty forwarding window. After a trap its EXEC is the
header's, and nothing else comes back. After a fault every strand of a VALID entry has that entry's PC, EXEC and split stack, another one
its own, and every VALID replay entry is outstanding again, in entry order, with the mask and the operands that the frame holds (R353);
which windows are emptied is log entry 22. While the home is at work on a line of the frame RETT waits (R331); a frame that cannot be read
is a fatal error of the context (log entry 22). -/
def Obligations.StopsFramesAndReturn : Prop :=
 (∀ (s : State) (h : Here) (r : Report) (pc : DWord), s.here = some h → r.kind = 0 ∨ r.kind = 1 →
    let double := r.kind = 0 ∨ r.code = cTrap ∨ r.code = cGotBind ∨ r.code = cJobFail
    (h.inHandler = true → double → s.takeStop h r pc = (s.putHere h).failGrid h.team.info.grid cDoubleFault) ∧
    (h.group.handler = none → h.group.dbg = none → (s.ctx h.team.asid).trapBase = 0 →
      s.takeStop h r pc = (s.putHere h).failGrid h.team.info.grid r.code) ∧
    (h.inHandler = false → h.group.handler ≠ none ∨ h.group.dbg ≠ none →
      s.takeStop h r pc = s.putHere (h.wait s.clock .handler)) ∧
    (∀ g, s.grid? h.team.info.grid = some g → g.failed = none → h.inHandler = true → double →
      ∃ g', (s.takeStop h r pc).grid? h.team.info.grid = some g' ∧ g'.failed = some cDoubleFault)) ∧
 (∀ (r : Report) (g : Group) (x : Strand) (pc : DWord) (cs : List Pending),
    let bs := frameBytes r g x pc cs
    let dw := fun n => dwordOf ((bs.drop n).take 8)
    bs.length = 0x5200 ∧
    dw 0 = r.cause g.strands.length cs.length ∧ dw 8 = pc ∧ dw 0x10 = x.exec ∧ dw 0x18 = r.addr ∧
    dw 0x20 = BitVec.ofNat 64 (g.place x.sid) ∧ dw 0x28 = r.card ∧
    (r.kind < 4 → r.code < 256 → g.strands.length ≤ 16 → cs.length ≤ 16 → r.info < 65536 → (∀ l ∈ r.lane, l < 64) →
      (dw 0).toNat % 256 = r.code ∧ (dw 0).toNat / 2 ^ 8 % 4 = r.kind ∧ (dw 0).toNat / 2 ^ 10 % 32 = g.strands.length - 1 ∧
      (dw 0).toNat / 2 ^ 15 % 32 = cs.length ∧ (dw 0).toNat / 2 ^ 32 = r.info ∧
      ((dw 0).getLsbD 20 = r.lane.isSome) ∧ ∀ l, r.lane = some l → (dw 0).toNat / 2 ^ 21 % 64 = l) ∧
    (∀ k, k < 16 → dw (0x100 + 8 * k) = r.waits.getD k 0) ∧
    (g.strands.length ≤ 16 → (∀ y ∈ g.strands, y.stack.length ≤ 16) →
      (∀ k y, g.strands[k]? = some y → let at_ := 0x200 + 0x100 * k
        dw at_ = y.pc ∧ dw (at_ + 8) = y.lanes ∧ dw (at_ + 0x10) = y.exec ∧ (dw (at_ + 0x18)).toNat % 32 = y.stack.length ∧
        (dw (at_ + 0x18)).getLsbD 8 = true ∧ (dw (at_ + 0x18)).getLsbD 9 = y.hold.isSome ∧
        ∀ j e, y.stack[j]? = some e → dw (at_ + 0x20 + 8 * j) = e.addr) ∧
      (∀ k, g.strands.length ≤ k → k < 16 → dw (0x200 + 0x100 * k + 0x18) = 0)) ∧
    (g.strands.length ≤ 16 → cs.length ≤ 16 →
      (∀ k p, cs[k]? = some p → (∃ y ∈ g.strands, y.sid = p.sid) → Instr.firstDest p.instr < 2048 → let at_ := 0x1200 + 0x400 * k
        let ctl := numOfBytes ((bs.drop (at_ + 12)).take 4)
        (∀ n w, n < 3 → (encode p.instr)[n]? = some w → numOfBytes ((bs.drop (at_ + 4 * n)).take 4) = w.toNat) ∧
        ctl % 2 = 1 ∧ ctl / 2 % 16 = g.place p.sid ∧ (ctl / 32 % 2 = 1 ↔ p.instr.vwrites ≠ []) ∧ ctl / 64 = Instr.firstDest p.instr ∧
        dw (at_ + 0x10) = p.mask ∧ dw (at_ + 0x18) = p.sa ∧ dw (at_ + 0x20) = p.sb ∧ dw (at_ + 0x28) = p.sd ∧
        ∀ m i v l, (Instr.vopPlaces p.instr)[m]? = some (some i) → p.vops[i]? = some v → l < 64 →
          numOfBytes ((bs.drop (at_ + 0x100 * (m + 1) + 4 * l)).take 4) = (v.getD l 0).toNat) ∧
      (∀ k, cs.length ≤ k → k < 16 → numOfBytes ((bs.drop (0x1200 + 0x400 * k + 12)).take 4) = 0))) ∧
 (∀ (s : State) (h : Here) (q : Handler) (f : Nat → Byte), s.here = some h →
    let va := s.frameAddr h.team h.group
    let fb := fun n => if n < 0x5200 then f n else 0
    let dw := fun n => dwordOf ((List.range 8).map fun j => fb (n + j))
    let entry := fun k => 0x200 + 0x100 * k
    let replay := fun k => 0x1200 + 0x400 * k
    let valid := fun k => (fb (replay k + 12)).getLsbD 0
    let place := fun k => (fb (replay k + 12)).toNat / 2 % 16
    let restored := fun (k : Nat) (x y : Strand) => y.sid = x.sid ∧ y.lanes = x.lanes ∧
      (((dw (entry k + 0x18)).getLsbD 8 = true → (dw (entry k + 0x18)).toNat % 32 ≤ 16 →
        y.exec = dw (entry k + 0x10) &&& x.lanes ∧ y.stack.length = (dw (entry k + 0x18)).toNat % 32 ∧
        ∀ j e, y.stack[j]? = some e → e.addr = dw (entry k + 0x20 + 8 * j)) ∧
      ((dw (entry k + 0x18)).getLsbD 8 = false → y.exec = x.exec))
    let place? := fun (k : Nat) (x : Strand) => ∃ y, q.table[k]? = some y ∧ y.sid = x.sid ∧
      ∀ j z, j < k → q.table[j]? = some z → z.sid ≠ x.sid
    (h.inHandler = false → exec .rett s = .next (s.takeFault h cNotHandler)) ∧
    (h.inHandler = true → s.runBusy h.team.asid va 0x5200 = true → HeldBy s h .rett (.busy va 0x5200 h.team.asid false)) ∧
    (h.group.handler = some q → h.inHandler = true → Readable s h.team.asid va 0x5200 f →
      (s.isStart h.team.asid (dw 8) = false → ∃ u : State, u = { s with dir := u.dir, dies := u.dies } ∧
        exec .rett s = .next (u.takeFault h cBadTarget)) ∧
      (s.isStart h.team.asid (dw 8) = true → ∃ u k, exec .rett s = .next u ∧ u.here = some k ∧
        u = { s with teams := u.teams, dir := u.dir, dies := u.dies } ∧
        k.group.handler = none ∧ k.strand.pc = dw 8 ∧ k.strand.fwd = [] ∧ k.strand.hold = none ∧ k.strand.lanes = h.strand.lanes ∧
        (∀ x : SReg, x.toNat < 56 → k.readS x = h.readS x) ∧ PredsKept h k ∧ TeamKept h k ∧ FlagsKept h k ∧ RngKept h k ∧
        ModesKept h k ∧ (∀ v, v ≠ h.team.info.uid → u.team? v = s.team? v) ∧
        (∀ n, n ≠ h.group.num → k.team.group? n = h.team.group? n) ∧
        (q.fault = false → q.captured = [] → k.strand.exec = dw 0x10 &&& h.strand.lanes ∧ k.strand.stack = h.strand.stack ∧
          k.group.pending = h.group.pending ∧ OthersKept s u h k) ∧
        (q.fault = true → (∀ n, place? n h.strand → restored n h.strand k.strand) ∧
          (∀ n x, x ∈ h.group.strands → x.sid ≠ h.strand.sid → place? n x → ∃ y ∈ k.group.strands, restored n x y ∧
            y.pc = if (dw (entry n + 0x18)).getLsbD 8 then dw (entry n) else x.pc) ∧
          let ns := (List.range q.captured.length).filter valid
          ∃ again, k.group.pending = h.group.pending ++ again ∧ again.length = ns.length ∧ ∀ (c n : Nat) (a : Pending), ns[c]? = some n →
            again[c]? = some a → ∃ p, q.captured[n]? = some p ∧
            a.instr = p.instr ∧ a.id = p.id ∧ a.mask = dw (replay n + 0x10) ∧ a.sa = dw (replay n + 0x18) ∧
            a.sb = dw (replay n + 0x20) ∧ a.sd = dw (replay n + 0x28) ∧ a.replayed = true ∧ a.park = none ∧
            (∀ x, q.table[place n]? = some x → a.sid = x.sid) ∧
            ∀ m i l, (Instr.vopPlaces p.instr)[m]? = some (some i) → i < p.vops.length → l < 64 → ((a.vops.getD i []).getD l 0).toNat =
              numOfBytes ((List.range 4).map fun b => fb (replay n + 0x100 * (m + 1) + 4 * l + b))))))

/-- R217: BRK is a NOP while breakpoints are not enabled, and for the strand that resumes at it (R355); else the strand stops for the
debugger at the BRK, with the value reported; the other strands of the group stop with it when STOPALL is 1. That every outstanding
instruction is captured is the model's choice (log entry 13), where R344 also lets one complete first. The premises say that nothing makes the
strand wait (R344, R351), and that the frame could be written to memory. -/
def Obligations.Break : Prop :=
  ∀ (s s1 : State) (h : Here) (v : BitVec 16), s.here = some h →
    let c := s.ctx h.team.asid
    encode (.brk v) = [v ++ (0 : BitVec 6) ++ (0x65 : BitVec 8) ++ (0 : BitVec 2)] ∧
    (c.dbgCtl.getLsbD 0 = false ∨ h.strand.skipStop = some h.strand.pc → Passes s h (.brk v) 1) ∧
    (c.dbgCtl.getLsbD 0 = true → h.strand.skipStop ≠ some h.strand.pc → h.group.handler = none → h.group.dbg = none →
      (∀ p ∈ h.group.pending, p.capturable = true) → h.group.pending.length ≤ 16 →
      s.runBusy h.team.asid (s.frameAddr h.team h.grp) 0x5400 = false →
      s.machineWrite h.team.agent (s.frameAddr h.team h.grp)
        (frameBytes (Report.dbg v.toNat) h.grp h.strand h.strand.pc h.group.pending) = some s1 →
      s1.teams = s.teams → s1.cur = s.cur → s1.ctxs = s.ctxs →
      ∃ u k d, exec (.brk v) s = .next u ∧ u.here = some k ∧ k.group.dbg = some d ∧ d.sid = h.strand.sid ∧
        d.mark = some h.strand.pc ∧ d.captured = h.group.pending ∧ k.group.handler = none ∧ k.group.pending = [] ∧ k.strand.pc = h.strand.pc ∧
        k.strand.exec = h.strand.exec ∧ k.strand.fwd = [] ∧ u.stopsHold k.team k.group h.strand.sid = true ∧
        (∀ x, x ≠ h.strand.sid → u.stopsHold k.team k.group x = c.dbgCtl.getLsbD 1) ∧
        ScalarsKept h k ∧ PredsKept h k ∧ TeamKept h k ∧ FlagsKept h k ∧ ModesKept h k ∧ u.mem = s1.mem)

/-! ## Vector instructions that are short-latency -/

/-- Table 15-3, R222 and R228: the integer operations compute each element exactly, and clamp with `.sat` or wrap. R228 to R230 and R232:
logic, shifts by the amount modulo the element's width, counts, bit fields, the selection and the move. -/
def Obligations.VectorIntegerAndLogic : Prop :=
 (∀ (s : State) (h : Here) (g : Guard) (eph sat : Bool) (ty : Fmt) (vd va : VReg) (vb : Src) (vs : List Lanes) (qs : SMap QueueReg),
    let m := h.mask g
    let n := Src.litWords vb
    let o := argsOf ty vb h vs
    let w := ty.elemBits
    let does := fun (i : Instr) (sat : Bool) (f : Int → Int → Int → Int) => VecReady s h i m vs qs →
      ∃ r, Exactly ty sat m o r f ∧ VecResult s h i n m qs eph (destOf ty vd r)
    does (.vadd g eph sat ty vd va vb) sat (fun a b _ => a + b) ∧
    does (.vsub g eph sat ty vd va vb) sat (fun a b _ => a - b) ∧
    does (.vmul g eph sat ty vd va vb) sat (fun a b _ => a * b) ∧
    does (.vmulh g eph sat ty vd va vb) false (fun a b _ => a * b / 2 ^ w) ∧
    does (.vmad g eph sat ty vd va vb) sat (fun a b d => a * b + d) ∧
    does (.vmin g eph ty vd va vb) false (fun a b _ => min a b) ∧
    does (.vmax g eph ty vd va vb) false (fun a b _ => max a b) ∧
    does (.vabsd g eph sat ty vd va vb) sat (fun a b _ => max (a - b) (b - a))) ∧
 (∀ (s : State) (h : Here) (g : Guard) (eph neg : Bool) (p : PReg) (ty : Fmt) (vd va : VReg) (vb : Src) (vs : List Lanes)
    (qs : SMap QueueReg),
    let m := h.mask g
    let n := Src.litWords vb
    let o := argsOf ty vb h vs
    let x := argsWord ty vb h vs
    let w := ty.elemBits
    let lanes := fun (i : Instr) (f : DWord → DWord → DWord → DWord) => VecReady s h i m vs qs →
      ∃ r, Lanewise m o r f ∧ VecResult s h i n m qs eph (destOf ty vd r)
    let codes := fun (i : Instr) (n : Nat) (f : Nat → Nat → Nat → Nat) => VecReady s h i m vs qs →
      ∃ r, Codewise ty m o r f ∧ VecResult s h i n m qs eph (destOf ty vd r)
    lanes (.vand g eph ty vd va vb) (fun a b _ => a &&& b) ∧
    lanes (.vor g eph ty vd va vb) (fun a b _ => a ||| b) ∧
    lanes (.vxor g eph ty vd va vb) (fun a b _ => a ^^^ b) ∧
    lanes (.vandn g eph ty vd va vb) (fun a b _ => a &&& ~~~b) ∧
    codes (.vshl g eph ty vd va vb) n (fun a b _ => a * 2 ^ (b % w)) ∧
    codes (.vshr g eph ty vd va vb) n (fun a b _ => a / 2 ^ (b % w)) ∧
    codes (.vsar g eph ty vd va vb) n (fun a b _ => (signedOf w a / 2 ^ (b % w) % 2 ^ w).toNat) ∧
    codes (.vclz g eph ty vd va) 2 (fun a _ _ => w - (if a = 0 then 0 else Nat.log2 a + 1)) ∧
    codes (.vpopc g eph ty vd va) 2 (fun a _ _ => (List.range w).countP a.testBit) ∧
    (VecReady s h (.vbfx g eph ty vd va vb) m vs qs → ∃ r,
      Lanewise m x r (fun a b _ =>
        let pos := b.toNat % 64
        let k := min (b.toNat / 256 % 64 + 1) (w - pos)
        let f := a.toNat / 2 ^ pos % 2 ^ k
        BitVec.ofNat 64 (if ty.isSigned ∧ 0 < k then (signedOf k f % 2 ^ w).toNat else f)) ∧
      VecResult s h (.vbfx g eph ty vd va vb) n m qs eph (destOf ty vd r)) ∧
    (VecReady s h (.vbfi g eph ty vd va vb) m vs qs → ∃ r,
      Lanewise m x r (fun a b d =>
        let pos := b.toNat % 64
        let k := min (b.toNat / 256 % 64 + 1) (w - pos)
        let f := d.toNat / 2 ^ pos % 2 ^ k
        BitVec.ofNat 64 (d.toNat - f * 2 ^ pos + a.toNat % 2 ^ k * 2 ^ pos)) ∧
      VecResult s h (.vbfi g eph ty vd va vb) n m qs eph (destOf ty vd r)) ∧
    (VecReady s h (.vdot4 g eph ty vd va vb) m vs qs → ∃ r : List DWord, r.length = 64 ∧
      (∀ l, l < 64 → laneBit m l = true →
        let e := fun (v : List DWord) k => elemInt ty (elemOf ty ((laneOf v l).setWidth 32 |>.setWidth 64) k)
        (laneOf r l).toNat = ((((laneOf o.d l).toNat % 2 ^ 32 : Nat) + e o.a 0 * e o.b 0 + e o.a 1 * e o.b 1 + e o.a 2 * e o.b 2 +
          e o.a 3 * e o.b 3 : Int) % 2 ^ 32).toNat) ∧
      VecResult s h (.vdot4 g eph ty vd va vb) n m qs eph (destOf ty vd r)) ∧
    (VecReady s h (.vsel g eph neg p ty vd va vb) m vs qs → ∃ r : List DWord, r.length = 64 ∧
      (∀ l, l < 64 → laneBit m l = true → laneOf r l = if laneBit (h.readP p) l = !neg then laneOf o.a l else laneOf o.b l) ∧
      VecResult s h (.vsel g eph neg p ty vd va vb) n m qs eph (destOf ty vd r)) ∧
    (VecReady s h (.vmov g eph ty vd vb) m vs qs → ∃ r : List DWord, r.length = 64 ∧
      (∀ l, l < 64 → laneBit m l = true → laneOf r l = laneOf (Src.vals vb h ty vs) l) ∧
      VecResult s h (.vmov g eph ty vd vb) n m qs eph (destOf ty vd r)))

/-- R76 and R231: a vector comparison writes its predicate in the active lanes alone; a float comparison with a NaN is unordered and
raises what the table says. -/
def Obligations.VectorCompare : Prop :=
  ∀ (s : State) (h : Here) (g : Guard) (c : Cond) (fc : FCond) (ty : Fmt) (pd : PReg) (va : VReg) (vb : Src) (vs : List Lanes)
    (qs : SMap QueueReg),
    let m := h.mask g
    let o := argsOf ty vb h vs
    let r := fun l => FCond.holds fc (fmtFp32.value (laneOf o.a l).toNat) (fmtFp32.value (laneOf o.b l).toNat)
    (VecReady s h (.vcmp g c ty pd va vb) m vs qs →
      VecPredResult s h (.vcmp g c ty pd va vb) (Src.litWords vb) m qs pd fun l =>
        CodesCompare c ty.elemBits (laneOf o.a l).toNat (laneOf o.b l).toNat) ∧
    (VecReady s h (.vfcmp g fc ty pd va vb) m vs qs →
      VecPredResult s h (.vfcmp g fc ty pd va vb) (Src.litWords vb) m qs pd (fun l => (r l).1 = true) ∧
      ∃ t k, exec (.vfcmp g fc ty pd va vb) s = .next t ∧ t.here = some k ∧ FlagsRaised h k m fun l => (r l).2)

/-- R222, R233 to R236 and R96: the float instructions: each active lane's elements are rounded once from the exact result under the mode
that rnd or RM names, the lane draws under stochastic rounding, and its flags are added. R234: VFMIN and VFMAX of two numbers give the
lesser and the greater, with -0 below +0; of a number and a NaN the number; of two NaNs the canonical NaN. A signalling NaN raises NV. -/
def Obligations.VectorFloat : Prop :=
 (∀ (s : State) (h : Here) (g : Guard) (eph sat : Bool) (rnd : Rnd) (ty : Fmt) (vd va : VReg) (vb : Src) (vs : List Lanes)
    (qs : SMap QueueReg),
    let m := h.mask g
    let n := Src.litWords vb
    let o := argsOf ty vb h vs
    let mode := rnd.resolve h.group.rm
    let F := ty.floatFmt
    let el := fun (v : List DWord) l k => elemOf ty (laneOf v l) k
    let round := fun (x : Nat → Nat → RMode → Sys2Proof.Num × Flags) l gr => floatLane ty mode gr fun md k =>
      let e := x l k md
      let c := F.roundTo e.1 md sat
      (c.1, c.2 ||| e.2)
    let does := fun (i : Instr) (n : Nat) (f : Nat → Rng → LaneRes) => VecReady s h i m vs qs →
      VecFlagResult s h i n m qs eph ty vd (laneResults m h.group f)
    does (.vfadd g eph sat rnd ty vd va vb) n (round fun l k md => (F.value (el o.a l k)).add (md == .rdn) (F.value (el o.b l k))) ∧
    does (.vfsub g eph sat rnd ty vd va vb) n (round fun l k md =>
      (F.value (el o.a l k)).add (md == .rdn) (F.value (el o.b l k)).negate) ∧
    does (.vfmul g eph sat rnd ty vd va vb) n (round fun l k _ => (F.value (el o.a l k)).mul (F.value (el o.b l k))) ∧
    does (.vfma g eph sat rnd ty vd va vb) n (round fun l k md =>
      let q := (F.value (el o.a l k)).mul (F.value (el o.b l k))
      let x := q.1.add (md == .rdn) (F.value (el o.d l k))
      (x.1, q.2 ||| x.2)) ∧
    does (.vfmin g eph sat rnd ty vd va vb) n (minMaxLane false ty o) ∧
    does (.vfmax g eph sat rnd ty vd va vb) n (minMaxLane true ty o) ∧
    does (.vfrnd g eph rnd ty vd va) 2 (fun l gr => floatLane ty mode gr fun md k => floatRnd F md (el (laneVals ty vs) l k)) ∧
    (VecReady s h (.vfclass g eph ty vd va) m vs qs → ∃ r, Codewise ty m o r (fun a _ _ => floatClass F a) ∧
      VecResult s h (.vfclass g eph ty vd va) 2 m qs eph (destOf ty vd r))) ∧
 (∀ (f : FloatFmt) (isMax : Bool) (a b : Nat),
    let x := f.value a
    let y := f.value b
    let r := floatMin f isMax a b
    (x.isNaN = true → y.isNaN = true → r.1 = f.nanCode) ∧
    (x.isNaN = true → y.isNaN = false → r.1 = b) ∧
    (x.isNaN = false → y.isNaN = true → r.1 = a) ∧
    (x.isNaN = false → y.isNaN = false → r.1 = a ∨ r.1 = b) ∧
    (x.isNaN = false → y.isNaN = false → x.lt y = true → y.lt x = false → r.1 = if isMax then b else a) ∧
    (x.isNaN = false → y.isNaN = false → y.lt x = true → x.lt y = false → r.1 = if isMax then a else b) ∧
    (x.isZero = true → y.isZero = true → x.neg = true → y.neg = false → r.1 = if isMax then b else a) ∧
    (x.isZero = true → y.isZero = true → x.neg = false → y.neg = true → r.1 = if isMax then a else b) ∧
    (r.2 = if x.isSNaN || y.isSNaN then fNV else 0))

/-- R238 to R242: conversions, packing and logarithmic arithmetic write their lanes and raise their lanes' flags, each lane by its element
function. R57: a conversion to a format without shared scales is one RoundTo of the exact source value, of its RoundOdd form where the
source is a wider one and the target has at most 21 mantissa bits. R43, R53, R54 and Table 03-9: RoundTo gives back what the format
represents; else it chooses between the two neighbours by the mode, and raises inexact; NaN, infinities, a negative number for an unsigned
target and overflow under saturation give the codes of the table. R46 and R47: a block that holds a special has the scale 0xFF and codes 0.
R50 and R242: the codes of logarithms. R40 and Table 15-1: where the codes of elements stand. -/
def Obligations.VectorConversions : Prop :=
 (∀ (s : State) (h : Here) (g : Guard) (eph sat : Bool) (rnd : Rnd) (src dst ty : Fmt) (vd va : VReg) (vb : Src) (vs : List Lanes)
    (qs : SMap QueueReg),
    let m := h.mask g
    let n := Src.litWords vb
    let o := argsOf ty vb h vs
    let mode := rnd.resolve h.group.rm
    let w := Fmt.lnsBits ty
    let does := fun (i : Instr) (n : Nat) (ty : Fmt) (f : Nat → Rng → LaneRes) => VecReady s h i m vs qs →
      VecFlagResult s h i n m qs eph ty vd (laneResults m h.group f)
    let plain := fun (f : DWord → DWord → Coded) l gr => (⟨BitVec.ofNat 64 (f (laneOf o.a l) (laneOf o.b l)).1,
      (f (laneOf o.a l) (laneOf o.b l)).2, gr⟩ : LaneRes)
    (VecReady s h (.vcvt g eph sat rnd src dst vd va) m vs qs →
      VecFlagResult s h (.vcvt g eph sat rnd src dst vd va) 2 m qs eph dst vd
        (cvtLanes h.group.fmts src dst mode sat m h.group (laneVals src vs))) ∧
    does (.vpack g eph sat rnd src dst vd va) 2 dst (fun l gr =>
      floatLane dst (if Fmt.isFloatPack dst then mode else .rne) gr fun md k => packElem dst md sat ((vs.getD k zeroRow).getD l 0).toNat) ∧
    (VecReady s h (.vunpack g eph src dst vd va) m vs qs →
      let el := fun l k => unpackElem src (elemOf src (laneOf (laneVals src vs) l) k)
      Completes s h (.vunpack g eph src dst vd va) 2 fun t k =>
        Wrote t h k qs m eph ((List.range (packCount src)).map fun j =>
          (vd.toNat + j, (perLane m fun l => BitVec.ofNat 64 (el l j).1).map (·.setWidth 32))) ∧
        ScalarsKept h k ∧ PredsKept h k ∧ OnlyTeamsQueues s t ∧ RngKept h k ∧ ModesKept h k ∧
        FlagsRaised h k m fun l => (List.range (packCount src)).foldl (fun f j => f ||| (el l j).2) 0) ∧
    does (.vlns g eph rnd ty vd va vb) n ty (fun l gr =>
      let d := drawMode mode gr
      let c := vlnsElem w d.1 (laneOf o.a l).toNat (laneOf o.b l).toNat
      ⟨BitVec.ofNat 64 c.1, c.2, d.2⟩) ∧
    does (.vlin g eph ty vd va vb) n ty (plain fun a b => vlinElem w (elemOf ty a 0) (b.setWidth 32 : Word).toInt) ∧
    does (.vlmul g eph ty vd va vb) n ty (plain fun a b => vlmulElem w (elemOf ty a 0) (elemOf ty b 0)) ∧
    does (.vladd g eph ty vd va vb) n ty (plain fun a b => vladdElem w (elemOf ty a 0) (elemOf ty b 0))) ∧
 (∀ (f : FloatFmt) (v : SrcVal) (wide sg sat : Bool) (n : Nat) (mode : RMode),
    let odd := if wide then v.toNum.roundOdd else v.toNum
    convert (.float f) v wide none mode sat = f.roundTo (if f.m ≤ 21 then odd else v.toNum) mode sat ∧
    convert (.int sg n) v wide none mode sat = roundToIntFmt sg n v.toNum mode ∧
    convert .tern v wide none mode sat = roundToTern odd mode ∧
    (convert (.lns n) v wide none mode sat).1 = (relog n (fmtFp32.value (fmtFp32.roundTo v.toNum mode sat).1) sat).1) ∧
 (∀ (f : FloatFmt) (mode : RMode) (neg sg sat : Bool) (mg c : Nat) (e : Int),
    let mag := fun c => units (f.magValue false c)
    let x := units (.exact false mg e)
    let r := f.roundTo (.exact neg mg e) mode sat
    let nv := fun (b : Bool) => if b then fNV else (0 : Flags)
    let one := f.spec = .finiteOnly
    (f.sign = true ∨ neg = false → c ≤ f.maxCode → f.roundTo (f.magValue neg c) mode sat = (f.withSign neg c, 0)) ∧
    (f.sign = true ∨ neg = false → 0 < mg → -1200 ≤ e → -1200 ≤ f.qMin → r.2 &&& fOF = 0 → ∃ c d, mag c ≤ x ∧ x < mag (c + 1) ∧
      r.1 = f.withSign neg d ∧ d ≤ f.maxCode ∧ (d = c ∨ d = c + 1) ∧ (x = mag c → d = c ∧ r.2 = 0) ∧
      (x ≠ mag c → r.2 &&& fNX = fNX ∧ (mode = .rtz → d = c) ∧ (mode = .rup → d = if neg then c else c + 1) ∧
        (mode = .rdn → d = if neg then c + 1 else c) ∧
        (mode = .rne ∨ mode = .rna → (2 * x < mag c + mag (c + 1) → d = c) ∧ (mag c + mag (c + 1) < 2 * x → d = c + 1)) ∧
        (mode = .rna → 2 * x = mag c + mag (c + 1) → d = c + 1))) ∧
    (r.2 &&& fOF ≠ 0 → f.satEff sat = true → r = (f.withSign neg f.maxCode, fOF ||| fNX)) ∧
    (f.sign = false → neg = true → 0 < mg → r = (0, if f.satEff sat then fNX else fNV)) ∧
    f.roundTo (.nan sg) mode sat = (if one then 0 else f.nanCode, nv sg ||| nv one) ∧
    (f.sign = true ∨ neg = false → f.roundTo (.inf neg) mode sat = match f.spec with
      | .ieee => (f.withSign neg f.infCode, 0)
      | .oneNaN => (if f.satEff sat then f.withSign neg f.maxCode else f.nanCode, fNV)
      | .finiteOnly => (f.withSign neg f.maxCode, fNV))) ∧
 (∀ (sg neg : Bool) (n : Nat) (v : Int) (mode : RMode), 0 < n →
    let lo : Int := if sg then -(2 ^ (n - 1)) else 0
    let hi : Int := if sg then 2 ^ (n - 1) - 1 else 2 ^ n - 1
    roundToIntFmt sg n (.ofInt v) mode = ((max lo (min hi v) % 2 ^ n).toNat, if lo ≤ v ∧ v ≤ hi then 0 else fNV) ∧
    roundToIntFmt sg n (.nan neg) mode = (0, fNV) ∧
    roundToIntFmt sg n (.inf neg) mode = (((if neg then lo else hi) % 2 ^ n).toNat, fNV) ∧
    roundToTern (.ofInt v) mode = ((max (-1) (min 1 v) % 4).toNat, if -1 ≤ v ∧ v ≤ 1 then 0 else fOF ||| fNX)) ∧
 (∀ (ty : Fmt) (rnd : Rnd) (gr : Rng) (f : RMode → Nat → Coded) (n c sc k : Nat) (ys : List ((Sys2Proof.Num × Flags) × RMode)),
    (rnd ≠ .rst → k < ty.count → elemOf ty (floatLane ty rnd gr f).val k = (f (drawMode rnd gr).1 k).1 % 2 ^ ty.elemBits) ∧
    (0 < n → n < 32 → c < 2 ^ n → extendCode (.int true n) c = (signedOf n c % 2 ^ 32).toNat) ∧
    (n = 4 ∨ n = 8 → c < 2 ^ n → mxWord n c sc / 256 = sc ∧ signedOf 8 (mxWord n c sc) = signedOf n c) ∧
    ((∃ y ∈ ys, y.1.1.isFin = false) → (mxBlock n ys).1 = 0xFF ∧ (mxBlock n ys).2.map (·.1) = ys.map fun _ => 0)) ∧
 (∀ (dst src : Fmt) (mode : RMode) (sat : Bool) (c : Nat),
    let x : Int := if dst.isSigned then signedOf 32 c else c
    let lo : Int := if dst.isSigned then -(2 ^ (dst.elemBits - 1)) else 0
    let hi : Int := if dst.isSigned then 2 ^ (dst.elemBits - 1) - 1 else 2 ^ dst.elemBits - 1
    (dst ∈ [Fmt.i16x2, .i8x4, .b16x2, .b8x4] →
      packElem dst mode sat c = (((if sat then max lo (min hi x) else x) % 2 ^ dst.elemBits).toNat, 0)) ∧
    (dst ∈ [Fmt.bf16x2, .f16x2] → packElem dst mode sat c = dst.floatFmt.roundTo (fmtFp32.value c) mode sat) ∧
    (src ∈ [Fmt.i16x2, .i8x4] → unpackElem src c = ((signedOf src.elemBits c % 2 ^ 32).toNat, 0)) ∧
    (src ∈ [Fmt.b16x2, .b8x4] → unpackElem src c = (c, 0)) ∧
    (src ∈ [Fmt.bf16x2, .f16x2] → (src.floatFmt.value c).isFin = true → (unpackElem src c).2 = 0 ∧
      units (fmtFp32.value (unpackElem src c).1) = units (src.floatFmt.value c))) ∧
 (∀ (n f a b m : Nat) (neg more sat : Bool) (e l k : Int),
    let top : Int := 2 ^ (n - 2) - 1
    let s := fun (a : Nat) => a / 2 ^ (n - 1) % 2 == 1
    let lg := fun (a : Nat) => signedOf (n - 1) a
    let none? := fun (a : Nat) => lg a = -(2 ^ (n - 2))
    let L := nearestLog (lnsFrac n) m e
    let exact := m = 2 ^ Nat.log2 m
    (n = 8 ∨ n = 16 → -top ≤ l → l ≤ top → lg (lnsCode n neg (some l)) = l ∧ s (lnsCode n neg (some l)) = neg) ∧
    (n = 8 ∨ n = 16 → none? (lnsCode n neg none) ∧ s (lnsCode n neg none) = neg) ∧
    (0 < m → ∃ K : Nat, nearestLog f m e = K + e * 2 ^ f ∧ 2 ^ (2 * K) ≤ 2 * m ^ 2 ^ (f + 1) ∧ m ^ 2 ^ (f + 1) < 2 ^ (2 * K + 1)) ∧
    relog n (.nan neg) sat = (lnsCode n false none, fNV) ∧ relog n (.inf neg) sat = (lnsCode n neg (some top), fNV) ∧
    relog n (.fin neg 0 e more) sat = (lnsCode n neg none, 0) ∧
    (0 < m → -top ≤ L → L ≤ top → relog n (.fin neg m e more) sat = (lnsCode n neg (some L), if exact then 0 else fNX)) ∧
    (0 < m → top < L → relog n (.fin neg m e more) sat = (lnsCode n neg (some top), fOF ||| fNX)) ∧
    (0 < m → L < -top → relog n (.fin neg m e more) sat = (lnsCode n neg (if sat then some (-top) else none), fUF ||| fNX)) ∧
    (none? a ∨ none? b → vlmulElem n a b = (lnsCode n (s a != s b) none, 0)) ∧
    (¬none? a → ¬none? b → vlmulElem n a b = if top < lg a + lg b then (lnsCode n (s a != s b) (some top), fOF ||| fNX)
      else if lg a + lg b < -top then (lnsCode n (s a != s b) none, fUF ||| fNX) else (lnsCode n (s a != s b) (some (lg a + lg b)), 0)) ∧
    (none? a → vlinElem n a k = (fmtFp32.withSign (s a) 0, 0)) ∧
    (¬none? a → (lg a + k) % 2 ^ lnsFrac n = 0 →
      vlinElem n a k = fmtFp32.roundTo (.exact (s a) 1 ((lg a + k) / 2 ^ lnsFrac n)) .rne false))

/-- R56, R243 and R244: VRAND draws in the active lanes, reads and seeds the state, st[k] from register va + k (log entry 16); VFLG reads, sets, adds and clears the lanes' flags.
R245 to R248 and R253: lane movement. The lane whose index is used is the lowest active one. -/
def Obligations.LanesAndRandomState : Prop :=
 (∀ (s : State) (h : Here) (g : Guard) (eph : Bool) (v : VReg) (vs : List Lanes) (qs : SMap QueueReg),
    let m := h.mask g
    let gr := h.group
    let all := fun (f : Nat → Word) => laneNumbers.map f
    let word := fun j l => (vs.getD j zeroRow).getD l 0
    let rest := fun (t : State) (k : Here) => ScalarsKept h k ∧ PredsKept h k ∧ OnlyTeamsQueues s t ∧ ModesKept h k
    let rand := fun (op : RandOp) (ws : List (Nat × Lanes)) (f : Nat → Rng) => VecReady s h (.vrand g eph op) m vs qs →
      Completes s h (.vrand g eph op) 2 fun t k => Wrote t h k qs m eph ws ∧ FlagsKept h k ∧ rest t k ∧
        ∀ l, l < 64 → k.group.rngOf l = if laneBit m l then f l else gr.rngOf l
    let flg := fun (op : FlgOp) (ws : List (Nat × Lanes)) (f : Nat → Flags) => VecReady s h (.vflg g eph op) m vs qs →
      Completes s h (.vflg g eph op) 2 fun t k => Wrote t h k qs m eph ws ∧ RngKept h k ∧ rest t k ∧
        ∀ l, l < 64 → k.group.flagsOf l = if laneBit m l then f l else gr.flagsOf l
    rand (.draw v) [(v.toNat, all fun l => (gr.rngOf l).next.1)] (fun l => (gr.rngOf l).next.2) ∧
    rand (.unit v) [(v.toNat, all fun l => unitOf (gr.rngOf l).next.1)] (fun l => (gr.rngOf l).next.2) ∧
    rand (.seed v) [] (fun l => ⟨word 0 l, word 1 l, word 2 l, word 3 l⟩) ∧
    rand (.state v) [(v.toNat, all fun l => (gr.rngOf l).s0), (v.toNat + 1, all fun l => (gr.rngOf l).s1),
      (v.toNat + 2, all fun l => (gr.rngOf l).s2), (v.toNat + 3, all fun l => (gr.rngOf l).s3)] gr.rngOf ∧
    flg (.get v) [(v.toNat, all fun l => (gr.flagsOf l).zeroExtend 32)] gr.flagsOf ∧
    flg (.set v) [] (fun l => (word 0 l).setWidth 5) ∧
    flg (.or v) [] (fun l => gr.flagsOf l ||| (word 0 l).setWidth 5) ∧
    flg (.clr v) [] (fun l => gr.flagsOf l &&& ~~~((word 0 l).setWidth 5))) ∧
 (∀ (s : State) (h : Here) (g : Guard) (eph : Bool) (ty : Fmt) (vd va : VReg) (vb : Src) (sr : SReg) (vs : List Lanes)
    (qs : SMap QueueReg),
    let m := h.mask g
    let n := Src.litWords vb
    let o := argsWord ty vb h vs
    let at_ := fun (j : DWord) => if j.toNat < 64 then laneOf o.a j.toNat else 0
    let low := (lowestLane m).getD 0
    (VecReady s h (.vshuf g eph ty vd va vb) m vs qs → ∃ r : List DWord, r.length = 64 ∧
      (∀ l, l < 64 → laneBit m l = true → laneOf r l = at_ (laneOf o.b l)) ∧
      VecResult s h (.vshuf g eph ty vd va vb) n m qs eph (destOf ty vd r)) ∧
    (VecReady s h (.vbcast g eph ty vd va vb) m vs qs → ∃ r : List DWord, r.length = 64 ∧
      (∀ l, l < 64 → laneBit m l = true → laneOf r l = at_ (laneOf o.b low)) ∧
      VecResult s h (.vbcast g eph ty vd va vb) n m qs eph (destOf ty vd r)) ∧
    (VecReady s h (.vrdlane g ty sr va vb) m vs qs → Completes s h (.vrdlane g ty sr va vb) n fun t k =>
      ScalarIs h k sr (if ty = .i32 then ((at_ (laneOf o.b low)).setWidth 32).signExtend 64 else at_ (laneOf o.b low)) ∧
      PredsKept h k ∧ TeamKept h k ∧ t.queues = qs ∧ OnlyTeamsQueues s t ∧ FlagsKept h k ∧ RngKept h k ∧ ModesKept h k) ∧
    (VecReady s h (.vwrlane g eph ty vd sr vb) m vs qs →
      let j := (laneOf (Src.words vb h vs) low).toNat
      let one := if j < 64 then m &&& BitVec.ofNat 64 (2 ^ j) else 0
      VecResult s h (.vwrlane g eph ty vd sr vb) n one qs eph (destOf ty vd (List.replicate 64 (h.readS sr)))) ∧
    (VecReady s h (.vcompact g eph vd va) m vs qs → ∃ r : List DWord, r.length = 64 ∧
      (let act : List Nat := laneNumbers.filter (laneBit m)
       let sel : List Nat := act.filter fun l => laneOf (laneVals .b32 vs) l != 0
       ∀ i l : Nat, act[i]? = some l → laneOf r l = match sel[i]? with | some j => BitVec.ofNat 64 j | none => 0xFFFFFFFF) ∧
      VecResult s h (.vcompact g eph vd va) 2 m qs eph (destOf .b32 vd r)) ∧
    (VecReady s h (.assertu g ty va) m vs qs →
      let x := laneVals ty vs
      ((∀ l, l < 64 → laneBit m l = true → laneOf x l = laneOf x low) → Completes s h (.assertu g ty va) 2 fun t k =>
        ScalarsKept h k ∧ PredsKept h k ∧ TeamKept h k ∧ t.queues = qs ∧ VecQuiet s t h k) ∧
      (∀ l, l < 64 → laneBit m l = true → laneOf x l ≠ laneOf x low →
        (∀ j, j < l → laneBit m j = true → laneOf x j = laneOf x low) →
        exec (.assertu g ty va) s = .next (s.takeAddrFault h cNonUniform (some l) 0))))

/-- R96, R97 and R223: writing a vector register under a mask: the active lanes get the new words and the inactive lanes keep theirs; a
queue gets one vector, with zeros in the inactive lanes, unless its count has been reached. No other row and no other queue changes. R90:
what a strand reads from a register below the queues: the most recent write among its last eight instructions if that one was ephemeral,
in the lanes of its mask, else the banks. R73, R75, R81 and R345: the faults of the role and of the registers that a W instruction names,
the lowest code of them, taken at issue. -/
def Obligations.RegistersAndForwarding : Prop :=
 (∀ (t : Team) (g : Group) (qs : SMap QueueReg) (m : Mask) (n : Nat) (v : Lanes), v.length = 64 →
    let w := writeReg t g qs m (n, v)
    (isQueue n = false → w.2 = qs ∧
      (∀ l, l < 64 → (w.1.row (regRow t g n)).getD l 0 = if laneBit m l then v.getD l 0 else (t.row (regRow t g n)).getD l 0) ∧
      (∀ r, r ≠ regRow t g n → w.1.row r = t.row r) ∧ (m = allLanes → w.1.rowPoison.contains (regRow t g n) = false)) ∧
    (isQueue n = true → w.1 = t ∧ (∀ k, k ≠ queueKey t.core (n - 1536) → w.2.find k = qs.find k) ∧
      ∀ q, qs.find (queueKey t.core (n - 1536)) = some q → q.fault = none →
        (q.taken < q.count → ∃ x, w.2.find (queueKey t.core (n - 1536)) =
          some { q with vecs := q.vecs ++ [⟨x, []⟩], taken := q.taken + 1 } ∧
          ∀ l, l < 64 → x.getD l 0 = if laneBit m l then v.getD l 0 else 0) ∧
        (q.count ≤ q.taken → w.2 = qs))) ∧
 (∀ (h : Here) (n : Nat),
    let row := h.team.row (regRow h.team h.group n)
    let wrote := fun (w : List FwdWrite) => ∃ x ∈ w, x.reg = n
    ((∀ w ∈ h.strand.fwd, ¬wrote w) → h.bank n = row) ∧
    (∀ (a b : List (List FwdWrite)) (w : List FwdWrite) (x : FwdWrite), h.strand.fwd = a ++ w :: b → (∀ u ∈ a, ¬wrote u) →
      w.find? (fun y => y.reg == n) = some x →
      (x.eph = none → h.bank n = row) ∧
      (∀ m v, x.eph = some (m, v) → ∀ l, l < 64 → (h.bank n).getD l 0 = if laneBit m l then v.getD l 0 else row.getD l 0)) ∧
    (∀ k c w, (h.retire k w).strand.fwd.length ≤ 8 ∧ (h.wait c .claims).strand.fwd = h.strand.fwd)) ∧
 (∀ (s : State) (h : Here) (i : Instr), s.here = some h → 1 < (encode i).length →
    let rng := regB h.team h.group + regX h.team h.group
    let roleOk := h.group.kind ∈ Instr.roles i
    let ext := ∃ r ∈ Instr.named i, regB h.team h.group ≤ r ∧ r < rng
    let out := ∃ r ∈ Instr.named i, rng ≤ r ∧ r < 1536
    (¬roleOk → exec i s = .next (s.takeFault h cRole)) ∧
    (roleOk → ext → h.team.xHeld h.group = false → exec i s = .next (s.takeFault h cExtNotHeld)) ∧
    (roleOk → (¬ext ∨ h.team.xHeld h.group = true) → out → exec i s = .next (s.takeFault h cRegRange)))

/-! ## Vector instructions that are long-latency -/

/-- R92, R95 and R97: the long-latency vector instructions issue: they are outstanding with the registers they read, the mask, RM and the
random state captured; those that round draw at issue. With an all-zero mask and no queue to push they complete at issue. One that would
be the 33rd outstanding is held. -/
def Obligations.VectorLongIssue : Prop :=
  ∀ (s : State) (h : Here) (g : Guard) (la : BitVec 4) (sat desc : Bool) (rnd : Rnd) (ty : Fmt) (red : RedOp) (vd va vr : VReg) (vb : Src)
    (kn : BitVec 4) (vs : List Lanes) (qs : SMap QueueReg),
    let m := h.mask g
    let o := argsOf ty vb h vs
    let drawn := fun (k : Here) => ∀ l, l < 64 → k.group.rngOf l =
      if laneBit m l then (drawModes (rnd.resolve h.group.rm) ty.count (h.group.rngOf l)).2 else h.group.rngOf l
    let div := Instr.vfdiv g la sat rnd ty vd va vb
    let special := [Instr.vexp2 g la sat rnd ty vd va, .vlog2 g la sat rnd ty vd va, .vrcp g la sat rnd ty vd va,
      .vrsq g la sat rnd ty vd va, .vsqrt g la sat rnd ty vd va]
    let lanes := [Instr.vreduce g la rnd ty red vd va, .vscan g la rnd ty red vd va, .vmatch g la ty vd va vr, .tsort g la ty desc kn vd va]
    (m ≠ 0 → LongReady s h div m vs qs → Launches s h div (Src.litWords vb) qs
      { h.pend s.uid div la m vs with vops := [o.a.map (·.setWidth 32), o.b.map (·.setWidth 32)] } fun _ k => drawn k) ∧
    (∀ i ∈ special, m ≠ 0 → LongReady s h i m vs qs → Launches s h i 2 qs (h.pend s.uid i la m vs) fun _ k => drawn k) ∧
    (∀ i ∈ lanes, m ≠ 0 → LongReady s h i m vs qs → Launches s h i 2 qs (h.pend s.uid i la m vs) fun _ k => RngKept h k) ∧
    (∀ i ∈ special ++ lanes, m = 0 → LongReady s h i m vs qs → i.vwrites.any isQueue = false →
      Completes s h i 2 fun t k => t.queues = qs ∧ ScalarsKept h k ∧ PredsKept h k ∧ TeamKept h k ∧ VecQuiet s t h k) ∧
    (∀ i ∈ special ++ lanes, s.here = some h → h.issueFault i = none → s.ownQueues h i.vwrites = none →
      h.fetch m i.vreads s.queues = .ok (vs, qs) → h.group.pending.length = 32 → m ≠ 0 → HeldBy s h i (.count 31))

/-- R92, R233, R237, R249 to R252: the results of the long-latency vector instructions when they complete, from what they captured. R249:
a scan combines the active lanes in ascending order, beginning with the lowest. R250 and R252: sorting lists every active lane once, in
the key order, NaNs last; keys of equal order stay in ascending lane order. -/
def Obligations.VectorLongResults : Prop :=
 (∀ (s : State) (team group idx : Nat) (t : Team) (q : Group) (p : Pending) (g : Guard) (la : BitVec 4) (sat desc : Bool) (rnd : Rnd)
    (ty : Fmt) (red : RedOp) (vd va vr : VReg) (vb : Src) (kn : BitVec 4), Outstanding s team group idx t q p →
    let mode := rnd.resolve p.rm
    let F := ty.floatFmt
    let a := laneVals ty p.vops
    let kept := fun u : State => u.mem = s.mem ∧ u.jobs = s.jobs ∧ u.grids = s.grids ∧ u.tasks = s.tasks
    let lanes := fun (rs : List LaneRes) => Finishes s team group idx t q p (destOf ty vd (rs.map (·.val))) (flagsFrom rs) none kept
    let word := fun (w : Nat → Word) (fl : Nat → Flags) => Finishes s team group idx t q p [(vd.toNat, laneNumbers.map w)] fl none kept
    let fn := fun (f : SpecialFn) => lanes (p.lanes fun l r => floatLane ty mode r fun md k =>
      let e := f.eval (F.value (elemOf ty (laneOf a l) k))
      let c := F.roundTo e.1 md sat
      (c.1, c.2 ||| e.2))
    let act := laneNumbers.filter (laneBit p.mask)
    let scan := scanLanes red ty (engineMode rnd p.rm) a p.mask
    (p.instr = .vfdiv g la sat rnd ty vd va vb → lanes (p.lanes fun l r => floatLane ty mode r fun md k =>
      let e := (F.value (elemOf ty (laneOf (p.vals .b32 0) l) k)).div (F.value (elemOf ty (laneOf (p.vals .b32 1) l) k))
      let c := F.roundTo e.1 md sat
      (c.1, c.2 ||| e.2))) ∧
    (p.instr = .vexp2 g la sat rnd ty vd va → fn .exp2) ∧
    (p.instr = .vlog2 g la sat rnd ty vd va → fn .log2) ∧
    (p.instr = .vrcp g la sat rnd ty vd va → fn .rcp) ∧
    (p.instr = .vrsq g la sat rnd ty vd va → fn .rsq) ∧
    (p.instr = .vsqrt g la sat rnd ty vd va → fn .sqrt) ∧
    (p.instr = .vscan g la rnd ty red vd va →
      word (fun l => BitVec.ofNat 32 (((scan.find? (fun r => r.1 == l)).map (·.2.1)).getD 0)) (scanFlags scan)) ∧
    (p.instr = .vreduce g la rnd ty red vd va → ∀ r, scan.getLast? = some r →
      word (fun _ => BitVec.ofNat 32 r.2.1) (fun _ => r.2.2)) ∧
    (p.instr = .vmatch g la ty vd va vr →
      word (fun l => match act.find? (fun j => keyValue ty (laneOf (p.vals ty (Fmt.pairLen ty)) j).toNat == keyValue ty (laneOf a l).toNat) with
        | some j => BitVec.ofNat 32 j
        | none => 0xFFFFFFFF) noFlags) ∧
    (p.instr = .tsort g la ty desc kn vd va →
      let order := sortLanes ty desc (act.map fun l => (l, (laneOf a l).toNat))
      Finishes s team group idx t q p ((List.range (kn.toNat + 1)).map fun i =>
        (vd.toNat + i, laneNumbers.map fun l => match (act.zip order).find? (fun z => z.1 == l) with
          | some z => (p.vops.getD i zeroRow).getD z.2 0
          | none => 0)) noFlags none kept)) ∧
 (∀ (op : RedOp) (ty : Fmt) (mode : RMode) (a : List DWord) (m : Mask),
    let act := laneNumbers.filter (laneBit m)
    let r := scanLanes op ty mode a m
    r.map (·.1) = act ∧
    (∀ l, act.head? = some l → r.head? = some (l, (laneOf a l).toNat, 0)) ∧
    (∀ i x y, r[i]? = some x → r[i + 1]? = some y →
      let c := redCombine op ty mode x.2.1 (laneOf a y.1).toNat
      y.2.1 = c.1 ∧ y.2.2 = x.2.2 ||| c.2)) ∧
 (∀ (ty : Fmt) (desc : Bool) (xs : List (Nat × Nat)), (xs.map (·.1)).Pairwise (· < ·) →
    let r := sortLanes ty desc xs
    r.Perm (xs.map (·.1)) ∧
    ∀ i j x y u v : Nat, i < j → r[i]? = some x → r[j]? = some y → (x, u) ∈ xs → (y, v) ∈ xs →
      (keyNaN ty u = true → keyNaN ty v = true) ∧
      (keyNaN ty u = false → keyNaN ty v = false →
        (if desc then keyRank ty v ≤ keyRank ty u else keyRank ty u ≤ keyRank ty v) ∧ (keyRank ty u = keyRank ty v → x < y)) ∧
      (keyNaN ty u = true → keyNaN ty v = true → x < y))

/-! ## Addresses, translation and memory instructions -/

/-- R131 to R134: where a generic address of an access of `n` bytes leads: window 0x0 to global memory below 2^57; window 0xA to the
group's own registers and stack, and for the handler strand to the trap frame (R342); window 0xB to the scratchpad of a team that answers to
the core named; window 0xC to the shared part of the team of the block that lies at the member of the gallery named. Another window, a bit
that must be zero, a core that does not exist and a byte beyond the limit take ADDR_SPACE; a scratchpad of another core and a shared part
of another gallery take SPACE_OWNER. R81, R135 and R346: an address that passes takes EXT_NOT_HELD where it reaches the extended set without
the lock, else ALIGN where it is not aligned. R112 and R153 to R155: translation. An ASID that is not live has no translation, and its
accesses take PAGE (log entry 10); a leaf that is held serves; else the four levels are walked: an entry with V = 0 is a miss of its 32 KiB
page, which the driver answers, a malformed entry takes PAGE, a leaf of 32 KiB, 2 MiB or 1 GiB is held and serves, and a HOST leaf is a miss
until the host has translated it. A store through a leaf with W = 0, and into a loaded page, and a fetch through one with X = 0, but for a
loaded page (log entry 10), take PERM. -/
def Obligations.AddressesAndTranslation : Prop :=
 (∀ (s : State) (t : Team) (g : Group) (a : DWord) (n : Nat),
    let v := a.toNat
    let off := v % 2 ^ 24
    let bx := regB t g + regX t g
    (v + n ≤ 2 ^ 57 → v < 2 ^ 57 → s.resolve t g false a n = .ok (.glob v)) ∧
    (v / 2 ^ 24 = 0xA000000000 → off + n ≤ 256 * (bx + t.info.header.stack) →
      s.resolve t g false a n = .ok (.store t.info.uid (off % 256 +
        256 * (if off / 256 < bx then regRow t g (off / 256) else t.info.header.stackAt g.num + (off / 256 - bx))))) ∧
    (v / 2 ^ 24 = 0xA000000000 → 256 * (bx + t.info.header.stack) < off + n → s.resolve t g false a n = .error cAddrSpace) ∧
    (v / 2 ^ 60 = 0xA → v / 2 ^ 24 ≠ 0xA000000000 → s.resolve t g false a n = .error cAddrSpace) ∧
    (v / 2 ^ 24 = 0xA000000000 → 0xC00000 ≤ off → off + n ≤ 0xC05200 →
      s.resolve t g true a n = .ok (.glob (s.frameAddr t g + (off - 0xC00000)))) ∧
    (v < 2 ^ 57 → 2 ^ 57 < v + n → s.resolve t g false a n = .error cAddrSpace) ∧
    (v / 2 ^ 60 = 0xB → v / 2 ^ 47 % 2 ^ 13 ≠ 0 ∨ v / 2 ^ 24 % 2 ^ 12 ≠ 0 → s.resolve t g false a n = .error cAddrSpace) ∧
    (∀ c, v / 2 ^ 24 = 0xB000000000 + 4096 * c → c < 2048 → coreNamed c = false → s.resolve t g false a n = .error cAddrSpace) ∧
    (∀ c, v / 2 ^ 24 = 0xB000000000 + 4096 * c → c < 2048 → 1024 * t.info.header.scratch < off + n → s.resolve t g false a n = .error cAddrSpace) ∧
    (∀ c, v / 2 ^ 24 = 0xB000000000 + 4096 * c → coreNamed c = true → off + n ≤ 1024 * t.info.header.scratch → t.answers c = true →
      s.resolve t g false a n = .ok (.store t.info.uid (256 * t.info.header.scratchAt + off))) ∧
    (∀ c, v / 2 ^ 24 = 0xB000000000 + 4096 * c → coreNamed c = true → off + n ≤ 1024 * t.info.header.scratch → t.answers c = false →
      s.resolve t g false a n = .error cSpaceOwner) ∧
    (v / 2 ^ 60 = 0xC → v / 2 ^ 43 % 2 ^ 17 ≠ 0 ∨ v / 2 ^ 28 % 2 ^ 12 ≠ 0 → s.resolve t g false a n = .error cAddrSpace) ∧
    (∀ gal mem, v / 2 ^ 24 = 0xC000000000 + 65536 * gal + mem → gal < 8 → mem < 16 →
      let block := fun (u : Team) => u.info.uid = t.info.uid ∨ (2 ≤ t.info.header.coloc ∧ u.info.grid = t.info.grid ∧
        u.info.header.coloc = t.info.header.coloc ∧ u.info.number / t.info.header.coloc = t.info.number / t.info.header.coloc)
      let lies := fun (u : Team) => block u ∧ coreDie u.core = coreDie t.core ∧ ∃ c, (c = u.core ∨ c ∈ u.aliases) ∧
        coreGallery c = gal ∧ coreMember c = mem
      (12 ≤ mem → s.resolve t g false a n = .error cAddrSpace) ∧
      (∀ u ∈ s.teams, mem < 12 → lies u → (∀ w ∈ s.teams, lies w → w = u) → off + n ≤ 1024 * u.info.header.shared →
        s.resolve t g false a n = .ok (.store u.info.uid (256 * u.info.header.scratchAt + off))) ∧
      (∀ u ∈ s.teams, mem < 12 → lies u → (∀ w ∈ s.teams, lies w → w = u) → 1024 * u.info.header.shared < off + n →
        s.resolve t g false a n = .error cAddrSpace) ∧
      (mem < 12 → (∀ w ∈ s.teams, ¬lies w) →
        s.resolve t g false a n = .error (if gal = coreGallery t.core then cAddrSpace else cSpaceOwner))) ∧
    (2 ^ 57 ≤ v → v / 2 ^ 60 ≠ 0xA → v / 2 ^ 60 ≠ 0xB → v / 2 ^ 60 ≠ 0xC → s.resolve t g false a n = .error cAddrSpace)) ∧
 (∀ (s : State) (h : Here) (a : DWord) (n : Nat),
    let off := a.toNat % 2 ^ 24
    let b := 256 * regB h.team h.group
    let x := 256 * regX h.team h.group
    let found := s.resolve h.team h.group h.inHandler a n
    let ext := a.toNat / 2 ^ 24 = 0xA000000000 ∧ ∃ j, off ≤ j ∧ j < off + n ∧ b ≤ j ∧ j < b + x
    let held := h.team.locks.find (h.team.info.header.setOf h.group.num) = some h.group.num
    (∀ c, found = .error c → s.checkAddr h a n = .error c) ∧
    (∀ p, found = .ok p → ext → ¬held → s.checkAddr h a n = .error cExtNotHeld) ∧
    (∀ p, found = .ok p → ¬ext ∨ held → a.toNat % n ≠ 0 → s.checkAddr h a n = .error cAlign) ∧
    (∀ p, found = .ok p → ¬ext ∨ held → a.toNat % n = 0 → s.checkAddr h a n = .ok p)) ∧
 (∀ (s : State) (asid va : Nat) (acc : Access), va < 2 ^ 57 →
    let e0 := s.pte ((s.ctx asid).root.toNat / 2 ^ 15 % 2 ^ 37 * 2 ^ 15 + va / 2 ^ 51 * 8)
    let frame := fun (e : DWord) => e.toNat / 2 ^ 15 % 2 ^ 37 * 2 ^ 15
    let e1 := s.pte (frame e0 + va / 2 ^ 39 % 2 ^ 12 * 8)
    let e2 := s.pte (frame e1 + va / 2 ^ 27 % 2 ^ 12 * 8)
    let e3 := s.pte (frame e2 + va / 2 ^ 15 % 2 ^ 12 * 8)
    let reserved := fun (e : DWord) => e.toNat / 2 ^ 52 ≠ 0 ∨ e.toNat / 2 ^ 12 % 8 ≠ 0 ∨ e.getLsbD 1 = true
    let inner := fun (e : DWord) => e.getLsbD 0 = true ∧ ¬reserved e ∧ e.getLsbD 8 = false
    let found := s.tlb.find? fun e => e.asid == asid && e.base ≤ va && va < e.base + e.size
    let mt := fun (e : DWord) => e.toNat / 2 ^ 4 % 4
    let cls := fun (e : DWord) => e.toNat / 2 ^ 6 % 4
    let sz := fun (e : DWord) => e.toNat / 2 ^ 10 % 4
    let host := fun (e : DWord) => e.getLsbD 9 = true
    let there := fun (e : DWord) (k : Nat) => frame e + 2 ^ k ≤ s.manage.memSize ∨
      (0xF000000000 ≤ frame e ∧ frame e + 2 ^ k ≤ 0xF000000000 + 2 ^ 26 ∧ mt e = 2) ∨ (2 ^ 51 ≤ frame e ∧ frame e + 2 ^ k ≤ 2 ^ 51 + 2 ^ 49)
    let leaf := fun (e : DWord) (k : Nat) => e.getLsbD 0 = true ∧ ¬reserved e ∧ e.getLsbD 8 = true ∧ mt e ≠ 3 ∧ frame e % 2 ^ k = 0 ∧
      (host e ∨ there e k)
    let loaded := fun (pa : Nat) => ∃ g ∈ s.segs, pa / 32768 ∈ g.pages
    let gives := fun (e : DWord) (k : Nat) (u : Tr) =>
      let pa := frame e + va % 2 ^ k
      let x : Xlat := ⟨pa, mt e, cls e, false⟩
      (acc = .read → u = .ok x) ∧
      (acc = .fetch → (e.getLsbD 3 = true ∨ loaded pa → u = .ok x) ∧ (e.getLsbD 3 = false → ¬loaded pa → u = .bad cPerm)) ∧
      (acc = .write → (e.getLsbD 2 = true → ¬loaded pa → u = .ok x) ∧ (e.getLsbD 2 = false ∨ loaded pa → u = .bad cPerm))
    let walks := fun (e : DWord) (k : Nat) => leaf e k →
      (¬host e → ∃ u, s.translate asid va acc = (u, { s with tlb := s.tlb ++ [⟨asid, va / 2 ^ k * 2 ^ k, 2 ^ k, e, none⟩] }) ∧ gives e k u) ∧
      (host e → s.translate asid va acc = (.miss (va / 2 ^ 15) true, s))
    let miss := s.translate asid va acc = (.miss (va / 2 ^ 15) false, s)
    let bad := s.translate asid va acc = (.bad cPage, s)
    (s.live asid = false → bad) ∧
    (s.live asid = true → found = none →
      (e0.getLsbD 0 = false → miss) ∧
      (e0.getLsbD 0 = true → reserved e0 ∨ e0.getLsbD 8 = true → bad) ∧
      (inner e0 → e1.getLsbD 0 = false → miss) ∧
      (inner e0 → e1.getLsbD 0 = true → reserved e1 ∨ e1.getLsbD 8 = true → bad) ∧
      (inner e0 → inner e1 → e2.getLsbD 0 = false → miss) ∧
      (inner e0 → inner e1 → e2.getLsbD 0 = true → reserved e2 → bad) ∧
      (inner e0 → inner e1 → e2.getLsbD 0 = true → e2.getLsbD 8 = true → ¬(sz e2 = 2 ∧ leaf e2 30) → bad) ∧
      (inner e0 → inner e1 → sz e2 = 2 → walks e2 30) ∧
      (inner e0 → inner e1 → inner e2 → e3.getLsbD 0 = false → miss) ∧
      (inner e0 → inner e1 → inner e2 → e3.getLsbD 0 = true → ¬(sz e3 = 0 ∧ leaf e3 15) → ¬(sz e3 = 1 ∧ leaf e3 21) → bad) ∧
      (inner e0 → inner e1 → inner e2 → sz e3 = 0 → walks e3 15) ∧
      (inner e0 → inner e1 → inner e2 → sz e3 = 1 → walks e3 21)) ∧
    (∀ e, s.live asid = true → found = some e → acc = .read → s.translate asid va acc = (.ok (e.place va), s)))

/-- R92, R196 to R199 and R346: a scalar memory instruction whose access finds its place issues, with its address, its operands and its
order captured; `ls` is the place found, `e` what the translation caches then hold. A binder's store to the GOT entry it is binding is a
release (R129, R318). R155, R346, R347 and R367: what stops a scalar memory instruction at issue: an address that is refused takes its
fault, with the address and without a lane; a miss parks the strand before the instruction; a SYSTEM release that covers lost writes takes
LINK_LOST. -/
def Obligations.ScalarMemoryIssue : Prop :=
 (∀ (s : State) (h : Here) (la : BitVec 4) (sz : MSize) (acq rel dbl : Bool) (op : Aop) (ord : MemOrd) (sc : Scope) (d a : SReg)
    (e : List TlbEntry) (ls : SMap Loc), s.here = some h → h.group.outcnt < 32 →
    let x := h.readS a
    let bytes := match sz with | .one => 1 | .two => 2 | .four => 4 | .eight => 8
    let wide := if dbl then 8 else 4
    let finds := fun (acc : Access) (reads atomic : Bool) (n : Nat) =>
      s.decide h acc reads atomic false n h.strand.refused [(0, x)] = (.ok ls, { s with tlb := e })
    let issues := fun (i : Instr) (p : Pending) => Launches s h i 1 s.queues p fun _ k => RngKept h k
    let p := fun (i : Instr) => { h.pend s.uid i la allLanes [] with sa := x, locs := ls }
    let binder := s.binds.any fun b => decide (b.team = h.team.info.uid ∧ b.group = h.group.num ∧ b.sid = h.strand.sid ∧
      b.asid = h.team.asid ∧ x.toNat / 8 = b.va / 8)
    (finds .read true false bytes → issues (.sld la sz acq sc d a) { p (.sld la sz acq sc d a) with acquire := acq }) ∧
    (finds .write false false bytes → (rel = true → sc = .system → s.remoteLost h.team.info.uid = false) →
      issues (.sst la sz rel sc d a) { p (.sst la sz rel sc d a) with sd := h.readS d, release := rel || binder }) ∧
    (finds .write true true wide →
      issues (.satom la op dbl sc d a) { p (.satom la op dbl sc d a) with sd := h.readS d, release := binder }) ∧
    (finds .write true true wide → issues (.scas la dbl ord sc d a) { p (.scas la dbl ord sc d a) with
      sd := h.readS d, sb := h.readS (d + 1), acquire := ord == .acq || ord == .ar,
      release := ord == .rel || ord == .ar || binder })) ∧
 (∀ (s : State) (h : Here) (la : BitVec 4) (sz : MSize) (acq rel dbl : Bool) (op : Aop) (ord : MemOrd) (sc : Scope) (d a : SReg),
    s.here = some h →
    let x := h.readS a
    let bytes := match sz with | .one => 1 | .two => 2 | .four => 4 | .eight => 8
    let wide := if dbl then 8 else 4
    let all : List (Instr × Access × Bool × Bool × Nat) := [(.sld la sz acq sc d a, .read, true, false, bytes),
      (.sst la sz rel sc d a, .write, false, false, bytes), (.satom la op dbl sc d a, .write, true, true, wide),
      (.scas la dbl ord sc d a, .write, true, true, wide)]
    (∀ c ∈ all, ∀ f, s.checkAddr h x c.2.2.2.2 = .error f → exec c.1 s = .next (s.takeAddrFault h f none x)) ∧
    (∀ c ∈ all, ∀ va page host u, s.checkAddr h x c.2.2.2.2 = .ok (.glob va) →
      s.translate h.team.asid va c.2.1 = (.miss page host, u) → page ∉ h.strand.refused →
      exec c.1 s = .next (u.parkHere h [(page, host)] c.2.1)) ∧
    (∀ c ∈ all, ∀ va page host u, s.checkAddr h x c.2.2.2.2 = .ok (.glob va) →
      s.translate h.team.asid va c.2.1 = (.miss page host, u) → page ∈ h.strand.refused →
      exec c.1 s = .next (u.takeAddrFault h cPage none x)) ∧
    (∀ c ∈ all, ∀ va f u, s.checkAddr h x c.2.2.2.2 = .ok (.glob va) → s.translate h.team.asid va c.2.1 = (.bad f, u) →
      exec c.1 s = .next (u.takeAddrFault h f none x)) ∧
    (∀ ls u, s.decide h .write false false false bytes h.strand.refused [(0, x)] = (.ok ls, u) → rel = true → sc = .system →
      u.remoteLost h.team.info.uid = true → exec (.sst la sz rel sc d a) s = .next (u.takeFault h cLinkLost)))

/-- R96, R169, R254 to R260 and R346: a vector memory instruction whose lanes find their places issues, with the lanes' addresses and its
data captured; a store to a GOT entry that the strand is binding is a release (R129, Table 19-2). With an all-zero mask it completes at issue
and accesses nothing. -/
def Obligations.VectorMemoryIssue : Prop :=
  ∀ (s : State) (h : Here) (g : Guard) (la : BitVec 4) (acq rel : Bool) (ord : MemOrd) (sc : Scope) (op : Aop) (ty view : Fmt) (at_ : AType)
    (vd : VReg) (base : MBase) (off : Src) (vs : List Lanes) (qs : SMap QueueReg) (e : List TlbEntry) (ls : SMap Loc),
    let m := h.mask g
    let b := fun l => match base with | .sreg r => h.readS r | .pair _ => laneOf (laneVals .b64 vs) l
    let addr := laneNumbers.map fun l =>
      b l + ((laneOf (Src.words off h (vs.drop base.regs.length)) l).setWidth 32 : Word).signExtend 64
    let n := Src.litWords off
    let sa := match base with | .sreg r => h.readS r | .pair _ => 0
    let lo : List Lanes := [addr.map fun (v : DWord) => v.setWidth 32, addr.map fun (v : DWord) => (v >>> 32).setWidth 32]
    let finds := fun (acc : Access) (reads atomic : Bool) (k : Nat) =>
      s.decide h acc reads atomic true k h.strand.refused ((laneNumbers.filter (laneBit m)).map fun l => (l, laneOf addr l)) =
        (.ok ls, { s with tlb := e })
    let binder := (laneNumbers.filter (laneBit m)).any fun l => s.binds.any fun b => decide (b.team = h.team.info.uid ∧
      b.group = h.group.num ∧ b.sid = h.strand.sid ∧ b.asid = h.team.asid ∧ (laneOf addr l).toNat / 8 = b.va / 8)
    let does := fun (i : Instr) (acc : Access) (reads atomic : Bool) (k : Nat) (acquire release : Bool) =>
      (m ≠ 0 → LongReady s h i m vs qs → finds acc reads atomic k →
        (release = true → i ≠ .vcas g la ord sc vd base off → sc = .system → s.remoteLost h.team.info.uid = false) →
        Launches s h i n qs { h.pend s.uid i la m [] with
          sa := sa, vops := lo ++ vs.drop (base.regs.length + off.reg1.length), locs := ls, acquire := acquire,
          release := release || (acc == .write && binder) }
          fun _ k => RngKept h k) ∧
      (m = 0 → LongReady s h i m vs qs → i.vwrites.any isQueue = false →
        Completes s h i n fun t k => t.queues = qs ∧ ScalarsKept h k ∧ PredsKept h k ∧ TeamKept h k ∧ VecQuiet s t h k)
    let eb := Fmt.memBytes ty
    let acqs := ord == .acq || ord == .ar
    let rels := ord == .rel || ord == .ar
    does (.vld g la acq sc ty vd base off) .read true false eb acq false ∧
    does (.vlds g la acq sc ty vd base off) .read true false eb acq false ∧
    does (.vst g la rel sc ty vd base off) .write false false eb false rel ∧
    does (.vsts g la rel sc ty vd base off) .write false false eb false rel ∧
    does (.vldt g la acq sc view vd base off) .read true false 4 acq false ∧
    does (.vatom g la ord sc op at_ vd base off) .write true true (if at_.is64 then 8 else 4) acqs rels ∧
    does (.vcas g la ord sc vd base off) .write true true 4 acqs rels

/-- R196 to R199: the results of scalar memory instructions in COHERENT and UNCACHED memory of the package, of another package and of the
host when they complete: a load zero-extends what memory holds, a store writes its bytes and no other, an atomic gives the old value and
writes the new one. R157: of host memory the access may be counted. R338 and R339: a store to another package is noted with the window in
which a release that covers it may end. R136 and R362: loads, stores and atomics of the core store: they reach the bytes of the team's own
rows, and memory is left as it is. R371 and R372: a store of eight bytes through an UNCACHED leaf of BAR0 does what the host's write of that
register does, and a load reads it. -/
def Obligations.ScalarMemoryResults : Prop :=
 (∀ (s : State) (T G idx : Nat) (t : Team) (g : Group) (p : Pending) (la : BitVec 4) (sz : MSize) (acq rel dbl : Bool) (op : Aop)
    (ord : MemOrd) (sc : Scope) (d a : SReg) (l : Loc) (x : Xlat), Outstanding s T G idx t g p → p.replayed = false → p.locs = [(0, l)] →
    p.through = [] → ReleaseMet s T sc p →
    let bytes := match sz with | .one => 1 | .two => 2 | .four => 4 | .eight => 8
    let n := if dbl then 8 else 4
    let k := placeOf x
    let old := fun (n : Nat) => numOfBytes ((List.range n).map fun j => s.mem.byte (k + j))
    let out := fun (r : SReg) (v : Nat) => some (r, BitVec.ofNat 64 v)
    let base := fun (u : State) => { s with
      migCounts := if x.host then u.migCounts else s.migCounts
      freeN := if x.host = false ∧ (remotePkg x.pa).isSome then u.freeN else s.freeN }
    let loaded := fun (u : State) => OnlyLoaded (base u) u
    let kept := fun (u : State) => OnlyStored (base u) u ∧ MemoryKept s u
    let wrote := fun (n v : Nat) (u : State) => OnlyStored (base u) u ∧
      (∀ b, u.mem.byte b = if k ≤ b ∧ b < k + n then byteOf v (b - k) else s.mem.byte b) ∧
      ∀ q, x.host = false → remotePkg x.pa = some q → ∃ due ps, u.records.remote.find? (fun z => z.1 == T) = some (T, due, ps) ∧ q ∈ ps ∧
        due = (u.records.time.toNat / (500 * u.records.window) + 2) * (500 * u.records.window)
    let y := p.sd.toNat % 2 ^ (8 * n)
    let z := signedOf (8 * n)
    let new := fun (v : Nat) => match op with
      | .swap => y
      | .add => (v + y) % 2 ^ (8 * n)
      | .band => v &&& y
      | .bor => v ||| y
      | .bxor => v ^^^ y
      | .min => if z y < z v then y else v
      | .max => if z v < z y then y else v
    (p.instr = .sld la sz acq sc d a → Reached s l x bytes → p.release = false →
      Finishes s T G idx t g p [] noFlags (out d (old bytes)) loaded) ∧
    (p.instr = .sst la sz rel sc d a → Reached s l x bytes → NoView s x →
      Finishes s T G idx t g p [] noFlags none (wrote bytes p.sd.toNat)) ∧
    (p.instr = .satom la op dbl sc d a → Reached s l x n → Finishes s T G idx t g p [] noFlags (out d (old n)) (wrote n (new (old n)))) ∧
    (p.instr = .scas la dbl ord sc d a → Reached s l x n → old n = p.sd.toNat % 2 ^ (8 * n) →
      Finishes s T G idx t g p [] noFlags (out d (old n)) (wrote n p.sb.toNat)) ∧
    (p.instr = .scas la dbl ord sc d a → Reached s l x n → old n ≠ p.sd.toNat % 2 ^ (8 * n) →
      Finishes s T G idx t g p [] noFlags (out d (old n)) kept)) ∧
 (∀ (s : State) (T G idx : Nat) (t : Team) (g : Group) (p : Pending) (la : BitVec 4) (sz : MSize) (acq rel dbl : Bool) (op : Aop)
    (ord : MemOrd) (sc : Scope) (d a : SReg) (off : Nat), Outstanding s T G idx t g p → p.replayed = false → p.locs = [(0, .store T off)] →
    (s.teams.map fun x => x.info.uid).Nodup → ReleaseMet s T sc p →
    let n := match sz with | .one => 1 | .two => 2 | .four => 4 | .eight => 8
    let w := if dbl then 8 else 4
    let byte := fun (t : Team) (i : Nat) => byteOf ((t.row (i / 256)).getD (i % 256 / 4) 0).toNat (i % 4)
    let old := fun (n : Nat) => numOfBytes ((List.range n).map fun j => byte t (off + j))
    let sound := fun (n : Nat) => ∀ r ∈ t.rowPoison, r * 256 + 256 ≤ off ∨ off + n ≤ r * 256
    let y := p.sd.toNat % 2 ^ (8 * w)
    let z := signedOf (8 * w)
    let does := fun (n : Nat) (v : Option Nat) (sc : Option (SReg × Nat)) => ∃ u t1 g1, exec (.longLatencyComplete T G idx) s = .next u ∧
      u.team? T = some t1 ∧ t1.group? G = some g1 ∧ t1.rowPoison = t.rowPoison ∧
      (∀ i, byte t1 i = match v with
        | some v => if off ≤ i ∧ i < off + n then byteOf v (i - off) else byte t i
        | none => byte t i) ∧
      (∀ r, g1.readSAs p.sid r = match sc with
        | some (d, v) => if r = d ∧ d ≠ 0 then BitVec.ofNat 64 v else g.readSAs p.sid r
        | none => g.readSAs p.sid r) ∧
      OnlyStored s u ∧ MemoryKept s u ∧ ∀ v, v ≠ T → u.team? v = s.team? v
    (p.instr = .sld la sz acq sc d a → p.release = false → sound n → does n none (some (d, old n))) ∧
    (p.instr = .sst la sz rel sc d a → does n (some p.sd.toNat) none) ∧
    (p.instr = .satom la op dbl sc d a → sound w → does w (some (match op with
      | .swap => y
      | .add => (old w + y) % 2 ^ (8 * w)
      | .band => old w &&& y
      | .bor => old w ||| y
      | .bxor => old w ^^^ y
      | .min => if z y < z (old w) then y else old w
      | .max => if z (old w) < z y then y else old w)) (some (d, old w))) ∧
    (p.instr = .scas la dbl ord sc d a → sound w →
      does w (if old w = p.sd.toNat % 2 ^ (8 * w) then some p.sb.toNat else none) (some (d, old w)))) ∧
 (∀ (s : State) (T G idx : Nat) (t : Team) (g : Group) (p : Pending) (la : BitVec 4) (acq rel : Bool) (sc : Scope) (d a : SReg) (x : Xlat)
    (off : Nat), Outstanding s T G idx t g p → p.replayed = false → p.locs = [(0, .glob x)] → p.through = [] → p.release = false →
    x.bar0 = some off → x.mt = 2 → off % 8 = 0 →
    (p.instr = .sst la .eight rel sc d a →
      ∃ u v, exec (.registerWrite off p.sd) s = .next v ∧ exec (.longLatencyComplete T G idx) s = .next u ∧
        ∀ off, u.regPeek off = v.regPeek off) ∧
    (p.instr = .sld la .eight acq sc d a → off / 8 % 8 ≠ 5 ∨ 0x1000 ≤ off →
      Finishes s T G idx t g p [] noFlags (some (d, s.regPeek off)) (OnlyTeams s)))

/-- R254 to R260: the results of vector memory instructions in COHERENT and UNCACHED memory of the package when they complete. Of lanes
that store to one byte the highest wins (R255); atomics are performed lane by lane in ascending order. R136: loads and stores of the core
store by lanes. -/
def Obligations.VectorMemoryResults : Prop :=
 (∀ (s : State) (T G idx : Nat) (t : Team) (q : Group) (p : Pending) (g : Guard) (la : BitVec 4) (acq rel : Bool) (ord : MemOrd) (sc : Scope)
    (op : Aop) (ty view : Fmt) (at_ : AType) (vd : VReg) (base : MBase) (off : Src) (xs : List (Nat × Xlat)),
    Outstanding s T G idx t q p → p.replayed = false → p.locs = xs.map (fun z => (z.1, .glob z.2)) → (xs.map (·.1)).Pairwise (· < ·) →
    (∀ z ∈ xs, z.1 < 64) → p.through = [] → ReleaseMet s T sc p →
    let at_home := fun (n : Nat) => ∀ z ∈ xs, AtHome s (.glob z.2) z.2 n
    let eb := Fmt.memBytes ty
    let num := fun (n : Nat) (x : Xlat) => numOfBytes ((List.range n).map fun j => s.mem.byte (x.pa + j))
    let loads := fun (i : Instr) (n : Nat) (dest : Fmt) (f : Xlat → DWord) => p.instr = i → at_home n → p.release = false → ∃ v : List DWord, v.length = 64 ∧
      (∀ z ∈ xs, laneOf v z.1 = f z.2) ∧ Finishes s T G idx t q p (destOf dest vd v) noFlags none (OnlyLoaded s)
    let ext := fun (n : Nat) (x : Xlat) =>
      if ty = .i8 then ((BitVec.ofNat 8 (num n x)).signExtend 32).zeroExtend 64
      else if ty = .i16 then ((BitVec.ofNat 16 (num n x)).signExtend 32).zeroExtend 64 else BitVec.ofNat 64 (num n x)
    let stores := fun (i : Instr) => p.instr = i → at_home eb → (∀ z ∈ xs, NoView s z.2) → Finishes s T G idx t q p [] noFlags none fun u => OnlyStored s u ∧
      (∀ b, (∀ z ∈ xs, ¬(z.2.pa ≤ b ∧ b < z.2.pa + eb)) → u.mem.byte b = s.mem.byte b) ∧
      (∀ (i : Nat) (z : Nat × Xlat) (j : Nat), xs[i]? = some z → j < eb → (∀ (k : Nat) (y : Nat × Xlat), i < k → xs[k]? = some y → ¬(y.2.pa ≤ z.2.pa + j ∧ z.2.pa + j < y.2.pa + eb)) →
        u.mem.byte (z.2.pa + j) = byteOf (laneOf (p.vals ty 2) z.1).toNat j)
    let atoms := fun (i : Instr) (n : Nat) (dest : Fmt) (f : Nat → Nat → Option Nat) (fl : Nat → Nat → Flags) => p.instr = i → at_home n →
      let r := atomRun n f (xs.map fun z => (z.1, z.2.pa)) s.mem.byte
      ∃ (v : List DWord) (fs : Nat → Flags), v.length = 64 ∧
        (∀ y ∈ r.1, laneOf v y.1 = BitVec.ofNat 64 y.2 ∧ fs y.1 = fl y.1 y.2) ∧ (∀ l, l ∉ xs.map (·.1) → fs l = 0) ∧
        Finishes s T G idx t q p (destOf dest vd v) fs none fun u => OnlyStored s u ∧ ∀ b, u.mem.byte b = r.2 b
    let wide := if at_.is64 then Fmt.b64 else Fmt.b32
    loads (.vld g la acq sc ty vd base off) eb ty (ext eb) ∧
    loads (.vlds g la acq sc ty vd base off) eb ty (ext eb) ∧
    loads (.vldt g la acq sc view vd base off) 4 .b32 (fun x => renderLane p.fmts view (num 4 x)) ∧
    stores (.vst g la rel sc ty vd base off) ∧
    stores (.vsts g la rel sc ty vd base off) ∧
    atoms (.vatom g la ord sc op at_ vd base off) (if at_.is64 then 8 else 4) wide
      (fun l v => some (combine at_ op v (laneOf (p.vals wide 2) l).toNat).1)
      (fun l v => (combine at_ op v (laneOf (p.vals wide 2) l).toNat).2) ∧
    atoms (.vcas g la ord sc vd base off) 4 .b32
      (fun l v => if v = (laneOf (p.vals .b32 2) l).toNat then some (laneOf (p.vals .b32 3) l).toNat else none) (fun _ _ => 0)) ∧
 (∀ (s : State) (T G idx : Nat) (t : Team) (q : Group) (p : Pending) (g : Guard) (la : BitVec 4) (acq rel : Bool) (sc : Scope) (ty : Fmt)
    (vd : VReg) (base : MBase) (off : Src) (xs : List (Nat × Nat)), Outstanding s T G idx t q p → p.replayed = false →
    p.locs = xs.map (fun z => (z.1, .store T z.2)) → (xs.map (·.1)).Pairwise (· < ·) → (∀ z ∈ xs, z.1 < 64) → ReleaseMet s T sc p →
    (s.teams.map fun x => x.info.uid).Nodup →
    let n := Fmt.memBytes ty
    let byte := fun (t : Team) (i : Nat) => byteOf ((t.row (i / 256)).getD (i % 256 / 4) 0).toNat (i % 4)
    let num := fun (o : Nat) => numOfBytes ((List.range n).map fun j => byte t (o + j))
    let ext := fun (o : Nat) => if ty = .i8 then ((BitVec.ofNat 8 (num o)).signExtend 32).zeroExtend 64
      else if ty = .i16 then ((BitVec.ofNat 16 (num o)).signExtend 32).zeroExtend 64 else BitVec.ofNat 64 (num o)
    (p.instr = .vld g la acq sc ty vd base off → (∀ z ∈ xs, ∀ r ∈ t.rowPoison, r * 256 + 256 ≤ z.2 ∨ z.2 + n ≤ r * 256) →
      ∃ v : List DWord, v.length = 64 ∧ (∀ z ∈ xs, laneOf v z.1 = ext z.2) ∧
        Finishes s T G idx t q p (destOf ty vd v) noFlags none (OnlyLoaded s)) ∧
    (p.instr = .vst g la rel sc ty vd base off → ∃ u t1, exec (.longLatencyComplete T G idx) s = .next u ∧ u.team? T = some t1 ∧
      (∀ i, (∀ z ∈ xs, ¬(z.2 ≤ i ∧ i < z.2 + n)) → byte t1 i = byte t i) ∧
      (∀ (i : Nat) (z : Nat × Nat) (j : Nat), xs[i]? = some z → j < n →
        (∀ (k : Nat) (y : Nat × Nat), i < k → xs[k]? = some y → ¬(y.2 ≤ z.2 + j ∧ z.2 + j < y.2 + n)) →
        byte t1 (z.2 + j) = byteOf (laneOf (p.vals ty 2) z.1).toNat j) ∧
      OnlyStored s u ∧ MemoryKept s u ∧ ∀ v, v ≠ T → u.team? v = s.team? v))

/-- R142, R203, R336 and R369: MANUAL lines. A store goes to the L1 copy of its core and marks its bytes dirty, and memory keeps its own; a
load reads that copy. CWB brings the dirty bytes to the levels of Table 13-6 and leaves the copy clean: to the die cache with CLUSTER and DIE
scope, or past it where the class has no ways there; home with PACKAGE scope, or to the LLC's copy of a line of the host's; to host memory
with SYSTEM scope. CINV drops the copy, dirty bytes and all, unless an outstanding write-back of the core is to bring them home; CWBINV does
both; an eviction, which the schedule names (log entry 8), brings the dirty bytes home and drops the copy. The copy is the only one, of a
line that a single leaf of the range covers, no die holds the line, and the caches below have room. -/
def Obligations.ManualCopies : Prop :=
  ∀ (s : State) (T G idx : Nat) (t : Team) (g : Group) (p : Pending) (la : BitVec 4) (sz : MSize) (acq rel : Bool) (sc : Scope) (d a b : SReg)
    (x : Xlat) (c : Copy), Outstanding s T G idx t g p → p.replayed = false → p.through = [] →
    let n := match sz with | .one => 1 | .two => 2 | .four => 4 | .eight => 8
    let line := placeOf x / 128
    let o := x.pa % 128
    let mine := CacheLevel.l1 t.core
    let die := CacheLevel.die (t.core / 128)
    x.bar0 = none → remotePkg x.pa = none → x.pa < 2 ^ 52 → x.mt = 1 → s.copyAt mine line = some c → c.poison = false →
    c.bytes.length = 128 → s.poisoned line = false → s.copyAt die line = none → s.copyAt .llc line = none →
    (s.dirLine line).dies = [] → (∀ l ∈ [die, .llc], (s.copies.filter fun c => c.level == l).length < 16) →
    let rest := OnlyCopies s
    let lo := p.sa.toNat
    let hi := p.sa.toNat + p.sb.toNat
    let ranged := s.manualRuns t.asid lo hi = [(line, line, x.cls, x.host)] ∧ s.rangeMisses t.asid lo hi p.refused = []
    let owed := ∃ r ∈ s.owedRuns t.core p.seq, r.1 ≤ line ∧ line ≤ r.2
    let home := fun (u : State) => ∀ k, u.mem.byte k =
      if k / 128 = line ∧ c.dirty.getLsbD (k % 128) = true then c.bytes.getD (k % 128) 0 else s.mem.byte k
    let holds := fun (l : CacheLevel) (u : State) => MemoryKept s u ∧ ∃ y, u.copyAt l line = some y ∧ y.dirty = c.dirty ∧ y.poison = false ∧
      ∀ j, j < 128 → y.bytes.getD j 0 = if c.dirty.getLsbD j = true then c.bytes.getD j 0 else s.mem.byte (128 * line + j)
    let clean := fun (u : State) => rest u ∧ u.copyAt mine line = some { c with dirty := 0 }
    let gone := fun (u : State) => rest u ∧ u.copyAt mine line = none
    let deep := sc = .system ∨ (sc = .package ∧ x.host = false)
    let near := sc = .cluster ∨ sc = .die
    let does := fun (P : State → Prop) => Finishes s T G idx t g p [] noFlags none P
    (p.instr = .sld la sz acq sc d a → p.locs = [(0, .glob x)] → o + n ≤ 128 →
      Finishes s T G idx t g p [] noFlags (some (d, BitVec.ofNat 64 (numOfBytes ((List.range n).map fun j => c.bytes.getD (o + j) 0))))
        fun u => rest u ∧ MemoryKept s u ∧ ∀ l k, u.copyAt l k = s.copyAt l k) ∧
    (p.instr = .sst la sz rel sc d a → p.locs = [(0, .glob x)] → o + n ≤ 128 → ReleaseMet s T sc p →
      does fun u => rest u ∧ MemoryKept s u ∧ ∃ y, u.copyAt mine line = some y ∧
        (∀ j, j < 128 → y.bytes.getD j 0 = if o ≤ j ∧ j < o + n then byteOf p.sd.toNat (j - o) else c.bytes.getD j 0) ∧
        (∀ j, j < 128 → y.dirty.getLsbD j = (decide (o ≤ j ∧ j < o + n) || c.dirty.getLsbD j)) ∧ y.poison = false) ∧
    (p.instr = .cwb la sc a b → ranged → deep → does fun u => clean u ∧ home u) ∧
    (p.instr = .cwb la sc a b → ranged → near → c.dirty ≠ 0 → s.quota (t.core / 128) x.cls ≠ 0 → does fun u => clean u ∧ holds die u) ∧
    (p.instr = .cwb la sc a b → ranged → near → s.quota (t.core / 128) x.cls = 0 → x.host = false → does fun u => clean u ∧ home u) ∧
    (p.instr = .cwb la .package a b → ranged → x.host = true → c.dirty ≠ 0 → s.quota 12 x.cls ≠ 0 → does fun u => clean u ∧ holds .llc u) ∧
    (p.instr = .cinv la sc a b → ranged → ¬owed → does fun u => gone u ∧ MemoryKept s u) ∧
    (p.instr = .cinv la sc a b → ranged → owed → deep → does fun u => gone u ∧ home u) ∧
    (p.instr = .cwbinv la sc a b → ranged → deep → does fun u => gone u ∧ home u ∧ u.copyAt die line = none) ∧
    (∀ turns, s.schedule = .evict mine line :: turns → ∃ u, step s = .next u ∧
      u = { s with schedule := turns, copies := u.copies, mem := u.mem, poison := u.poison } ∧ home u ∧ u.copyAt mine line = none)

/-- R203: CWB, CINV and CWBINV issue with their range; a length of zero completes at issue, and a range that leaves window 0x0 takes
ADDR_SPACE. R261: VPREF completes at issue and writes no register and no byte of device memory but those that the copies it displaces had
dirty (what it counts of host memory may raise a migration request, R157). R129, R201 and R202: SLDC and SLDGOT read a doubleword. A GOT
entry with bit 0 set is not bound: its first reader becomes the binder and takes the GOT_BIND trap, and other readers are held; that the
binder traps again when it reads the entry while it is unbound is the model's reading (log entry 15). The place is in COHERENT or UNCACHED
memory of the package, and no earlier access of the strand must go before. A miss holds back the whole group. -/
def Obligations.RangesConstantsAndPrefetch : Prop :=
 (∀ (s : State) (h : Here) (la : BitVec 4) (sc : Scope) (a b : SReg) (g : Guard) (level : BitVec 2) (base : MBase) (off : Src)
    (vs : List Lanes) (qs : SMap QueueReg), s.here = some h →
    let x := h.readS a
    let n := h.readS b
    (∀ i ∈ [Instr.cwb la sc a b, .cinv la sc a b, .cwbinv la sc a b],
      (n = 0 → Passes s h i 1) ∧
      (n ≠ 0 → 2 ^ 57 < x.toNat + n.toNat → exec i s = .next (s.takeAddrFault h cAddrSpace none x)) ∧
      (n ≠ 0 → x.toNat + n.toNat ≤ 2 ^ 57 → h.group.outcnt < 32 →
        Launches s h i 1 s.queues { h.pend s.uid i la allLanes [] with sa := x, sb := n } fun _ k => RngKept h k)) ∧
    (h.issueFault (.vpref g level base off) = none → h.fetch (h.mask g) (Instr.vreads (.vpref g level base off)) s.queues = .ok (vs, qs) →
      Completes s h (.vpref g level base off) (Src.litWords off) fun t k => ScalarsKept h k ∧ PredsKept h k ∧ FlagsKept h k ∧ RngKept h k ∧
        ModesKept h k ∧ TeamKept h k ∧ t.queues = qs ∧
        (∀ a, a < 2 ^ 64 → (∀ c ∈ s.copies, c.line = a / 128 → c.dirty.getLsbD (a % 128) = false) → t.mem.byte a = s.mem.byte a) ∧ t.jobs = s.jobs ∧ t.grids = s.grids ∧ t.misses = s.misses)) ∧
 (∀ (s : State) (h : Here) (d a : SReg) (imm : BitVec 10) (got : BitVec 16) (e : List TlbEntry) (x : Xlat), s.here = some h →
    AtHome s (.glob x) x 8 →
    let finds := fun (v : DWord) => v.toNat < 2 ^ 57 ∧
      s.decide h .read false false false 8 h.strand.refused [(0, v)] = (.ok [(0, .glob x)], { s with tlb := e }) ∧
      ∀ p ∈ h.grp.pendingOf h.strand.sid, p.before (.glob x) 8 = false
    let v := BitVec.ofNat 64 (numOfBytes ((List.range 8).map fun j => s.mem.byte (x.pa + j)))
    let reads := fun (i : Instr) => Completes s h i 1 fun t k => ScalarIs h k d v ∧ PredsKept h k ∧ TeamKept h k ∧ FlagsKept h k ∧
      RngKept h k ∧ ModesKept h k ∧ t = { s with teams := t.teams, tlb := e, dir := t.dir, dies := t.dies }
    let at_ := (s.ctx h.team.asid).got + BitVec.ofNat 64 (8 * got.toNat)
    let me : GotBinding := ⟨at_.toNat, h.team.asid, h.team.info.uid, h.group.num, h.strand.sid⟩
    let binder := s.binds.find? fun b => b.va == at_.toNat && b.asid == h.team.asid
    (finds (h.readS a + BitVec.ofInt 64 (8 * imm.toInt)) → reads (.sldc d a imm)) ∧
    (finds at_ → v.getLsbD 0 = false → reads (.sldgot d got)) ∧
    (finds at_ → v.getLsbD 0 = true → binder = none →
      ∃ u : State, u = { s with tlb := e, dir := u.dir, dies := u.dies, binds := s.binds ++ [me] } ∧
        exec (.sldgot d got) s = .next (u.takeStop h (.trap cGotBind 0) h.strand.pc)) ∧
    (finds at_ → v.getLsbD 0 = true → binder = some me →
      ∃ u : State, u = { s with tlb := e, dir := u.dir, dies := u.dies } ∧
        exec (.sldgot d got) s = .next (u.takeStop h (.trap cGotBind 0) h.strand.pc)) ∧
    (∀ b, finds at_ → v.getLsbD 0 = true → binder = some b → b ≠ me →
      ∃ t k, exec (.sldgot d got) s = .next t ∧ t.here = some k ∧ k.strand.pc = h.strand.pc ∧
        k.strand.hold = some (.got at_.toNat h.team.asid) ∧ ScalarsKept h k ∧ PredsKept h k ∧ t.binds = s.binds)) ∧
 (∀ (s : State) (h : Here) (d a : SReg) (imm : BitVec 10) (got : BitVec 16) (va page : Nat) (host : Bool) (u : State), s.here = some h →
    let c := h.readS a + BitVec.ofInt 64 (8 * imm.toInt)
    let at_ := (s.ctx h.team.asid).got + BitVec.ofNat 64 (8 * got.toNat)
    ∀ x ∈ [(Instr.sldc d a imm, c), (.sldgot d got, at_)],
      (2 ^ 57 ≤ x.2.toNat → exec x.1 s = .next (s.takeAddrFault h cAddrSpace none x.2)) ∧
      (x.2.toNat < 2 ^ 57 → s.checkAddr h x.2 8 = .ok (.glob va) → s.translate h.team.asid va .read = (.miss page host, u) →
        (page ∉ h.strand.refused → ∃ t k, exec x.1 s = .next t ∧ t.here = some k ∧ k.strand.pc = h.strand.pc ∧
          k.strand.hold = some (.line [page] h.team.asid) ∧ ∀ y ∈ k.group.strands, t.ready ⟨k.team, k.group, y⟩ = false) ∧
        (page ∈ h.strand.refused → exec x.1 s = .next (u.takeAddrFault h cPage none x.2))))

/-! ## The matrix engine, copies, jobs and tags -/

/-- R264, R265, R268, R272 and R273 to R288: the engine instructions without a card issue, with what they capture; TCFG writes TCTL, and
TMOV.tt the TCTL of its destination. A shape that does not fit takes TILE_SHAPE. -/
def Obligations.EngineIssue : Prop :=
  ∀ (s : State) (h : Here) (la : BitVec 4) (sat clr acc pk tie two max : Bool) (rnd : Rnd) (t d : BitVec 3) (ring : BitVec 3) (v : Src)
    (dist : Option Fmt) (vd vi : VReg) (n1 : BitVec 7) (j : SReg) (vs : List Lanes) (qs : SMap QueueReg), s.here = some h →
    let shape := fun (t : BitVec 3) => h.shape t
    let launches := fun (i : Instr) (f : Pending → Pending) => LongReady s h i h.strand.exec vs qs →
      Launches s h i 2 qs (f (h.pend s.uid i la h.strand.exec vs)) fun _ k => RngKept h k
    let x : Word := match v with | .sreg r => (h.readS r).setWidth 32 | .lit w => w | .vec _ => 0
    let fits := fun (x : Word) => x.toNat < 2 ^ 20 ∧ ∃ f, Fmt.ofCode (x.extractLsb' 14 6) = some f ∧ isMatrixFmt f = true ∧
      (x.toNat / 64 % 256 + 1) * ((32 * (x.toNat % 64 + 1) * (f.num h.group.fmts).bits + 7) / 8) ≤ 32768
    let small := fun (t : BitVec 3) => ∃ p, shape t = some p ∧ p.rows ≤ 128 ∧ p.cols ≤ 256
    (h.issueFault (.tcfg t v) = none → t.toNat < h.team.tiles.length → fits x → Completes s h (.tcfg t v) (Src.litWords v) fun u k =>
      GroupQuiet s u h k ∧ ScalarsKept h k ∧ (k.team.tile t.toNat) = { h.team.tile t.toNat with ctl := x.setWidth 64 } ∧
      (∀ n, n ≠ t.toNat → k.team.tiles[n]? = h.team.tiles[n]?) ∧ k.team = { h.team with groups := k.team.groups, tiles := k.team.tiles }) ∧
    (h.issueFault (.tcfg t v) = none → ¬fits x → exec (.tcfg t v) s = .next (s.takeFault h cTileShape)) ∧
    ((shape t).isSome = true → launches (.tzero la (.tile t)) id) ∧
    launches (.tzero la (.acc acc)) id ∧
    launches (.tmov la (.vt d vd n1 j)) (fun p => { p with sb := h.readS j }) ∧
    launches (.tmov la (.tv vd d n1 j)) (fun p => { p with sb := h.readS j }) ∧
    ((shape t).isSome = true → d.toNat < h.team.tiles.length → LongReady s h (.tmov la (.tt d t)) h.strand.exec vs qs →
      Completes s h (.tmov la (.tt d t)) 2 fun _ k => (k.team.tile d.toNat) = { h.team.tile d.toNat with ctl := (h.team.tile t.toNat).ctl } ∧
        k.group.pending = (h.group.shorten h.strand.sid).pending ++ [h.pend s.uid (.tmov la (.tt d t)) la h.strand.exec vs] ∧
        (∀ n, n ≠ d.toNat → k.team.tiles[n]? = h.team.tiles[n]?) ∧ k.team = { h.team with groups := k.team.groups, tiles := k.team.tiles } ∧
        ScalarsKept h k ∧ PredsKept h k ∧ FlagsKept h k) ∧
    (∀ r, h.team.rings.find ring.toNat = some r → r.active = true → (∃ p, shape t = some p ∧
        (pk = true ∨ (r.fmt = (h.ctl t).extractLsb' 14 6 ∧ p.image ≤ 256 * (r.ssize + 1)))) →
      launches (.tldr la pk t ring) fun p => { p with
        stage := (r.ccur, r.base + 256 * (r.ssize + 1) * (r.ccur % (r.nstg1 + 1)), 256 * (r.ssize + 1)) }) ∧
    ((h.readS j).toNat % 256 + (h.readS j).toNat / 256 % 256 ≤ 255 →
      launches (.tbest la sat rnd acc tie two max clr dist vd j) fun p => { p with sb := h.readS j }) ∧
    (small t → launches (.tcupd la acc t vi) id) ∧
    (small t → launches (.tcfin la sat rnd t acc clr) id) ∧
    launches (.twait la) id ∧
    (∀ i ∈ [Instr.tzero la (.tile t), .tmov la (.tt d t)], h.issueFault i = none → h.fetch h.strand.exec i.vreads s.queues = .ok (vs, qs) →
      s.ownQueues h i.vwrites = none → shape t = none → exec i s = .next (s.takeAddrFault h cTileShape none 0))

/-- R144 to R147, R268, R269, R276, R280, R282, R289 and R290: an instruction that carries a card, whose card is read and passes the
checks, issues a job with the card's words and the modes captured. A card that fails takes its lowest code. A tag in flight holds the
strand. -/
def Obligations.CardIssue : Prop :=
  ∀ (s : State) (h : Here) (la : BitVec 4) (sat clr acc : Bool) (rnd : Rnd) (m : MReg) (t a b : BitVec 3) (me : Metric) (dest : DrainDest)
    (card : SReg) (ws : List DWord), s.here = some h →
    let x := h.readS card
    let pair := match h.shape a, h.shape b with
      | some p, some q => mmaPair p.fmt q.fmt = true ∧ p.cols = q.cols ∧ p.rows ≤ 128
      | _, _ => False
    let shape := fun (t : BitVec 3) => (h.shape t).isSome = true
    let ready := fun (i : Instr) => h.issueFault i = none ∧ s.ownQueues h i.vwrites = none ∧ s.readCard h x = .ok ws
    let free := ∀ n, cardTag ws = some n → h.team.tagsFly.getLsbD n = false
    let does := fun (i : Instr) (rnd : Rnd) (pre : Prop) (codes : List Code) =>
      (ready i → pre → s.cardCodes h ws ++ codes = [] → free → h.group.outcnt < 32 →
        IssuesJob s h i la (h.job s.uid i (engineMode rnd h.group.rm) x ws) x) ∧
      (ready i → pre → ∀ c ∈ s.cardCodes h ws ++ codes, (∀ d ∈ s.cardCodes h ws ++ codes, c ≤ d) →
        exec i s = .next (s.takeAddrFault h c none 0)) ∧
      (ready i → pre → s.cardCodes h ws ++ codes = [] → ∀ n, cardTag ws = some n → h.team.tagsFly.getLsbD n = true →
        HeldBy s h i (.tagBusy n))
    does (.tld la sat rnd m card) rnd (∀ t, m = .tile t → shape t)
      (match m with | .tile _ => tileCardCodes true ws | .acc _ => accCardCodes ws) ∧
    does (.tst la sat rnd t card) rnd (shape t) (tileCardCodes false ws) ∧
    does (.tmma la me acc a b card) .dyn pair (mmaCodes h a b ws) ∧
    does (.tdrain la sat rnd clr acc dest card) rnd True (drainCodes h dest ws) ∧
    does (.cpy la sat rnd card) rnd True (s.cpyCodes h ws) ∧
    does (.coll la sat rnd card) rnd True (s.collCodes h ws)

/-- R274, R275, R284, R286, R288 and R297: what the engine operations without a card do when they are performed. TZERO zeroes; TMOV moves
bytes; TWAIT gives the job-level flags to the active lanes; TCUPD adds each tile row to the entry row that its index names, and counts it;
TLDR reads its stage. R285: TBEST finds the first and the second column of each row in match order, and their distance; R287: TCFIN divides
each row of sums by its count; both clear with CLR. R152 and R297: TLDR.pk expands a packed tile, in which a block whose bit is clear is
zero, or ends failed with LENGTH over zeros. None of the operands is poisoned. -/
def Obligations.EngineResults : Prop :=
 (∀ (s : State) (T G idx : Nat) (t : Team) (g : Group) (p : Pending) (la : BitVec 4) (acc : Bool) (a d : BitVec 3) (ring : BitVec 3) (va : VReg)
    (n1 : BitVec 7) (j : SReg) (sh : Shape), Outstanding s T G idx t g p →
    let does := Worked s T G idx g p
    let tile := fun (t : Team) (n : BitVec 3) (i : Nat) => (t.tile n.toNat).bytes.getD i 0
    let row := p.sb.toNat % 128
    let ix := fun i => ((p.vops.getD (i / 64) zeroRow).getD (i % 64) 0).toNat
    let hits := fun x => (List.range sh.rows).filter fun i => laneBit p.mask (i % 64) && ix i == x
    let elem := fun i k => units (elemNum sh.num (((t.tile a.toNat).row sh i).1.getD k 0) (((t.tile a.toNat).row sh i).2.getD (k / 32) 0)).1
    let noFails := fun (u : Team) => u.fails = t.fails
    (p.instr = .tzero la (.tile d) → does fun u => (∀ i, tile u d i = 0) ∧ (u.tile d.toNat).poison = false ∧
      (u.tile d.toNat).ctl = (t.tile d.toNat).ctl ∧ ∀ n, n ≠ d.toNat → u.tile n = t.tile n) ∧
    (p.instr = .tzero la (.acc acc) → does fun u => (∀ r c, (u.acc acc).at r c = accZero) ∧ (∀ r, (u.acc acc).counts.get 0 r = 0) ∧
      (u.acc acc).poison = false ∧ u.acc (!acc) = t.acc (!acc)) ∧
    (p.instr = .tmov la (.tt d a) → (t.tile a.toNat).poison = false → does fun u => (∀ i, tile u d i = tile t a i) ∧
      (u.tile d.toNat).scales = (t.tile a.toNat).scales ∧ (u.tile d.toNat).ctl = (t.tile d.toNat).ctl ∧
      (∀ n, n ≠ d.toNat → u.tile n = t.tile n) ∧ noFails u) ∧
    (p.instr = .tmov la (.vt d va n1 j) → does fun u => (∀ i l b, i ≤ n1.toNat → row + i ≤ 127 → l < 64 → b < 4 → laneBit p.mask l = true →
        tile u d (256 * (row + i) + 4 * l + b) = byteOf ((p.vops.getD i zeroRow).getD l 0).toNat b) ∧
      (∀ i, i < 256 * row ∨ 256 * (row + n1.toNat + 1) ≤ i → tile u d i = tile t d i) ∧ ∀ n, n ≠ d.toNat → u.tile n = t.tile n) ∧
    (p.instr = .tmov la (.tv va d n1 j) → (t.tile d.toNat).poison = false → ∃ ws : List (Nat × Lanes),
      ws.map (·.1) = (List.range (n1.toNat + 1)).map (fun i => va.toNat + i) ∧
      (∀ i w l, ws[i]? = some w → l < 64 → (w.2.getD l 0).toNat = if 127 < row + i then 0
        else numOfBytes ((List.range 4).map fun b => tile t d (256 * (row + i) + 4 * l + b))) ∧
      Finishes s T G idx t g p ws noFlags none (OnlyTeamsQueues s)) ∧
    (p.instr = .twait la → p.mask ≠ 0 → ∃ u t1 g1, exec (.longLatencyComplete T G idx) s = .next u ∧ u.team? T = some t1 ∧
      t1.group? G = some g1 ∧ t1.jflags = 0 ∧ OnlyTeams s u ∧
      ∀ l, l < 64 → g1.flagsOf l = if laneBit p.mask l then g.flagsOf l ||| t.jflags else g.flagsOf l) ∧
    (p.instr = .tcupd la acc a va → p.shape a = some sh → (t.acc acc).poison = false → (t.tile a.toNat).poison = false → sh.cols ≤ 256 →
      does fun u => (∀ x, x < 128 → (u.acc acc).counts.get 0 x = if hits x = [] then (t.acc acc).counts.get 0 x
          else min ((t.acc acc).counts.get 0 x + (hits x).length) (2 ^ 32 - 1)) ∧
        (∀ x k, x < 128 → k < sh.cols → ((u.acc acc).at x k).sum = ((t.acc acc).at x k).sum + ((hits x).map fun i => elem i k).sum) ∧
        u.acc (!acc) = t.acc (!acc) ∧ u.tiles = t.tiles ∧ noFails u) ∧
    (p.instr = .tldr la false d ring → p.shape d = some sh → t.rowsBad (t.scratchOff p.stage.2.1) sh.image = false → does fun u =>
      (∀ i, i < sh.rows * sh.rb → tile u d i = byteOf ((t.row ((t.scratchOff p.stage.2.1 + i) / 256)).getD
        ((t.scratchOff p.stage.2.1 + i) % 256 / 4) 0).toNat ((t.scratchOff p.stage.2.1 + i) % 4)) ∧
      (u.tile d.toNat).ctl = (t.tile d.toNat).ctl ∧ (∀ n, n ≠ d.toNat → u.tile n = t.tile n) ∧ noFails u) ∧
    (∀ sat rnd tie two max clr dist vd par, p.instr = .tbest la sat rnd acc tie two max clr dist vd par → (t.acc acc).poison = false →
      let c0 := p.sb.toNat % 256
      let n := p.sb.toNat / 256 % 256 + 1
      let r := fun l => p.sb.toNat / 65536 % 128 + l
      let mode := engineMode rnd p.rm
      let e := fun l c => (t.acc acc).at (r l) c
      let rank := fun (x : AccEntry) => if x.nan || (x.pinf && x.ninf) then 3 else if x.pinf then (if max then 0 else 2)
        else if x.ninf then (if max then 2 else 0) else 1
      let val := fun (x : AccEntry) => if max then -x.sum else x.sum
      let first := fun l c d => rank (e l c) < rank (e l d) ∨ (rank (e l c) = rank (e l d) ∧
        ((rank (e l c) = 1 ∧ val (e l c) < val (e l d)) ∨
          ((rank (e l c) = 1 → val (e l c) = val (e l d)) ∧ if tie then d < c else c < d)))
      let win := fun c => c0 ≤ c ∧ c < c0 + n
      let on := fun l => l < 64 ∧ laneBit p.mask l = true
      c0 + n ≤ 256 → ∃ (ws : List (Nat × Lanes)) (fl : Nat → Flags),
        ws.map (·.1) = (List.range (1 + two.toNat + dist.isSome.toNat)).map (fun i => vd.toNat + i) ∧
        (∀ l, on l → 127 < r l → ∀ w ∈ ws, w.2.getD l 0 = 0xFFFFFFFF) ∧
        (∀ l, on l → r l ≤ 127 → ∃ c, win c ∧ (∀ d, win d → d ≠ c → first l c d) ∧
          let lane := fun i => (ws.getD i (0, [])).2.getD l 0
          lane 0 = BitVec.ofNat 32 c ∧ (two = true → n = 1 → lane 1 = 0xFFFFFFFF) ∧
          (two = true → 1 < n → ∃ d, win d ∧ d ≠ c ∧ (∀ x, win x → x ≠ c → x ≠ d → first l d x) ∧ lane 1 = BitVec.ofNat 32 d) ∧
          (∀ f, dist = some f → (f.num p.fmts).isMx = false → lane (1 + two.toNat) = BitVec.ofNat 32
            (extendCode (f.num p.fmts) (convert (f.num p.fmts) (.num ((e l c).drained p.drscale mode).1) true none mode sat).1))) ∧
        (dist = none → ∀ l, fl l = 0) ∧
        Finishes s T G idx t g p ws fl none fun u => OnlyTeamsQueues s u ∧ ∃ t1, u.team? T = some t1 ∧ t1.acc (!acc) = t.acc (!acc) ∧
          ∀ x y, y < 256 → ((∃ l, on l ∧ r l = x) → x ≤ 127 → win y → (t1.acc acc).at x y = if clr then accZero else (t.acc acc).at x y) ∧
            (¬(∃ l, on l ∧ r l = x) ∨ ¬win y → (t1.acc acc).at x y = (t.acc acc).at x y)) ∧
    (∀ sat rnd clr, p.instr = .tcfin la sat rnd d acc clr → p.shape d = some sh → (t.acc acc).poison = false → sh.cols ≤ 256 →
      let mode := engineMode rnd p.rm
      let count := fun c => (t.acc acc).counts.get 0 c
      let quot := fun c k => let e := (t.acc acc).at c k
        if e.nan || (e.pinf && e.ninf) then Num.nan false else ((e.num (mode == .rdn)).div (.ofInt (count c))).1
      does fun u => (∀ c, c < sh.rows → count c = 0 → (u.tile d.toNat).row sh c = (t.tile d.toNat).row sh c) ∧
        (∀ c k, c < sh.rows → k < sh.cols → count c ≠ 0 → sh.num.isMx = false → ((u.tile d.toNat).row sh c).1.getD k 0 =
          (convert sh.num (.num (quot c k)) true none mode sat).1 % 2 ^ sh.num.bits) ∧
        (∀ c k, c < sh.rows → k < sh.cols → count c ≠ 0 → sh.num.isMx = true → let v := cfinRow sh (t.acc acc) c mode sat
          ((u.tile d.toNat).row sh c).1.getD k 0 = v.1.getD k 0 % 2 ^ sh.num.bits ∧
          ((u.tile d.toNat).row sh c).2.getD (k / 32) 0 = v.2.1.getD (k / 32) 0 % 256) ∧
        (∀ x y, y < 256 → (u.acc acc).at x y = if clr = true ∧ x < sh.rows then accZero else (t.acc acc).at x y) ∧
        (∀ x, (u.acc acc).counts.get 0 x = if clr = true ∧ x < sh.rows then 0 else count x) ∧
        ((∃ c, c < sh.rows ∧ count c = 0) → u.jflags &&& fNV = fNV) ∧
        u.acc (!acc) = t.acc (!acc) ∧ (u.tile d.toNat).ctl = (t.tile d.toNat).ctl ∧ (∀ n, n ≠ d.toNat → u.tile n = t.tile n) ∧ noFails u) ∧
    (p.instr = .tldr la true d ring → p.shape d = some sh → t.rowsBad (t.scratchOff p.stage.2.1) p.stage.2.2 = false →
      let bytes := fun n => t.bytes (t.scratchOff p.stage.2.1) n
      (∀ size blocks es xs, packedHeader sh (bytes 16) = some (size, blocks) → size ≤ p.stage.2.2 → expandPacked sh (bytes size) = some (es, xs) →
        does fun u => (∀ i, tile u d i = es.getD i 0) ∧ (u.tile d.toNat).scales = xs ∧ (u.tile d.toNat).ctl = (t.tile d.toNat).ctl ∧
          (∀ n, n ≠ d.toNat → u.tile n = t.tile n) ∧ noFails u) ∧
      ((∀ size blocks, packedHeader sh (bytes 16) = some (size, blocks) → p.stage.2.2 < size ∨ expandPacked sh (bytes size) = none) →
        ∃ v u, exec (.longLatencyComplete T G idx) s = .next v ∧ v.team? T = some u ∧
          u.fails = t.fails ++ [⟨G, p.sid, 0x17, 0xFF, 0⟩] ∧ (∀ i, i < sh.rows * sh.rb → tile u d i = 0) ∧
          (∀ n, n ≠ d.toNat → u.tile n = t.tile n) ∧ v.mem = s.mem))) ∧
 (∀ (sh : Shape) (bs es xs : List Byte), expandPacked sh bs = some (es, xs) →
    let w := 4 * sh.num.bits
    let size := (32 * sh.num.bits + (if sh.num.isMx then 8 else 0) + 127) / 128 * 16
    let bit := fun k => (bs.getD (16 + k / 8) 0).getLsbD (k % 8)
    let at_ := fun i => 16 + (sh.rows * (sh.cols / 32) + 127) / 128 * 16 + ((List.range i).filter bit).length * size
    ∀ i j, i < sh.rows * (sh.cols / 32) → j < w → es.getD (i * w + j) 0 = if bit i then bs.getD (at_ i + j) 0 else 0)

/-- R144, R146, R147, R269, R270 and R339: a job is accepted by the footprint table: its tag is in flight and not done, and its
instruction completes; it runs, and is then started; it completes: it leaves the table and its tag is done; a job that ended failed leaves
a failure for its strand. That a job runs whole at its start is the model's choice (log entry 20). R152, R297 and R348: the expander's
watchdog cuts a packed TLD or TLDR off: it ends failed with LENGTH, and the tile holds the rows emitted before, the rest zero; how many rows
those are, a free value says (log entry 42). A failure is delivered to its strand as a JOB_FAIL trap, each strand's oldest first; one that
no strand can receive fails the grid. -/
def Obligations.JobsRun : Prop :=
 (∀ (s : State) (n : Nat) (j : Job) (t : Team) (g : Group) (T : Nat), s.job? n = some j → s.team? j.team = some t →
    t.group? j.group = some g → T = j.team →
    let bit : DWord := match j.tag with | some k => BitVec.ofNat 64 (2 ^ k) | none => 0
    let h : Here := ⟨t, g, g.strandFor j.sid⟩
    let waits := fun (g : Group) => g.pending.any fun p => p.job == some n
    (s.mayAccept j t = true → ∃ u k t1, exec (.jobAccept n) s = .next u ∧ u.job? n = some k ∧ k.phase = .accepted ∧
      k = { j with phase := .accepted, edges := k.edges } ∧ u.team? T = some t1 ∧ t1.tagsFly = t.tagsFly ||| bit ∧
      t1.tagsDone = t.tagsDone &&& ~~~bit ∧ (j.toVector = false → ∀ g1, t1.group? j.group = some g1 → waits g1 = false) ∧
      u.mem = s.mem ∧ u.queues = s.queues ∧ u.jobs.length = s.jobs.length ∧ t1.rows = t.rows ∧ t1.tiles = t.tiles) ∧
    (∀ w, s.mayStart j h = true → s.work h j (h.jobPending j) = w →
      (∀ s1, w.1 = .ok s1 → s1.job? n = some j → ∃ u k, exec (.jobStart n) s = .next u ∧ u.job? n = some k ∧
        k = { j with phase := .started, fail := none } ∧ u.mem = s1.mem) ∧
      (∀ c l x, w.1 = .error (.fault c l x) → w.2.job? n = some j → ∃ u k, exec (.jobStart n) s = .next u ∧ u.job? n = some k ∧
        k = { j with phase := .started, fail := some c } ∧ u.mem = w.2.mem) ∧
      (∀ pages a, w.1 = .error (.miss pages a) → w.2.job? n = some j → ∃ u k, exec (.jobStart n) s = .next u ∧ u.job? n = some k ∧
        k = { j with park := some (pages.map (·.1), t.asid) } ∧ k.phase = j.phase)) ∧
    (j.phase = .started → (j.scope = 4 → s.tsync = true ∧ s.records.remote.find? (fun p => p.1 == j.team) = none) →
      ∃ u t1, exec (.jobComplete n) s = .next u ∧ u.job? n = none ∧ u.team? T = some t1 ∧ t1.tagsFly = t.tagsFly &&& ~~~bit ∧
        t1.tagsDone = t.tagsDone ||| bit ∧ u.mem = s.mem ∧ t1.rows = t.rows ∧ t1.tiles = t.tiles ∧ t1.accs = t.accs ∧
        t1.fails = t.fails ++ (match j.fail with | some c => [⟨j.group, j.sid, c, j.tag.getD 0xFF, j.card⟩] | none => []))) ∧
 (∀ (s : State) (n T : Nat) (j : Job) (t : Team) (g : Group) (x : Strand) (f : JobFailure) (pre rest : List JobFailure) (la : BitVec 4) (sat : Bool)
    (rnd : Rnd) (d r : BitVec 3) (c : SReg) (p : Shape) (o : Pending) (bytes bs xs : List Byte),
    (s.job? n = some j → s.team? j.team = some t → t.group? j.group = some g → j.instr = .tld la sat rnd (.tile d) c →
      let h : Here := ⟨t, g, g.strandFor j.sid⟩
      (cardWord j.words 1).getLsbD 33 = true → s.mayStart j h = true → j.shape d = some p → s.packedOf h j p = some bytes →
      expandPacked p bytes = some (bs, xs) → 0 < p.rows →
      ∃ u k t1 m, exec (.expanderWatchdog n) s = .next u ∧ u.job? n = some k ∧ k.phase = .started ∧ k.fail = some 0x17 ∧ m < p.rows ∧
        u.team? j.team = some t1 ∧ u.mem = s.mem ∧
        ∀ i, i < p.rows * p.rb → (t1.tile d.toNat).bytes.getD i 0 = if i < m * p.rb then bs.getD i 0 else 0) ∧
    (s.job? n = none → s.bySeq n = some (⟨t, g, x⟩, o) → s.team? t.info.uid = some t → o.instr = .tldr la true d r →
      s.mayFinish ⟨t, g, x⟩ o = true → o.shape d = some p → 0 < p.rows → t.rowsBad (t.scratchOff o.stage.2.1) o.stage.2.2 = false →
      ∀ size k, packedHeader p (t.bytes (t.scratchOff o.stage.2.1) 16) = some (size, k) → size ≤ o.stage.2.2 →
        expandPacked p (t.bytes (t.scratchOff o.stage.2.1) size) = some (bs, xs) →
        ∃ u t1 m, exec (.expanderWatchdog n) s = .next u ∧ m < p.rows ∧ u.team? t.info.uid = some t1 ∧
          t1.fails = t.fails ++ [⟨g.num, o.sid, 0x17, 0xFF, 0⟩] ∧ u.mem = s.mem ∧
          ∀ i, i < p.rows * p.rb → (t1.tile d.toNat).bytes.getD i 0 = if i < m * p.rb then bs.getD i 0 else 0) ∧
    (s.team? T = some t → t.fails = pre ++ f :: rest → (∀ q ∈ t.fails, (t.receiver q).isSome = true) →
      (∀ q ∈ pre, ∀ a b, t.receiver q = some (a, b) → (a.num ≠ g.num ∨ b.sid ≠ x.sid) ∧
        (s.ready ⟨t, a, b⟩ = false ∨ s.stopHold ⟨t, a, b⟩ 1 ≠ none)) →
      t.receiver f = some (g, x) → s.stopHold ⟨t, g, x⟩ 1 = none → s.ready ⟨t, g, x⟩ = true →
      exec (.jobFail T) s = .next (s.takeStop ⟨{ t with fails := pre ++ rest }, g, x⟩
        ⟨1, 0x23, f.code * 256 + f.tag, none, 0, f.card, [], false⟩ x.pc)) ∧
    (s.team? T = some t → t.fails = pre ++ f :: rest → (∀ q ∈ pre, (t.receiver q).isSome = true) → t.receiver f = none →
      ∃ u, exec (.jobFail T) s = .next u ∧
      ∀ q, s.grid? t.info.grid = some q → q.failed = none → ∃ q1, u.grid? t.info.grid = some q1 ∧ q1.failed = some f.code))

/-- R60 to R62, R146, R277 to R283, R289 and R290: what the card jobs do when they start; that they do all of it then is the model's choice
(log entry 20). TMMA: each entry of the window grows by the exact sum of its terms, and no other entry changes. TLD and TST move rows of
elements between memory and a tile, `step` bytes apart, and convert them where the formats differ or a scale is given; TLD into an
accumulator takes the exact values. TDRAIN rounds each entry of its window, times DRSCALE, once, to memory, to a tile or to vector registers,
and clears the window with CLR. A raw copy moves bytes, another one converts elements; COLL converts each element and combines it. Runs lie
in COHERENT or UNCACHED memory of the package or in the core store, and no two bytes written are one. -/
def Obligations.JobResults : Prop :=
 (∀ (s : State) (n : Nat) (j : Job) (t : Team) (g : Group), s.job? n = some j → s.team? j.team = some t → t.group? j.group = some g →
    (s.teams.map fun x => x.info.uid).Nodup →
    let h : Here := ⟨t, g, g.strandFor j.sid⟩
    s.mayStart j h = true →
    (∀ (la : BitVec 4) (me : Metric) (acc : Bool) (a b : BitVec 3) (c : SReg) (p q : Shape), j.instr = .tmma la me acc a b c →
      j.shape a = some p → j.shape b = some q → t.enginePoison [a, b] [acc] = false → (cardWord j.words 1).toNat / 2 ^ 49 % 256 + q.rows ≤ 256 →
      let r0 := (cardWord j.words 1).toNat / 2 ^ 57
      let c0 := (cardWord j.words 1).toNat / 2 ^ 49 % 256
      let el := fun (x : BitVec 3) (p : Shape) r k =>
        (((t.tile x.toNat).row p r).1.getD k 0, ((t.tile x.toNat).row p r).2.getD (k / 32) 0)
      let term := fun i m k => units (termOf me p.num q.num (el a p i k).1 (el a p i k).2 (el b q m k).1 (el b q m k).2).1
      ∃ u t1, exec (.jobStart n) s = .next u ∧ u.team? j.team = some t1 ∧ u.mem = s.mem ∧ t1.tiles = t.tiles ∧ t1.acc (!acc) = t.acc (!acc) ∧
        (∀ i m, i < p.rows → m < q.rows → ((t1.acc acc).at (r0 + i) (c0 + m)).sum =
          ((t.acc acc).at (r0 + i) (c0 + m)).sum + ((List.range p.cols).map (term i m)).sum) ∧
        (∀ r c, c < 256 → ¬(r0 ≤ r ∧ r < r0 + p.rows ∧ c0 ≤ c ∧ c < c0 + q.rows) → (t1.acc acc).at r c = (t.acc acc).at r c)) ∧
    (∀ (la : BitVec 4) (sat : Bool) (rnd : Rnd) (c : SReg) (x y : Xlat) (k : Nat) (e : List TlbEntry), j.instr = .cpy la sat rnd c →
      cpyRaw j.words = true →
      s.jobAccess h j.words j.refused [(cardWord j.words 2, (cardRegion j.words 0).len)] [(cardWord j.words 3, (cardRegion j.words 1).len)] false =
        (.ok ([[(.glob x, k)]], [[(.glob y, k)]]), { s with tlb := e }) →
      AtHome s (.glob x) x k → AtHome s (.glob y) y k →
      ∃ u, exec (.jobStart n) s = .next u ∧
        ∀ b, u.mem.byte b = if y.pa ≤ b ∧ b < y.pa + k then s.mem.byte (x.pa + (b - y.pa)) else s.mem.byte b) ∧
    (let team := fun (u : State) (P : Team → Prop) => exec (.jobStart n) s = .next u ∧ ∃ t1, u.team? j.team = some t1 ∧ P t1
     let word := fun k => (cardWord j.words k).toNat
     let scale := cardScale j.words
     let reach := fun (write : Bool) (a : DWord) (k : Nat) (f : Nat → Spot) => inRegion j.words write (a, k) = true ∧ Reaches s t g write a k f
     let codes := fun (w k v : Nat) => (List.range k).map fun i => v / 2 ^ (i * w) % 2 ^ w
     let bytes := fun (k : Nat) (f : Nat → Spot) => (List.range k).map fun i => ((f i).read s).toNat
     let addr := fun (k i step : Nat) => cardWord j.words (2 + k) + BitVec.ofNat 64 (i * step)
     let all := fun (rows k : Nat) (f : Nat → Nat → Spot) => (List.range rows).flatMap fun i => (List.range k).map (f i)
     let sums := fun (a : Acc) (b : Acc) (clr : Bool) (r0 rows c0 cols : Nat) => ∀ r c, c < 256 →
       a.at r c = if clr = true ∧ r0 ≤ r ∧ r < r0 + rows ∧ c0 ≤ c ∧ c < c0 + cols then accZero else b.at r c
     (∀ (la : BitVec 4) (sat : Bool) (rnd : Rnd) (d : BitVec 3) (c : SReg) (p : Shape) (m : Fmt) (f x : Nat → Nat → Spot), j.shape d = some p →
       memFmt j.words = some m → (cardWord j.words 1).getLsbD 33 = false →
       let w := (m.num j.fmts).bits
       let k := (p.cols * w + 7) / 8
       let step := if word 1 / 2 ^ 40 = 0 then k else word 1 / 2 ^ 40
       let mx := (m.num j.fmts).isMx
       let rows := fun (write : Bool) => (∀ i, i < p.rows → reach write (addr 0 i step) k (f i)) ∧
         (mx = true → ∀ i, i < p.rows → reach write (addr 1 i (p.cols / 32)) (p.cols / 32) (x i))
       (j.instr = .tld la sat rnd (.tile d) c → rows false → ∃ u, team u fun t1 => u.mem = s.mem ∧ (∀ z, z ≠ d → t1.tile z.toNat = t.tile z.toNat) ∧
         (t1.tile d.toNat).ctl = (t.tile d.toNat).ctl ∧ ∀ i, i < p.rows →
           let v := moveRun m p.fmt j.fmts (codes w p.cols (numAt s k (f i))) (if mx then bytes (p.cols / 32) (x i) else []) scale j.mode sat
           (t1.tile d.toNat).row p i = (v.1.map (· % 2 ^ p.num.bits), if p.num.isMx then v.2.1.map (· % 256) else [])) ∧
       (j.instr = .tst la sat rnd d c → rows true → t.enginePoison [d] [] = false →
         (all p.rows k f ++ if mx then all p.rows (p.cols / 32) x else []).Nodup → ∃ u, team u fun t1 => t1.tiles = t.tiles ∧
           WroteOnly s u (all p.rows k f ++ if mx then all p.rows (p.cols / 32) x else []) ∧ ∀ i, i < p.rows →
           let r := (t.tile d.toNat).row p i
           let v := moveRun p.fmt m j.fmts r.1 r.2 scale j.mode sat
           codes w p.cols (numAt u k (f i)) = v.1.map (· % 2 ^ w) ∧
           (mx = true → ∀ b, b < p.cols / 32 → ((x i b).read u).toNat = v.2.1.getD b 0 % 256))) ∧
     (∀ (la : BitVec 4) (sat : Bool) (rnd : Rnd) (a : Bool) (c : SReg) (m : Fmt) (f : Nat → Nat → Spot), j.instr = .tld la sat rnd (.acc a) c →
       memFmt j.words = some m →
       let w := (m.num j.fmts).bits
       let r0 := word 1 / 2 ^ 25 % 128
       let c0 := word 1 / 2 ^ 17 % 256
       let rows := word 1 / 2 ^ 10 % 128 + 1
       let cols := word 1 / 2 ^ 2 % 256 + 1
       let k := (cols * w + 7) / 8
       let step := if word 1 / 2 ^ 40 = 0 then k else word 1 / 2 ^ 40
       (∀ i, i < rows → reach false (addr 0 i step) k (f i)) → c0 + cols ≤ 256 → ∃ u, team u fun t1 => u.mem = s.mem ∧ t1.tiles = t.tiles ∧
         t1.acc (!a) = t.acc (!a) ∧ (∀ i l, i < rows → l < cols →
           let v := ((m.num j.fmts).srcVal ((codes w cols (numAt s k (f i))).getD l 0) 0).toNum
           ((t1.acc a).at (r0 + i) (c0 + l)).sum = units v ∧ ((t1.acc a).at (r0 + i) (c0 + l)).nan = v.isNaN) ∧
         ∀ r c, c < 256 → ¬(r0 ≤ r ∧ r < r0 + rows ∧ c0 ≤ c ∧ c < c0 + cols) → (t1.acc a).at r c = (t.acc a).at r c) ∧
     (∀ (la : BitVec 4) (sat clr acc : Bool) (rnd : Rnd) (dest : DrainDest) (c : SReg) (fmt : Fmt) (d : BitVec 3) (p : Shape) (vd : VReg)
         (n1 : BitVec 6) (f x : Nat → Nat → Spot), j.instr = .tdrain la sat rnd clr acc dest c → t.enginePoison [] [acc] = false →
       let r0 := word 1 / 2 ^ 57
       let c0 := word 1 / 2 ^ 49 % 256
       let rows := word 1 / 2 ^ 42 % 128 + 1
       let cols := word 1 / 2 ^ 34 % 256 + 1
       let val := fun i l => ((t.acc acc).at (r0 + i) (c0 + l)).drained j.drscale j.mode
       let num := fmt.num j.fmts
       let k := (cols * num.bits + 7) / 8
       let step := if word 1 % 2 ^ 32 = 0 then k else word 1 % 2 ^ 32
       let row := fun (num : NumFmt) i cols => convertNums num j.mode sat ((List.range cols).map (val i))
       let spots := all rows k f ++ if num.isMx then all rows (cols / 32) x else []
       (dest = .mem fmt → (cardWord j.words 1).getLsbD 33 = false → (∀ i, i < rows → reach true (addr 0 i step) k (f i)) →
         (num.isMx = true → ∀ i, i < rows → reach true (addr 1 i (cols / 32)) (cols / 32) (x i)) → spots.Nodup → c0 + cols ≤ 256 →
         ∃ u, team u fun t1 => WroteOnly s u spots ∧ t1.tiles = t.tiles ∧ t1.acc (!acc) = t.acc (!acc) ∧
           sums (t1.acc acc) (t.acc acc) clr r0 rows c0 cols ∧ ∀ i, i < rows →
             codes num.bits cols (numAt u k (f i)) = (row num i cols).1.map (· % 2 ^ num.bits) ∧
             (num.isMx = true → ∀ b, b < cols / 32 → ((x i b).read u).toNat = (row num i cols).2.1.getD b 0 % 256)) ∧
       (dest = .tile d → j.shape d = some p → p.rows = rows → p.cols = cols → c0 + cols ≤ 256 → ∃ u, team u fun t1 => u.mem = s.mem ∧
         (∀ z, z ≠ d → t1.tile z.toNat = t.tile z.toNat) ∧ t1.acc (!acc) = t.acc (!acc) ∧ sums (t1.acc acc) (t.acc acc) clr r0 rows c0 cols ∧
         ∀ i, i < rows → (t1.tile d.toNat).row p i = ((row p.num i cols).1.map (· % 2 ^ p.num.bits),
           if p.num.isMx then (row p.num i cols).2.1.map (· % 256) else [])) ∧
       (dest = .vec vd n1 fmt → num.isMx = false → c0 + 64 ≤ 256 →
         ∃ (u : State) (t1 : Team) (vs : List (List DWord)),
           exec (.jobStart n) s = .next u ∧ u.team? j.team = some t1 ∧ u.mem = s.mem ∧ t1.tiles = t.tiles ∧
           vs.length = n1.toNat + 1 ∧ t1.rows = (writeRegs t g s.queues (h.jobPending j).mask ((vs.zip (List.range (n1.toNat + 1))).flatMap fun v =>
             destOf fmt (vd + BitVec.ofNat 11 (v.2 * if fmt.is64 then 2 else 1)) v.1)).1.rows ∧
           (∀ i l, i ≤ n1.toNat → l < 64 → laneBit (h.jobPending j).mask l = true → laneOf (vs.getD i []) l =
             BitVec.ofNat 64 (extendCode num (convert num (.num (val i l).1) true none j.mode sat).1)) ∧
           ∀ r c, c < 256 → (t1.acc acc).at r c = if clr = true ∧ r0 ≤ r ∧ r ≤ r0 + n1.toNat ∧ c0 ≤ c ∧ c < c0 + 64 ∧
             laneBit (h.jobPending j).mask (c - c0) = true then accZero else (t.acc acc).at r c)) ∧
     (∀ (la : BitVec 4) (sat : Bool) (rnd : Rnd) (c : SReg) (a b : Fmt) (ty : AType) (f y fx yx : Nat → Spot),
       let ls := (cardRegion j.words 0).len
       let ld := (cardRegion j.words 1).len
       let src := a.num j.fmts
       let dst := b.num j.fmts
       let count := 8 * ls / src.bits
       let source := reach false (cardWord j.words 2) ls f
       let target := reach true (cardWord j.words 3) ld y
       (j.instr = .cpy la sat rnd c → (cardWord j.words 1).getLsbD 51 = true → source → target → ls = ld →
         ((List.range ld).map y).Nodup → ∃ u, team u fun _ => WroteOnly s u ((List.range ld).map y) ∧
           ∀ i, i < ld → (y i).read u = (f i).read s) ∧
       (j.instr = .cpy la sat rnd c → (cardWord j.words 1).getLsbD 51 = false → cpySrc j.words = some a → cpyDst j.words = some b →
         source → target → 8 * ls = count * src.bits → 8 * ld = count * dst.bits →
         (src.isMx = true → reach false (cardWord j.words 4) (count / 32) fx ∧ (cardRegion j.words 2).len = count / 32 ∧ count % 32 = 0) →
         (dst.isMx = true → reach true (cardWord j.words 5) (count / 32) yx ∧ (cardRegion j.words 3).len = count / 32 ∧ count % 32 = 0) →
         let zs := (List.range ld).map y ++ if dst.isMx then (List.range (count / 32)).map yx else []
         zs.Nodup → ∃ u, team u fun _ => WroteOnly s u zs ∧
           let v := moveRun a b j.fmts (codes src.bits count (numAt s ls f)) (if src.isMx then bytes (count / 32) fx else [])
             scale j.mode sat
           codes dst.bits count (numAt u ld y) = v.1.map (· % 2 ^ dst.bits) ∧
           (dst.isMx = true → ∀ i, i < count / 32 → ((yx i).read u).toNat = v.2.1.getD i 0 % 256)) ∧
       (j.instr = .coll la sat rnd c → cpySrc j.words = some a → cpyDst j.words = some b → collType (some b) = some ty → src.isMx = false →
         source → target → reach false (cardWord j.words 3) ld y → 8 * ls = count * src.bits →
         let w := if ty.is64 then 8 else 4
         ld = count * w → ((List.range ld).map y).Nodup → ∃ u, team u fun _ => WroteOnly s u ((List.range ld).map y) ∧
           ∀ i, i < count → numAt u w (fun q => y (i * w + q)) =
             (combine ty (Aop.ofCode (collOp j.words)) (numAt s w fun q => y (i * w + q))
               (convert dst (src.srcVal ((codes src.bits count (numAt s ls f)).getD i 0) 0) src.wide scale j.mode sat).1).1 % 2 ^ (8 * w))))) ∧
 (∀ (a b : Fmt) (fmts : List DWord) (cs xs : List Nat) (c : Option Sys2Proof.Num) (mode : RMode) (sat : Bool) (i : Nat), i < cs.length →
    (a = b → c = none → moveRun a b fmts cs xs c mode sat = (cs, xs, 0)) ∧
    (a ≠ b ∨ c ≠ none → (b.num fmts).isMx = false → (moveRun a b fmts cs xs c mode sat).1.getD i 0 =
      (convert (b.num fmts) ((a.num fmts).srcVal (cs.getD i 0) (xs.getD (i / 32) 0)) (a.num fmts).wide c mode sat).1)) ∧
 (∀ (num : NumFmt) (mode : RMode) (vs : List (Sys2Proof.Num × Flags)) (sat : Bool) (i : Nat), i < vs.length → num.isMx = false →
    (convertNums num mode sat vs).1.getD i 0 = (convert num (.num (vs.getD i (.zero false, 0)).1) true none mode sat).1) ∧
 (∀ (e : AccEntry) (dr : Word) (mode : RMode), (fmtFp32.value dr.toNat).isNaN = false → e.nan = false → e.pinf = false → e.ninf = false →
    e.sum ≠ 0 → (e.drained dr mode).1 = ((Sys2Proof.Num.exact (e.sum < 0) e.sum.natAbs (-1200)).mul (fmtFp32.value dr.toNat)).1)

/-! ## Tags, rings, stagers, queues and schedules -/

/-- R144, R291 and R292: TAGWAIT is held until all, or any, of its tags are done; TAGFF finds the lowest tag of the mask that is not in
flight, or done, and gives 64 for none; TAGCLR clears the DONE bits of tags not in flight. R148, R149 and R293 to R296: ring instructions.
RINIT makes a ring whose stages are all empty; RACQ and RWAIT give the address of the producer's free and of the consumer's full stage, or
are held; RCOMMIT leaves a commit that awaits its tags; RREL releases a full stage. A ring that is not initialised takes BAD_RING, a bound
one RING_BOUND. -/
def Obligations.TagsAndRings : Prop :=
 (∀ (s : State) (h : Here) (all done : Bool) (d m : SReg), s.here = some h →
    let x := h.readS m
    let met := if all then h.team.tagsDone &&& x = x else x = 0 ∨ h.team.tagsDone &&& x ≠ 0
    let ok := fun n : Nat => x.getLsbD n = true ∧ if done then h.team.tagsDone.getLsbD n = true else h.team.tagsFly.getLsbD n = false
    (h.issueFault (.tagwait all m) = none → met → Passes s h (.tagwait all m) 2) ∧
    (h.issueFault (.tagwait all m) = none → ¬met → HeldBy s h (.tagwait all m) (.tags all x)) ∧
    (h.issueFault (.tagff done d m) = none → ∃ v : Nat, v ≤ 64 ∧ (v < 64 → ok v) ∧ (∀ n, n < 64 → ok n → v ≤ n) ∧
      Completes s h (.tagff done d m) 2 fun t k => ScalarIs h k d (BitVec.ofNat 64 v) ∧ PredsKept h k ∧ Quiet s t h k) ∧
    (h.issueFault (.tagclr m) = none → Completes s h (.tagclr m) 2 fun t k => GroupQuiet s t h k ∧ ScalarsKept h k ∧
      k.team = { h.team with groups := k.team.groups, tagsDone := k.team.tagsDone } ∧
      ∀ n, n < 64 → k.team.tagsDone.getLsbD n = (h.team.tagsDone.getLsbD n && (!x.getLsbD n || h.team.tagsFly.getLsbD n)))) ∧
 (∀ (s : State) (h : Here) (n : BitVec 3) (d a b t g : SReg) (r : Ring) (out sat : Bool) (rnd : Rnd), s.here = some h →
    let ring? := h.team.rings.find n.toNat
    let c := h.readS g
    let stages := c.toNat / 2 ^ 9 % 16 + 1
    let z := c.toNat % 2 ^ 9
    let addr := fun stage => BitVec.ofNat 64 (0xB * 2 ^ 60 + h.team.core * 2 ^ 36 + (r.base + 256 * (r.ssize + 1) * stage))
    let S := r.nstg1 + 1
    let full := (r.phase.getLsbD (r.ccur % S) = true ↔ r.ccur / S % 2 = 1)
    let ready := fun (i : Instr) => h.issueFault i = none ∧ ring? = some r ∧ r.active = true
    let ringIs := fun (t : State) (k : Here) (q : Ring) => GroupQuiet s t h k ∧
      k.team = { h.team with groups := k.team.groups, rings := h.team.rings.insert n.toNat q }
    let left : Ring := { r with commits := r.commits ++ [⟨s.tagHolders h.team (h.readS a), s.uid, h.group.num, h.strand.sid⟩] }
    (h.issueFault (.rinit n b g) = none → 2 ≤ stages → (h.readS b).toNat % 256 = 0 → c.toNat < 2 ^ 19 →
      (∃ f, Fmt.ofCode (c.extractLsb' 13 6) = some f ∧ isMatrixFmt f = true) →
      (h.readS b).toNat + 256 * (z + 1) * stages ≤ 1024 * h.team.info.header.scratch →
      (∀ q, ring? = some q → q.active = true → q.stg = false ∧ q.commits = []) →
      ((∃ q, ring? = some q ∧ q.active = true) ∨ s.coreRings h.team.core < 8) →
      Completes s h (.rinit n b g) 2 fun u k => ScalarsKept h k ∧ ringIs u k ⟨true, false, 0, c.extractLsb' 13 6, stages - 1, z, 0, 0,
        BitVec.ofNat 16 (2 ^ stages - 1), (h.readS b).toNat, [], none⟩) ∧
    (h.issueFault (.rinit n b g) = none → stages < 2 ∨ (h.readS b).toNat % 256 ≠ 0 ∨ 2 ^ 19 ≤ c.toNat →
      exec (.rinit n b g) s = .next (s.takeFault h cBadRing)) ∧
    (ready (.racq d n) → r.stg = false → r.commits = [] → h.team.stageFree n.toNat r = true →
      Completes s h (.racq d n) 2 fun u k => ScalarIs h k d (addr (r.pcur % S)) ∧ PredsKept h k ∧ Quiet s u h k) ∧
    (ready (.racq d n) → r.stg = false → r.commits ≠ [] ∨ h.team.stageFree n.toNat r = false → HeldBy s h (.racq d n) (.ringFree n.toNat)) ∧
    (ready (.rcommit n a) → r.stg = false → Completes s h (.rcommit n a) 2 fun u k => u = { s with teams := u.teams, uid := s.uid + 1 } ∧
      ScalarsKept h k ∧ PredsKept h k ∧ FlagsKept h k ∧ ModesKept h k ∧ GroupKept h k ∧
      k.team = { h.team with groups := k.team.groups, rings := h.team.rings.insert n.toNat left }) ∧
    (∀ i ∈ [Instr.racq d n, .rcommit n a], ready i → r.stg = true → exec i s = .next (s.takeFault h cRingBound)) ∧
    (ready (.rwait d n) → full → Completes s h (.rwait d n) 2 fun u k => ScalarIs h k d (addr (r.ccur % S)) ∧ PredsKept h k ∧ Quiet s u h k) ∧
    (ready (.rwait d n) → ¬full → HeldBy s h (.rwait d n) (.ringFull n.toNat)) ∧
    (ready (.rrel n) → ¬full → Passes s h (.rrel n) 2) ∧
    (ready (.rrel n) → full → (∀ p ∈ h.grp.outstanding, Instr.isMem p.instr = false) → Completes s h (.rrel n) 2 fun u k =>
      ScalarsKept h k ∧ ringIs u k { r with ccur := (r.ccur + 1) % (2 * S), sub := r.sub.map fun b => { b with rrels := b.rrels + 1 } }) ∧
    (∀ i ∈ [Instr.racq d n, .rcommit n a, .rwait d n, .rrel n, .rsub out sat rnd n t g, .runsub n g], h.issueFault i = none →
      ring? = none → exec i s = .next (s.takeFault h cBadRing)))

/-- R299 and R300: RSUB binds a ring to its stager with the descriptor that it reads at issue, or takes the lowest of BAD_TENSOR, BAD_RING and
RING_BOUND; RUNSUB makes the subscription end, its tag in flight. `e` and `u` are what the translation caches hold and the state after the
descriptor's read. The model's choices are: ALIGN for a misaligned descriptor (log entry 17); that a RUNSUB stalls while its tag is in flight,
and that a second one takes RING_BOUND (log entry 18); QUEUE_OWNER for the queue of another team too (log entry 19). R149, R295, R299 and R300: what
works on rings in the background: the oldest commit whose tags have completed pushes its stage; a stager pushes its next tile, or an empty
slot, and writes released slots back; a subscription that has ended leaves the ring free and its tag done. R150 and R301: QCFG binds a
queue to the group, or unbinds it with a count of 0; a queue of another group takes QUEUE_OWNER; a store stream's queue is first drained.
A load stream reads its next vector, 64 words a stride apart; a store stream writes its oldest. The places are in COHERENT or UNCACHED
memory of the package. -/
def Obligations.StagersAndStreams : Prop :=
 (∀ (s u : State) (h : Here) (n : BitVec 3) (t g : SReg) (r : Ring) (out sat : Bool) (rnd : Rnd) (bs : List Byte) (e : List TlbEntry)
    (ls : SMap Loc) (b : Subscription), s.here = some h →
    let a := h.readS t
    let c := h.readS g
    let ws := dwordsOf bs 8
    let total := (tensorGrid ws).1 * (tensorGrid ws).2
    let first := c.toNat / 2 ^ 8 % 2 ^ 32
    let tag := c.toNat % 64
    let free := c.getLsbD 6 = true ∨ h.team.tagsFly.getLsbD tag = false
    let bit : DWord := if c.getLsbD 6 then 0 else BitVec.ofNat 64 (2 ^ tag)
    let ends : Ring := { r with sub := some { b with ending := some c, limit := b.rrels } }
    let teamOf := fun (k : Here) => { h.team with rings := k.team.rings, tagsFly := k.team.tagsFly, tagsDone := k.team.tagsDone }
    h.team.rings.find n.toNat = some r → r.active = true →
    (h.issueFault (.rsub out sat rnd n t g) = none → a.toNat < 2 ^ 57 → a.toNat % 64 = 0 →
      s.decide h .read true false false 8 h.strand.refused ((List.range 8).map fun i => (i, a + BitVec.ofNat 64 (8 * i))) =
        (.ok ls, { s with tlb := e }) → ({ s with tlb := e } : State).runBusy h.team.asid a.toNat 64 = false →
      ({ s with tlb := e } : State).machineRead h.team.agent a.toNat 64 = (.ok bs, u) → u.teams = s.teams → u.cur = s.cur →
      (rsubCodes h.group.fmts r ws = [] →
      Completes s h (.rsub out sat rnd n t g) 2 fun v k => v = { u with teams := v.teams, uid := u.uid + 1 } ∧ ScalarsKept h k ∧ PredsKept h k ∧
        FlagsKept h k ∧ ModesKept h k ∧ GroupKept h k ∧ ∃ q b, k.team = { h.team with groups := k.team.groups, rings := h.team.rings.insert n.toNat q } ∧
          q = { r with stg := true, stager := c.toNat % 128, sub := some b } ∧ b.out = out ∧ b.desc = a ∧ b.words = ws ∧ b.first = first ∧
          b.count = (if c.toNat / 2 ^ 40 = 0 then total - first else c.toNat / 2 ^ 40) ∧ b.pushed = 0 ∧ b.written = 0 ∧ b.rrels = 0 ∧
          b.sat = sat ∧ b.mode = engineMode rnd h.group.rm ∧ b.fmts = h.group.fmts ∧ b.ending = none ∧ b.group = h.group.num ∧
          b.sid = h.strand.sid) ∧
      (let w := fun k => (ws.getD k 0).toNat
       let bad := w 0 / 2 ^ 57 ≠ 0 ∨ w 2 / 2 ^ 48 ≠ 0 ∨ w 3 / 2 ^ 6 % 2 ^ 11 ≠ 0 ∨ w 4 / 2 ^ 57 ≠ 0 ∨ w 5 ≠ 0 ∨ w 6 ≠ 0 ∨ w 7 ≠ 0 ∨
         w 1 / 2 ^ 32 = 0 ∨ w 1 % 2 ^ 32 = 0 ∨ ∀ f, Fmt.ofCode ((ws.getD 3 0).extractLsb' 0 6) = some f → f.isElement = false
       let large := ∀ f, Fmt.ofCode r.fmt = some f →
         256 * (r.ssize + 1) < Shape.image ⟨f, f.num h.group.fmts, w 3 / 2 ^ 23 % 256 + 1, 32 * (w 3 / 2 ^ 17 % 64 + 1)⟩
       let has := fun (c : Code) => (c = cBadTensor ∧ bad) ∨ (c = cBadRing ∧ large) ∨ (c = cRingBound ∧ (r.stg = true ∨ r.commits ≠ []))
       ∀ c, has c → (∀ d, has d → c ≤ d) → exec (.rsub out sat rnd n t g) s = .next (u.takeAddrFault h c none 0))) ∧
    (h.issueFault (.rsub out sat rnd n t g) = none → r.stg = false → r.commits = [] → a.toNat < 2 ^ 57 → a.toNat % 64 ≠ 0 →
      exec (.rsub out sat rnd n t g) s = .next (s.takeAddrFault h cAlign none 0)) ∧
    (h.issueFault (.runsub n g) = none → r.sub = some b → b.ending = none → free → Completes s h (.runsub n g) 2 fun v k =>
      GroupQuiet s v h k ∧ ScalarsKept h k ∧ k.team.rings = h.team.rings.insert n.toNat ends ∧ k.team.tagsFly = h.team.tagsFly ||| bit ∧
      k.team.tagsDone = h.team.tagsDone &&& ~~~bit ∧ k.team = { teamOf k with groups := k.team.groups }) ∧
    (h.issueFault (.runsub n g) = none → r.sub = some b → b.ending = none → ¬free → HeldBy s h (.runsub n g) (.tagBusy tag)) ∧
    (h.issueFault (.runsub n g) = none → r.sub = none ∨ (r.sub = some b ∧ b.ending ≠ none) →
      exec (.runsub n g) s = .next (s.takeFault h cRingBound))) ∧
 (∀ (s : State) (T n : Nat) (t : Team) (r : Ring) (b : Subscription) (c : Commit) (rest : List Commit) (sh : Shape) (bs : List Byte) (f : Flags)
    (q : State), s.team? T = some t → t.rings.find n = some r → r.active = true →
    let S := r.nstg1 + 1
    let pushed : Ring := { r with phase := r.phase ^^^ BitVec.ofNat 16 (2 ^ (r.pcur % S)), pcur := (r.pcur + 1) % (2 * S) }
    let goes := fun (i : Instr) (P : State → Team → Prop) => ∃ u t1, exec i s = .next u ∧ u.team? T = some t1 ∧ P u t1
    let only := fun (x : Ring) (u : State) (t1 : Team) => OnlyTeams s u ∧ t1 = { t with rings := t.rings.insert n x }
    let byte := fun (t : Team) (i : Nat) => byteOf ((t.row (i / 256)).getD (i % 256 / 4) 0).toNat (i % 4)
    let at_ := 256 * t.info.header.scratchAt + (r.base + 256 * (r.ssize + 1) * (r.pcur % S))
    let tag := (b.ending.getD 0).toNat % 64
    let bit : DWord := if (b.ending.getD 0).getLsbD 6 then 0 else BitVec.ofNat 64 (2 ^ tag)
    (r.commits = c :: rest → s.commitMet t c = true → t.stageFree n r = true →
      goes (.commitPush T n) (only { pushed with commits := rest })) ∧
    (r.commits = [] → exec (.commitPush T n) s = .next s) ∧
    (r.sub = some b → t.mayStage n r b = true → b.out = true →
      goes (.stagerPush T n) (only { pushed with sub := some { b with pushed := b.pushed + 1, refused := [] } })) ∧
    (r.sub = some b → t.mayStage n r b = true → b.out = false → tensorShape b.fmts b.words r.fmt = some sh →
      s.stageTile t b sh = (.ok (bs, f), q) → q.team? T = some t → goes (.stagerPush T n) fun u t1 => u.mem = q.mem ∧
        (∀ i, byte t1 i = if at_ ≤ i ∧ i < at_ + bs.length then bs.getD (i - at_) 0 else byte t i) ∧
        t1.rings = t.rings.insert n { pushed with sub := some { b with pushed := b.pushed + 1, refused := [] } } ∧
        t1.jflags = t.jflags ||| transferFlags f) ∧
    (r.sub = some b → tensorShape b.fmts b.words r.fmt = some sh → t.mayWriteBack n r b = true → s.unstageTile t r b sh = (.ok f, q) →
      q.team? T = some t → r.again b = false → goes (.stagerSlotWriteback T n) fun u t1 => u.mem = q.mem ∧
        t1 = { t with rings := t1.rings, jflags := t.jflags ||| transferFlags f } ∧
        t1.rings = t.rings.insert n { r with sub := some { b with written := b.written + 1, refused := [] } }) ∧
    (r.sub = some b → b.ending ≠ none → b.park = none → b.out = false ∨ b.due ≤ b.written → goes (.runsubComplete T n) fun u t1 =>
      OnlyTeams s u ∧ t1.rings = t.rings.insert n { r with stg := false, sub := none } ∧ t1.tagsFly = t.tagsFly &&& ~~~bit ∧
      t1.tagsDone = t.tagsDone ||| bit ∧ t1 = { t with rings := t1.rings, tagsFly := t1.tagsFly, tagsDone := t1.tagsDone })) ∧
 (∀ (s : State) (h : Here) (st : Bool) (q : BitVec 4) (b g : SReg) (core : Nat) (k : QueueReg) (x : Here) (xs : List (Nat × Xlat))
    (e : List TlbEntry) (v : QVec) (rest : List QVec),
    let key := 16 * h.team.core + q.toNat
    let c := h.readS g
    let bind := s.here = some h → h.issueFault (.qcfg st q b g) = none →
      Completes s h (.qcfg st q b g) 2 fun t k1 => ScalarsKept h k1 ∧ PredsKept h k1 ∧ TeamKept h k1 ∧ VecQuiet s t h k1 ∧
        (∀ j, j ≠ key → t.queues.find j = s.queues.find j) ∧
        (c.toNat / 2 ^ 32 = 0 → t.queues.find key = none) ∧
        (c.toNat / 2 ^ 32 ≠ 0 → ∃ k : QueueReg, t.queues.find key = some k ∧ k.team = h.team.info.uid ∧ k.group = h.group.num ∧ k.store = st ∧
          k.base = h.readS b ∧ k.count = c.toNat / 2 ^ 32 ∧ k.stride = c.toNat / 2 ^ 16 % 2 ^ 16 ∧ k.vecs = [] ∧ k.pos = 0 ∧ k.taken = 0 ∧
          k.fault = none ∧ k.view = (if c.getLsbD 15 && !st then some (c.extractLsb' 8 6) else none))
    let streams := s.queues.find (16 * core + q.toNat) = some k ∧ k.park = none ∧ s.streamHere k = some x
    let addrs := (List.range 64).map fun l => (l, k.base + BitVec.ofNat 64 ((64 * k.pos + l) * k.stride))
    let places := fun (a : Access) => s.streamPlaces x k a = ((xs.map (fun z => (z.1, Loc.glob z.2)), [], []), { s with tlb := e }) ∧
      xs.map (·.1) = List.range 64 ∧ ∀ z ∈ xs, AtHome s (.glob z.2) z.2 4
    (s.queues.find key = none → bind) ∧
    (s.queues.find key = some k → foreign h.team h.group k = false → k.store = false → bind) ∧
    (s.queues.find key = some k → foreign h.team h.group k = false → k.store = true → k.fault = none → k.vecs = [] →
      h.group.pushesTo (1536 + q.toNat) = false → bind) ∧
    (s.here = some h → h.issueFault (.qcfg st q b g) = none → s.queues.find key = some k → foreign h.team h.group k = true →
      exec (.qcfg st q b g) s = .next (s.takeFault h cQueueOwner)) ∧
    (s.here = some h → h.issueFault (.qcfg st q b g) = none → s.queues.find key = some k → foreign h.team h.group k = false →
      k.store = true → k.fault = none → k.vecs ≠ [] → HeldBy s h (.qcfg st q b g) (.queueDrain q.toNat)) ∧
    k.addrs = addrs ∧
    (streams → k.store = false → k.vecs.length < 8 → k.pos < k.count → k.view = none → places .read →
      ∃ t, exec (.queueStreamFill core q.toNat) s = .next t ∧ t.mem = s.mem ∧ t.teams = s.teams ∧
        ∃ w : QVec, w.bad = [] ∧ t.queues.find (16 * core + q.toNat) =
            some { k with vecs := k.vecs ++ [w], pos := k.pos + 1, refused := [] } ∧
          ∀ z ∈ xs, (w.lanes.getD z.1 0).toNat = numOfBytes ((List.range 4).map fun j => s.mem.byte (z.2.pa + j))) ∧
    (streams → k.store = true → k.vecs = v :: rest → places .write →
      ∃ t, exec (.queueStreamWrite core q.toNat) s = .next t ∧ t.teams = s.teams ∧
        t.queues.find (16 * core + q.toNat) = some { k with vecs := rest, pos := k.pos + 1, refused := [] } ∧
        (∀ a, (∀ z ∈ xs, ¬(z.2.pa ≤ a ∧ a < z.2.pa + 4)) → t.mem.byte a = s.mem.byte a) ∧
        ∀ z ∈ xs, (∀ y ∈ xs, z.1 < y.1 → y.2.pa + 4 ≤ z.2.pa ∨ z.2.pa + 4 ≤ y.2.pa) →
          ∀ j, j < 4 → t.mem.byte (z.2.pa + j) = byteOf (v.lanes.getD z.1 0).toNat j))

/-- R127 and R302 to R306: the task instructions issue with their operands captured. SCHWR by any strand but one of the tuner's group
takes ROLE; a write of a register that none may write, or one that would make the staged set invalid, takes SCHED_REWRITE; NEXTTILE with
eight claims open is held; SPAWN below MAXDEPTH and of a recorded header marks the team, past MAXDEPTH it takes SPAWN_DEPTH, and of no
header of a loaded segment, or of more than 1 048 575 children, BAD_HEADER; JOIN is held while the team has children. That the team has
spawned from the issue of its SPAWN on, and that JOIN counts queued children, is the model's reading (log entry 30). -/
def Obligations.ScheduleIssue : Prop :=
  ∀ (s : State) (h : Here) (la : BitVec 4) (a d : SReg) (k : BitVec 4) (c : Sched) (vs : List DWord) (m : DWord), s.here = some h →
    let ready := fun (i : Instr) => h.issueFault i = none ∧ h.group.outcnt < 32
    let issues := fun (i : Instr) (f : Pending → Pending) => ready i →
      Launches s h i 2 s.queues (f (h.pend s.uid i la h.strand.exec [])) fun _ k => RngKept h k
    let at_ := originOf (h.readS (a + 1)) (h.readS (a + 2))
    issues (.schrd la d k) id ∧
    (s.sched? h.team.info.grid = some c → c.tuner h.team.info.number h.group.num = true → (k.toNat = 15 ∨ (5 ≤ k.toNat ∧ k.toNat ≤ 10)) →
      ((h.grp.schedAfter c).write k.toNat (h.readS a)).withStaged.valid = true →
      issues (.schwr la a k) fun p => { p with sa := h.readS a }) ∧
    (ready (.schwr la a k) → s.sched? h.team.info.grid = none ∨ (s.sched? h.team.info.grid = some c ∧ c.tuner h.team.info.number h.group.num = false) →
      exec (.schwr la a k) s = .next (s.takeAddrFault h cRole none 0)) ∧
    (ready (.schwr la a k) → s.sched? h.team.info.grid = some c → c.tuner h.team.info.number h.group.num = true →
      k.toNat < 5 ∨ (11 ≤ k.toNat ∧ k.toNat ≤ 14) ∨ ((h.grp.schedAfter c).write k.toNat (h.readS a)).withStaged.valid = false →
      exec (.schwr la a k) s = .next (s.takeAddrFault h cSchedRewrite none 0)) ∧
    (∀ (q : Sched) (i : Nat), i < 4 → (q.reg 0).getLsbD (4 + i) = true → (q.reg (6 + i)).toNat % 2 ^ 7 ≠ (q.reg (1 + i)).toNat % 2 ^ 32 →
      q.valid = false) ∧
    (s.openClaims h.team < 8 → (s.nextTile h.team.info.grid h.team.info.uid h.strand.refused).1 = .ok vs → issues (.nexttile la d) id) ∧
    (h.issueFault (.nexttile la d) = none → 8 ≤ s.openClaims h.team → HeldBy s h (.nexttile la d) .claims) ∧
    ((s.atomDone h.team.info.grid h.team.info.uid (h.readS a) at_ (h.readS (a + 3)) h.strand.refused).1 = .ok m →
      issues (.atomdone la d a) fun p => { p with
        sa := h.readS a, sb := h.readS (a + 1), sd := h.readS (a + 2), more := [h.readS (a + 3)] }) ∧
    (ready (.spawn la a) → s.spawnCodes h (h.readS a) (h.readS (a + 2)) = [] → Completes s h (.spawn la a) 2 fun t q =>
      t = { s with teams := t.teams, uid := s.uid + 1 } ∧ q.team = { h.team with groups := q.team.groups, spawned := true } ∧
      q.group.pending = (h.group.shorten h.strand.sid).pending ++ [{ h.pend s.uid (.spawn la a) la h.strand.exec [] with
        sa := h.readS a, sb := h.readS (a + 1), sd := h.readS (a + 2), more := [h.readS (a + 3)] }] ∧
      ScalarsKept h q ∧ PredsKept h q ∧ FlagsKept h q) ∧
    (ready (.spawn la a) → (∃ g, s.grid? h.team.info.grid = some g ∧ g.header.maxDepth < h.team.info.depth + 1) →
      exec (.spawn la a) s = .next (s.takeAddrFault h cSpawnDepth none 0)) ∧
    (ready (.spawn la a) → (∃ g, s.grid? h.team.info.grid = some g ∧ h.team.info.depth + 1 ≤ g.header.maxDepth) →
      s.header? h.team.asid (h.readS a).toNat = none ∨ 1048575 < (h.readS (a + 2)).toNat →
      exec (.spawn la a) s = .next (s.takeAddrFault h cBadHeader none 0)) ∧
    (h.issueFault .join = none → s.hasChildren h.team.info.uid = true → HeldBy s h .join .join) ∧
    (h.issueFault .join = none → s.hasChildren h.team.info.uid = false → Passes s h .join 2)

/-- R118, R121 to R127 and R302 to R305: what the task instructions do when they complete: SCHRD gives a schedule register; SCHWR stages a
write, or sets HOLD; NEXTTILE and ATOMDONE give what the grid's schedule answers; SPAWN makes as many children as it was told, each with
its number, its place in the sequence and the arguments. That the children of one SPAWN all go to one place and class is the model's reading
(log entry 30). The walk of R124 goes on to the first tile at or after the cursor that has an unclaimed atom, claims those atoms in the map,
opens a claim and counts them; with none left it gives an empty mask. A staged rewrite is applied first, unless HOLD is set; the schedule of
a failed grid answers nothing. The commit of R125 marks each atom named that is in a claim of the team and is not done, counts it, and takes
it out of its claim. The map, `ix` bytes of it, lies in COHERENT memory of the package, `pa` says where. -/
def Obligations.ScheduleResults : Prop :=
 (∀ (s s1 : State) (T G idx : Nat) (t : Team) (g : Group) (p : Pending) (la : BitVec 4) (a d : SReg) (k : BitVec 4) (c : Sched) (gr : Grid)
    (m : DWord) (vs : List DWord) (hd : Header) (cls : Nat) (pl : Place), Outstanding s T G idx t g p →
    s.grid? t.info.grid = some gr → gr.sched = some c →
    let out := fun (r : SReg) (v : DWord) => some (r, v)
    let only := fun (u : State) => u = { s with teams := u.teams, grids := u.grids }
    (p.instr = .schrd la d k → Finishes s T G idx t g p [] noFlags (out d (c.read k.toNat)) (OnlyTeamsQueues s)) ∧
    (p.instr = .schwr la a k → k.toNat < 15 → Finishes s T G idx t g p [] noFlags none fun u => only u ∧
      u.sched? t.info.grid = some { c with staged := c.staged.insert k.toNat (p.sa &&& schedMask k.toNat) }) ∧
    (p.instr = .schwr la a k → k.toNat = 15 → Finishes s T G idx t g p [] noFlags none fun u => only u ∧
      u.sched? t.info.grid = some { c with regs := c.regs.set 15 ((c.reg 15 &&& ~~~2) ||| (p.sa &&& 2)) }) ∧
    (p.instr = .nexttile la d → s.openClaims t < 8 → s.nextTile t.info.grid T p.refused = (.ok vs, s1) → s1.teams = s.teams → vs.length = 5 →
      d.toNat + 4 < 64 → ∃ u t1 g1, exec (.longLatencyComplete T G idx) s = .next u ∧ u.team? T = some t1 ∧ t1.group? G = some g1 ∧
        (∀ i, i < 5 → d.toNat + i ≠ 0 → g1.readSAs p.sid (d + BitVec.ofNat 6 i) = vs.getD i 0) ∧
        (∀ r : SReg, r.toNat < d.toNat ∨ d.toNat + 4 < r.toNat → g1.readSAs p.sid r = g.readSAs p.sid r) ∧
        g1.pending.map (·.id) = (g.pending.map (·.id)).filter (· != p.id) ∧ u.mem = s1.mem ∧ u.grids = s1.grids ∧ t1.rows = t.rows) ∧
    (p.instr = .atomdone la d a → t.groups.all (fun q => !q.memBefore p.seq) = true →
      s.atomDone t.info.grid T p.sa (originOf p.sb p.sd) (p.more.headD 0) p.refused = (.ok m, s1) → s1.teams = s.teams → s1.queues = s.queues →
      Finishes s T G idx t g p [] noFlags (out d m) fun u => u = { s1 with teams := u.teams, queues := u.queues }) ∧
    (p.instr = .spawn la a → t.groups.all (fun q => !q.memBefore p.seq) = true → s.header? t.asid p.sa.toNat = some hd → gr.failed = none →
      p.stage = (0, 0, 0) → 0 < p.sd.toNat → p.sd.toNat ≤ s.taskCap - s.entries → s.bindClass hd.contract 0 = some cls →
      s.childPlace t.core cls = some pl → Finishes s T G idx t g p [] noFlags none fun u =>
        u = { s with teams := u.teams, grids := u.grids, tasks := u.tasks, uid := s.uid + p.sd.toNat } ∧
        (∃ q, u.grid? t.info.grid = some q ∧ q = { gr with spawnedTeams := gr.spawnedTeams + p.sd.toNat }) ∧
        ∃ ts : List Task, u.tasks = s.tasks ++ ts ∧ ts.length = p.sd.toNat ∧ ∀ (i : Nat) (x : Task), ts[i]? = some x →
          x.place = pl ∧ x.poisoned = false ∧ x.info.grid = t.info.grid ∧ x.info.number = 2 ^ 48 - 1 - (gr.spawnedTeams + i) ∧
          x.info.header = hd ∧ x.info.s1 = p.sb ∧ x.info.s2 = BitVec.ofNat 64 i ∧ x.info.s3 = p.more.headD 0 ∧
          x.info.depth = t.info.depth + 1 ∧ x.info.parent = some T ∧ x.info.cls = cls)) ∧
 (∀ (s : State) (grid team : Nat) (gr : Grid) (c : Sched) (refused : List Nat) (pa : Nat → Nat), s.grid? grid = some gr → gr.sched = some c →
    c.valid = true → c.regs.length = 16 →
    let E := fun d => (c.reg (1 + d)).toNat % 2 ^ 32
    let T := fun d => (c.reg (6 + d)).toNat % 2 ^ 7
    let gen := c.reg 11
    let map := (c.reg 12).toNat
    let ix := (2 * (E 0 * E 1 * E 2 * E 3) + 7) / 8
    let mapped := s.live gr.asid = true ∧ map + ix ≤ 2 ^ 57 ∧ (∀ i j, i < ix → j < ix → pa i = pa j → i = j) ∧ ∀ i, i < ix → ∃ e,
      s.tlb.find? (fun e => e.asid == gr.asid && e.base ≤ map + i && map + i < e.base + e.size) = some e ∧ e.leaf.getLsbD 2 = true ∧
      let x := e.place (map + i)
      AtHome s (.glob x) x 1 ∧ x.mt = 0 ∧ (∀ q ∈ s.segs, x.pa / 32768 ∉ q.pages) ∧ x.pa = pa i
    let bit := fun (u : State) (n : Nat) => (u.mem.byte (pa (n / 8))).getLsbD (n % 8)
    let only := fun (u : State) (P : Nat → Prop) => (∀ a, (∀ i, i < ix → pa i ≠ a) → u.mem.byte a = s.mem.byte a) ∧
      ∀ n, n < 2 * (E 0 * E 1 * E 2 * E 3) → (bit u n = true ↔ bit s n = true ∨ P n)
    let atom := fun (T : Nat → Nat) (o : Nat → Nat) (p d : Nat) => o d + match d with
      | 0 => p % T 0
      | 1 => p / T 0 % T 1
      | 2 => p / (T 0 * T 1) % T 2
      | _ => p / (T 0 * T 1 * T 2) % T 3
    let inside := fun (a : Nat → Nat) => ∀ d, d < 4 → a d < E d
    let number := fun (a : Nat → Nat) => a 0 + E 0 * (a 1 + E 1 * (a 2 + E 2 * a 3))
    let count := fun (m : DWord) => ((List.range 64).filter fun p => m.getLsbD p).length
    let sizes := BitVec.ofNat 64 (T 0 + T 1 * 2 ^ 8 + T 2 * 2 ^ 16 + T 3 * 2 ^ 24)
    let pair := fun (o : Nat → Nat) d => BitVec.ofNat 64 (o d + o (d + 1) * 2 ^ 32)
    let tiles := fun d => (E d + T d - 1) / T d
    let level := fun k => (c.reg 5).toNat / 4 ^ k % 4
    let dims := (c.reg 0).toNat % 4 + 1
    let inner := fun k => ((List.range dims).filter fun i => k < i).foldl (fun n i => n * tiles (level i)) 1
    let origin := fun cursor d => match (List.range dims).find? fun k => level k == d with
      | some k => cursor / inner k % tiles d * T d
      | none => 0
    let last := tiles 0 * tiles 1 * tiles 2 * tiles 3
    let freeAt := fun cursor p => p < T 0 * T 1 * T 2 * T 3 ∧ inside (atom T (origin cursor) p) ∧
      bit s (2 * number (atom T (origin cursor) p)) = false
    (gr.failed = none → c.staged = [] ∨ (c.reg 15).getLsbD 1 = true → mapped →
      (∀ j, (∀ i, i < j → ∀ p, ¬freeAt (c.cursor + i) p) → c.cursor + j < last → (∃ p, freeAt (c.cursor + j) p) →
        let o := origin (c.cursor + j)
        ∃ m u, s.nextTile grid team refused = (.ok [m, pair o 0, pair o 2, gen, sizes], u) ∧
          (∀ p, p < 64 → (m.getLsbD p = true ↔ freeAt (c.cursor + j) p)) ∧
          only u (fun n => ∃ p, freeAt (c.cursor + j) p ∧ n = 2 * number (atom T o p)) ∧
          ∃ c1, u.sched? grid = some c1 ∧ c1.cursor = c.cursor + j + 1 ∧ c1.staged = c.staged ∧
            c1.claims = c.claims ++ [⟨team, [o 0, o 1, o 2, o 3], gen, m, [T 0, T 1, T 2, T 3]⟩] ∧
            (c1.reg 13).toNat % 2 ^ 32 = ((c.reg 13).toNat + count m) % 2 ^ 32 ∧ (c1.reg 13).toNat / 2 ^ 32 = (c.reg 13).toNat / 2 ^ 32 ∧
            ∀ k, k ≠ 13 → c1.reg k = c.reg k) ∧
      (c.cursor ≤ last → (∀ i, c.cursor ≤ i → i < last → ∀ p, ¬freeAt i p) →
        ∃ u, s.nextTile grid team refused = (.ok [0, 0, 0, gen, sizes], u) ∧ MemoryKept s u ∧
          ∃ c1, u.sched? grid = some c1 ∧ c1 = { c with cursor := last, regs := c1.regs } ∧ ∀ k, c1.reg k = c.reg k)) ∧
    (gr.failed = none → c.staged ≠ [] → (c.reg 15).getLsbD 1 = false → c.staged.rising = true → c.staged.find 11 = none →
      (∀ q ∈ c.staged, q.1 < 16) → ∃ d : Sched, d.cursor = 0 ∧ d.staged = [] ∧ d.claims = c.claims ∧ d.reg 11 = c.reg 11 + 1 ∧
        (∀ k, k ≠ 11 → d.reg k = (c.staged.find k).getD (c.reg k)) ∧
        ∀ vs, (s.nextTile grid team refused).1 = .ok vs → s.nextTile grid team refused = (s.putSched grid d).nextTile grid team refused) ∧
    (gr.failed ≠ none → s.nextTile grid team refused = (.ok [0, 0, 0, gen, sizes], s)) ∧
    (∀ (m : DWord) (o : List Nat) (g : DWord) (Z : Nat → Nat), mapped →
      let mine := fun (k : Claim) => k.team = team ∧ k.origin = o ∧ k.gen = g
      let at_ := fun p => atom Z (fun d => o.getD d 0) p
      let named := fun p => m.getLsbD p = true ∧ ∃ k ∈ c.claims, mine k ∧ k.mask.getLsbD p = true
      (∀ k ∈ c.claims, mine k → k.sizes = [Z 0, Z 1, Z 2, Z 3]) → (∀ d, d < 4 → 1 ≤ Z d ∧ Z d ≤ 64) →
      (∀ p, named p → p < Z 0 * Z 1 * Z 2 * Z 3 ∧ inside (at_ p)) →
      let marks := fun p => p < 64 ∧ named p ∧ bit s (2 * number (at_ p) + 1) = false
      ∃ v u, s.atomDone grid team m o g refused = (.ok v, u) ∧ (∀ p, p < 64 → (v.getLsbD p = true ↔ marks p)) ∧
        only u (fun n => ∃ p, marks p ∧ n = 2 * number (at_ p) + 1) ∧
        ∃ c1, u.sched? grid = some c1 ∧ c1.cursor = c.cursor ∧ c1.staged = c.staged ∧
          (c1.reg 13).toNat / 2 ^ 32 = ((c.reg 13).toNat / 2 ^ 32 + count v) % 2 ^ 32 ∧
          (c1.reg 13).toNat % 2 ^ 32 = (c.reg 13).toNat % 2 ^ 32 ∧ (∀ k, k ≠ 13 → c1.reg k = c.reg k) ∧
          (∀ k, k ∈ c1.claims ↔ k.mask ≠ 0 ∧ ∃ q ∈ c.claims, (mine q ∧ k = { q with mask := q.mask &&& ~~~m }) ∨ (¬mine q ∧ k = q))))

/-! ## Launch queues, grids, the loader and probes -/

/-- R102 to R104: the registers of a launch queue. A tail is taken when it is at most LQSIZE past LQHEAD and past LQTAIL; otherwise ERR is
5 and the queue does not stop; what a tail write makes visible is remembered as it then stood. A one written to STOP skips the refused
record, and none where no record is left. Reading LQSTAT clears ERR while STOP is 0. R103 to R106: the next record of an enabled queue is
read where LQHEAD says, and checked: its check word, its reserved fields, its kernel header, its shape and, for a tiled grid, its schedule
set, which is read too. A record in order waits for admission and LQHEAD names the next; one that is not is refused with the number of the
first check it fails, and stops the queue. A record that was rewritten after its tail write is read with each byte old or new. `u` and `w`
are the record's read. The order of the checks, and that a dependence entry from DEPN on is a reserved field, are the model's reading (log
entry 31), as is that LQHEAD moves on at the read, not at admission (log entry 40). -/
def Obligations.QueuesAndRecords : Prop :=
 (∀ (s : State) (q : Nat) (t : DWord), q < 64 →
    let l := s.lq q
    let tail : BitVec 32 := t.setWidth 32
    let only := fun (u : State) => u = { s with lqs := u.lqs } ∧ ∀ p, p ≠ q → u.lq p = s.lq p
    (s.manage.ready.getLsbD 1 = true →
      (∃ u, exec (.launchDoorbell q t) s = .next u ∧ only u ∧
        ((tail - l.head).toNat ≤ l.size → (tail - l.tail).toNat ≤ l.size → u.lq q = { l with tail := tail, seen := s.seenRecords l tail }) ∧
        (l.size < (tail - l.head).toNat ∨ l.size < (tail - l.tail).toNat → l.stop = false → u.lq q = { l with err := 5 }) ∧
        (l.size < (tail - l.head).toNat ∨ l.size < (tail - l.tail).toNat → l.stop = true → u.lq q = l)) ∧
      (∃ u, exec (.lqstatStopClear q) s = .next u ∧ only u ∧ (u.lq q).stop = false ∧
        (l.stop = true → l.got = none → l.head ≠ l.tail → u.lq q = { l with stop := false, head := l.head + 1 }) ∧
        (l.stop = true → l.got ≠ none ∨ l.head = l.tail → u.lq q = { l with stop := false, got := none }) ∧ (l.stop = false → u.lq q = l))) ∧
    ∃ u, exec (.lqstatRead q) s = .next u ∧
      numOfBytes u.records.lastRead = l.errIdx.toNat * 2 ^ 8 + l.err.toNat * 2 ^ 4 + (if l.stop then 1 else 0) ∧
      u = { s with lqs := u.lqs, records := { s.records with lastRead := u.records.lastRead } } ∧
      (l.stop = true → u.lq q = l) ∧ (l.stop = false → u.lq q = { l with err := 0 }) ∧ ∀ p, p ≠ q → u.lq p = s.lq p) ∧
 (∀ (s u0 u v : State) (q : Nat) (bs0 bs cs : List Byte) (ks ms : List Nat), s.mayRead q = true → u0.recordBytes (s.lq q) bs0 = (bs, u) →
    let l := s.lq q
    let w := dwordsOf bs 8
    let x := w.getD 3 0
    let good := (crc32c (bs.take 56)).toNat = (w.getD 7 0).toNat % 2 ^ 32
    let hdr := (w.getD 0 0).toNat % 2 ^ 57
    let known := hdr % 64 = 0 ∧ (u.header? l.asid hdr).isSome = true
    let refused := fun (z u : State) (e : Nat) => (z.lq q).stop = true ∧ (z.lq q).err = BitVec.ofNat 4 e ∧ (z.lq q).errIdx = (u.lq q).head ∧
      (z.lq q).head = (u.lq q).head ∧ z.grids = u.grids ∧ Signalled u z (x.getLsbD 13) (field x 28 12) (field x 16 12) true
    let held := fun (z u : State) (set : List DWord) =>
      z.lq q = { u.lq q with got := some (w, set), head := (u.lq q).head + 1, park := none, refused := [], since := u.clock } ∧
      z = { u with lqs := z.lqs }
    let runs := lineRuns (l.base.toNat + 64 * (l.head.toNat % l.size)) 64
    let seen := l.seen.get bs0 l.head.toNat
    (seen = bs0 → bs = bs0 ∧ u = u0) ∧
    (bs.length = bs0.length ∧ (∀ i b, bs[i]? = some b → bs0[i]? = some b ∨ b = seen.getD i 0) ∧ u = { u0 with freeN := u.freeN }) ∧
    (s.live l.asid = false → ∃ z, exec (.recordRead q) s = .next z ∧ (z.lq q).stop = true ∧ (z.lq q).err = 6) ∧
    (∀ a, s.live l.asid = true → s.atriumFetch l.asid l.refused runs = (.bad a, v) →
      ∃ z, exec (.recordRead q) s = .next z ∧ (z.lq q).stop = true ∧ (z.lq q).err = 7) ∧
    (∀ page host, s.live l.asid = true → s.atriumFetch l.asid l.refused runs = (.miss page host, v) →
      ∃ z, exec (.recordRead q) s = .next z ∧ z.lq q = { v.lq q with park := some page } ∧
        (v.misses = [] → ∃ m, z.misses = [m] ∧ m.asid = l.asid ∧ m.page = page)) ∧
    (s.live l.asid = true → s.atriumFetch l.asid l.refused runs = (.busy, v) → exec (.recordRead q) s = .next s) ∧
    (s.live l.asid = true → s.atriumFetch l.asid l.refused runs = (.ok bs0 ks, u0) →
      (¬good → ∃ z, exec (.recordRead q) s = .next z ∧ refused z u 1) ∧
      (good → recReserved w = true → ∃ z, exec (.recordRead q) s = .next z ∧ refused z u 2) ∧
      (good → recReserved w = false → ¬known → ∃ z, exec (.recordRead q) s = .next z ∧ refused z u 3) ∧
      (good → recReserved w = false → known → recShapeBad w = true → ∃ z, exec (.recordRead q) s = .next z ∧ refused z u 4) ∧
      (good → recReserved w = false → known → recShapeBad w = false → x.getLsbD 12 = false →
        ∃ z, exec (.recordRead q) s = .next z ∧ held z u []) ∧
      (good → recReserved w = false → known → recShapeBad w = false → x.getLsbD 12 = true →
        u.atriumFetch l.asid l.refused (lineRuns (w.getD 2 0).toNat 128) = (.ok cs ms, v) →
        (setBad (dwordsOf cs 16) = true → ∃ z, exec (.recordRead q) s = .next z ∧ refused z v 4) ∧
        (setBad (dwordsOf cs 16) = false → ∃ z, exec (.recordRead q) s = .next z ∧ held z v (dwordsOf cs 16)))))

/-- R108, R110 and R115: a record whose dependences are satisfied is admitted: its grid is bound to a class and its teams are dealt in
ascending number to available dies of the class. With a failed dependence, or without a class, nothing runs and its counter takes the
failure signal. R109 and R110: a grid whose teams have all ended, spawned ones included, leaves, and signals its counter; a failed one
sets FAIL. That LQHEAD stays as it is at admission, for it moved on when the record was read, is the model's reading (log entry 40). -/
def Obligations.GridsBeginAndEnd : Prop :=
 (∀ (s : State) (q : Nat) (w set : List DWord) (hd : Header), s.mayAdmit q = true → (s.lq q).got = some (w, set) →
    s.header? (s.lq q).asid ((w.getD 0 0).toNat % 2 ^ 57) = some hd →
    let l := s.lq q
    let x := w.getD 3 0
    let n := recRange w
    let lost := fun (z : State) => z.grids = s.grids ∧ z.tasks = s.tasks ∧ (z.lq q).got = none ∧
      Signalled s z (x.getLsbD 13) (field x 28 12) (field x 16 12) true
    (∀ k, k < recDepn w → let d := w.getD (4 + k) 0; let c := s.counter (d.toNat / 2 ^ 52)
      c.getLsbD 63 = true ∨ d.toNat % 2 ^ 52 ≤ c.toNat % 2 ^ 63) ∧
    ((∃ k, k < recDepn w ∧ (s.counter ((w.getD (4 + k) 0).toNat / 2 ^ 52)).getLsbD 63 = true) →
      ∃ z, exec (.recordAdmit q) s = .next z ∧ lost z) ∧
    (s.depFailed w = false → s.bindClass hd.contract 0 = none → ∃ z, exec (.recordAdmit q) s = .next z ∧ lost z) ∧
    (∀ c, s.depFailed w = false → s.bindClass hd.contract 0 = some c → ∃ z g ts, exec (.recordAdmit q) s = .next z ∧
      z.grids = s.grids ++ [g] ∧ z.tasks = s.tasks ++ ts ∧ z.teams = s.teams ∧ z.counters = s.counters ∧ (z.lq q).got = none ∧
      (z.lq q).head = l.head ∧ g.header = hd ∧ g.lq = q ∧ g.asid = l.asid ∧ g.account = l.account ∧ g.cls = c ∧ g.failed = none ∧
      g.tiled = x.getLsbD 12 ∧ g.sigEn = x.getLsbD 13 ∧ g.sigCtr = field x 28 12 ∧ g.sigInc = field x 16 12 ∧
      ts.map (fun k => k.info.number) = (List.range n.2).map (n.1 + ·) ∧
      ∀ k ∈ ts, k.info.grid = g.uid ∧ k.info.header = hd ∧ k.info.s1 = w.getD 1 0 ∧ k.info.s2 = BitVec.ofNat 64 k.info.number ∧
        k.info.s3 = w.getD 2 0 ∧ k.info.depth = 0 ∧ k.info.parent = none ∧ k.info.cls = c ∧ k.poisoned = false ∧
        (hd.coloc < 2 → ∃ d, k.place = .die d ∧ s.dieUp d = true ∧ dieClass d = c))) ∧
 (∀ (s : State) (n : Nat) (g : Grid), s.grid? n = some g → s.gridHasTeams n = false →
    let left := fun (i : Instr) (fail : Bool) => ∃ z, exec i s = .next z ∧ z.grids = s.grids.filter (fun x => x.uid != n) ∧
      Signalled s z g.sigEn g.sigCtr g.sigInc fail ∧ z = { s with grids := z.grids, counters := z.counters }
    (g.failed = none → left (.gridComplete n) false) ∧ (g.failed ≠ none → left (.gridFail n) true))

/-- R69, R115 to R117, R120 and R362: teams move from a die's queue to a gallery's, and from there, or by a steal from a die's queue, to a
core on which they fit, the lowest of the gallery, where they start; a core steals from another die only the oldest team that may move.
R70, R109 and R119: a team ends when its groups, its jobs and its children have ended: it leaves, with its jobs, queues and probes, and its
grid counts it. The model's readings (log entry 31): a poisoned task entry fails its grid with QUEUE_POISON when it is chosen; a block is
not stolen, and moves and starts whole; a team's end waits for its ending subscriptions and for its store streams to drain. -/
def Obligations.TeamsBeginAndEnd : Prop :=
 (∀ (s : State) (n : Nat), (s.tasks.map fun k => k.info.uid).Nodup →
    let without := fun (ks : List Task) => s.tasks.filter fun x => !ks.any fun k => k.info.uid == x.info.uid
    (∀ k g, s.toGallery? n = some (k, g) → k.poisoned = false → k.info.inBlock = false →
      k ∈ s.tasks ∧ k.place = .die n ∧ s.dieUp n = true ∧ s.placeable k = true ∧ g < 8 ∧
      (∃ m, m < 12 ∧ s.fits (coreId n g m) k.info.header = true) ∧ ∃ z, exec (.teamToGallery n) s = .next z ∧
        z = { s with tasks := without [k] ++ [{ k with place := .gallery n g }] }) ∧
    (∀ ps, s.place? n = some ps → (∀ p ∈ ps, p.2.poisoned = false) →
      (∀ p ∈ ps, p.2 ∈ s.tasks ∧ p.2.place = .gallery (coreDie n) (coreGallery n) ∧ s.fits p.1 p.2.info.header = true) ∧
      ∃ z ts, exec (.teamPlace n) s = .next z ∧ z = { s with teams := s.teams ++ ts, tasks := without (ps.map (·.2)) } ∧
        ts.length = ps.length ∧ ∀ (i : Nat) (t : Team) (p : Nat × Task), ts[i]? = some t → ps[i]? = some p → Started p.2.info p.1 t) ∧
    (∀ ps p, s.place? n = some ps → ps.find? (fun p => p.2.poisoned) = some p →
      exec (.teamPlace n) s = .next (s.failGrid p.2.info.grid 0x30)) ∧
    (∀ k, s.steal? n = some k → k.poisoned = false →
      k ∈ s.tasks ∧ k.info.inBlock = false ∧ s.fits n k.info.header = true ∧
      (∀ m, m < n → coreDie m = coreDie n → coreGallery m = coreGallery n → coreNamed m = true → s.fits m k.info.header = false) ∧
      (∃ d, k.place = .die d ∧ (d = coreDie n ∨ (k.info.header.migr = true ∧ k.info.cls = dieClass (coreDie n) ∧
        (∀ x ∈ s.tasks, x.place = .die (coreDie n) → s.stealable n x = false) ∧
        ∀ x ∈ s.tasks, ∀ e, x.place = .die e → e ≠ coreDie n → x.info.header.migr = true → x.info.cls = dieClass (coreDie n) →
          coreDie n ∈ s.dealDies x.info → s.stealable n x = true → k.info.admitted ≤ x.info.admitted))) ∧
      ∃ z t, exec (.taskSteal n) s = .next z ∧ z = { s with teams := s.teams ++ [t], tasks := without [k] } ∧ Started k.info n t) ∧
    (∀ k g, s.toGallery? n = some (k, g) → k.poisoned = true → exec (.teamToGallery n) s = .next (s.failGrid k.info.grid 0x30)) ∧
    (∀ k, s.steal? n = some k → k.poisoned = true → exec (.taskSteal n) s = .next (s.failGrid k.info.grid 0x30))) ∧
 (∀ (s : State) (n : Nat) (t : Team), s.team? n = some t → t.mode ≠ .flushing → (∀ g ∈ t.groups, g.ended = true) →
    (∀ j ∈ s.jobs, j.team ≠ n) → (∀ r ∈ t.rings, ∀ b, r.2.sub = some b → b.ending = none) →
    (∀ q ∈ s.queues, q.2.team = n → q.2.store = false ∨ q.2.vecs = []) → s.hasChildren n = false →
    ∃ z, exec (.teamEnd n) s = .next z ∧ z.teams = s.teams.filter (fun x => x.info.uid != n) ∧ z.mem = s.mem ∧ z.tasks = s.tasks ∧
      (∀ q ∈ z.queues, q.2.team ≠ n) ∧ (∀ p ∈ z.probes, p.sender.team ≠ some n) ∧
      ∀ u g, s.grid? u = some g → z.grid? u = some (if u = t.info.grid then
        { g with ended := g.ended + 1, runTime := g.runTime + (s.clock - t.started) } else g))

/-- R111 and R112: a write of LDCMD begins a load or an unload of the segment that LDBASE and LDLEN name, and is ignored while the loader
is busy. A load reads the segment and passes over it: it is recorded with its headers and instruction starts, or LDSTAT reports the first
finding (R178), or the offset of the first byte that cannot be read. An unload ends when no admitted grid uses the segment. R71, R111,
R113, R114 and R174 to R178: what an image without findings holds: every recorded start holds an instruction, and every header has a
contract of Table 01-5, roles in order, a footprint that fits, and an entry that is a recorded start. That a load uses LDBASE and LDLEN as
they stood at LDCMD, that the offset is 0 after a success, and that a load of an ASID without translations fails as one whose first byte
cannot be read, are the model's readings (log entry 32); while the home is at work on a line the load waits (R331). -/
def Obligations.LoaderWorks : Prop :=
 (∀ (s u : State) (asid : Nat) (bs : List Byte) (ks : List Nat), asid < 256 → s.manage.ready.getLsbD 1 = true →
    let l := s.loader
    let taken := fun (unload : Bool) => ({ l with busy := true, asid := asid, unload := unload, atBase := l.base, atLen := l.len, park := none, refused := [] } : Loader)
    let base := l.atBase.toNat
    let ends := fun (z : State) (code off : Nat) => z.loader = { l with busy := false, code := BitVec.ofNat 16 code, offset := BitVec.ofNat 32 off, park := none, refused := [] }
    let p := loaderPass base bs
    (l.busy = true → exec (.loaderLoad asid) s = .next s ∧ exec (.loaderUnload asid) s = .next s) ∧
    (l.busy = false → exec (.loaderLoad asid) s = .next { s with loader := taken false }) ∧
    (l.busy = false → s.segUsed asid l.base.toNat = true → exec (.loaderUnload asid) s = .next { s with loader := taken true }) ∧
    (l.busy = false → s.segUsed asid l.base.toNat = false → ∃ z, exec (.loaderUnload asid) s = .next z ∧ z.loader.busy = false ∧
      z.loader.code = 0 ∧ z = { s with loader := z.loader, segs := s.segs.filter fun g => !(g.asid == asid && g.base == l.base.toNat) }) ∧
    (l.busy = true → l.park = none → l.unload = true → (s.segUsed l.asid base = true → exec .loadComplete s = .next s) ∧
      (s.segUsed l.asid base = false → ∃ z, exec .loadComplete s = .next z ∧ ends z 0 0 ∧
        z = { s with loader := z.loader, segs := s.segs.filter fun g => !(g.asid == l.asid && g.base == base) })) ∧
    (l.busy = true → l.park = none → l.unload = false → s.live l.asid = false → ∃ z, exec .loadComplete s = .next z ∧ ends z 9 0 ∧
      z.segs = s.segs) ∧
    (l.busy = true → l.park = none → l.unload = false → s.live l.asid = true → l.atLen.toNat < 64 ∨ 2 ^ 24 < l.atLen.toNat →
      ∃ z, exec .loadComplete s = .next z ∧ ends z 2 0 ∧ z.segs = s.segs) ∧
    (l.busy = true → l.park = none → l.unload = false → s.live l.asid = true → 64 ≤ l.atLen.toNat → l.atLen.toNat ≤ 2 ^ 24 →
      (∀ va, s.atriumFetch l.asid l.refused (lineRuns base l.atLen.toNat) = (.bad va, u) → u.loader = l → ∃ z, exec .loadComplete s = .next z ∧
        ends z 9 (va - base) ∧ z.segs = u.segs) ∧
      (∀ page host, s.atriumFetch l.asid l.refused (lineRuns base l.atLen.toNat) = (.miss page host, u) → ∃ z, exec .loadComplete s = .next z ∧
        z.loader = { l with park := some page } ∧ z.segs = u.segs ∧ ∃ m ∈ z.misses, m.asid = l.asid ∧ m.page = page) ∧
      (s.atriumFetch l.asid l.refused (lineRuns base l.atLen.toNat) = (.busy, u) → exec .loadComplete s = .next s) ∧
      (s.atriumFetch l.asid l.refused (lineRuns base l.atLen.toNat) = (.ok bs ks, u) → u.loader = l →
        (∀ d ∈ p.diags, (∀ e ∈ p.diags, d.1 < e.1 ∨ (d.1 = e.1 ∧ d.2 ≤ e.2)) → ∃ z, exec .loadComplete s = .next z ∧ ends z d.2 d.1 ∧
          z.segs = u.segs) ∧
        (p.diags = [] → ∃ z g, exec .loadComplete s = .next z ∧ ends z 0 0 ∧ z.segs = u.segs ++ [g] ∧ g.asid = l.asid ∧ g.base = base ∧
          g.len = l.atLen.toNat ∧ g.headers = p.headers ∧ g.starts = p.starts ∧ ∀ k, k ∈ g.pages ↔ k ∈ ks.map (· / 32768))))) ∧
 (∀ (base : Nat) (bs : List Byte), (loaderPass base bs).diags = [] →
    let p := loaderPass base bs
    bs.length % 64 = 0 ∧ p.headers.length = (dwordOf (bs.take 8)).toNat % 2 ^ 12 ∧ p.headers ≠ [] ∧
    (∀ o ∈ p.starts, o % 4 = 0 ∧ ∃ i, (decodeWords ((wordsOfBytes (bs.drop o)).take 3)).map (·.1) = .ok i) ∧
    ∀ h ∈ p.headers, h.contract ≤ 4 ∧ h.maxDepth ≤ 8 ∧ h.coloc ≤ 12 ∧ h.shared ≤ h.scratch ∧ h.mn ≤ 1 ∧ 0 < h.groups ∧ h.groups ≤ 32 ∧
      h.footprint ≤ 983040 ∧ (h.vn ≠ 0 → 0 < h.vb ∧ h.vb + h.vx ≤ 96) ∧ (h.mn ≠ 0 → 0 < h.mb ∧ h.mb + h.mx ≤ 96) ∧
      (h.cn ≠ 0 → 0 < h.cb ∧ h.cb + h.cx ≤ 96) ∧ ∃ o ∈ p.starts, h.entry = base + o)

/-- R128: a strand, or the record that a launch queue holds, blocked for WCPROBE atrium clocks sends a probe with its identity to what it
awaits; that it sends one again after each such interval, and that a launch's own probe ends where it returns, is the model's reading (log
entry 33). A copy that reaches a blocked unit is copied on with that unit's identity; one that reaches a unit that is not blocked is
discarded; one that returns to its strand leaves the trap of the cycle pending there. R354 and R355: with BKEN a strand stops before the
instruction at an enabled breakpoint, with the breakpoint's number reported, unless it resumes there; with HALT a group stops at its turn.
What INFO holds in a stop for HALT the spec leaves open (log entry 4); that every outstanding instruction is captured is the model's choice
(log entry 13). R389: a window of 256 clocks of a die begins with a budget within 32 of the last; a matrix job that would exceed it is
held, and each team with such a job counts a stall; any other budget is no window. That a job's own occupancy is held against the budget,
and that a team counts once in a window, is the model's reading (log entry 41). -/
def Obligations.ProbesStopsAndGovernor : Prop :=
 (∀ (s : State) (T G X idx q : Nat) (pl : Nat × Nat) (h g : Here) (us : List ProbeUnit) (p : Probe),
    let sent := fun (z : State) (self : ProbeUnit) (by_ : Waiter) => ∃ ps, z.uid = s.uid + 1 ∧ z.probes = s.probes ++ ps ∧
      ps.map (·.target) = us.take 64 ∧ ∀ c ∈ ps, c.path = [s.unitId self] ∧ c.sender = by_ ∧ c.id = s.uid
    let rest := s.probes.eraseIdx idx
    let passes := (s.unitAwaits p.target = none → exec (.waitProbeArrive idx) s = .next { s with probes := rest }) ∧
      (s.unitAwaits p.target = some us → ∃ z, exec (.waitProbeArrive idx) s = .next z ∧
        z = { s with probes := z.probes } ∧ (z.probes.drop rest.length).map (·.target) = us.take (64 - p.copies) ∧
        ∀ c ∈ z.probes.drop rest.length, c.path = p.path ++ [s.unitId p.target] ∧ c.sender = p.sender ∧ c.id = p.id)
    (s.at ⟨T, G, X⟩ = some h → s.maySend h = some us → 3 * s.wcprobe ≤ 4 * (s.clock - h.strand.since) ∧ h.strand.waitCycle = none ∧
      ∃ z, exec (.waitProbeSend .strand T (G, X)) s = .next z ∧ z = { s with teams := z.teams, uid := z.uid, probes := z.probes } ∧
        sent z h.probeUnit (.strand T G X) ∧ ∃ k, z.at ⟨T, G, X⟩ = some k ∧ k.strand = { h.strand with since := s.clock }) ∧
    ((s.lq q).got ≠ none → 3 * s.wcprobe ≤ 4 * (s.clock - (s.lq q).since) → s.unitAwaits ((s.lq q).heldUnit q) = some us →
      ∃ z, exec (.waitProbeSend .launch q pl) s = .next z ∧ z = { s with lqs := z.lqs, uid := z.uid, probes := z.probes } ∧
        sent z ((s.lq q).heldUnit q) (.launch q) ∧ z.lq q = { s.lq q with since := s.clock } ∧ ∀ n, n ≠ q → z.lq n = s.lq n) ∧
    (s.probes[idx]? = some p → s.onCycle (p.path.headD 0) = false →
      (p.sender = .strand T G X → s.at ⟨T, G, X⟩ = some g →
        (p.target = g.probeUnit → s.blocked g = true → g.strand.waitCycle = none → ∃ z k, exec (.waitProbeArrive idx) s = .next z ∧
          z = { s with teams := z.teams, probes := rest } ∧ z.at ⟨T, G, X⟩ = some k ∧
          k.strand = { g.strand with waitCycle := some (p.path.take 16) }) ∧
        (p.target ≠ g.probeUnit → passes)) ∧
      (p.sender = .launch q →
        (p.target = (s.lq q).heldUnit q → exec (.waitProbeArrive idx) s = .next { s with probes := rest }) ∧
        (p.target ≠ (s.lq q).heldUnit q → passes)))) ∧
 (∀ (s s1 : State) (h : Here) (bp : Nat), s.here = some h → bp < 4 →
    let c := s.ctx h.team.asid
    let b := c.dbgBp.getD bp 0
    let hit := c.dbgCtl.getLsbD 0 = true ∧ b.getLsbD 0 = true ∧ h.strand.pc.toNat < 2 ^ 57 ∧
      b.toNat / 4 % 2 ^ 55 = h.strand.pc.toNat / 4 ∧ h.strand.skipStop ≠ some h.strand.pc
    let stopped := fun (u : State) (k : Here) => u.here = some k ∧ k.group.handler = none ∧ k.strand.pc = h.strand.pc ∧
      k.strand.exec = h.strand.exec ∧ k.strand.fwd = [] ∧ k.strand.lanes = h.strand.lanes ∧ (∃ d, k.group.dbg = some d ∧ d.sid = h.strand.sid ∧
        d.inHandler = false ∧ d.captured = h.group.pending ∧ d.mark = some h.strand.pc) ∧
      k.group.pending = [] ∧ ScalarsKept h k ∧ PredsKept h k ∧ TeamKept h k ∧ FlagsKept h k ∧ ModesKept h k
    let free := h.group.handler = none ∧ h.group.dbg = none ∧ (∀ p ∈ h.group.pending, p.capturable = true) ∧
      h.group.pending.length ≤ 16 ∧ s.runBusy h.team.asid (s.frameAddr h.team h.grp) 0x5400 = false
    let frame := fun (info : Nat) => frameBytes (Report.dbg info) h.grp h.strand h.strand.pc h.group.pending
    (¬hit → exec (.breakpointStop bp) s = .next s) ∧
    (hit → free → s.machineWrite h.team.agent (s.frameAddr h.team h.grp) (frame bp) = some s1 → s1.teams = s.teams → s1.cur = s.cur →
      ∃ u k, exec (.breakpointStop bp) s = .next u ∧ stopped u k ∧ u.mem = s1.mem) ∧
    (c.dbgCtl.getLsbD 2 = false → exec (.debugHaltStop h.team.info.uid h.group.num) s = .next s) ∧
    (c.dbgCtl.getLsbD 2 = true → h.group.dbg = none → ∃ info, info < 65536 ∧ exec (.debugHaltStop h.team.info.uid h.group.num) s =
      .next (({ s with freeN := s.freeN + 1 } : State).takeStop h (Report.halt info) h.strand.pc))) ∧
 (∀ (s : State) (d b : Nat), d < 12 → s.dies.length = 12 → (s.teams.map fun t => t.info.uid).Nodup →
    let old := (s.die d).budget
    let holds := fun (t : Team) => coreDie t.core = d ∧ ∃ j ∈ s.jobs, j.team = t.info.uid ∧ j.isMatrix = true ∧ b < j.units ∧
      ∃ h, s.jobHere j = some h ∧ s.couldStart j h = true
    (b ≤ 256 → b ≤ old + 32 → old ≤ b + 32 → (s.die d).window < s.clock / 256 → ∃ z, exec (.governorWindow d b) s = .next z ∧
      (z.die d).budget = b ∧ (z.die d).window = s.clock / 256 ∧
      (∀ e, e ≠ d → z.die e = s.die e) ∧ z = { s with dies := z.dies, teams := z.teams, records := z.records } ∧
      (∀ (j : Job) h, coreDie j.core = d → j.isMatrix = true → b < j.units → z.mayStart j h = false) ∧
      (∀ j : Job, j.units ≤ 256) ∧
      ∀ u t, s.team? u = some t → ∃ t1, z.team? u = some t1 ∧ t1 = { t with govStalls := t1.govStalls } ∧
        (holds t → t1.govStalls = t.govStalls + 1) ∧ (¬holds t → t1 = t)) ∧
    (256 < b ∨ old + 32 < b ∨ b + 32 < old ∨ s.clock / 256 ≤ (s.die d).window → exec (.governorWindow d b) s = .next s))

/-! ## Pages, pre-emption, failures and errors -/

/-- R155 and R376: the driver's answer for a page releases every access parked on it; one for a page that nothing awaits is ignored, but for
PRSPVA. The host answers a translation request for a HOST leaf with the page's address, which the translation caches then hold, or refuses
it, and a page request leaves the package as soon as fewer than 64 are outstanding (R370); a page that only range instructions await is
then passed over (R203). R157: the counts of accesses to HOST pages halve every 2^20 atrium clocks, which are
786 432 core clocks; a count of zero is no count. R156 and R377: an invalidation drops the leaves that it matches from the translation
caches at once: those of a range of an ASID, of an ASID, or all; the host's drops what ATS translated. It is finished once nothing
translated before it began is outstanding; the driver's is then signalled on vector 5. One invalidation of the driver is in progress at a
time. That ATS answers for one 32 KiB page, that its invalidation drops only HOST entries, and what an invalidation waits for, are the
model's choices and readings (log entry 10). -/
def Obligations.PagesAndInvalidation : Prop :=
 (∀ (s : State) (va : DWord) (asid a : Nat) (ok : Bool) (e : DWord), asid < 256 →
    let page := va.toNat / 2 ^ 15
    let parked := ∃ m ∈ s.misses, m.asid = asid ∧ m.page = page
    let asked := ∃ m ∈ s.misses, m.asid = asid ∧ m.page = page ∧ m.host = true ∧ m.posted = true
    let waits := ∃ m ∈ s.misses, m.asid = asid ∧ m.page = page ∧ m.host = true ∧ m.denied = false
    let ranged := ∃ m ∈ s.misses, m.asid = asid ∧ m.page = page ∧ m.ranged = true
    let ready := s.manage.ready.getLsbD 1 = true
    (ready → parked → ∃ z, exec (.pageResponse va asid ok) s = .next z ∧ z.manage = { s.manage with prspVa := va } ∧
      z.tlb = s.tlb ∧ PageAnswered s z page asid ok) ∧
    (ready → ¬parked → exec (.pageResponse va asid ok) s = .next { s with manage := { s.manage with prspVa := va } }) ∧
    (asked → ∃ z, exec (.hostPageResponse va asid ok) s = .next z ∧ z.manage = s.manage ∧ z.tlb = s.tlb ∧ PageAnswered s z page asid ok) ∧
    (¬asked → exec (.hostPageResponse va asid ok) s = .next s) ∧
    (waits → s.hostLeaf asid (page * 2 ^ 15) = some e →
      (∃ z, exec (.atsTranslation va asid (some a)) s = .next z ∧
        z.tlb = s.tlb ++ [⟨asid, page * 2 ^ 15, 2 ^ 15, e, some (a / 2 ^ 15 * 2 ^ 15)⟩] ∧ z.manage = s.manage ∧ PageAnswered s z page asid true) ∧
      (ranged → ∃ z, exec (.atsTranslation va asid none) s = .next z ∧ z.manage = s.manage ∧ z.tlb = s.tlb ∧ PageAnswered s z page asid false) ∧
      (¬ranged → ∃ z, exec (.atsTranslation va asid none) s = .next z ∧ z = { s with misses := z.misses } ∧
        z.misses.map (fun m => (m.asid, m.page, m.access, m.host)) = s.misses.map (fun m => (m.asid, m.page, m.access, m.host)) ∧
        (∀ m ∈ z.misses, m.asid = asid → m.page = page → m.denied = true) ∧
        (64 ≤ s.priOut → z.misses.map (·.posted) = s.misses.map (·.posted)) ∧
        (s.priOut < 64 → (∀ m ∈ s.misses, m.host = true → m.denied = true → m.posted = true) →
          ∃ m ∈ z.misses, m.asid = asid ∧ m.page = page ∧ m.host = true ∧ m.posted = true))) ∧
    (waits → s.hostLeaf asid (page * 2 ^ 15) = none → ∃ z, exec (.atsTranslation va asid (some a)) s = .next z ∧ z.tlb = s.tlb ∧
      PageAnswered s z page asid true) ∧
    (¬waits → exec (.atsTranslation va asid (some a)) s = .next s)) ∧
 (∀ (s : State),
    (s.migDecays < s.clock / 786432 → ∃ z, exec .migrationCountDecay s = .next z ∧ z.migDecays = s.migDecays + 1 ∧ z.teams = s.teams ∧ z.tlb = s.tlb ∧
      (∀ c, c ∈ z.migCounts ↔ c.2 ≠ 0 ∧ ∃ n, (c.1, n) ∈ s.migCounts ∧ c.2 = n / 2)) ∧
    (s.clock / 786432 ≤ s.migDecays → exec .migrationCountDecay s = .next s)) ∧
 (∀ (s : State) (asid len : Nat) (va : DWord) (v : Inval) (rest : List Inval), asid < 256 → s.manage.ready.getLsbD 1 = true →
    (∀ e ∈ s.tlb, e.base < 2 ^ 57 ∧ 0 < e.size) →
    let drops := fun (i : Instr) (who : Option Nat) (base len : Nat) (host : Bool) (hit : TlbEntry → Prop) =>
      ∃ z, exec i s = .next z ∧ z = { s with tlb := z.tlb, invals := s.invals ++ [⟨who, base, len, host, s.uid⟩] } ∧
        ∀ e, e ∈ z.tlb ↔ e ∈ s.tlb ∧ ¬hit e
    let meets := fun (e : TlbEntry) (base len : Nat) => e.asid = asid ∧ e.base < base + len ∧ base < e.base + e.size
    ((∀ w ∈ s.invals, w.host = true) →
      drops (.invalidateRange asid) (some asid) s.manage.invVa.toNat s.manage.invLen.toNat false
        (fun e => meets e s.manage.invVa.toNat s.manage.invLen.toNat) ∧
      drops (.invalidateAsid asid) (some asid) 0 (2 ^ 64) false (fun e => e.asid = asid) ∧
      drops .invalidateAll none 0 (2 ^ 64) false fun _ => True) ∧
    ((∃ w ∈ s.invals, w.host = false) → exec (.invalidateRange asid) s = .next s ∧ exec (.invalidateAsid asid) s = .next s ∧
      exec .invalidateAll s = .next s) ∧
    drops (.atsInvalidation va len asid) (some asid) va.toNat len true (fun e => meets e va.toNat len ∧ e.hostBase ≠ none) ∧
    (s.invals = v :: rest →
      (∀ t ∈ s.teams, (v.asid = none ∨ v.asid = some t.asid) → ∀ g ∈ t.groups, ∀ p ∈ g.outstanding, p.seq < v.limit → p.locs = []) →
      (∀ j ∈ s.jobs, j.phase = .started → v.limit ≤ j.uid) →
      exec .invalidationComplete s = .next { s with invals := rest, records := { s.records with
        msix := s.records.msix ++ if v.host then [] else [5] } }) ∧
    ((∀ w ∈ s.invals, ∃ t ∈ s.teams, (w.asid = none ∨ w.asid = some t.asid) ∧ ∃ g ∈ t.groups, ∃ p ∈ g.outstanding, p.seq < w.limit ∧
      p.locs ≠ []) → exec .invalidationComplete s = .next s))

/-- R357, R361 and R375: a pre-emption of a context chooses for each of its running teams whether it drains, is flushed or is saved; with
SWITCH the context is switched out, until RESUME. Without a team to wait for it is finished at once, which vector 4 signals. While one is
in progress a write of PREEMPT does nothing. -/
def Obligations.PreemptCommands : Prop :=
  ∀ (s : State) (asid : Nat) (d : BitVec 32), asid < 256 → s.manage.ready.getLsbD 1 = true →
    let elapsed := fun (t : Team) => s.clock - t.started
    let soon := fun (t : Team) => ∃ g, s.grid? t.info.grid = some g ∧ g.ended ≠ 0 ∧ g.runTime / g.ended ≤ elapsed t + d.toNat
    let saves := fun (t : Team) => (∃ g ∈ t.groups, g.handler ≠ none) ∨ t.spawned = true
    let mine := fun (t : Team) => t.asid = asid ∧ t.mode = .running
    let begins := fun (i : Instr) (sw : Bool) => ∃ z, exec i s = .next z ∧ z.mem = s.mem ∧ z.jobs = s.jobs ∧
      z.manage.preempt = ⟨z.manage.preempt.busy, false, 0, 0, asid, sw⟩ ∧
      (z.manage.preempt.busy = true ↔ ∃ t ∈ s.teams, t.asid = asid) ∧
      z.records = { s.records with msix := s.records.msix ++ if z.manage.preempt.busy then [] else [4] } ∧
      (∀ a, a ≠ asid → z.ctx a = s.ctx a) ∧ z.ctx asid = { s.ctx asid with out := sw || (s.ctx asid).out } ∧
      z.teams.length = s.teams.length ∧ ∀ (n : Nat) (t : Team), s.teams[n]? = some t → ∃ u : Team, z.teams[n]? = some u ∧ u = { t with mode := u.mode } ∧
        (¬mine t → u.mode = t.mode) ∧
        (mine t → saves t → u.mode = .saving) ∧
        (mine t → ¬saves t → soon t → u.mode = .drain (s.clock + d.toNat)) ∧
        (mine t → ¬saves t → ¬soon t → t.info.header.idem = true → elapsed t < t.info.header.footprint / 64 + 4096 → u.mode = .flushing) ∧
        (mine t → ¬saves t → ¬soon t → t.info.header.idem = false ∨ t.info.header.footprint / 64 + 4096 ≤ elapsed t → u.mode = .saving)
    (s.manage.preempt.busy = false → begins (.preemptGo asid d) false ∧ begins (.preemptSwitch asid d) true ∧
      ∃ z, exec (.preemptResume asid) s = .next z ∧ z = { s with ctxs := z.ctxs } ∧ (∀ a, a ≠ asid → z.ctx a = s.ctx a) ∧
        z.ctx asid = { s.ctx asid with out := false }) ∧
    (s.manage.preempt.busy = true → ∀ i ∈ [Instr.preemptGo asid d, .preemptSwitch asid d, .preemptResume asid], exec i s = .next s)

/-- R357, R358, R360 and R375: a draining team that has not ended by its deadline is saved. A team whose started work is done is written
to the save area and kept with its rows, tiles, accumulators, rings, groups, open jobs and queue bindings, and leaves its core; one that
does not fit in the save area stays, and PSTAT says so. A flushed team is discarded and queued again; one whose grid has failed is
discarded (R110). A team of whose class no die is left fails its grid with CLASS_LOST (R29). R359: a saved team that fits on a core of its
class is restored there: its rows, tiles, accumulators, rings, groups and queue bindings are as they were saved, its forwarding windows
are empty (R90), its open jobs re-enter in their order, its old core's identity still reaches it, and the frame of a group that was stopped
is written to that group's new slot. Where the bytes of the save area stand the spec leaves open (log entry 4); which outstanding
instructions complete before a save or a flush is the model's reading (log entry 34). -/
def Obligations.TeamsMove : Prop :=
 (∀ (s u v : State) (n at_ : Nat) (t : Team) (g : Grid) (fs : SMap (List Byte)) (b : Nat → Nat), s.team? n = some t →
    s.grid? t.info.grid = some g →
    let i := s.rebound t.info
    let area := (s.ctx t.asid).save.toNat + s.saveUsed t.asid
    let left := fun (z : State) => z.teams = s.teams.filter (fun x => x.info.uid != n) ∧ (∀ j ∈ z.jobs, j.team ≠ n) ∧ (∀ q ∈ z.queues, q.2.team ≠ n)
    let started := ∃ j ∈ s.jobs, j.team = n ∧ j.phase = .started
    let lost := fun (j : Instr) => ∃ z g1, exec j s = .next z ∧ z.grid? t.info.grid = some g1 ∧ g1.failed = some 0x31 ∧ ∀ x ∈ z.saved, x.info.grid ≠ t.info.grid
    (t.mode = .drain at_ → at_ ≤ s.clock → ∃ z, exec (.preemptDeadline n) s = .next z ∧ z = { s with teams := z.teams } ∧
      z.team? n = some { t with mode := .saving } ∧ ∀ m, m ≠ n → z.team? m = s.team? m) ∧
    (t.mode = .drain at_ → s.clock < at_ → exec (.preemptDeadline n) s = .next s) ∧
    (t.mode = .saving → ¬started → (∀ x ∈ t.groups, x.pending = []) → t.rings = [] → s.busyLines = [] →
      (∀ q ∈ s.queues, q.2.team = n → q.2.store = false ∨ q.2.vecs = []) → s.saveReady t = true) ∧
    (t.mode = .flushing → ¬started → (∀ x ∈ t.groups, x.pending = []) → s.flushReady t = true) ∧
    (s.saveReady t = false → exec (.teamSave n) s = .next s) ∧ (s.flushReady t = false → exec (.teamFlush n) s = .next s) ∧
    (s.saveReady t = true → s.saveUsed t.asid + t.info.header.saveSize ≤ (s.ctx t.asid).saveLen.toNat →
      Writable s t.asid area t.info.header.saveSize b → (∀ x ∈ t.groups, x.handler = none ∧ x.dbg = none) → i.removed.getLsbD i.cls = false →
      ∃ z w, exec (.teamSave n) s = .next z ∧ left z ∧ z.saved = s.saved ++ [w] ∧ SavedAs s t i w ∧ w.frames = [] ∧
        (∀ a, (∀ j, j < t.info.header.saveSize → b j ≠ a) → z.mem.byte a = s.mem.byte a) ∧ z.grids = s.grids ∧ z.tasks = s.tasks ∧
        z.manage.preempt.saved = s.manage.preempt.saved + 1) ∧
    (s.saveReady t = true → s.saveWrite t = some u → u.readFrames t t.groups = (some fs, v) → v.teams = s.teams → v.grids = s.grids →
      v.jobs = s.jobs → v.queues = s.queues → v.clock = s.clock → v.saved = s.saved →
      (i.removed.getLsbD i.cls = false → ∃ z w, exec (.teamSave n) s = .next z ∧ left z ∧ z.saved = s.saved ++ [w] ∧ SavedAs s t i w ∧
        w.frames = fs ∧ z.mem = v.mem ∧ z.manage.preempt.saved = v.manage.preempt.saved + 1) ∧
      (i.removed.getLsbD i.cls = true → g.failed = none → lost (.teamSave n))) ∧
    (s.saveReady t = true → (s.ctx t.asid).saveLen.toNat < s.saveUsed t.asid + t.info.header.saveSize →
      ∃ z, exec (.teamSave n) s = .next z ∧ z.team? n = some { t with mode := .running } ∧ z.manage.preempt.partialSave = true ∧
        z.saved = s.saved ∧ z.mem = s.mem) ∧
    (s.flushReady t = true →
      (g.failed = none → i.removed.getLsbD i.cls = false → s.classUp i.cls = true →
        ∃ z k, exec (.teamFlush n) s = .next z ∧ left z ∧ z.tasks = s.tasks ++ [k] ∧ k.info = i ∧
          z.manage.preempt.flushed = s.manage.preempt.flushed + 1) ∧
      (g.failed = none → i.removed.getLsbD i.cls = true → lost (.teamFlush n)) ∧
      (g.failed ≠ none → ∃ z, exec (.teamFlush n) s = .next z ∧ left z ∧ z.tasks = s.tasks ∧ z.grids = s.grids ∧ z.mem = s.mem))) ∧
 (∀ (s : State) (n core num : Nat) (t : Team) (gu : Group) (bs : List Byte) (b : Nat → Nat), s.savedTeam? n = some t →
    t.info.inBlock = false → coreNamed core = true → s.dieUp (coreDie core) = true → dieClass (coreDie core) = t.info.cls →
    s.restorable t = true → s.fitsSaved core t = true → (t.bound.map (·.1)).Nodup →
    let moved := t.resumed core s.clock (s.slotsHeld core)
    let back := fun (P : State → Prop) => ∃ z u, exec (.teamRestore n core) s = .next z ∧ z.teams = s.teams ++ [u] ∧
      z.saved = s.saved.filter (fun x => x.info.uid != n) ∧ z.tasks = s.tasks ∧ P z ∧
      u.info = t.info ∧ u.core = core ∧ u.asid = t.asid ∧ t.core ∈ u.aliases ∧ (∀ a ∈ t.aliases, a ∈ u.aliases) ∧ u.mode = .running ∧
      u.started = s.clock - t.started ∧ u.rows = t.rows ∧ u.rowPoison = t.rowPoison ∧ u.tiles = t.tiles ∧ u.accs = t.accs ∧ u.rings = t.rings ∧
      u.tagsDone = t.tagsDone ∧ u.tagsFly = t.tagsFly ∧ u.jflags = t.jflags ∧ u.locks = t.locks ∧ u.bars = t.bars ∧ u.fails = t.fails ∧
      u.groups.map (fun g => { g with barrel := 0, slot := 0, due := 0, strands := [] }) =
        t.groups.map (fun g => { g with barrel := 0, slot := 0, due := 0, strands := [] }) ∧
      u.groups.map (fun g => g.strands.map fun x => (x.sid, x.pc, x.lanes, x.exec, x.stack)) =
        t.groups.map (fun g => g.strands.map fun x => (x.sid, x.pc, x.lanes, x.exec, x.stack)) ∧
      (∀ g ∈ u.groups, ∀ x ∈ g.strands, x.fwd = []) ∧
      (∃ js, z.jobs = s.jobs ++ js ∧ js.map (fun j => { j with core := 0, edges := [], park := none, refused := [] }) =
        t.openJobs.map (fun j => { j with core := 0, edges := [], park := none, refused := [] }) ∧ ∀ j ∈ js, j.core = core) ∧
      (∀ q ∈ t.bound, z.queues.find (16 * core + q.1) = some q.2) ∧
      ∀ k, (∀ q ∈ t.bound, 16 * core + q.1 ≠ k) → z.queues.find k = s.queues.find k
    (t.frames = [] → (∀ g ∈ t.groups, g.handler = none ∧ g.dbg = none) → back fun z => z.mem = s.mem) ∧
    (t.frames = [(num, bs)] → bs.length = 0x5200 → moved.group? num = some gu → s.framesBusy moved = false →
      Writable s t.asid (s.frameAddr moved gu) 0x5200 b → back fun z => (∀ j x, bs[j]? = some x → z.mem.byte (b j) = x) ∧
        ∀ a, (∀ j, j < 0x5200 → b j ≠ a) → z.mem.byte a = s.mem.byte a))

/-- R24, R29, R334 and R365: a die that fails, or loses its last link module, is fenced: it holds no line and no copy, lines that it alone
held current are poisoned, and no team stays on it. A team that may not run again, since its header does not set IDEM or it has spawned,
fails its grid with CLASS_LOST. Another is queued again: the grid of a launched one has lost the die's class and is bound to the first one
after it in its contract's order that is left, else to the first before it, and the team waits on an available die of that class. Which
lines are poisoned, and that a team whose groups have ended is not touched, is the model's reading (log entry 35). A die that is fenced
already is not changed (log entry 25). R367, R371, R372 and Table 23-1: a lost port
clears its READY bit, and its package is reached no more; a failed stack sets its FENCED bit. Each is recorded and signalled on vector 1.
R362, R364, R388 and Table 21-9: a correctable error is recorded and has no other effect. An uncorrectable one is recorded and contained
where it was found: rows, tiles, accumulators, lines and task entries become poisoned, a clean copy is dropped, and a context whose
counter is lost in both copies, or which is at fault, has had a fatal error. -/
def Obligations.FailuresAndErrors : Prop :=
 (∀ (s : State) (d n : Nat), d < 12 → s.dies.length = 12 →
    let fenced := fun (z : State) => z.manage.fenced.getLsbD d = true ∧ z.manage.ready = s.manage.ready ∧ z.dies.length = 12 ∧
      (∀ l, ((z.dirLine l).of d).1 = .i) ∧ (z.die d).up = [] ∧ (z.die d).down = [] ∧ (z.die d).lines = [] ∧
      (∀ c ∈ z.copies, c.level.onDie d = false) ∧
      (∀ p ∈ s.dir, ((s.dirLine p.1).of d).1 = .o ∨ (((s.dirLine p.1).of d).1 = .m ∧ (s.dirLine p.1).vs = false) → z.poisoned p.1 = true) ∧
      (∀ l, s.poisoned l = true → z.poisoned l = true) ∧
      (∀ t ∈ z.teams, coreDie t.core = d → s.over t = true) ∧
      (∀ t ∈ s.teams, coreDie t.core = d → s.over t = false → t.info.header.idem = false ∨ t.spawned = true →
        ∀ g, s.grid? t.info.grid = some g → g.failed = none → ∃ g1, z.grid? t.info.grid = some g1 ∧ g1.failed = some 0x31)
    let again := fun (z : State) => ∀ (t : Team) (g : Grid), t ∈ s.teams → coreDie t.core = d → s.over t = false → t.info.header.coloc < 2 →
      (s.grids.map (·.uid)).Nodup → s.grid? t.info.grid = some g → g.failed = none → g.cls = dieClass d →
      (∀ u ∈ s.teams, u.info.grid = t.info.grid → u.info.parent = none ∧
        (coreDie u.core = d → s.over u = false → u.info.header.idem = true ∧ u.spawned = false)) →
      (∀ k ∈ s.tasks, k.info.grid = t.info.grid → k.info.parent = none) → (∀ w ∈ s.saved, w.info.grid = t.info.grid → w.info.parent = none) →
      (∃ e, e < 12 ∧ e ≠ d ∧ s.dieUp e = true ∧ dieClass e ≠ dieClass d ∧ g.removed.getLsbD (dieClass e) = false) →
      ∃ g1 k e, z.grid? t.info.grid = some g1 ∧ g1.failed = none ∧ g1.removed = g.removed ||| BitVec.ofNat 4 (2 ^ dieClass d) ∧
        g1.removed.getLsbD g1.cls = false ∧
        (g.header.contract ≠ 0 → z.rebindClass g.header.contract g1.removed (dieClass d) = some g1.cls) ∧
        k ∈ z.tasks ∧ k.info = { t.info with cls := g1.cls, removed := g1.removed } ∧
        k.place = .die e ∧ z.dieUp e = true ∧ dieClass e = g1.cls ∧ ∀ x ∈ z.teams, x.info.uid ≠ t.info.uid
    (s.manage.fenced.getLsbD d = false → ∃ z, exec (.dieFailure d) s = .next z ∧ fenced z ∧ again z) ∧
    (s.manage.fenced.getLsbD d = true → exec (.dieFailure d) s = .next s) ∧
    (0 < n → n < (s.die d).modules → ∃ z, exec (.linkModulesLost d n) s = .next z ∧ (z.die d).modules = (s.die d).modules - n ∧
      (∀ e, e ≠ d → z.die e = s.die e) ∧ Recorded s z 6 ∧ z.teams = s.teams ∧ z.dir = s.dir ∧ z.manage.fenced = s.manage.fenced) ∧
    (0 < (s.die d).modules → (s.die d).modules ≤ n → s.manage.fenced.getLsbD d = false →
      ∃ z, exec (.linkModulesLost d n) s = .next z ∧ fenced z)) ∧
 (∀ (s : State) (n pkg : Nat), n < 8 →
    let m := s.manage
    let bit := fun (k : Nat) => BitVec.ofNat 64 (2 ^ k)
    let changed := fun (z : State) (r f : DWord) => Recorded s z 2 ∧ z.records.msix.getLast? = some 1 ∧
      z.manage = { m with ready := r, fenced := f, evTail := z.manage.evTail } ∧ z.teams = s.teams
    (∃ z, exec (.ualinkPortLost n pkg) s = .next z ∧ changed z (m.ready &&& ~~~bit (22 + n)) m.fenced ∧
      ∀ p, p ∈ z.records.lostPackages ↔ p = pkg ∨ p ∈ s.records.lostPackages) ∧
    (m.fenced.getLsbD (12 + n) = false → ∃ z, exec (.stackFailure n) s = .next z ∧ changed z m.ready (m.fenced ||| bit (12 + n)) ∧
      z.records.lostPackages = s.records.lostPackages) ∧
    (m.fenced.getLsbD (12 + n) = true → exec (.stackFailure n) s = .next s)) ∧
 (∀ (s : State) (e T n l d a : Nat) (t : Team) (k : Task) (c : Copy),
    let does := fun (x : ErrSite) (P : State → Prop) => ∃ z, exec (.errorUncorrectable x) s = .next z ∧ P z
    let poisons := fun (z : State) => ∀ x, z.poisoned x = true ↔ x = l ∨ s.poisoned x = true
    (∃ z, exec (.errorCorrectable e) s = .next z ∧ OnlyRecorded s z 3) ∧
    (∀ x ∈ [ErrSite.counterOneCopy n, .linkFlit d], does x fun z => OnlyRecorded s z 4) ∧
    (s.team? T = some t → does (.coreRow T n) fun z => Recorded s z 4 ∧ z.team? T = some { t with rowPoison := addNat n t.rowPoison }) ∧
    (s.team? T = some t → n < t.tiles.length → does (.tile T n) fun z => Recorded s z 4 ∧
      ∃ u, z.team? T = some u ∧ u = { t with tiles := u.tiles } ∧ u.tiles[n]? = (t.tiles[n]?).map (fun x => { x with poison := true }) ∧
        ∀ m, m ≠ n → u.tiles[m]? = t.tiles[m]?) ∧
    (s.team? T = some t → n < t.accs.length → does (.accumulator T n) fun z => Recorded s z 4 ∧
      ∃ u, z.team? T = some u ∧ u = { t with accs := u.accs } ∧ u.accs[n]? = (t.accs[n]?).map (fun x => { x with poison := true }) ∧
        ∀ m, m ≠ n → u.accs[m]? = t.accs[m]?) ∧
    does (.memoryLine l) (fun z => Recorded s z 4 ∧ poisons z ∧ z.teams = s.teams) ∧
    does (.check d l) (fun z => Recorded s z 12 ∧ poisons z ∧ z.teams = s.teams) ∧
    (s.tasks.find? (fun x => x.info.uid == n) = some k → does (.queueSram n) fun z => Recorded s z 4 ∧
      z.tasks.map (·.info) = s.tasks.map (·.info) ∧ ∃ x, z.tasks.find? (fun x => x.info.uid == n) = some x ∧ x = { k with poisoned := true }) ∧
    (s.copyAt (.die d) l = some c → (s.dieKnows d l).state = .i → does (.cache (.die d) l) fun z => Recorded s z 4 ∧
      z.copyAt (.die d) l = none ∧ (c.dirty = 0 → z.poison = s.poison) ∧ (c.dirty ≠ 0 → poisons z)) ∧
    does (.counterBoth n a) (fun z => FatalTo s z a ∧ ∀ m, m ≠ n → z.counter m = s.counter m) ∧
    does (.contextFatal a) (fun z => FatalTo s z a))

/-! ## Coherence, the host and Toard -/

/-- R330 to R333, R340 and Table 19-6: what a die does with a message from a home, the oldest on its link: DATA and GRANT answer its
request; INV drops its copy and UPD replaces its rendering, and both are acknowledged; an owner that is asked for the line supplies it,
keeping S or O after FWDS and nothing after FWDX, unless it has been evicted; WBACK frees the write-back buffer and WTACK ends a
written-through store. R326, R327 and R332: a core's request for tokens of a line that its die may give is met on the die, all 128 for a
write, unless the die serves another core's persistent request for it; otherwise the request has failed and the die asks the home, for a
view load at its view (R330), unless it has asked already. After four failed requests a core whose access is still outstanding takes its
slot for a persistent request, which takes all tokens, and keeps it until the access is performed. What counts as a failed request is the
model's reading (log entry 36). -/
def Obligations.CoherenceAtDie : Prop :=
 (∀ (s : State) (d l : Nat) (rest : List DownMsg) (st : DirState) (v : Option View), d < s.dies.length →
    let x := s.dieKnows d l
    let got := fun (i : Instr) (m : DownMsg) (y : DieLine) (sent : List UpMsg) => (s.die d).down = m :: rest →
      ∃ z, exec i s = .next z ∧ z = { s with dies := z.dies } ∧ z.dieKnows d l = y ∧ (z.die d).down = rest ∧
        (z.die d).up = (s.die d).up ++ sent ∧ (∀ e, e ≠ d → z.die e = s.die e) ∧ ∀ k, k ≠ l → z.dieKnows d k = s.dieKnows d k
    let none_ : DieLine := { x with state := .i, view := none, tokens := ⟨[], none⟩ }
    let has := (x.state = .e ∨ x.state = .m ∨ x.state = .o) ∧ x.inBuffer = false
    got (.data d) (.data l st v) { x with state := st, view := v, want := none, tokens := ⟨[], none⟩ } [] ∧
    got (.grant d) (.grant l) { x with state := .m, view := none, want := none } [] ∧
    got (.inv d) (.inv l) none_ [.ack l] ∧
    got (.upd d) (.upd l) x [.ack l] ∧
    (has → got (.fwds d) (.fwds l) { x with state := if x.state = .o then .o else .s } [.fdata l]) ∧
    (¬has → got (.fwds d) (.fwds l) x [.writtenBack l]) ∧
    (has → got (.fwdx d) (.fwdx l) none_ [.fdata l]) ∧
    (¬has → got (.fwdx d) (.fwdx l) x [.writtenBack l]) ∧
    got (.wback d) (.wback l) { x with inBuffer := false } [] ∧
    got (.wtack d) (.wtack l) x []) ∧
 (∀ (s : State) (c l : Nat) (write : Bool), coreNamed c = true → coreDie c < s.dies.length →
    let d := coreDie c
    let x := s.dieKnows d l
    let v := if write then none else s.viewWanted c l
    let full := x.view = none ∧ x.state ≠ .i
    let may := if write then x.view = none ∧ (x.state = .e ∨ x.state = .m) else full ∨ (x.state ≠ .i ∧ v ≠ none ∧ x.view = v)
    let held := fun (z : State) => (z.dieKnows d l).tokens
    let all : Tokens := ⟨[(c, 128)], some c⟩
    let ask : UpMsg := if write then (if full then .upg l else .rdx l) else .rds l v
    let others := fun (z : State) => ∀ e, e ≠ d → z.die e = s.die e
    let old := (s.die d).tries.get (0, 0) c
    let failed := fun (z : State) => (z.die d).tries.get (0, 0) c = (l, if old.1 = l then min 4 (old.2 + 1) else 1)
    (s.slotBars c l = true → ∃ z, exec (.tokenRequest c l write) s = .next z ∧ z = { s with dies := z.dies } ∧ others z ∧ failed z ∧
      (z.die d).lines = (s.die d).lines ∧ (z.die d).up = (s.die d).up) ∧
    (s.slotBars c l = false → may → ∃ z, exec (.tokenRequest c l write) s = .next z ∧ z = { s with dies := z.dies } ∧ others z ∧
      (z.die d).up = (s.die d).up ∧ (z.die d).tries.get (0, 0) c = (0, 0) ∧ (write = true → held z = all) ∧
      (x.view ≠ none → held z = x.tokens) ∧
      (write = false → x.view = none → x.tokens.held < 128 →
        0 < (held z).cores.get 0 c ∧ ∀ e, e ≠ c → (held z).cores.get 0 e = x.tokens.cores.get 0 e)) ∧
    (s.slotBars c l = false → ¬may → x.want ≠ none → ∃ z, exec (.tokenRequest c l write) s = .next z ∧ z = { s with dies := z.dies } ∧
      others z ∧ failed z ∧ (z.die d).lines = (s.die d).lines ∧ (z.die d).up = (s.die d).up) ∧
    (s.slotBars c l = false → ¬may → x.want = none → s.manage.fenced.getLsbD d = false →
      ∃ z, exec (.tokenRequest c l write) s = .next z ∧ others z ∧ failed z ∧
      z = { s with dies := z.dies, freeN := s.freeN + 1 } ∧ (z.dieKnows d l).want = some ask ∧
      (z.die d).up.take ((s.die d).up.length + 1) = (s.die d).up ++ [ask]) ∧
    (s.dieUp d = true → (s.die d).persistent = [] →
      let due := old = (l, 4) ∧ s.accessesTo c l ≠ []
      let slot := fun (z : State) => z = { s with dies := z.dies } ∧ others z ∧ (z.die d).persistent = [⟨c, l, write⟩] ∧
        (z.die d).served = some c
      (¬due → exec (.persistentRequest c l write) s = .next s) ∧
      (due → may → ∃ z, exec (.persistentRequest c l write) s = .next z ∧ slot z ∧ (x.view = none → held z = all) ∧ (z.die d).up = (s.die d).up) ∧
      (due → ¬may → x.want = none → ∃ z, exec (.persistentRequest c l write) s = .next z ∧ slot z ∧
        (z.dieKnows d l).want = some ask ∧ (z.die d).up = (s.die d).up ++ [ask])) ∧
    (s.dieUp d = true → (s.die d).persistent = [⟨c, l, write⟩] → s.accessesTo c l = [] → ∃ z, exec (.persistentRequest c l write) s = .next z ∧
      z = { s with dies := z.dies } ∧ others z ∧ (z.die d).persistent = [] ∧ (z.die d).lastServed = c ∧ (z.die d).lines = (s.die d).lines))

/-- R328 to R333 and Table 19-7: a request of a die waits in the queue of its line, in order of arrival and, in one atrium clock, in
ascending die id. A home at rest serves the oldest from the next clock on (log entry 36): a read gets the line, forwarded from its owner if
there is one; a request to write makes the other holders give the line up first; an upgrade of a die that holds it no more is served as a
read to write (R332); a store written through is performed, and the dies whose rendering it changed are told, as SUBUPD of its class says
(R323, R324, R329). A line that no other die holds may have to be filled. WB and the answers are taken in every state. A store of the
atrium itself waits in the same queue (log entry 36). R331, R386 and Table 19-7: a fill that arrives lets the request be answered; a line
that has been transient for longer than 65 536 atrium clocks is recorded once. -/
def Obligations.CoherenceAtHome : Prop :=
 (∀ (s : State) (d l r o cls came : Nat) (rest : List UpMsg) (more : List (Nat × Nat × UpMsg)) (v : Option View) (cs : List (Nat × Byte))
    (inv : Bool), d < 12 → d < s.dies.length → s.manage.fenced.getLsbD d = false →
    let x := s.dirLine l
    let gets := fun (i : Instr) (m : UpMsg) (P : State → Prop) => (s.die d).up = m :: rest →
      ∃ z, exec i s = .next z ∧ (z.die d).up = rest ∧ (∀ k, k ≠ l → z.dirLine k = s.dirLine k) ∧ z.teams = s.teams ∧ P z
    let served := fun (m : UpMsg) (P : State → Prop) => x.queue = (came, d, m) :: more → came < s.atriumNow →
      ∃ z, exec (.homeQueueServe l) s = .next z ∧ (z.dirLine l).queue = more ∧ (∀ k, k ≠ l → z.dirLine k = s.dirLine k) ∧ z.teams = s.teams ∧ P z
    let sends := fun (z : State) (e : Nat) (ms : List DownMsg) => (z.die e).down = (s.die e).down ++ ms
    let still := x.trans = .stable ∧ (x.dies.map (·.1)).Nodup
    let later := fun (e : Nat × Nat × UpMsg) => e.1 == s.atriumNow && decide (d < e.2.1)
    let waits := fun (i : Instr) (m : UpMsg) => gets i m fun z => z.mem = s.mem ∧
      z.dirLine l = { x with queue := x.queue.filter (fun e => !later e) ++ (s.atriumNow, d, m) :: x.queue.filter later }
    let others := x.dies.filter fun p => p.1 != d
    let full := (others.filter fun p => fullHeld p.2).map (·.1)
    let at_ := fun (z : State) (e : Nat) => (z.dirLine l).of e
    let moved := x.owner = some d ∧ x.trans = .fwd ∧ x.acks = [] ∧ r ≠ d
    let stored := fun (z : State) => (∀ c ∈ cs, z.mem.byte c.1 = c.2) ∧ ∀ b, (∀ c ∈ cs, c.1 ≠ b) → z.mem.byte b = s.mem.byte b
    let within := s.poisoned l = false ∧ (cs.map (·.1)).Nodup ∧ ∀ c ∈ cs, c.1 / 128 = l
    let redrawn := fun (z : State) => (others.filter fun p => match p.2.2 with
      | some w => w.changed (s.mem.read (128 * l) 128) (z.mem.read (128 * l) 128) (cs.map fun c => c.1 % 128)
      | none => false).map (·.1)
    waits (.rds d) (.rds l v) ∧ waits (.rdx d) (.rdx l) ∧ waits (.upg d) (.upg l) ∧ waits (.wt d) (.wt l cls cs) ∧
    (still → others ≠ [] → (∀ p ∈ others, owned p.2 = false) → served (.rds l v) fun z => at_ z d = (.s, v) ∧
      sends z d [.data l .s v] ∧ (∀ e, e ≠ d → at_ z e = x.of e) ∧ (z.dirLine l).trans = .stable ∧ z.mem = s.mem) ∧
    (still → others.find? (fun p => owned p.2) = some (o, .m, none) → o < s.dies.length → s.manage.fenced.getLsbD o = false →
      served (.rds l v) fun z => sends z o [.fwds l] ∧ (z.dirLine l).trans = .fwd ∧ (z.dirLine l).owner = some o ∧
        (z.dirLine l).serving = some (d, .rds l v) ∧ z.mem = s.mem) ∧
    (still → others = [] → served (.rds l v) fun z =>
      ((z.dirLine l).trans = .fill ∧ (z.dirLine l).serving = some (d, .rds l v)) ∨
      (at_ z d = (if v.isSome then .s else .e, v) ∧ sends z d [.data l (if v.isSome then .s else .e) v])) ∧
    (still → others ≠ [] → full = [] → (∀ p ∈ others, owned p.2 = false) → served (.rdx l) fun z => at_ z d = (.m, none) ∧
      sends z d [.data l .m none] ∧ ∀ e, e ≠ d → at_ z e = x.of e) ∧
    (still → full ≠ [] → (∀ p ∈ others, owned p.2 = false) → (∀ e ∈ full, e < s.dies.length ∧ s.manage.fenced.getLsbD e = false) →
      served (.rdx l) fun z => (z.dirLine l).trans = .fan ∧ (z.dirLine l).acks = full.map (fun e => (e, true)) ∧
        (z.dirLine l).serving = some (d, .rdx l) ∧ ∀ e ∈ full, sends z e [.inv l]) ∧
    (still → full = [] → (∀ p ∈ others, owned p.2 = false) → served (.upg l) fun z => at_ z d = (.m, none) ∧
      sends z d [if fullHeld (x.of d) then .grant l else .data l .m none]) ∧
    (still → within → (∀ p ∈ others, p.2.2 = none) → served (.wt l cls cs) fun z =>
      sends z d [.wtack l] ∧ (z.dirLine l).trans = .stable ∧ stored z) ∧
    (still → within → (∀ p ∈ others, p.1 < s.dies.length ∧ s.manage.fenced.getLsbD p.1 = false) → served (.wt l cls cs) fun z =>
      stored z ∧ let upd := s.manage.subupd.getLsbD cls
      (redrawn z = [] → (z.dirLine l).trans = .stable ∧ sends z d [.wtack l]) ∧
      (redrawn z ≠ [] → (z.dirLine l).trans = .fan ∧ (z.dirLine l).serving = some (d, .wt l cls cs) ∧
        (z.dirLine l).acks = (redrawn z).map (fun e => (e, !upd)) ∧ ∀ e ∈ redrawn z, sends z e [if upd then .upd l else .inv l])) ∧
    gets (.wb d) (.wb l) (fun z => at_ z d = (.i, none) ∧ sends z d [.wback l] ∧ z.mem = s.mem ∧ (∀ e, e ≠ d → at_ z e = x.of e)) ∧
    (x.acks = [(d, inv)] → x.trans = .fan → x.serving = some (r, .rdx l) → r ≠ d → gets (.ack d) (.ack l) fun z =>
      at_ z r = (.m, none) ∧ (z.dirLine l).trans = .stable ∧ (inv = true → at_ z d = (.i, none)) ∧ (z.dirLine l).acks = []) ∧
    (∀ as, x.acks = (d, inv) :: as → as ≠ [] → (∀ a ∈ as, a.1 ≠ d) → gets (.ack d) (.ack l) fun z =>
      (z.dirLine l).acks = as ∧ (z.dirLine l).trans = x.trans ∧ (z.dirLine l).serving = x.serving) ∧
    (moved → x.serving = some (r, .rds l v) → gets (.fdata d) (.fdata l) fun z => (z.dirLine l).trans = .stable ∧ at_ z r = (.s, v) ∧
      at_ z d = (if (x.of d).1 = .o then .o else .s, none)) ∧
    (moved → x.serving = some (r, .rdx l) → gets (.fdata d) (.fdata l) fun z => (z.dirLine l).trans = .stable ∧ at_ z r = (.m, none) ∧
      at_ z d = (.i, none)) ∧
    (moved → x.serving = some (r, .rdx l) → gets (.writtenBack d) (.writtenBack l) fun z => (z.dirLine l).trans = .stable ∧
      at_ z r = (.m, none) ∧ at_ z d = (.i, none))) ∧
 (∀ (s : State) (l d cls came : Nat) (m : UpMsg) (cs : List (Nat × Byte)) (rest : List (Nat × Nat × UpMsg)) (v : Option View),
    let x := s.dirLine l
    (x.queue = (came, 12, .wt l cls cs) :: rest → x.trans = .stable → came < s.atriumNow →
      (s.onLink l = true → exec (.homeQueueServe l) s = .next s) ∧
      (s.onLink l = false → s.poisoned l = false → (cs.map (·.1)).Nodup → (∀ c ∈ cs, c.1 / 128 = l) →
        ∃ z, exec (.homeQueueServe l) s = .next z ∧ (z.dirLine l).queue = rest ∧ z.teams = s.teams ∧ (∀ c ∈ cs, z.mem.byte c.1 = c.2) ∧
          (∀ b, (∀ c ∈ cs, c.1 ≠ b) → z.mem.byte b = s.mem.byte b) ∧
          (cs ≠ [] → ∀ e, fullHeld ((z.dirLine l).of e) = false))) ∧
    (x.queue = [] ∨ x.trans ≠ .stable → exec (.homeQueueServe l) s = .next s) ∧
    (x.queue = (came, d, m) :: rest → s.atriumNow ≤ came → exec (.homeQueueServe l) s = .next s) ∧
    (x.trans = .fill → (∀ p ∈ x.dies, p.1 = d) → d < s.dies.length → s.manage.fenced.getLsbD d = false →
      (x.serving = some (d, .rds l v) → ∃ z, exec (.homeFillData l) s = .next z ∧ (z.dirLine l).trans = .stable ∧
        (z.dirLine l).of d = (if v.isSome then .s else .e, v) ∧ (z.die d).down = (s.die d).down ++ [.data l (if v.isSome then .s else .e) v]) ∧
      (x.serving = some (d, .rdx l) → ∃ z, exec (.homeFillData l) s = .next z ∧ (z.dirLine l).trans = .stable ∧
        (z.dirLine l).of d = (.m, none) ∧ (z.die d).down = (s.die d).down ++ [.data l .m none])) ∧
    (x.trans ≠ .fill → exec (.homeFillData l) s = .next s) ∧
    (x.trans ≠ .stable → x.reported = false → 3 * 65536 < 4 * (s.clock - x.since) → ∃ z, exec (.homeTransientRecord l) s = .next z ∧
      Recorded s z 9 ∧ z.dirLine l = { x with reported := true } ∧ z.teams = s.teams) ∧
    (x.trans = .stable ∨ x.reported = true ∨ 4 * (s.clock - x.since) ≤ 3 * 65536 → exec (.homeTransientRecord l) s = .next s))

/-- R6, R335, R338, R371, R379 and R388: the host through BAR2 and other packages through UALink reach device memory at its home: a read
gives its bytes, and whether a line of them is poisoned; a write writes them, and poisons their lines when it comes with poison; an atomic
gives the old number and writes the new one, and is not performed on a poisoned line. While the home is at work on a line of them an access
waits (R331). Beyond MEMSIZE a read through BAR2 gives ones and a write changes nothing; what another package reads where there is no
memory is free (log entry 4). -/
def Obligations.OutsideAccesses : Prop :=
  ∀ (s : State) (off n : Nat) (bs : List Byte) (ep : Bool) (op : Aop) (ty : AType) (x e : DWord),
    let size := s.manage.memSize
    let clean := ∀ b, off ≤ b → b < off + n → b < size → s.poisoned (b / 128) = false
    let free := ∀ l ∈ s.busyLines, ∀ b, off ≤ b → b < off + n → b / 128 ≠ l
    let reads := fun (i : Instr) => free → ∃ z, exec i s = .next z ∧ z.mem = s.mem ∧ z.teams = s.teams ∧ z.poison = s.poison ∧
      z.records.lastRead.length = n ∧ (∀ k, k < n → z.records.lastRead.getD k 0 = if off + k < size then s.mem.byte (off + k) else 0xFF) ∧
      (z.records.lastPoison = true ↔ ∃ b, off ≤ b ∧ b < off + n ∧ b < size ∧ s.poisoned (b / 128) = true)
    let writes := fun (i : Instr) => bs.length = n → clean → free → ∃ z, exec i s = .next z ∧ z.teams = s.teams ∧
      (∀ b, z.mem.byte b = if off ≤ b ∧ b < off + n ∧ b < size then bs.getD (b - off) 0 else s.mem.byte b) ∧
      ∀ l, z.poisoned l = true ↔ s.poisoned l = true ∨ (ep = true ∧ ∃ b, off ≤ b ∧ b < off + n ∧ b < size ∧ b / 128 = l)
    let old := numOfBytes ((List.range n).map fun k => s.mem.byte (off + k))
    let sets := fun (i : Instr) (v : Option Nat) => off + n ≤ size → free →
      (clean → ∃ z, exec i s = .next z ∧ z.teams = s.teams ∧
        numOfBytes z.records.lastRead = old ∧ z.records.lastPoison = false ∧ z.poison = s.poison ∧
        ∀ b, z.mem.byte b = match v with
          | some v => if off ≤ b ∧ b < off + n then byteOf v (b - off) else s.mem.byte b
          | none => s.mem.byte b) ∧
      (¬clean → ∃ z, exec i s = .next z ∧ z.teams = s.teams ∧ z.records.lastPoison = true ∧ z.mem = s.mem ∧ z.poison = s.poison)
    let waits := fun (i : Instr) => ¬free → exec i s = .next s
    (off + n ≤ 2 ^ 39 → reads (.hostBar2Read off n) ∧ writes (.hostBar2Write off bs ep)) ∧
    (off + n ≤ 2 ^ 39 → waits (.hostBar2Read off n) ∧ (bs.length = n → waits (.hostBar2Write off bs ep))) ∧
    (2 ^ 39 < off + n → exec (.hostBar2Read off n) s = .next s ∧ (bs.length = n → exec (.hostBar2Write off bs ep) s = .next s)) ∧
    (off + n ≤ size → waits (.ualinkRemoteAccess (.read off n)) ∧ (bs.length = n → waits (.ualinkRemoteAccess (.write off bs ep)))) ∧
    (off + n ≤ size → reads (.ualinkRemoteAccess (.read off n)) ∧ writes (.ualinkRemoteAccess (.write off bs ep))) ∧
    (size < off + n → (∃ z, exec (.ualinkRemoteAccess (.read off n)) s = .next z ∧ z.mem = s.mem ∧ z.records.lastRead.length = n) ∧
      (bs.length = n → exec (.ualinkRemoteAccess (.write off bs ep)) s = .next s)) ∧
    (n = (if ty.is64 then 8 else 4) →
      sets (.ualinkRemoteAccess (.atomic op ty off x)) (some (combine ty op old (x.toNat % 2 ^ (8 * n))).1)) ∧
    (n = 4 ∨ n = 8 → sets (.ualinkRemoteAccess (.cas off n e x))
      (if old = e.toNat % 2 ^ (8 * n) then some (x.toNat % 2 ^ (8 * n)) else none))

/-- R101, R102, R107, R111, R128, R137, R324, R371, R373, R376, R377, R378 and R389, Tables 07-1, 07-2, 09-3 and 23-1 to 23-3: registers
of BAR0. A counter is written whole; a context block, CTXPASID included, while its ASID is not in use; LQBASE and LQSIZE while the queue is
not enabled, LQSIZE with a power of two from 16 to 65 536 only; LDBASE, LDLEN, EVBASE, EVSIZE, EVHEAD, INVVA, INVLEN, PRQBASE and PRSPVA
whole, INVVA without its low bits; WCPROBE, PRQSIZE, PWRCAP and WAYQ with a value of their range only; SUBUPD its four bits; a read-only
register, LQHEAD included, never. Before READY.ATRIUM only the mailbox is written. -/
def Obligations.RegisterWrites : Prop :=
  ∀ (s : State) (n off : Nat) (v : DWord),
    let does := fun (off : Nat) (P : State → Prop) => ∃ z, exec (.registerWrite off v) s = .next z ∧ P z
    let none_ := fun (off : Nat) => exec (.registerWrite off v) s = .next s
    let m := s.manage
    let sets := fun (off : Nat) (m1 : Manage) => does off fun z => z = { s with manage := m1 }
    let power := fun (lo hi : Nat) => ∃ k, v.toNat = 2 ^ k ∧ lo ≤ v.toNat ∧ v.toNat ≤ hi
    let ready := s.manage.ready.getLsbD 1 = true
    let lqOnly := fun (z : State) => z = { s with lqs := z.lqs } ∧ ∀ p, p ≠ n → z.lq p = s.lq p
    let ctxOnly := fun (z : State) => z = { s with ctxs := z.ctxs } ∧ ∀ a, a ≠ n → z.ctx a = s.ctx a
    let c := s.ctx n
    (ready → n < 4096 → does (0x10000 + 8 * n) fun z => z = { s with counters := z.counters } ∧ z.counter n = v ∧
      ∀ m, m ≠ n → z.counter m = s.counter m) ∧
    (ready → n < 256 → s.ctxBusy n = false →
      does (0x20000 + 64 * n) (fun z => ctxOnly z ∧ z.ctx n = { c with root := v &&& 0x000FFFFFFFFF8001 }) ∧
      does (0x20000 + 64 * n + 8) (fun z => ctxOnly z ∧ z.ctx n = { c with got := v &&& 0x01FFFFFFFFFFFFF8 }) ∧
      does (0x20000 + 64 * n + 16) (fun z => ctxOnly z ∧ z.ctx n = { c with frame := v &&& 0x01FFFFFFFFFF8000 }) ∧
      does (0x20000 + 64 * n + 24) (fun z => ctxOnly z ∧ z.ctx n = { c with save := v &&& 0x01FFFFFFFFFF8000 }) ∧
      does (0x20000 + 64 * n + 32) (fun z => ctxOnly z ∧ z.ctx n = { c with saveLen := v }) ∧
      does (0x20000 + 64 * n + 40) (fun z => ctxOnly z ∧ z.ctx n = { c with pasid := v &&& 0x1FFFFF })) ∧
    (ready → n < 256 → s.ctxBusy n = true → ∀ r, r < 8 → none_ (0x20000 + 64 * n + 8 * r)) ∧
    (ready → n < 64 → (s.lq n).enabled = false →
      does (64 * n) (fun z => lqOnly z ∧ z.lq n = { s.lq n with base := v &&& ~~~0x3F, seen := [] }) ∧
      (power 16 65536 → does (64 * n + 8) fun z => lqOnly z ∧ z.lq n = { s.lq n with size := v.toNat, seen := [] }) ∧
      (¬power 16 65536 → does (64 * n + 8) fun z => lqOnly z ∧ z.lq n = s.lq n) ∧
      (v.getLsbD 62 = false → does (64 * n + 16) fun z => lqOnly z ∧ (z.lq n).cfg = v &&& 0xC000000000003FFF)) ∧
    (ready → n < 64 → none_ (64 * n + 0x18) ∧ none_ (64 * n + 0x30) ∧ none_ (64 * n + 0x38)) ∧
    (ready → n < 64 → (s.lq n).enabled = true →
      does (64 * n) (fun z => lqOnly z ∧ z.lq n = s.lq n) ∧ does (64 * n + 8) (fun z => lqOnly z ∧ z.lq n = s.lq n) ∧
      (v.getLsbD 62 = false → does (64 * n + 16) fun z => lqOnly z ∧ (z.lq n).asid = (s.lq n).asid ∧ (z.lq n).enabled = v.getLsbD 63)) ∧
    (ready → n < 4 → does (0x3008 + 8 * n) fun z => z.manage = { s.manage with mbox := { s.manage.mbox with
      args := s.manage.mbox.args.set n v } } ∧ z.teams = s.teams) ∧
    (ready → does 0x1000 (fun z => z = { s with loader := { s.loader with base := v } }) ∧
      does 0x1008 (fun z => z = { s with loader := { s.loader with len := v } }) ∧
      (1024 ≤ v.toNat → does 0x1020 fun z => z = { s with wcprobe := v.toNat }) ∧ (v.toNat < 1024 → none_ 0x1020) ∧
      sets 0x3040 { m with evBase := v } ∧ sets 0x3048 { m with evSize := v } ∧ sets 0x3050 { m with evHead := v } ∧
      sets 0x5008 { m with invVa := v &&& ~~~0x7FFF } ∧ sets 0x5010 { m with invLen := v } ∧
      sets 0x6000 { m with prqBase := v } ∧ sets 0x6020 { m with prspVa := v } ∧ sets 0x7068 { m with subupd := v &&& 0xF } ∧
      (power 64 65536 → does 0x6008 fun z => z.manage = { m with prqSize := v, prqTail := z.manage.prqTail } ∧ z.teams = s.teams ∧
        (s.misses = [] → s.migCounts = [] → z = { s with manage := { m with prqSize := v } })) ∧
      (¬power 64 65536 → none_ 0x6008) ∧
      (does 0x6010 fun z => z.manage = { m with prqHead := v, prqTail := z.manage.prqTail } ∧ z.teams = s.teams ∧
        (s.misses = [] → s.migCounts = [] → z = { s with manage := { m with prqHead := v } })) ∧
      (let w := v.toNat % 2 ^ 13
       (600 ≤ w → w ≤ 3600 → does 0x7070 fun z => z = { s with records := { s.records with pwrcap := w } }) ∧
        (w < 600 ∨ 3600 < w → none_ 0x7070)) ∧
      (n < 13 → let ways := fun k => v.toNat / 2 ^ (5 * k) % 2 ^ 5
        ((∀ k, k < 4 → ways k ≤ 16) → sets (0x7000 + 8 * n) { m with wayq := m.wayq.set n (v &&& 0xFFFFF) }) ∧
        ((∃ k, k < 4 ∧ 16 < ways k) → none_ (0x7000 + 8 * n)))) ∧
    (∀ r ∈ [0x1018, 0x2000, 0x2008, 0x2010, 0x3030, 0x3058, 0x4008, 0x5018, 0x6018], none_ r) ∧
    (¬ready → off < 0x3000 ∨ 0x3040 ≤ off → none_ off)

/-- R385 and Table 23-5: a command is performed while Toard's firmware runs and the mailbox has taken it; anything else is without effect.
R349, R354 to R356 and R385: the commands for traps and debugging. TRAPBASE takes a recorded start of a signed segment, which is then
measured into MR16, or zero; DBGCTL and the breakpoints are written; a stopped group is resumed, from its frame, or in its handler; its
private window is read and written: its base registers, its extended ones and its stack (R77, R132), and its trap frame (R342). A frame
whose PC is no recorded start leaves the group stopped (log entry 26); while the home is at work on a line of the frame the command waits
(R331). -/
def Obligations.MailboxCommands : Prop :=
 (∀ (s : State) (c : Nat) (i : Instr),
    [Instr.setTrapbase, .dbgSet, .dbgResume, .dbgRead, .dbgWrite, .acctRead, .acctClear, .bbRead, .mrExtend, .mrRead, .timeSet][c]? = some i →
    (s.manage.ready.getLsbD 0 = false ∨ s.manage.mbox.cmd ≠ some (BitVec.ofNat 8 (c + 1)) → exec i s = .next s) ∧
    (s.manage.ready.getLsbD 0 = true → s.manage.mbox.cmd = some (BitVec.ofNat 8 (c + 1)) → (c = 2 → ∀ x, s.stopped = some x →
        s.runBusy x.1.asid (s.frameAddr x.1 x.2.1) 0x5200 = false) → ∃ z, exec i s = .next z ∧
      z.manage.mbox.cmd = none ∧ z.records.msix.getLast? = some 0 ∧ (z.manage.mbox.result = 0 ∨ z.manage.mbox.result = 2 ∨
        z.manage.mbox.result = 3))) ∧
 (∀ (s : State) (t : Team) (g : Group) (d : DebugStop) (q : Segment) (f : Nat → Byte) (b : Nat → Nat), s.manage.ready.getLsbD 0 = true →
    s.records.mr.length = 24 →
    let m := s.manage.mbox
    let arg := fun (n : Nat) => m.args.getD n 0
    let asid := (arg 0).toNat
    let cmd := fun (n : Nat) => m.cmd = some (BitVec.ofNat 8 n)
    let ends := fun (i : Instr) (res : Nat) (P : State → Prop) => ∃ z, exec i s = .next z ∧ z.manage.mbox = { m with cmd := none, result := BitVec.ofNat 16 res } ∧ P z
    let others := fun (z : State) => ∀ a, a ≠ asid → z.ctx a = s.ctx a
    let same := fun (z : State) => z.ctxs = s.ctxs ∧ z.teams = s.teams ∧ z.mem = s.mem ∧ z.records.mr = s.records.mr
    let place := fun (n : Nat) => hostBase + (m.buf.toNat + n) % 2 ^ 64
    let n := (arg 3).toNat / 2 ^ 32
    let off := (arg 3).toNat % 2 ^ 32
    let rows := 256 * (regB t g + regX t g + t.info.header.stack)
    let frame := s.frameAddr t g
    let given := fun j => s.mem.byte (place j)
    (cmd 1 → 256 ≤ asid → ends .setTrapbase 2 same) ∧
    (cmd 1 → asid < 256 → arg 1 = 0 → ends .setTrapbase 0 fun z => others z ∧ z.ctx asid = { s.ctx asid with trapBase := 0 } ∧
      z.records.mr = s.records.mr) ∧
    (cmd 1 → asid < 256 → arg 1 ≠ 0 → s.signedStart asid (arg 1) = none → ends .setTrapbase 3 same) ∧
    (cmd 1 → asid < 256 → arg 1 ≠ 0 → s.signedStart asid (arg 1) = some q → ends .setTrapbase 0 fun z => others z ∧
      z.ctx asid = { s.ctx asid with trapBase := arg 1 } ∧ (∀ k, k ≠ 16 → z.records.mr[k]? = s.records.mr[k]?) ∧
      ∃ h, h.length = 32 ∧ z.records.mr.getD 16 0 = digestOf (sha256 (digestBytes (s.records.mr.getD 16 0) ++ h))) ∧
    (cmd 2 → 256 ≤ asid ∨ 4 < (arg 1).toNat → ends .dbgSet 2 same) ∧
    (cmd 2 → asid < 256 → arg 1 = 0 → ends .dbgSet 0 fun z => others z ∧ z.ctx asid = { s.ctx asid with dbgCtl := arg 2 &&& 7 }) ∧
    (cmd 2 → asid < 256 → 1 ≤ (arg 1).toNat → (arg 1).toNat ≤ 4 → ends .dbgSet 0 fun z => others z ∧
      z.ctx asid = { s.ctx asid with dbgBp := (s.ctx asid).dbgBp.set ((arg 1).toNat - 1) (arg 2 &&& 0x01FFFFFFFFFFFFFD) }) ∧
    (s.stopped = none → (cmd 3 → ends .dbgResume 2 same) ∧ (cmd 4 → ends .dbgRead 2 same) ∧ (cmd 5 → ends .dbgWrite 2 same)) ∧
    (cmd 3 → s.stopped = some (t, g, d) → s.runBusy t.asid frame 0x5200 = true → exec .dbgResume s = .next s) ∧
    (cmd 3 → s.stopped = some (t, g, d) → s.runBusy t.asid frame 0x5200 = false →
      (d.inHandler = true → s.team? t.info.uid = some t → t.group? g.num = some g → ends .dbgResume 0 fun z => z.mem = s.mem ∧
        ∃ t1 g1, z.team? t.info.uid = some t1 ∧ t1.group? g.num = some g1 ∧ g1 = { g with dbg := none, strands := g.strands.map fun x =>
          if x.sid = d.sid then { x with skipStop := if d.mark = some x.pc then some x.pc else none, hold := none } else x }) ∧
      (d.inHandler = false → ∀ fr u, s.machineRead t.agent frame 0x5200 = (.ok fr, u) → u.manage = s.manage →
        (u.isStart t.asid (dwordOf ((fr.drop 8).take 8)) = false → ends .dbgResume 3 fun z => z.teams = u.teams ∧ z.mem = u.mem) ∧
        (u.isStart t.asid (dwordOf ((fr.drop 8).take 8)) = true → ends .dbgResume 0 fun z =>
          z.teams = (u.putTeam (t.putGroup (g.returned d.sid 2 d.table d.captured fr))).teams ∧ z.mem = u.mem))) ∧
    (s.stopped = some (t, g, d) →
      (2 ^ 24 < off + n → (cmd 4 → ends .dbgRead 2 same) ∧ (cmd 5 → ends .dbgWrite 2 same)) ∧
      (0 < n → off + n ≤ 0xC00000 → rows < off + n → (cmd 4 → ends .dbgRead 2 same) ∧ (cmd 5 → ends .dbgWrite 2 same)) ∧
      (off + n ≤ 0xC00000 → off + n ≤ rows →
        (cmd 4 → ends .dbgRead 0 fun z => z.teams = s.teams ∧ (∀ a, a < hostBase → z.mem.byte a = s.mem.byte a) ∧
          ∀ j, j < n → z.mem.byte (place j) = (t.bytes (privateOff t g (off + j)) 1).getD 0 0) ∧
        (cmd 5 → s.team? t.info.uid = some t → ends .dbgWrite 0 fun z => z.mem = s.mem ∧ ∃ t1, z.team? t.info.uid = some t1 ∧
          t1 = { t with rows := t1.rows, rowPoison := t1.rowPoison } ∧
          (∀ u, u ≠ t.info.uid → z.team? u = s.team? u) ∧
          ((∀ i j, i < n → j < n → privateOff t g (off + i) = privateOff t g (off + j) → i = j) →
            ∀ j, j < n → (t1.bytes (privateOff t g (off + j)) 1).getD 0 0 = given j) ∧
          ∀ o, (∀ j, j < n → privateOff t g (off + j) ≠ o) → t1.bytes o 1 = t.bytes o 1)) ∧
      (0xC00000 ≤ off → off + n ≤ 0xC05200 → frame % 128 = 0 →
        (Readable s t.asid (frame + (off - 0xC00000)) n f → cmd 4 → ends .dbgRead 0 fun z => z.teams = s.teams ∧
          (∀ a, a < hostBase → z.mem.byte a = s.mem.byte a) ∧ ∀ j, j < n → z.mem.byte (place j) = f j) ∧
        (Writable s t.asid (frame + (off - 0xC00000)) n b → cmd 5 → ends .dbgWrite 0 fun z => z.teams = s.teams ∧
          (∀ j, j < n → z.mem.byte (b j) = given j) ∧ ∀ a, (∀ j, j < n → b j ≠ a) → z.mem.byte a = s.mem.byte a))))

/-- R381, R385 to R387 and Table 23-6: the commands on accounts, records and measurements. The bytes and the energy that counters 12 to 27
count grow by amounts that are free, and not at all for an account that has held no core since it was cleared (log entry 4). R338 and R380:
TIME_SET names a window length and the second at which it begins; then pod time has reached that second, the length is in force, and a
release that waits past it ends at the second window after it. READY.TSYNC follows the time error, and each change is recorded and
signalled. -/
def Obligations.RecordsAndTime : Prop :=
 (∀ (s : State), s.manage.ready.getLsbD 0 = true → s.records.mr.length = 24 → s.records.bb.length ≤ 8192 →
    let m := s.manage.mbox
    let arg := fun (n : Nat) => m.args.getD n 0
    let a := (arg 0).toNat
    let cmd := fun (n : Nat) => m.cmd = some (BitVec.ofNat 8 n)
    let ends := fun (i : Instr) (res : Nat) (P : State → Prop) => ∃ z, exec i s = .next z ∧ z.manage = { s.manage with mbox := { m with cmd := none, result := BitVec.ofNat 16 res } } ∧
      z.teams = s.teams ∧ (∀ b, b < hostBase → z.mem.byte b = s.mem.byte b) ∧ P z
    let place := fun (n : Nat) => hostBase + (m.buf.toNat + n) % 2 ^ 64
    let row := fun (s : State) (a k : Nat) => (s.records.accounts.get (List.replicate 32 0) a).getD k 0
    let chosen := s.records.bb.filter fun r => (r.seq.toNat + 2 ^ 32 - a % 2 ^ 32) % 2 ^ 32 < (arg 1).toNat
    let buffer := (List.range 32).map fun k => s.mem.byte (place k)
    (cmd 6 → 64 ≤ a → ends .acctRead 2 fun z => z.mem = s.mem) ∧
    (cmd 6 → a < 64 → ends .acctRead 0 fun z => (∀ c k, c ≠ a → row z c k = row s c k) ∧
      (∀ k, k < 12 ∨ (28 ≤ k ∧ k < 32) → row z a k = row s a k) ∧
      ((∀ k, k < 4 → row s a k = 0) → ∀ k, k < 32 → row z a k = row s a k) ∧
      ∀ k b, k < 32 → b < 8 → z.mem.byte (place (8 * k + b)) = byteOf (row z a k).toNat b) ∧
    (cmd 7 → 64 ≤ a → ends .acctClear 2 fun z => z.records.accounts = s.records.accounts) ∧
    (cmd 7 → a < 64 → ends .acctClear 0 fun z => z.mem = s.mem ∧ (∀ k, row z a k = 0) ∧ ∀ c k, c ≠ a → row z c k = row s c k) ∧
    (cmd 8 → arg 1 = 0 ∨ 8192 < (arg 1).toNat → ends .bbRead 2 fun z => z.mem = s.mem) ∧
    (cmd 8 → 1 ≤ (arg 1).toNat → (arg 1).toNat ≤ 8192 → ends .bbRead 0 fun z => z.records.bb = s.records.bb ∧
      ∀ n r b, chosen[n]? = some r →
        (b < 8 → z.mem.byte (place (32 * n + b)) = byteOf r.time.toNat b) ∧
        (b < 4 → z.mem.byte (place (32 * n + 8 + b)) = byteOf r.seq.toNat b) ∧ z.mem.byte (place (32 * n + 12)) = r.type ∧
        (b < 3 → z.mem.byte (place (32 * n + 13 + b)) = r.source.getD b 0) ∧
        (b < 16 → z.mem.byte (place (32 * n + 16 + b)) = r.data.getD b 0)) ∧
    (cmd 9 → a < 17 ∨ 23 < a → ends .mrExtend 2 fun z => z.records.mr = s.records.mr) ∧
    (cmd 9 → 17 ≤ a → a ≤ 23 → ends .mrExtend 0 fun z =>
      z.records.mr.getD a 0 = digestOf (sha256 (digestBytes (s.records.mr.getD a 0) ++ buffer)) ∧
      ∀ k, k ≠ a → z.records.mr[k]? = s.records.mr[k]?) ∧
    (cmd 10 → ends .mrRead 0 fun z => z.records.mr = s.records.mr ∧
      ∀ n b, n < 24 → b < 32 → z.mem.byte (place (32 * n + b)) = (digestBytes (s.records.mr.getD n 0)).getD b 0)) ∧
 (∀ (s : State) (n sec : Nat) (ok : Bool),
    let m := s.manage
    let valid := n ∈ [1, 2, 4, 5, 8, 10, 16, 20, 25, 32]
    let taken := m.ready.getLsbD 0 = true ∧ m.mbox.cmd = some 11 ∧ (m.mbox.args.getD 0 0).toNat = n
    (taken → valid → ∃ z, exec .timeSet s = .next z ∧ z.records.nextWindow = some (n, (m.mbox.args.getD 1 0).toNat) ∧
      z.manage.mbox.result = 0 ∧ z.records.window = s.records.window ∧ z.records.time = s.records.time) ∧
    (taken → ¬valid → ∃ z, exec .timeSet s = .next z ∧ z.records.nextWindow = s.records.nextWindow ∧ z.manage.mbox.result = 2) ∧
    (s.records.nextWindow = some (n, sec) → sec * 1000000000 < 2 ^ 64 → ∃ z, exec .windowLengthChange s = .next z ∧
      z = { s with records := { s.records with window := n, nextWindow := none, time := z.records.time, remote := z.records.remote } } ∧
      z.records.remote = s.records.remote.map (fun p =>
        (p.1, if sec * 1000000000 < p.2.1 then sec * 1000000000 + 2 * (n * 500) else p.2.1, p.2.2)) ∧
      z.records.time.toNat = max s.records.time.toNat (sec * 1000000000)) ∧
    (s.records.nextWindow = none → exec .windowLengthChange s = .next s) ∧
    (m.ready.getLsbD 30 = ok → exec (.tsyncChange ok) s = .next s) ∧
    (m.ready.getLsbD 30 ≠ ok → ∃ z, exec (.tsyncChange ok) s = .next z ∧ Recorded s z 10 ∧ z.manage.ready.getLsbD 30 = ok ∧
      (∀ k, k ≠ 30 → z.manage.ready.getLsbD k = m.ready.getLsbD k) ∧ z.records.msix.getLast? = some 1 ∧ z.teams = s.teams))

/-- R383 and R384: the responder on each transport: the version, the capabilities without secure sessions, the algorithms, the digest and
the certificate chain of slot 0, a challenge and the measurements; a signature takes one leaf of the counter before it is released, and
none is given when no leaf remains. The order that requests keep is that of SPDM 1.3, which the spec names (log entry 27). -/
def Obligations.Attestation : Prop :=
  ∀ (s : State) (i3c signed : Bool) (slot b : Nat), s.manage.ready.getLsbD 0 = true →
    let link := fun (z : State) (c : Bool) => if c then z.records.spdmI3c else z.records.spdmPcie
    let c := link s i3c
    let replies := fun (i : Instr) (r : SpdmResponse) (c1 : Spdm) => ∃ z, exec i s = .next z ∧ z.records.response = some r ∧ link z i3c = c1 ∧
      link z (!i3c) = link s (!i3c) ∧ z.teams = s.teams ∧ z.mem = s.mem ∧ z.records.leaves = s.records.leaves
    let left := s.records.leaves
    let chain := Config.certificateChain
    let signs := fun (i : Instr) (P : Nat × List Byte → SpdmResponse → Prop) => ∃ z sg r, exec i s = .next z ∧
      z.records.response = some r ∧ P (1048576 - left, sg) r ∧ z.records.leaves = left - 1 ∧ z.teams = s.teams ∧
      (left - 1 = 65536 ∨ left - 1 = 4096 ∨ left - 1 = 0 → Recorded s z 11) ∧
      (left - 1 ≠ 65536 → left - 1 ≠ 4096 → left - 1 ≠ 0 → z.mem = s.mem ∧ z.records.bb = s.records.bb)
    let block := fun n => (n, s.records.mr.getD (n - 1) 0)
    replies (.getVersion i3c) (.version 1 3) ⟨true, false, false⟩ ∧
    (c.version = true → replies (.getCapabilities i3c) (.capabilities false) { c with caps := true }) ∧
    (c.version = false → replies (.getCapabilities i3c) .error c) ∧
    (c.caps = true → replies (.negotiateAlgorithms i3c) (.algorithms true [] [1]) { c with algs := true }) ∧
    (c.caps = false → replies (.negotiateAlgorithms i3c) .error c) ∧
    (c.algs = false → replies (.getDigests i3c) .error c ∧ replies (.getCertificate i3c slot) .error c ∧ replies (.challenge i3c slot) .error c ∧
      replies (.getMeasurements i3c b signed) .error c) ∧
    (c.algs = true →
      replies (.getDigests i3c) (.digests (sha256 chain)) c ∧
      replies (.getCertificate i3c 0) (.certificate chain) c ∧
      (slot ≠ 0 → replies (.getCertificate i3c slot) .error c ∧ replies (.challenge i3c slot) .error c) ∧
      (left = 0 → replies (.challenge i3c 0) .error c ∧ (b ≤ 24 ∨ b = 255 → replies (.getMeasurements i3c b true) .error c)) ∧
      (0 < left → signs (.challenge i3c 0) fun g r => r = .challengeAuth g.1 g.2) ∧
      (1 ≤ b → b ≤ 24 → replies (.getMeasurements i3c b false) (.measurements 24 [block b] none) c) ∧
      (1 ≤ b → b ≤ 24 → 0 < left → signs (.getMeasurements i3c b true) fun g r => r = .measurements 24 [block b] (some g)) ∧
      replies (.getMeasurements i3c 255 false) (.measurements 24 ((List.range 24).map fun n => block (n + 1)) none) c)

/-- R338, R370, R381, R383, R386: a cold reset gives the state after reset, but for what lies outside the part and what outlives a reset:
the leaf counter, pod time. A warm reset also keeps the black box; that it keeps device memory is the model's choice (log entry 28). R378,
R381 and R382: the boot chain. Each image is measured before it runs, and one that fails its check stops the chain. The memory map is
formed from the stacks that are ready when all eight are, or when the atrium has waited; a die whose engine firmware fails its check, or
that is late, is fenced, and every die when the emulation firmware fails its check, which is made before the first die is ready (log entry
38). -/
def Obligations.ResetsAndBoot : Prop :=
 (∀ (s : State), ∃ c w, exec .coldReset s = .next c ∧ exec .warmReset s = .next w ∧
    (∀ z ∈ [c, w], z.teams = [] ∧ z.saved = [] ∧ z.jobs = [] ∧ z.grids = [] ∧ z.tasks = [] ∧ z.queues = [] ∧ z.segs = [] ∧ z.tlb = [] ∧
      z.copies = [] ∧ z.dir = [] ∧ z.binds = [] ∧ z.probes = [] ∧ z.misses = [] ∧ z.invals = [] ∧ (∀ q, z.lq q = LaunchQueue.reset) ∧
      (∀ n, z.counter n = 0) ∧ (∀ a, z.ctx a = Ctx.reset) ∧ z.manage = Manage.reset ∧ z.loader = Loader.reset ∧ z.wcprobe = 65536 ∧
      z.dies = List.replicate 12 DieState.reset ∧ z.records.mr = List.replicate 24 0 ∧ z.records.window = 4 ∧ z.records.pwrcap = 3600 ∧
      z.records.leaves = s.records.leaves ∧ z.records.time = s.records.time ∧ z.schedule = s.schedule) ∧
    c.records.bb = [] ∧ c.records.seq = 0 ∧ w.records.bb = s.records.bb ∧ w.records.seq = s.records.seq ∧
    (∀ a, 2 ^ 51 ≤ a → c.mem.byte a = s.mem.byte a) ∧ (∀ a, a < 2 ^ 51 → c.mem.byte a = unlisted) ∧ w.mem = s.mem) ∧
 (∀ (s : State) (n : Nat) (good : Bool) (im : DieImages), s.records.mr.length = 24 →
    let m := s.manage
    let bit := fun k => m.ready.getLsbD k
    let ready := fun (z : State) (k : Nat) => ∀ j, j < 64 → z.manage.ready.getLsbD j = (m.ready.getLsbD j || j == k)
    let fenced := fun (z : State) (k : Nat) => z.manage.ready = m.ready ∧ z.manage.fenced = m.fenced ||| BitVec.ofNat 64 (2 ^ k)
    let ext := fun (z : State) (k : Nat) => z.records.mr.getD k 0 =
      digestOf (sha256 (digestBytes (s.records.mr.getD k 0) ++ fit 32 (Config.imageDigest k)))
    let only := fun (z : State) (ks : List Nat) => (∀ k ∈ ks, ext z k) ∧ ∀ k, k ∉ ks → z.records.mr[k]? = s.records.mr[k]?
    let up := (List.range 8).filter fun i => bit (14 + i) && !m.fenced.getLsbD (12 + i)
    let formed := fun (z : State) (k : Nat) => z.manage.mapFormed = true ∧ z.manage.memSize = 2 ^ 36 * k
    let does := fun (i : Instr) (P : State → Prop) => ∃ z, exec i s = .next z ∧ z.teams = s.teams ∧ P z
    let early := bit 0 = false ∧ m.chainStopped = false
    let atrium := bit 0 = true ∧ bit 1 = false ∧ m.chainStopped = false
    let die := n < 12 ∧ bit 1 = true ∧ bit (2 + n) = false ∧ m.fenced.getLsbD n = false
    let stack := n < 8 ∧ bit (14 + n) = false ∧ m.fenced.getLsbD (12 + n) = false
    (early → m.mbox.cmd = none → does (.toardReady true) fun z => ready z 0 ∧ only z [0, 1] ∧ z.records.msix.getLast? = some 1) ∧
    (early → does (.toardReady false) fun z => z.manage.ready = m.ready ∧ z.manage.chainStopped = true ∧ only z [0]) ∧
    (¬early → exec (.toardReady good) s = .next s) ∧
    (atrium → does (.atriumReady true) fun z => ready z 1 ∧ only z [2] ∧ (up.length = 8 → m.mapFormed = false → formed z 8) ∧
      (up.length ≠ 8 → z.manage.mapFormed = m.mapFormed)) ∧
    (atrium → does (.atriumReady false) fun z => z.manage = { m with chainStopped := true } ∧ z.records.mr = s.records.mr) ∧
    (bit 0 = false ∨ m.chainStopped = true → exec (.atriumReady good) s = .next s) ∧
    (stack → does (.stackReady n) fun z => ready z (14 + n) ∧ z.records.mr = s.records.mr ∧
      (bit 1 = true → m.mapFormed = false → up.length = 7 → formed z 8) ∧ (m.mapFormed = true → z.manage.memSize = m.memSize)) ∧
    (¬stack → exec (.stackReady n) s = .next s) ∧
    (bit 1 = true → m.mapFormed = false → does .stackWaitTimeout fun z => formed z up.length ∧ z.manage.ready = m.ready) ∧
    (bit 1 = false ∨ m.mapFormed = true → exec .stackWaitTimeout s = .next s) ∧
    (die → does (.dieReady n .verified) fun z => ready z (2 + n) ∧ only z (if m.ready.toNat / 4 % 2 ^ 12 = 0 then [3 + n, 15] else [3 + n])) ∧
    (die → does (.dieReady n .engineFails) fun z => fenced z n ∧ z.records.mr = s.records.mr) ∧
    (die → m.ready.toNat / 4 % 2 ^ 12 = 0 → does (.dieReady n .emulationFails) fun z => z.manage.ready = m.ready ∧
      z.manage.fenced = m.fenced ||| 0xFFF ∧ z.records.mr = s.records.mr) ∧
    (die → m.ready.toNat / 4 % 2 ^ 12 ≠ 0 → exec (.dieReady n .emulationFails) s = .next s) ∧
    (die → does (.dieReadyTimeout n) fun z => fenced z n ∧ z.records.mr = s.records.mr) ∧
    (¬die → exec (.dieReady n im) s = .next s ∧ exec (.dieReadyTimeout n) s = .next s) ∧
    (n < 8 → bit (22 + n) = false → does (.ualinkPortTrained n) fun z => ready z (22 + n)) ∧
    (n < 8 → bit (22 + n) = true → exec (.ualinkPortTrained n) s = .next s))

/-! ## Encodings, the step, reset and what every step keeps -/

/-- R158 to R173: DECODE AND ENCODE AGREE: the words of every well-formed instruction decode to it, whatever follows them, and whatever
decodes is well formed and has the words that it was read from. -/
def Obligations.EncodingsRoundTrip : Prop :=
  (∀ (i : Instr) (rest : List Word), i.hasWords = true → i.wf = true → decodeWords (encode i ++ rest) = .ok (i, rest)) ∧
  ∀ (i : Instr) (ws rest : List Word), decodeWords ws = .ok (i, rest) → i.hasWords = true ∧ i.wf = true ∧ ws = encode i ++ rest

/-- R158 to R173, Tables 13-8, 15-7 and 17-11: words of the spec's listings decode to the instructions that they stand for. -/
def Obligations.SpecEncodings : Prop :=
  (decodeWords [0x00002878]).toOption = some (.smovi 10 0, []) ∧
  (decodeWords [0x03003008]).toOption = some (.ssub 12 0 12, []) ∧
  (decodeWords [0x100A3054]).toOption = some (.scmp .ne 12 10 0, []) ∧
  (decodeWords [0x0D8428D4]).toOption = some (.scas 0 true .acq .package 10 4, []) ∧
  (decodeWords [0xFFFA0504]).toOption = some (.brp .any false 1 0xFFFA, []) ∧
  (decodeWords [0x000C0494]).toOption = some (.pfroms 1 12, []) ∧
  (decodeWords [0x0E8400C4]).toOption = some (.sst 0 .eight true .package 0 4, [])

/-- R82, R83, R112 and R177: A STEP RUNS THE DECODED INSTRUCTION: when the strand whose turn it is stands at a recorded instruction start
whose words, in executable memory that is there, decode to an instruction, the step executes it in the state in which the turn has begun;
at any other address it takes BAD_TARGET, and at a recorded one whose page may not be executed PERM (R154). A scheduled event is executed. Otherwise the first event of the part with an effect is taken, or
the barrels move on (log entry 3). R107, R112, R153 and R177: what the fetch finds of an instruction that a driver has loaded (log entry
29): in the state that `withFetchWord` makes of the state after reset, the next step executes the instruction that the words hold, for the
one strand of a team. -/
def Obligations.StepRuns : Prop :=
 (∀ (s : State) (i : Instr) (rest : List Turn) (k : Opening) (h : Here) (e : TlbEntry) (ws : List Word) (pre post : List Instr),
    let s0 := { s with schedule := rest }
    let s1 := s0.beginTurn k
    let pc := h.strand.pc.toNat
    let pa := (e.place pc).key
    let c := s.ctx h.team.asid
    let turn := s.schedule = .issue :: rest ∧ s0.nextTurn = some k ∧ s1.here = some h ∧ h.strand.waitCycle = none ∧ h.failure = none ∧
      c.dbgCtl.getLsbD 0 = false ∧ c.dbgCtl.getLsbD 2 = false
    let held := fun (a : Nat) => s.tlb.find? (fun e => e.asid == h.team.asid && e.base ≤ a && a < e.base + e.size) = some e
    let loaded := fun (a : Nat) => ∃ g ∈ s.segs, (e.place a).key / 32768 ∈ g.pages
    (s.schedule = .event i :: rest → step s = exec i { s with schedule := rest, cur := none }) ∧
    (turn → s.recorded h.team.asid h.strand.pc = true → s.live h.team.asid = true → pc + 4 * ws.length ≤ 2 ^ 57 → e.hostBase = none →
      (∀ j, j < ws.length → held (pc + 4 * j) ∧ (e.leaf.getLsbD 3 = true ∨ loaded (pc + 4 * j)) ∧
        s.lost (e.place (pc + 4 * j)) = false ∧ s.poisoned ((pa + 4 * j) / 128) = false ∧
        ws[j]? = some (wordOfBytes (s.mem.byte (pa + 4 * j)) (s.mem.byte (pa + 4 * j + 1)) (s.mem.byte (pa + 4 * j + 2))
          (s.mem.byte (pa + 4 * j + 3)))) →
      decodeWords ws = .ok (i, []) → step s = exec i s1) ∧
    (turn → s.recorded h.team.asid h.strand.pc = false → step s = .next (s1.takeFault h 0x01)) ∧
    (turn → s.recorded h.team.asid h.strand.pc = true → s.live h.team.asid = true → pc < 2 ^ 57 → held pc → e.leaf.getLsbD 3 = false →
      ¬loaded pc → step s = .next (s1.takeFault h 0x14)) ∧
    (s.schedule = .issue :: rest → s0.nextTurn = none → ∃ z, step s = .next z ∧ z.clock = s.clock + 1 ∧ z.mem = s.mem ∧ z.teams = s.teams) ∧
    (∀ o, s.schedule = [] → s.agenda = pre ++ i :: post → (∀ j ∈ pre, s.effective j = none) → s.effective i = some o → step s = o) ∧
    (s.schedule = [] → (∀ j ∈ s.agenda, s.effective j = none) → step s = s.issueNext.outcome)) ∧
 (∀ (nbits w : Nat) (i : Instr), nbits % 8 = 0 → nbits ≤ 96 → decodeTableWord nbits w = some i →
    ∃ u h, step (State.reset.withFetchWord nbits w) = exec i u ∧ u.here = some h ∧ h.strand.pc = 0x8000 ∧ h.strand.exec = allLanes ∧
      h.group.kind = 2 ∧ h.group.pending = [] ∧ u.schedule = [] ∧ u.manage = State.reset.manage)

/-- R101, R107, R128, R378, R380, R381, R386 and Tables 07-1 and 23-2: what reset leaves: no context is live and nothing is ready, every
event counter is zero, WCPROBE is 65 536, windows are of 2 µs, measurement registers are zero and the black box is empty; memory lists
nothing. The values that the spec does not give are the model's (log entry 1). -/
def Obligations.ResetState : Prop :=
  let s := State.reset
  (∀ n, s.counter n = 0) ∧ s.wcprobe = 65536 ∧ s.manage.ready = 0 ∧ s.manage.fenced = 0 ∧ s.manage.mapFormed = false ∧
  (∀ a, s.live a = false) ∧ (∀ q, (s.lq q).enabled = false ∧ (s.lq q).size = 16 ∧ (s.lq q).stat = 0) ∧ s.loader.stat = 0 ∧ s.teams = [] ∧
  s.grids = [] ∧ s.tasks = [] ∧ s.segs = [] ∧ s.tlb = [] ∧ s.mem = [] ∧ s.mem.wf = true ∧ s.poison = [] ∧ s.copies = [] ∧
  s.records.mr = List.replicate 24 0 ∧ s.records.bb = [] ∧ s.records.window * 500 = 2000 ∧ s.records.leaves = 1048576 ∧
  s.dies.length = 12 ∧ (∀ d, d < 12 → (s.die d).modules = 40 ∧ (s.die d).lines = []) ∧ (∀ k, k < 13 → s.manage.wayq.getD k 0 = 0x84210)

/-- AN INVARIANT THAT EVERY STEP KEEPS: memory is in its canonical form: addresses rise, and no entry equals what an unlisted one reads
as. -/
def Obligations.MemoryFormKept : Prop := ∀ (s t : State), s.mem.wf = true → step s = .next t → t.mem.wf = true

/-- AN INVARIANT THAT EVERY STEP KEEPS: twelve dies, twenty-four measurement registers, at most 8 192 records (R386), and every leaf held
by the translation caches is of window 0x0 and not empty (R131, R155). -/
def Obligations.SizesKept : Prop :=
  let inv := fun (s : State) => s.dies.length = 12 ∧ s.records.mr.length = 24 ∧ s.records.bb.length ≤ 8192 ∧
    ∀ e ∈ s.tlb, e.base < 2 ^ 57 ∧ 0 < e.size
  inv State.reset ∧ ∀ (s t : State), inv s → step s = .next t → inv t

/-- AN INVARIANT THAT EVERY STEP KEEPS: queued tasks, resident teams and saved teams have numbers of their own, all given out already. -/
def Obligations.NumbersKept : Prop :=
  let nums := fun (s : State) => s.teams.map (fun t => t.info.uid) ++ s.saved.map (fun t => t.info.uid) ++ s.tasks.map fun k => k.info.uid
  let inv := fun (s : State) => (nums s).Nodup ∧ ∀ n ∈ nums s, n < s.uid
  inv State.reset ∧ ∀ (s t : State), inv s → step s = .next t → inv t

end
end

