-- ==== Sys2Proof/Laws/Sparse.lean ====
section
/-! SUPPORT. Sparse maps and memory: what is found after a change, and the canonical form, which every operation on memory keeps. -/

namespace Sys2Proof

/-! ## Sparse maps -/

theorem SMap.find_insert_self {α : Type} (m : SMap α) (n : Nat) (v : α) : (m.insert n v).find n = some v := by
  induction m with
  | nil => simp [SMap.insert, SMap.find]
  | cons p rest ih =>
    obtain ⟨k, w⟩ := p
    unfold SMap.insert
    split
    · simp [SMap.find]
    · split
      · simp [SMap.find]
      · have h1 : ¬ k = n := by omega
        simp [SMap.find, h1, ih]

theorem SMap.find_insert_ne {α : Type} (m : SMap α) (n k : Nat) (v : α) (h : k ≠ n) : (m.insert n v).find k = m.find k := by
  have h0 : ¬ n = k := by omega
  induction m with
  | nil => simp [SMap.insert, SMap.find, h0]
  | cons p rest ih =>
    obtain ⟨j, w⟩ := p
    unfold SMap.insert
    split
    · simp [SMap.find, h0]
    · split
      · rename_i e; subst e; simp [SMap.find, h0]
      · simp only [SMap.find, ih]

theorem SMap.find_erase_self {α : Type} (m : SMap α) (n : Nat) : (m.erase n).find n = none := by
  induction m with
  | nil => rfl
  | cons p rest ih =>
    obtain ⟨k, w⟩ := p
    unfold SMap.erase
    split
    · exact ih
    · have h1 : ¬ k = n := by omega
      simp [SMap.find, h1, ih]

theorem SMap.find_erase_ne {α : Type} (m : SMap α) {n k : Nat} (h : k ≠ n) : (m.erase n).find k = m.find k := by
  induction m with
  | nil => rfl
  | cons p rest ih =>
    obtain ⟨j, w⟩ := p
    unfold SMap.erase
    split
    · rename_i e
      subst e
      have h0 : ¬ n = k := by omega
      simp [SMap.find, h0, ih]
    · simp only [SMap.find, ih]

theorem SMap.get_put_self {α : Type} [DecidableEq α] (m : SMap α) (d : α) (n : Nat) (v : α) : (m.put d n v).get d n = v := by
  unfold SMap.put SMap.get
  split
  · rename_i e; simp [SMap.find_erase_self, e]
  · simp [SMap.find_insert_self]

theorem SMap.get_put_ne {α : Type} [DecidableEq α] (m : SMap α) (d : α) {n k : Nat} (v : α) (hk : k ≠ n) :
    (m.put d n v).get d k = m.get d k := by
  unfold SMap.put SMap.get
  split
  · rw [SMap.find_erase_ne m hk]
  · rw [SMap.find_insert_ne _ _ _ _ hk]

/-- No key below `n` and strictly rising keys, as an inductive fact that proofs use. -/
def SMap.from {α : Type} : Nat → SMap α → Prop
  | _, [] => True
  | n, (k, _) :: rest => n ≤ k ∧ SMap.from (k + 1) rest

theorem SMap.from_mono {α : Type} {m : SMap α} {a b : Nat} (h : SMap.from b m) (hab : a ≤ b) : SMap.from a m := by
  cases m with
  | nil => trivial
  | cons p rest => exact ⟨by have := h.1; omega, h.2⟩

theorem SMap.insert_from {α : Type} {m : SMap α} {a n : Nat} (v : α) (h : SMap.from a m) (hn : a ≤ n) : SMap.from a (m.insert n v) := by
  induction m generalizing a with
  | nil => exact ⟨hn, trivial⟩
  | cons p rest ih =>
    obtain ⟨k, w⟩ := p
    obtain ⟨h1, h2⟩ := h
    unfold SMap.insert
    split
    · exact ⟨hn, by omega, h2⟩
    · split
      · rename_i e; subst e; exact ⟨hn, h2⟩
      · exact ⟨h1, ih h2 (by omega)⟩

theorem SMap.erase_from {α : Type} {m : SMap α} {a : Nat} (n : Nat) (h : SMap.from a m) : SMap.from a (m.erase n) := by
  induction m generalizing a with
  | nil => trivial
  | cons p rest ih =>
    obtain ⟨k, w⟩ := p
    obtain ⟨h1, h2⟩ := h
    unfold SMap.erase
    split
    · exact SMap.from_mono (ih h2) (by omega)
    · exact ⟨h1, ih h2⟩

theorem SMap.put_from {α : Type} [DecidableEq α] {m : SMap α} (d : α) (n : Nat) (v : α) (h : SMap.from 0 m) :
    SMap.from 0 (m.put d n v) := by
  unfold SMap.put
  split
  · exact SMap.erase_from n h
  · exact SMap.insert_from v h (by omega)

/-! ## Lists of fixed length -/

theorem setAt_getD_self {α : Type} (d : α) (xs : List α) (n : Nat) (v : α) : (setAt d xs n v).getD n d = v := by
  induction xs generalizing n with
  | nil => induction n with
    | zero => rfl
    | succ n ih => simpa [setAt] using ih
  | cons x xs ih => cases n with
    | zero => rfl
    | succ n => simpa [setAt] using ih n

theorem setAt_getD_ne {α : Type} (d : α) (xs : List α) {n k : Nat} (v : α) (h : k ≠ n) : (setAt d xs n v).getD k d = xs.getD k d := by
  induction xs generalizing n k with
  | nil => induction n generalizing k with
    | zero => cases k with
      | zero => omega
      | succ k => simp [setAt]
    | succ n ih => cases k with
      | zero => simp [setAt]
      | succ k => simpa [setAt] using ih (k := k) (by omega)
  | cons x xs ih => cases n with
    | zero => cases k with
      | zero => omega
      | succ k => simp [setAt]
    | succ n => cases k with
      | zero => simp [setAt]
      | succ k => simpa [setAt] using ih (n := n) (k := k) (by omega)

theorem SMap.rising_from {α : Type} : ∀ (m : SMap α), SMap.rising m = true ↔ SMap.from 0 m
  | [] => by simp [SMap.rising, SMap.from]
  | [p] => by simp [SMap.rising, SMap.from]
  | (k, v) :: (l, w) :: rest => by
    have ih := SMap.rising_from ((l, w) :: rest)
    simp only [SMap.rising, Bool.and_eq_true, decide_eq_true_eq, ih, SMap.from]
    constructor
    · rintro ⟨h1, -, h3⟩; exact ⟨by omega, by omega, h3⟩
    · rintro ⟨-, h2, h3⟩; exact ⟨by omega, by omega, h3⟩

end Sys2Proof

namespace Sys2Proof.Machine

open Sys2Proof

/-! ## The canonical form of memory -/

theorem Memory.wf_iff : ∀ (m : Memory), m.wf = true ↔ SMap.from 0 m ∧ ∀ c ∈ m, c.2 ≠ unlisted
  | [] => by simp [Memory.wf, SMap.from]
  | [c] => by simp [Memory.wf, SMap.from]
  | c :: d :: rest => by
    have ih := Memory.wf_iff (d :: rest)
    simp only [Memory.wf, Bool.and_eq_true, decide_eq_true_eq, ih, SMap.from, bne_iff_ne, List.mem_cons, forall_eq_or_imp]
    constructor
    · rintro ⟨⟨h1, h2⟩, ⟨-, h3⟩, h4, h5⟩; exact ⟨⟨by omega, by omega, h3⟩, h1, h4, h5⟩
    · rintro ⟨⟨-, h2, h3⟩, h1, h4, h5⟩; exact ⟨⟨h1, by omega⟩, ⟨by omega, h3⟩, h4, h5⟩

theorem SMap.mem_insert {α : Type} {m : SMap α} {n : Nat} {v : α} {c : Nat × α} (h : c ∈ SMap.insert m n v) : c = (n, v) ∨ c ∈ m := by
  induction m with
  | nil => simpa [SMap.insert] using h
  | cons p rest ih =>
    obtain ⟨k, w⟩ := p
    unfold SMap.insert at h
    split at h
    · simpa using h
    · split at h
      · rcases List.mem_cons.1 h with h | h
        · exact .inl h
        · exact .inr (List.mem_cons_of_mem _ h)
      · rcases List.mem_cons.1 h with h | h
        · exact .inr (h ▸ List.mem_cons_self)
        · rcases ih h with h | h
          · exact .inl h
          · exact .inr (List.mem_cons_of_mem _ h)

theorem SMap.mem_erase {α : Type} {m : SMap α} {n : Nat} {c : Nat × α} (h : c ∈ SMap.erase m n) : c ∈ m := by
  induction m with
  | nil => simp [SMap.erase] at h
  | cons p rest ih =>
    obtain ⟨k, w⟩ := p
    unfold SMap.erase at h
    split at h
    · exact List.mem_cons_of_mem _ (ih h)
    · rcases List.mem_cons.1 h with h | h
      · exact h ▸ List.mem_cons_self
      · exact List.mem_cons_of_mem _ (ih h)

/-- The empty memory has the form. -/
theorem Memory.wf_nil : Memory.wf [] = true := rfl

/-- Writing a byte keeps the form. -/
theorem Memory.set_wf {m : Memory} (k : Nat) (b : Byte) (h : m.wf = true) : (m.set k b).wf = true := by
  obtain ⟨h1, h2⟩ := (Memory.wf_iff m).1 h
  refine (Memory.wf_iff _).2 ⟨SMap.put_from _ _ _ h1, fun c hc => ?_⟩
  unfold Memory.set SMap.put at hc
  split at hc
  · exact h2 c (SMap.mem_erase hc)
  · rcases SMap.mem_insert hc with e | e
    · subst e; assumption
    · exact h2 c e

/-- Writing bytes keeps the form. -/
theorem Memory.setAll_wf (cs : List (Nat × Byte)) {m : Memory} (h : m.wf = true) : (m.setAll cs).wf = true := by
  unfold Memory.setAll
  induction cs generalizing m with
  | nil => exact h
  | cons c cs ih => exact ih (Memory.set_wf c.1 c.2 h)

theorem SMap.filter_from {α : Type} (f : Nat × α → Bool) {m : SMap α} {a : Nat} (h : SMap.from a m) : SMap.from a (m.filter f) := by
  induction m generalizing a with
  | nil => trivial
  | cons p rest ih =>
    obtain ⟨k, w⟩ := p
    obtain ⟨h1, h2⟩ := h
    rw [List.filter_cons]
    split
    · exact ⟨h1, ih h2⟩
    · exact SMap.from_mono (ih h2) (by omega)

/-- Keeping some of the cells keeps the form. -/
theorem Memory.filter_wf (f : Host.Cell → Bool) {m : Memory} (h : m.wf = true) : Memory.wf (m.filter f) = true := by
  obtain ⟨h1, h2⟩ := (Memory.wf_iff m).1 h
  exact (Memory.wf_iff _).2 ⟨SMap.filter_from f h1, fun c hc => h2 c (List.mem_filter.1 hc).1⟩

/-! ## Reading after writing -/

/-- A byte that was written reads as written. -/
theorem Memory.byte_set_self (m : Memory) (k : Nat) (b : Byte) : (m.set k b).byte k = b := SMap.get_put_self _ _ _ _

/-- Writing a byte leaves every other byte. -/
theorem Memory.byte_set_ne (m : Memory) {k a : Nat} (b : Byte) (ha : a ≠ k) : (m.set k b).byte a = m.byte a :=
  SMap.get_put_ne _ _ _ ha

/-- Writing bytes leaves every byte whose address none of them has. -/
theorem Memory.byte_setAll_ne (cs : List (Nat × Byte)) (m : Memory) {a : Nat} (ha : ∀ c ∈ cs, c.1 ≠ a) :
    (m.setAll cs).byte a = m.byte a := by
  unfold Memory.setAll
  induction cs generalizing m with
  | nil => rfl
  | cons c cs ih =>
    have h1 : a ≠ c.1 := fun e => ha c List.mem_cons_self e.symm
    rw [List.foldl_cons, ih _ fun d hd => ha d (List.mem_cons_of_mem _ hd), Memory.byte_set_ne _ _ h1]

/-- Of bytes at different addresses each is read as written. -/
theorem Memory.byte_setAll_mem (cs : List (Nat × Byte)) (m : Memory) {c : Nat × Byte} (hd : (cs.map (·.1)).Nodup) (hc : c ∈ cs) :
    (m.setAll cs).byte c.1 = c.2 := by
  induction cs generalizing m with
  | nil => simp at hc
  | cons d cs ih =>
    simp only [List.map_cons, List.nodup_cons] at hd
    change ((m.set d.1 d.2).setAll cs).byte c.1 = c.2
    rcases List.mem_cons.1 hc with e | e
    · subst e
      rw [Memory.byte_setAll_ne cs _ fun e he k => hd.1 (List.mem_map.2 ⟨e, he, k⟩), Memory.byte_set_self]
    · exact ih _ hd.2 e

/-- The cells of a run of bytes. -/
theorem cellsAt_mem {k : Nat} {bs : List Byte} {c : Nat × Byte} (h : c ∈ cellsAt k bs) :
    k ≤ c.1 ∧ c.1 < k + bs.length ∧ c.2 = bs.getD (c.1 - k) 0 := by
  simp only [cellsAt, List.mem_map, List.mem_range] at h
  obtain ⟨i, hi, rfl⟩ := h
  exact ⟨by omega, by omega, by simp⟩

theorem cellsAt_nodup (k : Nat) (bs : List Byte) : ((cellsAt k bs).map (·.1)).Nodup := by
  simp only [cellsAt, List.map_map]
  exact List.Pairwise.map _ (fun a b (h : a ≠ b) => by simpa using h) List.nodup_range

end Sys2Proof.Machine
end

