-- ==== Sys2Proof/Laws/State.lean ====
section
/-! SUPPORT. What each update of the state leaves as it was: one lemma for each update and each field that it does not touch, all by
`rfl`, so that no later proof unfolds a record update. -/

namespace Sys2Proof.Machine

open Sys2Proof

variable (s : State)

/-! `State.putTeam` -/

@[simp] theorem putTeam_clock (t : Team) : (s.putTeam t).clock = s.clock := rfl
@[simp] theorem putTeam_saved (t : Team) : (s.putTeam t).saved = s.saved := rfl
@[simp] theorem putTeam_jobs (t : Team) : (s.putTeam t).jobs = s.jobs := rfl
@[simp] theorem putTeam_grids (t : Team) : (s.putTeam t).grids = s.grids := rfl
@[simp] theorem putTeam_tasks (t : Team) : (s.putTeam t).tasks = s.tasks := rfl
@[simp] theorem putTeam_taskCap (t : Team) : (s.putTeam t).taskCap = s.taskCap := rfl
@[simp] theorem putTeam_queues (t : Team) : (s.putTeam t).queues = s.queues := rfl
@[simp] theorem putTeam_lqs (t : Team) : (s.putTeam t).lqs = s.lqs := rfl
@[simp] theorem putTeam_loader (t : Team) : (s.putTeam t).loader = s.loader := rfl
@[simp] theorem putTeam_segs (t : Team) : (s.putTeam t).segs = s.segs := rfl
@[simp] theorem putTeam_wcprobe (t : Team) : (s.putTeam t).wcprobe = s.wcprobe := rfl
@[simp] theorem putTeam_probes (t : Team) : (s.putTeam t).probes = s.probes := rfl
@[simp] theorem putTeam_binds (t : Team) : (s.putTeam t).binds = s.binds := rfl
@[simp] theorem putTeam_counters (t : Team) : (s.putTeam t).counters = s.counters := rfl
@[simp] theorem putTeam_mem (t : Team) : (s.putTeam t).mem = s.mem := rfl
@[simp] theorem putTeam_poison (t : Team) : (s.putTeam t).poison = s.poison := rfl
@[simp] theorem putTeam_copies (t : Team) : (s.putTeam t).copies = s.copies := rfl
@[simp] theorem putTeam_tlb (t : Team) : (s.putTeam t).tlb = s.tlb := rfl
@[simp] theorem putTeam_misses (t : Team) : (s.putTeam t).misses = s.misses := rfl
@[simp] theorem putTeam_invals (t : Team) : (s.putTeam t).invals = s.invals := rfl
@[simp] theorem putTeam_migCounts (t : Team) : (s.putTeam t).migCounts = s.migCounts := rfl
@[simp] theorem putTeam_migAsked (t : Team) : (s.putTeam t).migAsked = s.migAsked := rfl
@[simp] theorem putTeam_migDecays (t : Team) : (s.putTeam t).migDecays = s.migDecays := rfl
@[simp] theorem putTeam_dir (t : Team) : (s.putTeam t).dir = s.dir := rfl
@[simp] theorem putTeam_dies (t : Team) : (s.putTeam t).dies = s.dies := rfl
@[simp] theorem putTeam_ctxs (t : Team) : (s.putTeam t).ctxs = s.ctxs := rfl
@[simp] theorem putTeam_manage (t : Team) : (s.putTeam t).manage = s.manage := rfl
@[simp] theorem putTeam_records (t : Team) : (s.putTeam t).records = s.records := rfl
@[simp] theorem putTeam_schedule (t : Team) : (s.putTeam t).schedule = s.schedule := rfl
@[simp] theorem putTeam_cur (t : Team) : (s.putTeam t).cur = s.cur := rfl
@[simp] theorem putTeam_uid (t : Team) : (s.putTeam t).uid = s.uid := rfl
@[simp] theorem putTeam_freeN (t : Team) : (s.putTeam t).freeN = s.freeN := rfl

/-! `State.modTeam` -/

@[simp] theorem modTeam_clock (u : Nat) (f : Team → Team) : (s.modTeam u f).clock = s.clock := rfl
@[simp] theorem modTeam_saved (u : Nat) (f : Team → Team) : (s.modTeam u f).saved = s.saved := rfl
@[simp] theorem modTeam_jobs (u : Nat) (f : Team → Team) : (s.modTeam u f).jobs = s.jobs := rfl
@[simp] theorem modTeam_grids (u : Nat) (f : Team → Team) : (s.modTeam u f).grids = s.grids := rfl
@[simp] theorem modTeam_tasks (u : Nat) (f : Team → Team) : (s.modTeam u f).tasks = s.tasks := rfl
@[simp] theorem modTeam_taskCap (u : Nat) (f : Team → Team) : (s.modTeam u f).taskCap = s.taskCap := rfl
@[simp] theorem modTeam_queues (u : Nat) (f : Team → Team) : (s.modTeam u f).queues = s.queues := rfl
@[simp] theorem modTeam_lqs (u : Nat) (f : Team → Team) : (s.modTeam u f).lqs = s.lqs := rfl
@[simp] theorem modTeam_loader (u : Nat) (f : Team → Team) : (s.modTeam u f).loader = s.loader := rfl
@[simp] theorem modTeam_segs (u : Nat) (f : Team → Team) : (s.modTeam u f).segs = s.segs := rfl
@[simp] theorem modTeam_wcprobe (u : Nat) (f : Team → Team) : (s.modTeam u f).wcprobe = s.wcprobe := rfl
@[simp] theorem modTeam_probes (u : Nat) (f : Team → Team) : (s.modTeam u f).probes = s.probes := rfl
@[simp] theorem modTeam_binds (u : Nat) (f : Team → Team) : (s.modTeam u f).binds = s.binds := rfl
@[simp] theorem modTeam_counters (u : Nat) (f : Team → Team) : (s.modTeam u f).counters = s.counters := rfl
@[simp] theorem modTeam_mem (u : Nat) (f : Team → Team) : (s.modTeam u f).mem = s.mem := rfl
@[simp] theorem modTeam_poison (u : Nat) (f : Team → Team) : (s.modTeam u f).poison = s.poison := rfl
@[simp] theorem modTeam_copies (u : Nat) (f : Team → Team) : (s.modTeam u f).copies = s.copies := rfl
@[simp] theorem modTeam_tlb (u : Nat) (f : Team → Team) : (s.modTeam u f).tlb = s.tlb := rfl
@[simp] theorem modTeam_misses (u : Nat) (f : Team → Team) : (s.modTeam u f).misses = s.misses := rfl
@[simp] theorem modTeam_invals (u : Nat) (f : Team → Team) : (s.modTeam u f).invals = s.invals := rfl
@[simp] theorem modTeam_migCounts (u : Nat) (f : Team → Team) : (s.modTeam u f).migCounts = s.migCounts := rfl
@[simp] theorem modTeam_migAsked (u : Nat) (f : Team → Team) : (s.modTeam u f).migAsked = s.migAsked := rfl
@[simp] theorem modTeam_migDecays (u : Nat) (f : Team → Team) : (s.modTeam u f).migDecays = s.migDecays := rfl
@[simp] theorem modTeam_dir (u : Nat) (f : Team → Team) : (s.modTeam u f).dir = s.dir := rfl
@[simp] theorem modTeam_dies (u : Nat) (f : Team → Team) : (s.modTeam u f).dies = s.dies := rfl
@[simp] theorem modTeam_ctxs (u : Nat) (f : Team → Team) : (s.modTeam u f).ctxs = s.ctxs := rfl
@[simp] theorem modTeam_manage (u : Nat) (f : Team → Team) : (s.modTeam u f).manage = s.manage := rfl
@[simp] theorem modTeam_records (u : Nat) (f : Team → Team) : (s.modTeam u f).records = s.records := rfl
@[simp] theorem modTeam_schedule (u : Nat) (f : Team → Team) : (s.modTeam u f).schedule = s.schedule := rfl
@[simp] theorem modTeam_cur (u : Nat) (f : Team → Team) : (s.modTeam u f).cur = s.cur := rfl
@[simp] theorem modTeam_uid (u : Nat) (f : Team → Team) : (s.modTeam u f).uid = s.uid := rfl
@[simp] theorem modTeam_freeN (u : Nat) (f : Team → Team) : (s.modTeam u f).freeN = s.freeN := rfl

/-! `State.modStrand` -/

@[simp] theorem modStrand_clock (t g x : Nat) (f : Strand → Strand) : (s.modStrand t g x f).clock = s.clock := rfl
@[simp] theorem modStrand_saved (t g x : Nat) (f : Strand → Strand) : (s.modStrand t g x f).saved = s.saved := rfl
@[simp] theorem modStrand_jobs (t g x : Nat) (f : Strand → Strand) : (s.modStrand t g x f).jobs = s.jobs := rfl
@[simp] theorem modStrand_grids (t g x : Nat) (f : Strand → Strand) : (s.modStrand t g x f).grids = s.grids := rfl
@[simp] theorem modStrand_tasks (t g x : Nat) (f : Strand → Strand) : (s.modStrand t g x f).tasks = s.tasks := rfl
@[simp] theorem modStrand_taskCap (t g x : Nat) (f : Strand → Strand) : (s.modStrand t g x f).taskCap = s.taskCap := rfl
@[simp] theorem modStrand_queues (t g x : Nat) (f : Strand → Strand) : (s.modStrand t g x f).queues = s.queues := rfl
@[simp] theorem modStrand_lqs (t g x : Nat) (f : Strand → Strand) : (s.modStrand t g x f).lqs = s.lqs := rfl
@[simp] theorem modStrand_loader (t g x : Nat) (f : Strand → Strand) : (s.modStrand t g x f).loader = s.loader := rfl
@[simp] theorem modStrand_segs (t g x : Nat) (f : Strand → Strand) : (s.modStrand t g x f).segs = s.segs := rfl
@[simp] theorem modStrand_wcprobe (t g x : Nat) (f : Strand → Strand) : (s.modStrand t g x f).wcprobe = s.wcprobe := rfl
@[simp] theorem modStrand_probes (t g x : Nat) (f : Strand → Strand) : (s.modStrand t g x f).probes = s.probes := rfl
@[simp] theorem modStrand_binds (t g x : Nat) (f : Strand → Strand) : (s.modStrand t g x f).binds = s.binds := rfl
@[simp] theorem modStrand_counters (t g x : Nat) (f : Strand → Strand) : (s.modStrand t g x f).counters = s.counters := rfl
@[simp] theorem modStrand_mem (t g x : Nat) (f : Strand → Strand) : (s.modStrand t g x f).mem = s.mem := rfl
@[simp] theorem modStrand_poison (t g x : Nat) (f : Strand → Strand) : (s.modStrand t g x f).poison = s.poison := rfl
@[simp] theorem modStrand_copies (t g x : Nat) (f : Strand → Strand) : (s.modStrand t g x f).copies = s.copies := rfl
@[simp] theorem modStrand_tlb (t g x : Nat) (f : Strand → Strand) : (s.modStrand t g x f).tlb = s.tlb := rfl
@[simp] theorem modStrand_misses (t g x : Nat) (f : Strand → Strand) : (s.modStrand t g x f).misses = s.misses := rfl
@[simp] theorem modStrand_invals (t g x : Nat) (f : Strand → Strand) : (s.modStrand t g x f).invals = s.invals := rfl
@[simp] theorem modStrand_migCounts (t g x : Nat) (f : Strand → Strand) : (s.modStrand t g x f).migCounts = s.migCounts := rfl
@[simp] theorem modStrand_migAsked (t g x : Nat) (f : Strand → Strand) : (s.modStrand t g x f).migAsked = s.migAsked := rfl
@[simp] theorem modStrand_migDecays (t g x : Nat) (f : Strand → Strand) : (s.modStrand t g x f).migDecays = s.migDecays := rfl
@[simp] theorem modStrand_dir (t g x : Nat) (f : Strand → Strand) : (s.modStrand t g x f).dir = s.dir := rfl
@[simp] theorem modStrand_dies (t g x : Nat) (f : Strand → Strand) : (s.modStrand t g x f).dies = s.dies := rfl
@[simp] theorem modStrand_ctxs (t g x : Nat) (f : Strand → Strand) : (s.modStrand t g x f).ctxs = s.ctxs := rfl
@[simp] theorem modStrand_manage (t g x : Nat) (f : Strand → Strand) : (s.modStrand t g x f).manage = s.manage := rfl
@[simp] theorem modStrand_records (t g x : Nat) (f : Strand → Strand) : (s.modStrand t g x f).records = s.records := rfl
@[simp] theorem modStrand_schedule (t g x : Nat) (f : Strand → Strand) : (s.modStrand t g x f).schedule = s.schedule := rfl
@[simp] theorem modStrand_cur (t g x : Nat) (f : Strand → Strand) : (s.modStrand t g x f).cur = s.cur := rfl
@[simp] theorem modStrand_uid (t g x : Nat) (f : Strand → Strand) : (s.modStrand t g x f).uid = s.uid := rfl
@[simp] theorem modStrand_freeN (t g x : Nat) (f : Strand → Strand) : (s.modStrand t g x f).freeN = s.freeN := rfl

/-! `State.modAllStrands` -/

@[simp] theorem modAllStrands_clock (f : Team → Group → Strand → Strand) : (s.modAllStrands f).clock = s.clock := rfl
@[simp] theorem modAllStrands_saved (f : Team → Group → Strand → Strand) : (s.modAllStrands f).saved = s.saved := rfl
@[simp] theorem modAllStrands_jobs (f : Team → Group → Strand → Strand) : (s.modAllStrands f).jobs = s.jobs := rfl
@[simp] theorem modAllStrands_grids (f : Team → Group → Strand → Strand) : (s.modAllStrands f).grids = s.grids := rfl
@[simp] theorem modAllStrands_tasks (f : Team → Group → Strand → Strand) : (s.modAllStrands f).tasks = s.tasks := rfl
@[simp] theorem modAllStrands_taskCap (f : Team → Group → Strand → Strand) : (s.modAllStrands f).taskCap = s.taskCap := rfl
@[simp] theorem modAllStrands_queues (f : Team → Group → Strand → Strand) : (s.modAllStrands f).queues = s.queues := rfl
@[simp] theorem modAllStrands_lqs (f : Team → Group → Strand → Strand) : (s.modAllStrands f).lqs = s.lqs := rfl
@[simp] theorem modAllStrands_loader (f : Team → Group → Strand → Strand) : (s.modAllStrands f).loader = s.loader := rfl
@[simp] theorem modAllStrands_segs (f : Team → Group → Strand → Strand) : (s.modAllStrands f).segs = s.segs := rfl
@[simp] theorem modAllStrands_wcprobe (f : Team → Group → Strand → Strand) : (s.modAllStrands f).wcprobe = s.wcprobe := rfl
@[simp] theorem modAllStrands_probes (f : Team → Group → Strand → Strand) : (s.modAllStrands f).probes = s.probes := rfl
@[simp] theorem modAllStrands_binds (f : Team → Group → Strand → Strand) : (s.modAllStrands f).binds = s.binds := rfl
@[simp] theorem modAllStrands_counters (f : Team → Group → Strand → Strand) : (s.modAllStrands f).counters = s.counters := rfl
@[simp] theorem modAllStrands_mem (f : Team → Group → Strand → Strand) : (s.modAllStrands f).mem = s.mem := rfl
@[simp] theorem modAllStrands_poison (f : Team → Group → Strand → Strand) : (s.modAllStrands f).poison = s.poison := rfl
@[simp] theorem modAllStrands_copies (f : Team → Group → Strand → Strand) : (s.modAllStrands f).copies = s.copies := rfl
@[simp] theorem modAllStrands_tlb (f : Team → Group → Strand → Strand) : (s.modAllStrands f).tlb = s.tlb := rfl
@[simp] theorem modAllStrands_misses (f : Team → Group → Strand → Strand) : (s.modAllStrands f).misses = s.misses := rfl
@[simp] theorem modAllStrands_invals (f : Team → Group → Strand → Strand) : (s.modAllStrands f).invals = s.invals := rfl
@[simp] theorem modAllStrands_migCounts (f : Team → Group → Strand → Strand) : (s.modAllStrands f).migCounts = s.migCounts := rfl
@[simp] theorem modAllStrands_migAsked (f : Team → Group → Strand → Strand) : (s.modAllStrands f).migAsked = s.migAsked := rfl
@[simp] theorem modAllStrands_migDecays (f : Team → Group → Strand → Strand) : (s.modAllStrands f).migDecays = s.migDecays := rfl
@[simp] theorem modAllStrands_dir (f : Team → Group → Strand → Strand) : (s.modAllStrands f).dir = s.dir := rfl
@[simp] theorem modAllStrands_dies (f : Team → Group → Strand → Strand) : (s.modAllStrands f).dies = s.dies := rfl
@[simp] theorem modAllStrands_ctxs (f : Team → Group → Strand → Strand) : (s.modAllStrands f).ctxs = s.ctxs := rfl
@[simp] theorem modAllStrands_manage (f : Team → Group → Strand → Strand) : (s.modAllStrands f).manage = s.manage := rfl
@[simp] theorem modAllStrands_records (f : Team → Group → Strand → Strand) : (s.modAllStrands f).records = s.records := rfl
@[simp] theorem modAllStrands_schedule (f : Team → Group → Strand → Strand) : (s.modAllStrands f).schedule = s.schedule := rfl
@[simp] theorem modAllStrands_cur (f : Team → Group → Strand → Strand) : (s.modAllStrands f).cur = s.cur := rfl
@[simp] theorem modAllStrands_uid (f : Team → Group → Strand → Strand) : (s.modAllStrands f).uid = s.uid := rfl
@[simp] theorem modAllStrands_freeN (f : Team → Group → Strand → Strand) : (s.modAllStrands f).freeN = s.freeN := rfl

/-! `State.modAllGroups` -/

@[simp] theorem modAllGroups_clock (f : Team → Group → Group) : (s.modAllGroups f).clock = s.clock := rfl
@[simp] theorem modAllGroups_saved (f : Team → Group → Group) : (s.modAllGroups f).saved = s.saved := rfl
@[simp] theorem modAllGroups_jobs (f : Team → Group → Group) : (s.modAllGroups f).jobs = s.jobs := rfl
@[simp] theorem modAllGroups_grids (f : Team → Group → Group) : (s.modAllGroups f).grids = s.grids := rfl
@[simp] theorem modAllGroups_tasks (f : Team → Group → Group) : (s.modAllGroups f).tasks = s.tasks := rfl
@[simp] theorem modAllGroups_taskCap (f : Team → Group → Group) : (s.modAllGroups f).taskCap = s.taskCap := rfl
@[simp] theorem modAllGroups_queues (f : Team → Group → Group) : (s.modAllGroups f).queues = s.queues := rfl
@[simp] theorem modAllGroups_lqs (f : Team → Group → Group) : (s.modAllGroups f).lqs = s.lqs := rfl
@[simp] theorem modAllGroups_loader (f : Team → Group → Group) : (s.modAllGroups f).loader = s.loader := rfl
@[simp] theorem modAllGroups_segs (f : Team → Group → Group) : (s.modAllGroups f).segs = s.segs := rfl
@[simp] theorem modAllGroups_wcprobe (f : Team → Group → Group) : (s.modAllGroups f).wcprobe = s.wcprobe := rfl
@[simp] theorem modAllGroups_probes (f : Team → Group → Group) : (s.modAllGroups f).probes = s.probes := rfl
@[simp] theorem modAllGroups_binds (f : Team → Group → Group) : (s.modAllGroups f).binds = s.binds := rfl
@[simp] theorem modAllGroups_counters (f : Team → Group → Group) : (s.modAllGroups f).counters = s.counters := rfl
@[simp] theorem modAllGroups_mem (f : Team → Group → Group) : (s.modAllGroups f).mem = s.mem := rfl
@[simp] theorem modAllGroups_poison (f : Team → Group → Group) : (s.modAllGroups f).poison = s.poison := rfl
@[simp] theorem modAllGroups_copies (f : Team → Group → Group) : (s.modAllGroups f).copies = s.copies := rfl
@[simp] theorem modAllGroups_tlb (f : Team → Group → Group) : (s.modAllGroups f).tlb = s.tlb := rfl
@[simp] theorem modAllGroups_misses (f : Team → Group → Group) : (s.modAllGroups f).misses = s.misses := rfl
@[simp] theorem modAllGroups_invals (f : Team → Group → Group) : (s.modAllGroups f).invals = s.invals := rfl
@[simp] theorem modAllGroups_migCounts (f : Team → Group → Group) : (s.modAllGroups f).migCounts = s.migCounts := rfl
@[simp] theorem modAllGroups_migAsked (f : Team → Group → Group) : (s.modAllGroups f).migAsked = s.migAsked := rfl
@[simp] theorem modAllGroups_migDecays (f : Team → Group → Group) : (s.modAllGroups f).migDecays = s.migDecays := rfl
@[simp] theorem modAllGroups_dir (f : Team → Group → Group) : (s.modAllGroups f).dir = s.dir := rfl
@[simp] theorem modAllGroups_dies (f : Team → Group → Group) : (s.modAllGroups f).dies = s.dies := rfl
@[simp] theorem modAllGroups_ctxs (f : Team → Group → Group) : (s.modAllGroups f).ctxs = s.ctxs := rfl
@[simp] theorem modAllGroups_manage (f : Team → Group → Group) : (s.modAllGroups f).manage = s.manage := rfl
@[simp] theorem modAllGroups_records (f : Team → Group → Group) : (s.modAllGroups f).records = s.records := rfl
@[simp] theorem modAllGroups_schedule (f : Team → Group → Group) : (s.modAllGroups f).schedule = s.schedule := rfl
@[simp] theorem modAllGroups_cur (f : Team → Group → Group) : (s.modAllGroups f).cur = s.cur := rfl
@[simp] theorem modAllGroups_uid (f : Team → Group → Group) : (s.modAllGroups f).uid = s.uid := rfl
@[simp] theorem modAllGroups_freeN (f : Team → Group → Group) : (s.modAllGroups f).freeN = s.freeN := rfl

/-! `State.putHere` -/

@[simp] theorem putHere_clock (h : Here) : (s.putHere h).clock = s.clock := rfl
@[simp] theorem putHere_saved (h : Here) : (s.putHere h).saved = s.saved := rfl
@[simp] theorem putHere_jobs (h : Here) : (s.putHere h).jobs = s.jobs := rfl
@[simp] theorem putHere_grids (h : Here) : (s.putHere h).grids = s.grids := rfl
@[simp] theorem putHere_tasks (h : Here) : (s.putHere h).tasks = s.tasks := rfl
@[simp] theorem putHere_taskCap (h : Here) : (s.putHere h).taskCap = s.taskCap := rfl
@[simp] theorem putHere_queues (h : Here) : (s.putHere h).queues = s.queues := rfl
@[simp] theorem putHere_lqs (h : Here) : (s.putHere h).lqs = s.lqs := rfl
@[simp] theorem putHere_loader (h : Here) : (s.putHere h).loader = s.loader := rfl
@[simp] theorem putHere_segs (h : Here) : (s.putHere h).segs = s.segs := rfl
@[simp] theorem putHere_wcprobe (h : Here) : (s.putHere h).wcprobe = s.wcprobe := rfl
@[simp] theorem putHere_probes (h : Here) : (s.putHere h).probes = s.probes := rfl
@[simp] theorem putHere_binds (h : Here) : (s.putHere h).binds = s.binds := rfl
@[simp] theorem putHere_counters (h : Here) : (s.putHere h).counters = s.counters := rfl
@[simp] theorem putHere_mem (h : Here) : (s.putHere h).mem = s.mem := rfl
@[simp] theorem putHere_poison (h : Here) : (s.putHere h).poison = s.poison := rfl
@[simp] theorem putHere_copies (h : Here) : (s.putHere h).copies = s.copies := rfl
@[simp] theorem putHere_tlb (h : Here) : (s.putHere h).tlb = s.tlb := rfl
@[simp] theorem putHere_misses (h : Here) : (s.putHere h).misses = s.misses := rfl
@[simp] theorem putHere_invals (h : Here) : (s.putHere h).invals = s.invals := rfl
@[simp] theorem putHere_migCounts (h : Here) : (s.putHere h).migCounts = s.migCounts := rfl
@[simp] theorem putHere_migAsked (h : Here) : (s.putHere h).migAsked = s.migAsked := rfl
@[simp] theorem putHere_migDecays (h : Here) : (s.putHere h).migDecays = s.migDecays := rfl
@[simp] theorem putHere_dir (h : Here) : (s.putHere h).dir = s.dir := rfl
@[simp] theorem putHere_dies (h : Here) : (s.putHere h).dies = s.dies := rfl
@[simp] theorem putHere_ctxs (h : Here) : (s.putHere h).ctxs = s.ctxs := rfl
@[simp] theorem putHere_manage (h : Here) : (s.putHere h).manage = s.manage := rfl
@[simp] theorem putHere_records (h : Here) : (s.putHere h).records = s.records := rfl
@[simp] theorem putHere_schedule (h : Here) : (s.putHere h).schedule = s.schedule := rfl
@[simp] theorem putHere_cur (h : Here) : (s.putHere h).cur = s.cur := rfl
@[simp] theorem putHere_uid (h : Here) : (s.putHere h).uid = s.uid := rfl
@[simp] theorem putHere_freeN (h : Here) : (s.putHere h).freeN = s.freeN := rfl

/-! `State.settle` -/

@[simp] theorem settle_clock (u : Nat) : (s.settle u).clock = s.clock := rfl
@[simp] theorem settle_saved (u : Nat) : (s.settle u).saved = s.saved := rfl
@[simp] theorem settle_jobs (u : Nat) : (s.settle u).jobs = s.jobs := rfl
@[simp] theorem settle_grids (u : Nat) : (s.settle u).grids = s.grids := rfl
@[simp] theorem settle_tasks (u : Nat) : (s.settle u).tasks = s.tasks := rfl
@[simp] theorem settle_taskCap (u : Nat) : (s.settle u).taskCap = s.taskCap := rfl
@[simp] theorem settle_queues (u : Nat) : (s.settle u).queues = s.queues := rfl
@[simp] theorem settle_lqs (u : Nat) : (s.settle u).lqs = s.lqs := rfl
@[simp] theorem settle_loader (u : Nat) : (s.settle u).loader = s.loader := rfl
@[simp] theorem settle_segs (u : Nat) : (s.settle u).segs = s.segs := rfl
@[simp] theorem settle_wcprobe (u : Nat) : (s.settle u).wcprobe = s.wcprobe := rfl
@[simp] theorem settle_probes (u : Nat) : (s.settle u).probes = s.probes := rfl
@[simp] theorem settle_binds (u : Nat) : (s.settle u).binds = s.binds := rfl
@[simp] theorem settle_counters (u : Nat) : (s.settle u).counters = s.counters := rfl
@[simp] theorem settle_mem (u : Nat) : (s.settle u).mem = s.mem := rfl
@[simp] theorem settle_poison (u : Nat) : (s.settle u).poison = s.poison := rfl
@[simp] theorem settle_copies (u : Nat) : (s.settle u).copies = s.copies := rfl
@[simp] theorem settle_tlb (u : Nat) : (s.settle u).tlb = s.tlb := rfl
@[simp] theorem settle_misses (u : Nat) : (s.settle u).misses = s.misses := rfl
@[simp] theorem settle_invals (u : Nat) : (s.settle u).invals = s.invals := rfl
@[simp] theorem settle_migCounts (u : Nat) : (s.settle u).migCounts = s.migCounts := rfl
@[simp] theorem settle_migAsked (u : Nat) : (s.settle u).migAsked = s.migAsked := rfl
@[simp] theorem settle_migDecays (u : Nat) : (s.settle u).migDecays = s.migDecays := rfl
@[simp] theorem settle_dir (u : Nat) : (s.settle u).dir = s.dir := rfl
@[simp] theorem settle_dies (u : Nat) : (s.settle u).dies = s.dies := rfl
@[simp] theorem settle_ctxs (u : Nat) : (s.settle u).ctxs = s.ctxs := rfl
@[simp] theorem settle_manage (u : Nat) : (s.settle u).manage = s.manage := rfl
@[simp] theorem settle_records (u : Nat) : (s.settle u).records = s.records := rfl
@[simp] theorem settle_schedule (u : Nat) : (s.settle u).schedule = s.schedule := rfl
@[simp] theorem settle_cur (u : Nat) : (s.settle u).cur = s.cur := rfl
@[simp] theorem settle_uid (u : Nat) : (s.settle u).uid = s.uid := rfl
@[simp] theorem settle_freeN (u : Nat) : (s.settle u).freeN = s.freeN := rfl

/-! `State.modGrid` -/

@[simp] theorem modGrid_clock (u : Nat) (f : Grid → Grid) : (s.modGrid u f).clock = s.clock := rfl
@[simp] theorem modGrid_teams (u : Nat) (f : Grid → Grid) : (s.modGrid u f).teams = s.teams := rfl
@[simp] theorem modGrid_saved (u : Nat) (f : Grid → Grid) : (s.modGrid u f).saved = s.saved := rfl
@[simp] theorem modGrid_jobs (u : Nat) (f : Grid → Grid) : (s.modGrid u f).jobs = s.jobs := rfl
@[simp] theorem modGrid_tasks (u : Nat) (f : Grid → Grid) : (s.modGrid u f).tasks = s.tasks := rfl
@[simp] theorem modGrid_taskCap (u : Nat) (f : Grid → Grid) : (s.modGrid u f).taskCap = s.taskCap := rfl
@[simp] theorem modGrid_queues (u : Nat) (f : Grid → Grid) : (s.modGrid u f).queues = s.queues := rfl
@[simp] theorem modGrid_lqs (u : Nat) (f : Grid → Grid) : (s.modGrid u f).lqs = s.lqs := rfl
@[simp] theorem modGrid_loader (u : Nat) (f : Grid → Grid) : (s.modGrid u f).loader = s.loader := rfl
@[simp] theorem modGrid_segs (u : Nat) (f : Grid → Grid) : (s.modGrid u f).segs = s.segs := rfl
@[simp] theorem modGrid_wcprobe (u : Nat) (f : Grid → Grid) : (s.modGrid u f).wcprobe = s.wcprobe := rfl
@[simp] theorem modGrid_probes (u : Nat) (f : Grid → Grid) : (s.modGrid u f).probes = s.probes := rfl
@[simp] theorem modGrid_binds (u : Nat) (f : Grid → Grid) : (s.modGrid u f).binds = s.binds := rfl
@[simp] theorem modGrid_counters (u : Nat) (f : Grid → Grid) : (s.modGrid u f).counters = s.counters := rfl
@[simp] theorem modGrid_mem (u : Nat) (f : Grid → Grid) : (s.modGrid u f).mem = s.mem := rfl
@[simp] theorem modGrid_poison (u : Nat) (f : Grid → Grid) : (s.modGrid u f).poison = s.poison := rfl
@[simp] theorem modGrid_copies (u : Nat) (f : Grid → Grid) : (s.modGrid u f).copies = s.copies := rfl
@[simp] theorem modGrid_tlb (u : Nat) (f : Grid → Grid) : (s.modGrid u f).tlb = s.tlb := rfl
@[simp] theorem modGrid_misses (u : Nat) (f : Grid → Grid) : (s.modGrid u f).misses = s.misses := rfl
@[simp] theorem modGrid_invals (u : Nat) (f : Grid → Grid) : (s.modGrid u f).invals = s.invals := rfl
@[simp] theorem modGrid_migCounts (u : Nat) (f : Grid → Grid) : (s.modGrid u f).migCounts = s.migCounts := rfl
@[simp] theorem modGrid_migAsked (u : Nat) (f : Grid → Grid) : (s.modGrid u f).migAsked = s.migAsked := rfl
@[simp] theorem modGrid_migDecays (u : Nat) (f : Grid → Grid) : (s.modGrid u f).migDecays = s.migDecays := rfl
@[simp] theorem modGrid_dir (u : Nat) (f : Grid → Grid) : (s.modGrid u f).dir = s.dir := rfl
@[simp] theorem modGrid_dies (u : Nat) (f : Grid → Grid) : (s.modGrid u f).dies = s.dies := rfl
@[simp] theorem modGrid_ctxs (u : Nat) (f : Grid → Grid) : (s.modGrid u f).ctxs = s.ctxs := rfl
@[simp] theorem modGrid_manage (u : Nat) (f : Grid → Grid) : (s.modGrid u f).manage = s.manage := rfl
@[simp] theorem modGrid_records (u : Nat) (f : Grid → Grid) : (s.modGrid u f).records = s.records := rfl
@[simp] theorem modGrid_schedule (u : Nat) (f : Grid → Grid) : (s.modGrid u f).schedule = s.schedule := rfl
@[simp] theorem modGrid_cur (u : Nat) (f : Grid → Grid) : (s.modGrid u f).cur = s.cur := rfl
@[simp] theorem modGrid_uid (u : Nat) (f : Grid → Grid) : (s.modGrid u f).uid = s.uid := rfl
@[simp] theorem modGrid_freeN (u : Nat) (f : Grid → Grid) : (s.modGrid u f).freeN = s.freeN := rfl

/-! `State.putSched` -/

@[simp] theorem putSched_clock (u : Nat) (c : Sched) : (s.putSched u c).clock = s.clock := rfl
@[simp] theorem putSched_teams (u : Nat) (c : Sched) : (s.putSched u c).teams = s.teams := rfl
@[simp] theorem putSched_saved (u : Nat) (c : Sched) : (s.putSched u c).saved = s.saved := rfl
@[simp] theorem putSched_jobs (u : Nat) (c : Sched) : (s.putSched u c).jobs = s.jobs := rfl
@[simp] theorem putSched_tasks (u : Nat) (c : Sched) : (s.putSched u c).tasks = s.tasks := rfl
@[simp] theorem putSched_taskCap (u : Nat) (c : Sched) : (s.putSched u c).taskCap = s.taskCap := rfl
@[simp] theorem putSched_queues (u : Nat) (c : Sched) : (s.putSched u c).queues = s.queues := rfl
@[simp] theorem putSched_lqs (u : Nat) (c : Sched) : (s.putSched u c).lqs = s.lqs := rfl
@[simp] theorem putSched_loader (u : Nat) (c : Sched) : (s.putSched u c).loader = s.loader := rfl
@[simp] theorem putSched_segs (u : Nat) (c : Sched) : (s.putSched u c).segs = s.segs := rfl
@[simp] theorem putSched_wcprobe (u : Nat) (c : Sched) : (s.putSched u c).wcprobe = s.wcprobe := rfl
@[simp] theorem putSched_probes (u : Nat) (c : Sched) : (s.putSched u c).probes = s.probes := rfl
@[simp] theorem putSched_binds (u : Nat) (c : Sched) : (s.putSched u c).binds = s.binds := rfl
@[simp] theorem putSched_counters (u : Nat) (c : Sched) : (s.putSched u c).counters = s.counters := rfl
@[simp] theorem putSched_mem (u : Nat) (c : Sched) : (s.putSched u c).mem = s.mem := rfl
@[simp] theorem putSched_poison (u : Nat) (c : Sched) : (s.putSched u c).poison = s.poison := rfl
@[simp] theorem putSched_copies (u : Nat) (c : Sched) : (s.putSched u c).copies = s.copies := rfl
@[simp] theorem putSched_tlb (u : Nat) (c : Sched) : (s.putSched u c).tlb = s.tlb := rfl
@[simp] theorem putSched_misses (u : Nat) (c : Sched) : (s.putSched u c).misses = s.misses := rfl
@[simp] theorem putSched_invals (u : Nat) (c : Sched) : (s.putSched u c).invals = s.invals := rfl
@[simp] theorem putSched_migCounts (u : Nat) (c : Sched) : (s.putSched u c).migCounts = s.migCounts := rfl
@[simp] theorem putSched_migAsked (u : Nat) (c : Sched) : (s.putSched u c).migAsked = s.migAsked := rfl
@[simp] theorem putSched_migDecays (u : Nat) (c : Sched) : (s.putSched u c).migDecays = s.migDecays := rfl
@[simp] theorem putSched_dir (u : Nat) (c : Sched) : (s.putSched u c).dir = s.dir := rfl
@[simp] theorem putSched_dies (u : Nat) (c : Sched) : (s.putSched u c).dies = s.dies := rfl
@[simp] theorem putSched_ctxs (u : Nat) (c : Sched) : (s.putSched u c).ctxs = s.ctxs := rfl
@[simp] theorem putSched_manage (u : Nat) (c : Sched) : (s.putSched u c).manage = s.manage := rfl
@[simp] theorem putSched_records (u : Nat) (c : Sched) : (s.putSched u c).records = s.records := rfl
@[simp] theorem putSched_schedule (u : Nat) (c : Sched) : (s.putSched u c).schedule = s.schedule := rfl
@[simp] theorem putSched_cur (u : Nat) (c : Sched) : (s.putSched u c).cur = s.cur := rfl
@[simp] theorem putSched_uid (u : Nat) (c : Sched) : (s.putSched u c).uid = s.uid := rfl
@[simp] theorem putSched_freeN (u : Nat) (c : Sched) : (s.putSched u c).freeN = s.freeN := rfl

/-! `State.modCtx` -/

@[simp] theorem modCtx_clock (a : Nat) (f : Ctx → Ctx) : (s.modCtx a f).clock = s.clock := rfl
@[simp] theorem modCtx_teams (a : Nat) (f : Ctx → Ctx) : (s.modCtx a f).teams = s.teams := rfl
@[simp] theorem modCtx_saved (a : Nat) (f : Ctx → Ctx) : (s.modCtx a f).saved = s.saved := rfl
@[simp] theorem modCtx_jobs (a : Nat) (f : Ctx → Ctx) : (s.modCtx a f).jobs = s.jobs := rfl
@[simp] theorem modCtx_grids (a : Nat) (f : Ctx → Ctx) : (s.modCtx a f).grids = s.grids := rfl
@[simp] theorem modCtx_tasks (a : Nat) (f : Ctx → Ctx) : (s.modCtx a f).tasks = s.tasks := rfl
@[simp] theorem modCtx_taskCap (a : Nat) (f : Ctx → Ctx) : (s.modCtx a f).taskCap = s.taskCap := rfl
@[simp] theorem modCtx_queues (a : Nat) (f : Ctx → Ctx) : (s.modCtx a f).queues = s.queues := rfl
@[simp] theorem modCtx_lqs (a : Nat) (f : Ctx → Ctx) : (s.modCtx a f).lqs = s.lqs := rfl
@[simp] theorem modCtx_loader (a : Nat) (f : Ctx → Ctx) : (s.modCtx a f).loader = s.loader := rfl
@[simp] theorem modCtx_segs (a : Nat) (f : Ctx → Ctx) : (s.modCtx a f).segs = s.segs := rfl
@[simp] theorem modCtx_wcprobe (a : Nat) (f : Ctx → Ctx) : (s.modCtx a f).wcprobe = s.wcprobe := rfl
@[simp] theorem modCtx_probes (a : Nat) (f : Ctx → Ctx) : (s.modCtx a f).probes = s.probes := rfl
@[simp] theorem modCtx_binds (a : Nat) (f : Ctx → Ctx) : (s.modCtx a f).binds = s.binds := rfl
@[simp] theorem modCtx_counters (a : Nat) (f : Ctx → Ctx) : (s.modCtx a f).counters = s.counters := rfl
@[simp] theorem modCtx_mem (a : Nat) (f : Ctx → Ctx) : (s.modCtx a f).mem = s.mem := rfl
@[simp] theorem modCtx_poison (a : Nat) (f : Ctx → Ctx) : (s.modCtx a f).poison = s.poison := rfl
@[simp] theorem modCtx_copies (a : Nat) (f : Ctx → Ctx) : (s.modCtx a f).copies = s.copies := rfl
@[simp] theorem modCtx_tlb (a : Nat) (f : Ctx → Ctx) : (s.modCtx a f).tlb = s.tlb := rfl
@[simp] theorem modCtx_misses (a : Nat) (f : Ctx → Ctx) : (s.modCtx a f).misses = s.misses := rfl
@[simp] theorem modCtx_invals (a : Nat) (f : Ctx → Ctx) : (s.modCtx a f).invals = s.invals := rfl
@[simp] theorem modCtx_migCounts (a : Nat) (f : Ctx → Ctx) : (s.modCtx a f).migCounts = s.migCounts := rfl
@[simp] theorem modCtx_migAsked (a : Nat) (f : Ctx → Ctx) : (s.modCtx a f).migAsked = s.migAsked := rfl
@[simp] theorem modCtx_migDecays (a : Nat) (f : Ctx → Ctx) : (s.modCtx a f).migDecays = s.migDecays := rfl
@[simp] theorem modCtx_dir (a : Nat) (f : Ctx → Ctx) : (s.modCtx a f).dir = s.dir := rfl
@[simp] theorem modCtx_dies (a : Nat) (f : Ctx → Ctx) : (s.modCtx a f).dies = s.dies := rfl
@[simp] theorem modCtx_manage (a : Nat) (f : Ctx → Ctx) : (s.modCtx a f).manage = s.manage := rfl
@[simp] theorem modCtx_records (a : Nat) (f : Ctx → Ctx) : (s.modCtx a f).records = s.records := rfl
@[simp] theorem modCtx_schedule (a : Nat) (f : Ctx → Ctx) : (s.modCtx a f).schedule = s.schedule := rfl
@[simp] theorem modCtx_cur (a : Nat) (f : Ctx → Ctx) : (s.modCtx a f).cur = s.cur := rfl
@[simp] theorem modCtx_uid (a : Nat) (f : Ctx → Ctx) : (s.modCtx a f).uid = s.uid := rfl
@[simp] theorem modCtx_freeN (a : Nat) (f : Ctx → Ctx) : (s.modCtx a f).freeN = s.freeN := rfl

/-! `State.modLq` -/

@[simp] theorem modLq_clock (q : Nat) (f : LaunchQueue → LaunchQueue) : (s.modLq q f).clock = s.clock := rfl
@[simp] theorem modLq_teams (q : Nat) (f : LaunchQueue → LaunchQueue) : (s.modLq q f).teams = s.teams := rfl
@[simp] theorem modLq_saved (q : Nat) (f : LaunchQueue → LaunchQueue) : (s.modLq q f).saved = s.saved := rfl
@[simp] theorem modLq_jobs (q : Nat) (f : LaunchQueue → LaunchQueue) : (s.modLq q f).jobs = s.jobs := rfl
@[simp] theorem modLq_grids (q : Nat) (f : LaunchQueue → LaunchQueue) : (s.modLq q f).grids = s.grids := rfl
@[simp] theorem modLq_tasks (q : Nat) (f : LaunchQueue → LaunchQueue) : (s.modLq q f).tasks = s.tasks := rfl
@[simp] theorem modLq_taskCap (q : Nat) (f : LaunchQueue → LaunchQueue) : (s.modLq q f).taskCap = s.taskCap := rfl
@[simp] theorem modLq_queues (q : Nat) (f : LaunchQueue → LaunchQueue) : (s.modLq q f).queues = s.queues := rfl
@[simp] theorem modLq_loader (q : Nat) (f : LaunchQueue → LaunchQueue) : (s.modLq q f).loader = s.loader := rfl
@[simp] theorem modLq_segs (q : Nat) (f : LaunchQueue → LaunchQueue) : (s.modLq q f).segs = s.segs := rfl
@[simp] theorem modLq_wcprobe (q : Nat) (f : LaunchQueue → LaunchQueue) : (s.modLq q f).wcprobe = s.wcprobe := rfl
@[simp] theorem modLq_probes (q : Nat) (f : LaunchQueue → LaunchQueue) : (s.modLq q f).probes = s.probes := rfl
@[simp] theorem modLq_binds (q : Nat) (f : LaunchQueue → LaunchQueue) : (s.modLq q f).binds = s.binds := rfl
@[simp] theorem modLq_counters (q : Nat) (f : LaunchQueue → LaunchQueue) : (s.modLq q f).counters = s.counters := rfl
@[simp] theorem modLq_mem (q : Nat) (f : LaunchQueue → LaunchQueue) : (s.modLq q f).mem = s.mem := rfl
@[simp] theorem modLq_poison (q : Nat) (f : LaunchQueue → LaunchQueue) : (s.modLq q f).poison = s.poison := rfl
@[simp] theorem modLq_copies (q : Nat) (f : LaunchQueue → LaunchQueue) : (s.modLq q f).copies = s.copies := rfl
@[simp] theorem modLq_tlb (q : Nat) (f : LaunchQueue → LaunchQueue) : (s.modLq q f).tlb = s.tlb := rfl
@[simp] theorem modLq_misses (q : Nat) (f : LaunchQueue → LaunchQueue) : (s.modLq q f).misses = s.misses := rfl
@[simp] theorem modLq_invals (q : Nat) (f : LaunchQueue → LaunchQueue) : (s.modLq q f).invals = s.invals := rfl
@[simp] theorem modLq_migCounts (q : Nat) (f : LaunchQueue → LaunchQueue) : (s.modLq q f).migCounts = s.migCounts := rfl
@[simp] theorem modLq_migAsked (q : Nat) (f : LaunchQueue → LaunchQueue) : (s.modLq q f).migAsked = s.migAsked := rfl
@[simp] theorem modLq_migDecays (q : Nat) (f : LaunchQueue → LaunchQueue) : (s.modLq q f).migDecays = s.migDecays := rfl
@[simp] theorem modLq_dir (q : Nat) (f : LaunchQueue → LaunchQueue) : (s.modLq q f).dir = s.dir := rfl
@[simp] theorem modLq_dies (q : Nat) (f : LaunchQueue → LaunchQueue) : (s.modLq q f).dies = s.dies := rfl
@[simp] theorem modLq_ctxs (q : Nat) (f : LaunchQueue → LaunchQueue) : (s.modLq q f).ctxs = s.ctxs := rfl
@[simp] theorem modLq_manage (q : Nat) (f : LaunchQueue → LaunchQueue) : (s.modLq q f).manage = s.manage := rfl
@[simp] theorem modLq_records (q : Nat) (f : LaunchQueue → LaunchQueue) : (s.modLq q f).records = s.records := rfl
@[simp] theorem modLq_schedule (q : Nat) (f : LaunchQueue → LaunchQueue) : (s.modLq q f).schedule = s.schedule := rfl
@[simp] theorem modLq_cur (q : Nat) (f : LaunchQueue → LaunchQueue) : (s.modLq q f).cur = s.cur := rfl
@[simp] theorem modLq_uid (q : Nat) (f : LaunchQueue → LaunchQueue) : (s.modLq q f).uid = s.uid := rfl
@[simp] theorem modLq_freeN (q : Nat) (f : LaunchQueue → LaunchQueue) : (s.modLq q f).freeN = s.freeN := rfl

/-! `State.modDir` -/

@[simp] theorem modDir_clock (l : Nat) (f : DirLine → DirLine) : (s.modDir l f).clock = s.clock := rfl
@[simp] theorem modDir_teams (l : Nat) (f : DirLine → DirLine) : (s.modDir l f).teams = s.teams := rfl
@[simp] theorem modDir_saved (l : Nat) (f : DirLine → DirLine) : (s.modDir l f).saved = s.saved := rfl
@[simp] theorem modDir_jobs (l : Nat) (f : DirLine → DirLine) : (s.modDir l f).jobs = s.jobs := rfl
@[simp] theorem modDir_grids (l : Nat) (f : DirLine → DirLine) : (s.modDir l f).grids = s.grids := rfl
@[simp] theorem modDir_tasks (l : Nat) (f : DirLine → DirLine) : (s.modDir l f).tasks = s.tasks := rfl
@[simp] theorem modDir_taskCap (l : Nat) (f : DirLine → DirLine) : (s.modDir l f).taskCap = s.taskCap := rfl
@[simp] theorem modDir_queues (l : Nat) (f : DirLine → DirLine) : (s.modDir l f).queues = s.queues := rfl
@[simp] theorem modDir_lqs (l : Nat) (f : DirLine → DirLine) : (s.modDir l f).lqs = s.lqs := rfl
@[simp] theorem modDir_loader (l : Nat) (f : DirLine → DirLine) : (s.modDir l f).loader = s.loader := rfl
@[simp] theorem modDir_segs (l : Nat) (f : DirLine → DirLine) : (s.modDir l f).segs = s.segs := rfl
@[simp] theorem modDir_wcprobe (l : Nat) (f : DirLine → DirLine) : (s.modDir l f).wcprobe = s.wcprobe := rfl
@[simp] theorem modDir_probes (l : Nat) (f : DirLine → DirLine) : (s.modDir l f).probes = s.probes := rfl
@[simp] theorem modDir_binds (l : Nat) (f : DirLine → DirLine) : (s.modDir l f).binds = s.binds := rfl
@[simp] theorem modDir_counters (l : Nat) (f : DirLine → DirLine) : (s.modDir l f).counters = s.counters := rfl
@[simp] theorem modDir_mem (l : Nat) (f : DirLine → DirLine) : (s.modDir l f).mem = s.mem := rfl
@[simp] theorem modDir_poison (l : Nat) (f : DirLine → DirLine) : (s.modDir l f).poison = s.poison := rfl
@[simp] theorem modDir_copies (l : Nat) (f : DirLine → DirLine) : (s.modDir l f).copies = s.copies := rfl
@[simp] theorem modDir_tlb (l : Nat) (f : DirLine → DirLine) : (s.modDir l f).tlb = s.tlb := rfl
@[simp] theorem modDir_misses (l : Nat) (f : DirLine → DirLine) : (s.modDir l f).misses = s.misses := rfl
@[simp] theorem modDir_invals (l : Nat) (f : DirLine → DirLine) : (s.modDir l f).invals = s.invals := rfl
@[simp] theorem modDir_migCounts (l : Nat) (f : DirLine → DirLine) : (s.modDir l f).migCounts = s.migCounts := rfl
@[simp] theorem modDir_migAsked (l : Nat) (f : DirLine → DirLine) : (s.modDir l f).migAsked = s.migAsked := rfl
@[simp] theorem modDir_migDecays (l : Nat) (f : DirLine → DirLine) : (s.modDir l f).migDecays = s.migDecays := rfl
@[simp] theorem modDir_dies (l : Nat) (f : DirLine → DirLine) : (s.modDir l f).dies = s.dies := rfl
@[simp] theorem modDir_ctxs (l : Nat) (f : DirLine → DirLine) : (s.modDir l f).ctxs = s.ctxs := rfl
@[simp] theorem modDir_manage (l : Nat) (f : DirLine → DirLine) : (s.modDir l f).manage = s.manage := rfl
@[simp] theorem modDir_records (l : Nat) (f : DirLine → DirLine) : (s.modDir l f).records = s.records := rfl
@[simp] theorem modDir_schedule (l : Nat) (f : DirLine → DirLine) : (s.modDir l f).schedule = s.schedule := rfl
@[simp] theorem modDir_cur (l : Nat) (f : DirLine → DirLine) : (s.modDir l f).cur = s.cur := rfl
@[simp] theorem modDir_uid (l : Nat) (f : DirLine → DirLine) : (s.modDir l f).uid = s.uid := rfl
@[simp] theorem modDir_freeN (l : Nat) (f : DirLine → DirLine) : (s.modDir l f).freeN = s.freeN := rfl

/-! `State.modDie` -/

@[simp] theorem modDie_clock (d : Nat) (f : DieState → DieState) : (s.modDie d f).clock = s.clock := rfl
@[simp] theorem modDie_teams (d : Nat) (f : DieState → DieState) : (s.modDie d f).teams = s.teams := rfl
@[simp] theorem modDie_saved (d : Nat) (f : DieState → DieState) : (s.modDie d f).saved = s.saved := rfl
@[simp] theorem modDie_jobs (d : Nat) (f : DieState → DieState) : (s.modDie d f).jobs = s.jobs := rfl
@[simp] theorem modDie_grids (d : Nat) (f : DieState → DieState) : (s.modDie d f).grids = s.grids := rfl
@[simp] theorem modDie_tasks (d : Nat) (f : DieState → DieState) : (s.modDie d f).tasks = s.tasks := rfl
@[simp] theorem modDie_taskCap (d : Nat) (f : DieState → DieState) : (s.modDie d f).taskCap = s.taskCap := rfl
@[simp] theorem modDie_queues (d : Nat) (f : DieState → DieState) : (s.modDie d f).queues = s.queues := rfl
@[simp] theorem modDie_lqs (d : Nat) (f : DieState → DieState) : (s.modDie d f).lqs = s.lqs := rfl
@[simp] theorem modDie_loader (d : Nat) (f : DieState → DieState) : (s.modDie d f).loader = s.loader := rfl
@[simp] theorem modDie_segs (d : Nat) (f : DieState → DieState) : (s.modDie d f).segs = s.segs := rfl
@[simp] theorem modDie_wcprobe (d : Nat) (f : DieState → DieState) : (s.modDie d f).wcprobe = s.wcprobe := rfl
@[simp] theorem modDie_probes (d : Nat) (f : DieState → DieState) : (s.modDie d f).probes = s.probes := rfl
@[simp] theorem modDie_binds (d : Nat) (f : DieState → DieState) : (s.modDie d f).binds = s.binds := rfl
@[simp] theorem modDie_counters (d : Nat) (f : DieState → DieState) : (s.modDie d f).counters = s.counters := rfl
@[simp] theorem modDie_mem (d : Nat) (f : DieState → DieState) : (s.modDie d f).mem = s.mem := rfl
@[simp] theorem modDie_poison (d : Nat) (f : DieState → DieState) : (s.modDie d f).poison = s.poison := rfl
@[simp] theorem modDie_copies (d : Nat) (f : DieState → DieState) : (s.modDie d f).copies = s.copies := rfl
@[simp] theorem modDie_tlb (d : Nat) (f : DieState → DieState) : (s.modDie d f).tlb = s.tlb := rfl
@[simp] theorem modDie_misses (d : Nat) (f : DieState → DieState) : (s.modDie d f).misses = s.misses := rfl
@[simp] theorem modDie_invals (d : Nat) (f : DieState → DieState) : (s.modDie d f).invals = s.invals := rfl
@[simp] theorem modDie_migCounts (d : Nat) (f : DieState → DieState) : (s.modDie d f).migCounts = s.migCounts := rfl
@[simp] theorem modDie_migAsked (d : Nat) (f : DieState → DieState) : (s.modDie d f).migAsked = s.migAsked := rfl
@[simp] theorem modDie_migDecays (d : Nat) (f : DieState → DieState) : (s.modDie d f).migDecays = s.migDecays := rfl
@[simp] theorem modDie_dir (d : Nat) (f : DieState → DieState) : (s.modDie d f).dir = s.dir := rfl
@[simp] theorem modDie_ctxs (d : Nat) (f : DieState → DieState) : (s.modDie d f).ctxs = s.ctxs := rfl
@[simp] theorem modDie_manage (d : Nat) (f : DieState → DieState) : (s.modDie d f).manage = s.manage := rfl
@[simp] theorem modDie_records (d : Nat) (f : DieState → DieState) : (s.modDie d f).records = s.records := rfl
@[simp] theorem modDie_schedule (d : Nat) (f : DieState → DieState) : (s.modDie d f).schedule = s.schedule := rfl
@[simp] theorem modDie_cur (d : Nat) (f : DieState → DieState) : (s.modDie d f).cur = s.cur := rfl
@[simp] theorem modDie_uid (d : Nat) (f : DieState → DieState) : (s.modDie d f).uid = s.uid := rfl
@[simp] theorem modDie_freeN (d : Nat) (f : DieState → DieState) : (s.modDie d f).freeN = s.freeN := rfl

/-! `State.modDieLine` -/

@[simp] theorem modDieLine_clock (d l : Nat) (f : DieLine → DieLine) : (s.modDieLine d l f).clock = s.clock := rfl
@[simp] theorem modDieLine_teams (d l : Nat) (f : DieLine → DieLine) : (s.modDieLine d l f).teams = s.teams := rfl
@[simp] theorem modDieLine_saved (d l : Nat) (f : DieLine → DieLine) : (s.modDieLine d l f).saved = s.saved := rfl
@[simp] theorem modDieLine_jobs (d l : Nat) (f : DieLine → DieLine) : (s.modDieLine d l f).jobs = s.jobs := rfl
@[simp] theorem modDieLine_grids (d l : Nat) (f : DieLine → DieLine) : (s.modDieLine d l f).grids = s.grids := rfl
@[simp] theorem modDieLine_tasks (d l : Nat) (f : DieLine → DieLine) : (s.modDieLine d l f).tasks = s.tasks := rfl
@[simp] theorem modDieLine_taskCap (d l : Nat) (f : DieLine → DieLine) : (s.modDieLine d l f).taskCap = s.taskCap := rfl
@[simp] theorem modDieLine_queues (d l : Nat) (f : DieLine → DieLine) : (s.modDieLine d l f).queues = s.queues := rfl
@[simp] theorem modDieLine_lqs (d l : Nat) (f : DieLine → DieLine) : (s.modDieLine d l f).lqs = s.lqs := rfl
@[simp] theorem modDieLine_loader (d l : Nat) (f : DieLine → DieLine) : (s.modDieLine d l f).loader = s.loader := rfl
@[simp] theorem modDieLine_segs (d l : Nat) (f : DieLine → DieLine) : (s.modDieLine d l f).segs = s.segs := rfl
@[simp] theorem modDieLine_wcprobe (d l : Nat) (f : DieLine → DieLine) : (s.modDieLine d l f).wcprobe = s.wcprobe := rfl
@[simp] theorem modDieLine_probes (d l : Nat) (f : DieLine → DieLine) : (s.modDieLine d l f).probes = s.probes := rfl
@[simp] theorem modDieLine_binds (d l : Nat) (f : DieLine → DieLine) : (s.modDieLine d l f).binds = s.binds := rfl
@[simp] theorem modDieLine_counters (d l : Nat) (f : DieLine → DieLine) : (s.modDieLine d l f).counters = s.counters := rfl
@[simp] theorem modDieLine_mem (d l : Nat) (f : DieLine → DieLine) : (s.modDieLine d l f).mem = s.mem := rfl
@[simp] theorem modDieLine_poison (d l : Nat) (f : DieLine → DieLine) : (s.modDieLine d l f).poison = s.poison := rfl
@[simp] theorem modDieLine_copies (d l : Nat) (f : DieLine → DieLine) : (s.modDieLine d l f).copies = s.copies := rfl
@[simp] theorem modDieLine_tlb (d l : Nat) (f : DieLine → DieLine) : (s.modDieLine d l f).tlb = s.tlb := rfl
@[simp] theorem modDieLine_misses (d l : Nat) (f : DieLine → DieLine) : (s.modDieLine d l f).misses = s.misses := rfl
@[simp] theorem modDieLine_invals (d l : Nat) (f : DieLine → DieLine) : (s.modDieLine d l f).invals = s.invals := rfl
@[simp] theorem modDieLine_migCounts (d l : Nat) (f : DieLine → DieLine) : (s.modDieLine d l f).migCounts = s.migCounts := rfl
@[simp] theorem modDieLine_migAsked (d l : Nat) (f : DieLine → DieLine) : (s.modDieLine d l f).migAsked = s.migAsked := rfl
@[simp] theorem modDieLine_migDecays (d l : Nat) (f : DieLine → DieLine) : (s.modDieLine d l f).migDecays = s.migDecays := rfl
@[simp] theorem modDieLine_dir (d l : Nat) (f : DieLine → DieLine) : (s.modDieLine d l f).dir = s.dir := rfl
@[simp] theorem modDieLine_ctxs (d l : Nat) (f : DieLine → DieLine) : (s.modDieLine d l f).ctxs = s.ctxs := rfl
@[simp] theorem modDieLine_manage (d l : Nat) (f : DieLine → DieLine) : (s.modDieLine d l f).manage = s.manage := rfl
@[simp] theorem modDieLine_records (d l : Nat) (f : DieLine → DieLine) : (s.modDieLine d l f).records = s.records := rfl
@[simp] theorem modDieLine_schedule (d l : Nat) (f : DieLine → DieLine) : (s.modDieLine d l f).schedule = s.schedule := rfl
@[simp] theorem modDieLine_cur (d l : Nat) (f : DieLine → DieLine) : (s.modDieLine d l f).cur = s.cur := rfl
@[simp] theorem modDieLine_uid (d l : Nat) (f : DieLine → DieLine) : (s.modDieLine d l f).uid = s.uid := rfl
@[simp] theorem modDieLine_freeN (d l : Nat) (f : DieLine → DieLine) : (s.modDieLine d l f).freeN = s.freeN := rfl

/-! `State.putCounter` -/

@[simp] theorem putCounter_clock (n : Nat) (v : DWord) : (s.putCounter n v).clock = s.clock := rfl
@[simp] theorem putCounter_teams (n : Nat) (v : DWord) : (s.putCounter n v).teams = s.teams := rfl
@[simp] theorem putCounter_saved (n : Nat) (v : DWord) : (s.putCounter n v).saved = s.saved := rfl
@[simp] theorem putCounter_jobs (n : Nat) (v : DWord) : (s.putCounter n v).jobs = s.jobs := rfl
@[simp] theorem putCounter_grids (n : Nat) (v : DWord) : (s.putCounter n v).grids = s.grids := rfl
@[simp] theorem putCounter_tasks (n : Nat) (v : DWord) : (s.putCounter n v).tasks = s.tasks := rfl
@[simp] theorem putCounter_taskCap (n : Nat) (v : DWord) : (s.putCounter n v).taskCap = s.taskCap := rfl
@[simp] theorem putCounter_queues (n : Nat) (v : DWord) : (s.putCounter n v).queues = s.queues := rfl
@[simp] theorem putCounter_lqs (n : Nat) (v : DWord) : (s.putCounter n v).lqs = s.lqs := rfl
@[simp] theorem putCounter_loader (n : Nat) (v : DWord) : (s.putCounter n v).loader = s.loader := rfl
@[simp] theorem putCounter_segs (n : Nat) (v : DWord) : (s.putCounter n v).segs = s.segs := rfl
@[simp] theorem putCounter_wcprobe (n : Nat) (v : DWord) : (s.putCounter n v).wcprobe = s.wcprobe := rfl
@[simp] theorem putCounter_probes (n : Nat) (v : DWord) : (s.putCounter n v).probes = s.probes := rfl
@[simp] theorem putCounter_binds (n : Nat) (v : DWord) : (s.putCounter n v).binds = s.binds := rfl
@[simp] theorem putCounter_mem (n : Nat) (v : DWord) : (s.putCounter n v).mem = s.mem := rfl
@[simp] theorem putCounter_poison (n : Nat) (v : DWord) : (s.putCounter n v).poison = s.poison := rfl
@[simp] theorem putCounter_copies (n : Nat) (v : DWord) : (s.putCounter n v).copies = s.copies := rfl
@[simp] theorem putCounter_tlb (n : Nat) (v : DWord) : (s.putCounter n v).tlb = s.tlb := rfl
@[simp] theorem putCounter_misses (n : Nat) (v : DWord) : (s.putCounter n v).misses = s.misses := rfl
@[simp] theorem putCounter_invals (n : Nat) (v : DWord) : (s.putCounter n v).invals = s.invals := rfl
@[simp] theorem putCounter_migCounts (n : Nat) (v : DWord) : (s.putCounter n v).migCounts = s.migCounts := rfl
@[simp] theorem putCounter_migAsked (n : Nat) (v : DWord) : (s.putCounter n v).migAsked = s.migAsked := rfl
@[simp] theorem putCounter_migDecays (n : Nat) (v : DWord) : (s.putCounter n v).migDecays = s.migDecays := rfl
@[simp] theorem putCounter_dir (n : Nat) (v : DWord) : (s.putCounter n v).dir = s.dir := rfl
@[simp] theorem putCounter_dies (n : Nat) (v : DWord) : (s.putCounter n v).dies = s.dies := rfl
@[simp] theorem putCounter_ctxs (n : Nat) (v : DWord) : (s.putCounter n v).ctxs = s.ctxs := rfl
@[simp] theorem putCounter_manage (n : Nat) (v : DWord) : (s.putCounter n v).manage = s.manage := rfl
@[simp] theorem putCounter_records (n : Nat) (v : DWord) : (s.putCounter n v).records = s.records := rfl
@[simp] theorem putCounter_schedule (n : Nat) (v : DWord) : (s.putCounter n v).schedule = s.schedule := rfl
@[simp] theorem putCounter_cur (n : Nat) (v : DWord) : (s.putCounter n v).cur = s.cur := rfl
@[simp] theorem putCounter_uid (n : Nat) (v : DWord) : (s.putCounter n v).uid = s.uid := rfl
@[simp] theorem putCounter_freeN (n : Nat) (v : DWord) : (s.putCounter n v).freeN = s.freeN := rfl

/-! `State.msixSignal` -/

@[simp] theorem msixSignal_clock (v : Nat) : (s.msixSignal v).clock = s.clock := rfl
@[simp] theorem msixSignal_teams (v : Nat) : (s.msixSignal v).teams = s.teams := rfl
@[simp] theorem msixSignal_saved (v : Nat) : (s.msixSignal v).saved = s.saved := rfl
@[simp] theorem msixSignal_jobs (v : Nat) : (s.msixSignal v).jobs = s.jobs := rfl
@[simp] theorem msixSignal_grids (v : Nat) : (s.msixSignal v).grids = s.grids := rfl
@[simp] theorem msixSignal_tasks (v : Nat) : (s.msixSignal v).tasks = s.tasks := rfl
@[simp] theorem msixSignal_taskCap (v : Nat) : (s.msixSignal v).taskCap = s.taskCap := rfl
@[simp] theorem msixSignal_queues (v : Nat) : (s.msixSignal v).queues = s.queues := rfl
@[simp] theorem msixSignal_lqs (v : Nat) : (s.msixSignal v).lqs = s.lqs := rfl
@[simp] theorem msixSignal_loader (v : Nat) : (s.msixSignal v).loader = s.loader := rfl
@[simp] theorem msixSignal_segs (v : Nat) : (s.msixSignal v).segs = s.segs := rfl
@[simp] theorem msixSignal_wcprobe (v : Nat) : (s.msixSignal v).wcprobe = s.wcprobe := rfl
@[simp] theorem msixSignal_probes (v : Nat) : (s.msixSignal v).probes = s.probes := rfl
@[simp] theorem msixSignal_binds (v : Nat) : (s.msixSignal v).binds = s.binds := rfl
@[simp] theorem msixSignal_counters (v : Nat) : (s.msixSignal v).counters = s.counters := rfl
@[simp] theorem msixSignal_mem (v : Nat) : (s.msixSignal v).mem = s.mem := rfl
@[simp] theorem msixSignal_poison (v : Nat) : (s.msixSignal v).poison = s.poison := rfl
@[simp] theorem msixSignal_copies (v : Nat) : (s.msixSignal v).copies = s.copies := rfl
@[simp] theorem msixSignal_tlb (v : Nat) : (s.msixSignal v).tlb = s.tlb := rfl
@[simp] theorem msixSignal_misses (v : Nat) : (s.msixSignal v).misses = s.misses := rfl
@[simp] theorem msixSignal_invals (v : Nat) : (s.msixSignal v).invals = s.invals := rfl
@[simp] theorem msixSignal_migCounts (v : Nat) : (s.msixSignal v).migCounts = s.migCounts := rfl
@[simp] theorem msixSignal_migAsked (v : Nat) : (s.msixSignal v).migAsked = s.migAsked := rfl
@[simp] theorem msixSignal_migDecays (v : Nat) : (s.msixSignal v).migDecays = s.migDecays := rfl
@[simp] theorem msixSignal_dir (v : Nat) : (s.msixSignal v).dir = s.dir := rfl
@[simp] theorem msixSignal_dies (v : Nat) : (s.msixSignal v).dies = s.dies := rfl
@[simp] theorem msixSignal_ctxs (v : Nat) : (s.msixSignal v).ctxs = s.ctxs := rfl
@[simp] theorem msixSignal_manage (v : Nat) : (s.msixSignal v).manage = s.manage := rfl
@[simp] theorem msixSignal_schedule (v : Nat) : (s.msixSignal v).schedule = s.schedule := rfl
@[simp] theorem msixSignal_cur (v : Nat) : (s.msixSignal v).cur = s.cur := rfl
@[simp] theorem msixSignal_uid (v : Nat) : (s.msixSignal v).uid = s.uid := rfl
@[simp] theorem msixSignal_freeN (v : Nat) : (s.msixSignal v).freeN = s.freeN := rfl

/-! `State.poisonLine` -/

@[simp] theorem poisonLine_clock (l : Nat) : (s.poisonLine l).clock = s.clock := rfl
@[simp] theorem poisonLine_teams (l : Nat) : (s.poisonLine l).teams = s.teams := rfl
@[simp] theorem poisonLine_saved (l : Nat) : (s.poisonLine l).saved = s.saved := rfl
@[simp] theorem poisonLine_jobs (l : Nat) : (s.poisonLine l).jobs = s.jobs := rfl
@[simp] theorem poisonLine_grids (l : Nat) : (s.poisonLine l).grids = s.grids := rfl
@[simp] theorem poisonLine_tasks (l : Nat) : (s.poisonLine l).tasks = s.tasks := rfl
@[simp] theorem poisonLine_taskCap (l : Nat) : (s.poisonLine l).taskCap = s.taskCap := rfl
@[simp] theorem poisonLine_queues (l : Nat) : (s.poisonLine l).queues = s.queues := rfl
@[simp] theorem poisonLine_lqs (l : Nat) : (s.poisonLine l).lqs = s.lqs := rfl
@[simp] theorem poisonLine_loader (l : Nat) : (s.poisonLine l).loader = s.loader := rfl
@[simp] theorem poisonLine_segs (l : Nat) : (s.poisonLine l).segs = s.segs := rfl
@[simp] theorem poisonLine_wcprobe (l : Nat) : (s.poisonLine l).wcprobe = s.wcprobe := rfl
@[simp] theorem poisonLine_probes (l : Nat) : (s.poisonLine l).probes = s.probes := rfl
@[simp] theorem poisonLine_binds (l : Nat) : (s.poisonLine l).binds = s.binds := rfl
@[simp] theorem poisonLine_counters (l : Nat) : (s.poisonLine l).counters = s.counters := rfl
@[simp] theorem poisonLine_mem (l : Nat) : (s.poisonLine l).mem = s.mem := rfl
@[simp] theorem poisonLine_tlb (l : Nat) : (s.poisonLine l).tlb = s.tlb := rfl
@[simp] theorem poisonLine_misses (l : Nat) : (s.poisonLine l).misses = s.misses := rfl
@[simp] theorem poisonLine_invals (l : Nat) : (s.poisonLine l).invals = s.invals := rfl
@[simp] theorem poisonLine_migCounts (l : Nat) : (s.poisonLine l).migCounts = s.migCounts := rfl
@[simp] theorem poisonLine_migAsked (l : Nat) : (s.poisonLine l).migAsked = s.migAsked := rfl
@[simp] theorem poisonLine_migDecays (l : Nat) : (s.poisonLine l).migDecays = s.migDecays := rfl
@[simp] theorem poisonLine_dir (l : Nat) : (s.poisonLine l).dir = s.dir := rfl
@[simp] theorem poisonLine_dies (l : Nat) : (s.poisonLine l).dies = s.dies := rfl
@[simp] theorem poisonLine_ctxs (l : Nat) : (s.poisonLine l).ctxs = s.ctxs := rfl
@[simp] theorem poisonLine_manage (l : Nat) : (s.poisonLine l).manage = s.manage := rfl
@[simp] theorem poisonLine_records (l : Nat) : (s.poisonLine l).records = s.records := rfl
@[simp] theorem poisonLine_schedule (l : Nat) : (s.poisonLine l).schedule = s.schedule := rfl
@[simp] theorem poisonLine_cur (l : Nat) : (s.poisonLine l).cur = s.cur := rfl
@[simp] theorem poisonLine_uid (l : Nat) : (s.poisonLine l).uid = s.uid := rfl
@[simp] theorem poisonLine_freeN (l : Nat) : (s.poisonLine l).freeN = s.freeN := rfl

/-! `State.homeWrite` -/

@[simp] theorem homeWrite_clock (cs : List (Nat × Byte)) : (s.homeWrite cs).clock = s.clock := rfl
@[simp] theorem homeWrite_teams (cs : List (Nat × Byte)) : (s.homeWrite cs).teams = s.teams := rfl
@[simp] theorem homeWrite_saved (cs : List (Nat × Byte)) : (s.homeWrite cs).saved = s.saved := rfl
@[simp] theorem homeWrite_jobs (cs : List (Nat × Byte)) : (s.homeWrite cs).jobs = s.jobs := rfl
@[simp] theorem homeWrite_grids (cs : List (Nat × Byte)) : (s.homeWrite cs).grids = s.grids := rfl
@[simp] theorem homeWrite_tasks (cs : List (Nat × Byte)) : (s.homeWrite cs).tasks = s.tasks := rfl
@[simp] theorem homeWrite_taskCap (cs : List (Nat × Byte)) : (s.homeWrite cs).taskCap = s.taskCap := rfl
@[simp] theorem homeWrite_queues (cs : List (Nat × Byte)) : (s.homeWrite cs).queues = s.queues := rfl
@[simp] theorem homeWrite_lqs (cs : List (Nat × Byte)) : (s.homeWrite cs).lqs = s.lqs := rfl
@[simp] theorem homeWrite_loader (cs : List (Nat × Byte)) : (s.homeWrite cs).loader = s.loader := rfl
@[simp] theorem homeWrite_segs (cs : List (Nat × Byte)) : (s.homeWrite cs).segs = s.segs := rfl
@[simp] theorem homeWrite_wcprobe (cs : List (Nat × Byte)) : (s.homeWrite cs).wcprobe = s.wcprobe := rfl
@[simp] theorem homeWrite_probes (cs : List (Nat × Byte)) : (s.homeWrite cs).probes = s.probes := rfl
@[simp] theorem homeWrite_binds (cs : List (Nat × Byte)) : (s.homeWrite cs).binds = s.binds := rfl
@[simp] theorem homeWrite_counters (cs : List (Nat × Byte)) : (s.homeWrite cs).counters = s.counters := rfl
@[simp] theorem homeWrite_copies (cs : List (Nat × Byte)) : (s.homeWrite cs).copies = s.copies := rfl
@[simp] theorem homeWrite_tlb (cs : List (Nat × Byte)) : (s.homeWrite cs).tlb = s.tlb := rfl
@[simp] theorem homeWrite_misses (cs : List (Nat × Byte)) : (s.homeWrite cs).misses = s.misses := rfl
@[simp] theorem homeWrite_invals (cs : List (Nat × Byte)) : (s.homeWrite cs).invals = s.invals := rfl
@[simp] theorem homeWrite_migCounts (cs : List (Nat × Byte)) : (s.homeWrite cs).migCounts = s.migCounts := rfl
@[simp] theorem homeWrite_migAsked (cs : List (Nat × Byte)) : (s.homeWrite cs).migAsked = s.migAsked := rfl
@[simp] theorem homeWrite_migDecays (cs : List (Nat × Byte)) : (s.homeWrite cs).migDecays = s.migDecays := rfl
@[simp] theorem homeWrite_dir (cs : List (Nat × Byte)) : (s.homeWrite cs).dir = s.dir := rfl
@[simp] theorem homeWrite_dies (cs : List (Nat × Byte)) : (s.homeWrite cs).dies = s.dies := rfl
@[simp] theorem homeWrite_ctxs (cs : List (Nat × Byte)) : (s.homeWrite cs).ctxs = s.ctxs := rfl
@[simp] theorem homeWrite_manage (cs : List (Nat × Byte)) : (s.homeWrite cs).manage = s.manage := rfl
@[simp] theorem homeWrite_records (cs : List (Nat × Byte)) : (s.homeWrite cs).records = s.records := rfl
@[simp] theorem homeWrite_schedule (cs : List (Nat × Byte)) : (s.homeWrite cs).schedule = s.schedule := rfl
@[simp] theorem homeWrite_cur (cs : List (Nat × Byte)) : (s.homeWrite cs).cur = s.cur := rfl
@[simp] theorem homeWrite_uid (cs : List (Nat × Byte)) : (s.homeWrite cs).uid = s.uid := rfl
@[simp] theorem homeWrite_freeN (cs : List (Nat × Byte)) : (s.homeWrite cs).freeN = s.freeN := rfl

/-! `State.putCopy` -/

@[simp] theorem putCopy_clock (c : Copy) : (s.putCopy c).clock = s.clock := rfl
@[simp] theorem putCopy_teams (c : Copy) : (s.putCopy c).teams = s.teams := rfl
@[simp] theorem putCopy_saved (c : Copy) : (s.putCopy c).saved = s.saved := rfl
@[simp] theorem putCopy_jobs (c : Copy) : (s.putCopy c).jobs = s.jobs := rfl
@[simp] theorem putCopy_grids (c : Copy) : (s.putCopy c).grids = s.grids := rfl
@[simp] theorem putCopy_tasks (c : Copy) : (s.putCopy c).tasks = s.tasks := rfl
@[simp] theorem putCopy_taskCap (c : Copy) : (s.putCopy c).taskCap = s.taskCap := rfl
@[simp] theorem putCopy_queues (c : Copy) : (s.putCopy c).queues = s.queues := rfl
@[simp] theorem putCopy_lqs (c : Copy) : (s.putCopy c).lqs = s.lqs := rfl
@[simp] theorem putCopy_loader (c : Copy) : (s.putCopy c).loader = s.loader := rfl
@[simp] theorem putCopy_segs (c : Copy) : (s.putCopy c).segs = s.segs := rfl
@[simp] theorem putCopy_wcprobe (c : Copy) : (s.putCopy c).wcprobe = s.wcprobe := rfl
@[simp] theorem putCopy_probes (c : Copy) : (s.putCopy c).probes = s.probes := rfl
@[simp] theorem putCopy_binds (c : Copy) : (s.putCopy c).binds = s.binds := rfl
@[simp] theorem putCopy_counters (c : Copy) : (s.putCopy c).counters = s.counters := rfl
@[simp] theorem putCopy_mem (c : Copy) : (s.putCopy c).mem = s.mem := rfl
@[simp] theorem putCopy_poison (c : Copy) : (s.putCopy c).poison = s.poison := rfl
@[simp] theorem putCopy_tlb (c : Copy) : (s.putCopy c).tlb = s.tlb := rfl
@[simp] theorem putCopy_misses (c : Copy) : (s.putCopy c).misses = s.misses := rfl
@[simp] theorem putCopy_invals (c : Copy) : (s.putCopy c).invals = s.invals := rfl
@[simp] theorem putCopy_migCounts (c : Copy) : (s.putCopy c).migCounts = s.migCounts := rfl
@[simp] theorem putCopy_migAsked (c : Copy) : (s.putCopy c).migAsked = s.migAsked := rfl
@[simp] theorem putCopy_migDecays (c : Copy) : (s.putCopy c).migDecays = s.migDecays := rfl
@[simp] theorem putCopy_dir (c : Copy) : (s.putCopy c).dir = s.dir := rfl
@[simp] theorem putCopy_dies (c : Copy) : (s.putCopy c).dies = s.dies := rfl
@[simp] theorem putCopy_ctxs (c : Copy) : (s.putCopy c).ctxs = s.ctxs := rfl
@[simp] theorem putCopy_manage (c : Copy) : (s.putCopy c).manage = s.manage := rfl
@[simp] theorem putCopy_records (c : Copy) : (s.putCopy c).records = s.records := rfl
@[simp] theorem putCopy_schedule (c : Copy) : (s.putCopy c).schedule = s.schedule := rfl
@[simp] theorem putCopy_cur (c : Copy) : (s.putCopy c).cur = s.cur := rfl
@[simp] theorem putCopy_uid (c : Copy) : (s.putCopy c).uid = s.uid := rfl
@[simp] theorem putCopy_freeN (c : Copy) : (s.putCopy c).freeN = s.freeN := rfl

/-! `State.dropCopy` -/

@[simp] theorem dropCopy_clock (l : CacheLevel) (n : Nat) : (s.dropCopy l n).clock = s.clock := rfl
@[simp] theorem dropCopy_teams (l : CacheLevel) (n : Nat) : (s.dropCopy l n).teams = s.teams := rfl
@[simp] theorem dropCopy_saved (l : CacheLevel) (n : Nat) : (s.dropCopy l n).saved = s.saved := rfl
@[simp] theorem dropCopy_jobs (l : CacheLevel) (n : Nat) : (s.dropCopy l n).jobs = s.jobs := rfl
@[simp] theorem dropCopy_grids (l : CacheLevel) (n : Nat) : (s.dropCopy l n).grids = s.grids := rfl
@[simp] theorem dropCopy_tasks (l : CacheLevel) (n : Nat) : (s.dropCopy l n).tasks = s.tasks := rfl
@[simp] theorem dropCopy_taskCap (l : CacheLevel) (n : Nat) : (s.dropCopy l n).taskCap = s.taskCap := rfl
@[simp] theorem dropCopy_queues (l : CacheLevel) (n : Nat) : (s.dropCopy l n).queues = s.queues := rfl
@[simp] theorem dropCopy_lqs (l : CacheLevel) (n : Nat) : (s.dropCopy l n).lqs = s.lqs := rfl
@[simp] theorem dropCopy_loader (l : CacheLevel) (n : Nat) : (s.dropCopy l n).loader = s.loader := rfl
@[simp] theorem dropCopy_segs (l : CacheLevel) (n : Nat) : (s.dropCopy l n).segs = s.segs := rfl
@[simp] theorem dropCopy_wcprobe (l : CacheLevel) (n : Nat) : (s.dropCopy l n).wcprobe = s.wcprobe := rfl
@[simp] theorem dropCopy_probes (l : CacheLevel) (n : Nat) : (s.dropCopy l n).probes = s.probes := rfl
@[simp] theorem dropCopy_binds (l : CacheLevel) (n : Nat) : (s.dropCopy l n).binds = s.binds := rfl
@[simp] theorem dropCopy_counters (l : CacheLevel) (n : Nat) : (s.dropCopy l n).counters = s.counters := rfl
@[simp] theorem dropCopy_mem (l : CacheLevel) (n : Nat) : (s.dropCopy l n).mem = s.mem := rfl
@[simp] theorem dropCopy_poison (l : CacheLevel) (n : Nat) : (s.dropCopy l n).poison = s.poison := rfl
@[simp] theorem dropCopy_tlb (l : CacheLevel) (n : Nat) : (s.dropCopy l n).tlb = s.tlb := rfl
@[simp] theorem dropCopy_misses (l : CacheLevel) (n : Nat) : (s.dropCopy l n).misses = s.misses := rfl
@[simp] theorem dropCopy_invals (l : CacheLevel) (n : Nat) : (s.dropCopy l n).invals = s.invals := rfl
@[simp] theorem dropCopy_migCounts (l : CacheLevel) (n : Nat) : (s.dropCopy l n).migCounts = s.migCounts := rfl
@[simp] theorem dropCopy_migAsked (l : CacheLevel) (n : Nat) : (s.dropCopy l n).migAsked = s.migAsked := rfl
@[simp] theorem dropCopy_migDecays (l : CacheLevel) (n : Nat) : (s.dropCopy l n).migDecays = s.migDecays := rfl
@[simp] theorem dropCopy_dir (l : CacheLevel) (n : Nat) : (s.dropCopy l n).dir = s.dir := rfl
@[simp] theorem dropCopy_dies (l : CacheLevel) (n : Nat) : (s.dropCopy l n).dies = s.dies := rfl
@[simp] theorem dropCopy_ctxs (l : CacheLevel) (n : Nat) : (s.dropCopy l n).ctxs = s.ctxs := rfl
@[simp] theorem dropCopy_manage (l : CacheLevel) (n : Nat) : (s.dropCopy l n).manage = s.manage := rfl
@[simp] theorem dropCopy_records (l : CacheLevel) (n : Nat) : (s.dropCopy l n).records = s.records := rfl
@[simp] theorem dropCopy_schedule (l : CacheLevel) (n : Nat) : (s.dropCopy l n).schedule = s.schedule := rfl
@[simp] theorem dropCopy_cur (l : CacheLevel) (n : Nat) : (s.dropCopy l n).cur = s.cur := rfl
@[simp] theorem dropCopy_uid (l : CacheLevel) (n : Nat) : (s.dropCopy l n).uid = s.uid := rfl
@[simp] theorem dropCopy_freeN (l : CacheLevel) (n : Nat) : (s.dropCopy l n).freeN = s.freeN := rfl

/-! `State.dropBinds` -/

@[simp] theorem dropBinds_clock (f : GotBinding → Bool) : (s.dropBinds f).clock = s.clock := rfl
@[simp] theorem dropBinds_teams (f : GotBinding → Bool) : (s.dropBinds f).teams = s.teams := rfl
@[simp] theorem dropBinds_saved (f : GotBinding → Bool) : (s.dropBinds f).saved = s.saved := rfl
@[simp] theorem dropBinds_jobs (f : GotBinding → Bool) : (s.dropBinds f).jobs = s.jobs := rfl
@[simp] theorem dropBinds_grids (f : GotBinding → Bool) : (s.dropBinds f).grids = s.grids := rfl
@[simp] theorem dropBinds_tasks (f : GotBinding → Bool) : (s.dropBinds f).tasks = s.tasks := rfl
@[simp] theorem dropBinds_taskCap (f : GotBinding → Bool) : (s.dropBinds f).taskCap = s.taskCap := rfl
@[simp] theorem dropBinds_queues (f : GotBinding → Bool) : (s.dropBinds f).queues = s.queues := rfl
@[simp] theorem dropBinds_lqs (f : GotBinding → Bool) : (s.dropBinds f).lqs = s.lqs := rfl
@[simp] theorem dropBinds_loader (f : GotBinding → Bool) : (s.dropBinds f).loader = s.loader := rfl
@[simp] theorem dropBinds_segs (f : GotBinding → Bool) : (s.dropBinds f).segs = s.segs := rfl
@[simp] theorem dropBinds_wcprobe (f : GotBinding → Bool) : (s.dropBinds f).wcprobe = s.wcprobe := rfl
@[simp] theorem dropBinds_probes (f : GotBinding → Bool) : (s.dropBinds f).probes = s.probes := rfl
@[simp] theorem dropBinds_counters (f : GotBinding → Bool) : (s.dropBinds f).counters = s.counters := rfl
@[simp] theorem dropBinds_mem (f : GotBinding → Bool) : (s.dropBinds f).mem = s.mem := rfl
@[simp] theorem dropBinds_poison (f : GotBinding → Bool) : (s.dropBinds f).poison = s.poison := rfl
@[simp] theorem dropBinds_copies (f : GotBinding → Bool) : (s.dropBinds f).copies = s.copies := rfl
@[simp] theorem dropBinds_tlb (f : GotBinding → Bool) : (s.dropBinds f).tlb = s.tlb := rfl
@[simp] theorem dropBinds_misses (f : GotBinding → Bool) : (s.dropBinds f).misses = s.misses := rfl
@[simp] theorem dropBinds_invals (f : GotBinding → Bool) : (s.dropBinds f).invals = s.invals := rfl
@[simp] theorem dropBinds_migCounts (f : GotBinding → Bool) : (s.dropBinds f).migCounts = s.migCounts := rfl
@[simp] theorem dropBinds_migAsked (f : GotBinding → Bool) : (s.dropBinds f).migAsked = s.migAsked := rfl
@[simp] theorem dropBinds_migDecays (f : GotBinding → Bool) : (s.dropBinds f).migDecays = s.migDecays := rfl
@[simp] theorem dropBinds_dir (f : GotBinding → Bool) : (s.dropBinds f).dir = s.dir := rfl
@[simp] theorem dropBinds_dies (f : GotBinding → Bool) : (s.dropBinds f).dies = s.dies := rfl
@[simp] theorem dropBinds_ctxs (f : GotBinding → Bool) : (s.dropBinds f).ctxs = s.ctxs := rfl
@[simp] theorem dropBinds_manage (f : GotBinding → Bool) : (s.dropBinds f).manage = s.manage := rfl
@[simp] theorem dropBinds_records (f : GotBinding → Bool) : (s.dropBinds f).records = s.records := rfl
@[simp] theorem dropBinds_schedule (f : GotBinding → Bool) : (s.dropBinds f).schedule = s.schedule := rfl
@[simp] theorem dropBinds_cur (f : GotBinding → Bool) : (s.dropBinds f).cur = s.cur := rfl
@[simp] theorem dropBinds_uid (f : GotBinding → Bool) : (s.dropBinds f).uid = s.uid := rfl
@[simp] theorem dropBinds_freeN (f : GotBinding → Bool) : (s.dropBinds f).freeN = s.freeN := rfl

/-! `State.modJob` -/

@[simp] theorem modJob_clock (u : Nat) (f : Job → Job) : (s.modJob u f).clock = s.clock := rfl
@[simp] theorem modJob_teams (u : Nat) (f : Job → Job) : (s.modJob u f).teams = s.teams := rfl
@[simp] theorem modJob_saved (u : Nat) (f : Job → Job) : (s.modJob u f).saved = s.saved := rfl
@[simp] theorem modJob_grids (u : Nat) (f : Job → Job) : (s.modJob u f).grids = s.grids := rfl
@[simp] theorem modJob_tasks (u : Nat) (f : Job → Job) : (s.modJob u f).tasks = s.tasks := rfl
@[simp] theorem modJob_taskCap (u : Nat) (f : Job → Job) : (s.modJob u f).taskCap = s.taskCap := rfl
@[simp] theorem modJob_queues (u : Nat) (f : Job → Job) : (s.modJob u f).queues = s.queues := rfl
@[simp] theorem modJob_lqs (u : Nat) (f : Job → Job) : (s.modJob u f).lqs = s.lqs := rfl
@[simp] theorem modJob_loader (u : Nat) (f : Job → Job) : (s.modJob u f).loader = s.loader := rfl
@[simp] theorem modJob_segs (u : Nat) (f : Job → Job) : (s.modJob u f).segs = s.segs := rfl
@[simp] theorem modJob_wcprobe (u : Nat) (f : Job → Job) : (s.modJob u f).wcprobe = s.wcprobe := rfl
@[simp] theorem modJob_probes (u : Nat) (f : Job → Job) : (s.modJob u f).probes = s.probes := rfl
@[simp] theorem modJob_binds (u : Nat) (f : Job → Job) : (s.modJob u f).binds = s.binds := rfl
@[simp] theorem modJob_counters (u : Nat) (f : Job → Job) : (s.modJob u f).counters = s.counters := rfl
@[simp] theorem modJob_mem (u : Nat) (f : Job → Job) : (s.modJob u f).mem = s.mem := rfl
@[simp] theorem modJob_poison (u : Nat) (f : Job → Job) : (s.modJob u f).poison = s.poison := rfl
@[simp] theorem modJob_copies (u : Nat) (f : Job → Job) : (s.modJob u f).copies = s.copies := rfl
@[simp] theorem modJob_tlb (u : Nat) (f : Job → Job) : (s.modJob u f).tlb = s.tlb := rfl
@[simp] theorem modJob_misses (u : Nat) (f : Job → Job) : (s.modJob u f).misses = s.misses := rfl
@[simp] theorem modJob_invals (u : Nat) (f : Job → Job) : (s.modJob u f).invals = s.invals := rfl
@[simp] theorem modJob_migCounts (u : Nat) (f : Job → Job) : (s.modJob u f).migCounts = s.migCounts := rfl
@[simp] theorem modJob_migAsked (u : Nat) (f : Job → Job) : (s.modJob u f).migAsked = s.migAsked := rfl
@[simp] theorem modJob_migDecays (u : Nat) (f : Job → Job) : (s.modJob u f).migDecays = s.migDecays := rfl
@[simp] theorem modJob_dir (u : Nat) (f : Job → Job) : (s.modJob u f).dir = s.dir := rfl
@[simp] theorem modJob_dies (u : Nat) (f : Job → Job) : (s.modJob u f).dies = s.dies := rfl
@[simp] theorem modJob_ctxs (u : Nat) (f : Job → Job) : (s.modJob u f).ctxs = s.ctxs := rfl
@[simp] theorem modJob_manage (u : Nat) (f : Job → Job) : (s.modJob u f).manage = s.manage := rfl
@[simp] theorem modJob_records (u : Nat) (f : Job → Job) : (s.modJob u f).records = s.records := rfl
@[simp] theorem modJob_schedule (u : Nat) (f : Job → Job) : (s.modJob u f).schedule = s.schedule := rfl
@[simp] theorem modJob_cur (u : Nat) (f : Job → Job) : (s.modJob u f).cur = s.cur := rfl
@[simp] theorem modJob_uid (u : Nat) (f : Job → Job) : (s.modJob u f).uid = s.uid := rfl
@[simp] theorem modJob_freeN (u : Nat) (f : Job → Job) : (s.modJob u f).freeN = s.freeN := rfl

/-! `State.removeTeam` -/

@[simp] theorem removeTeam_clock (u : Nat) : (s.removeTeam u).clock = s.clock := rfl
@[simp] theorem removeTeam_saved (u : Nat) : (s.removeTeam u).saved = s.saved := rfl
@[simp] theorem removeTeam_grids (u : Nat) : (s.removeTeam u).grids = s.grids := rfl
@[simp] theorem removeTeam_tasks (u : Nat) : (s.removeTeam u).tasks = s.tasks := rfl
@[simp] theorem removeTeam_taskCap (u : Nat) : (s.removeTeam u).taskCap = s.taskCap := rfl
@[simp] theorem removeTeam_lqs (u : Nat) : (s.removeTeam u).lqs = s.lqs := rfl
@[simp] theorem removeTeam_loader (u : Nat) : (s.removeTeam u).loader = s.loader := rfl
@[simp] theorem removeTeam_segs (u : Nat) : (s.removeTeam u).segs = s.segs := rfl
@[simp] theorem removeTeam_wcprobe (u : Nat) : (s.removeTeam u).wcprobe = s.wcprobe := rfl
@[simp] theorem removeTeam_counters (u : Nat) : (s.removeTeam u).counters = s.counters := rfl
@[simp] theorem removeTeam_mem (u : Nat) : (s.removeTeam u).mem = s.mem := rfl
@[simp] theorem removeTeam_poison (u : Nat) : (s.removeTeam u).poison = s.poison := rfl
@[simp] theorem removeTeam_copies (u : Nat) : (s.removeTeam u).copies = s.copies := rfl
@[simp] theorem removeTeam_tlb (u : Nat) : (s.removeTeam u).tlb = s.tlb := rfl
@[simp] theorem removeTeam_misses (u : Nat) : (s.removeTeam u).misses = s.misses := rfl
@[simp] theorem removeTeam_invals (u : Nat) : (s.removeTeam u).invals = s.invals := rfl
@[simp] theorem removeTeam_migCounts (u : Nat) : (s.removeTeam u).migCounts = s.migCounts := rfl
@[simp] theorem removeTeam_migAsked (u : Nat) : (s.removeTeam u).migAsked = s.migAsked := rfl
@[simp] theorem removeTeam_migDecays (u : Nat) : (s.removeTeam u).migDecays = s.migDecays := rfl
@[simp] theorem removeTeam_dir (u : Nat) : (s.removeTeam u).dir = s.dir := rfl
@[simp] theorem removeTeam_dies (u : Nat) : (s.removeTeam u).dies = s.dies := rfl
@[simp] theorem removeTeam_ctxs (u : Nat) : (s.removeTeam u).ctxs = s.ctxs := rfl
@[simp] theorem removeTeam_manage (u : Nat) : (s.removeTeam u).manage = s.manage := rfl
@[simp] theorem removeTeam_records (u : Nat) : (s.removeTeam u).records = s.records := rfl
@[simp] theorem removeTeam_schedule (u : Nat) : (s.removeTeam u).schedule = s.schedule := rfl
@[simp] theorem removeTeam_cur (u : Nat) : (s.removeTeam u).cur = s.cur := rfl
@[simp] theorem removeTeam_uid (u : Nat) : (s.removeTeam u).uid = s.uid := rfl
@[simp] theorem removeTeam_freeN (u : Nat) : (s.removeTeam u).freeN = s.freeN := rfl

end Sys2Proof.Machine
end

