-- ==== Sys2Proof/Laws/Here.lean ====
section
/-! SUPPORT. The strand executed for: its registers after a write, what retirement leaves, and how its contents are found again after
they were put back. -/

namespace Sys2Proof.Machine

open Sys2Proof

/-! ## Registers -/

@[simp] theorem Group.readS_zero (g : Group) : g.readS 0 = 0 := rfl
@[simp] theorem Group.writeS_zero (g : Group) (v : DWord) : g.writeS 0 v = g := rfl

theorem sreg_ne {a b : SReg} (h : a ≠ b) : a.toNat ≠ b.toNat := fun e => h (BitVec.eq_of_toNat_eq e)

theorem Group.readS_writeS_self (g : Group) {r : SReg} (v : DWord) (h : r ≠ 0) : (g.writeS r v).readS r = v := by
  unfold Group.readS Group.writeS
  rw [if_neg h, if_neg h]
  exact SMap.get_put_self _ _ _ _

theorem Group.readS_writeS_ne (g : Group) {r q : SReg} (v : DWord) (h : q ≠ r) : (g.writeS r v).readS q = g.readS q := by
  unfold Group.readS Group.writeS
  split
  · rfl
  · split
    · rfl
    · exact SMap.get_put_ne _ _ _ (sreg_ne h)

@[simp] theorem Group.writeS_handler (g : Group) (r : SReg) (v : DWord) : (g.writeS r v).handler = g.handler := by
  unfold Group.writeS; split <;> rfl

/-- `s0` reads zero for every strand. -/
@[simp] theorem Group.readSAs_zero (g : Group) (x : Nat) : g.readSAs x 0 = 0 := by
  unfold Group.readSAs
  split
  · split
    · rename_i h; simp at h
    · rfl
  · rfl

/-- Writing `s0` changes nothing. -/
@[simp] theorem Group.writeSAs_zero (g : Group) (x : Nat) (v : DWord) : g.writeSAs x 0 v = g := by
  unfold Group.writeSAs
  split
  · split
    · rename_i h; simp at h
    · rfl
  · rfl

/-- A scalar register that was written reads as written, for the strand that wrote it. -/
theorem Group.readSAs_writeSAs_self (g : Group) (x : Nat) {r : SReg} (v : DWord) (h : r ≠ 0) : (g.writeSAs x r v).readSAs x r = v := by
  unfold Group.writeSAs
  cases hk : g.handler with
  | none => simp [Group.readSAs, hk, Group.readS_writeS_self g v h]
  | some k =>
    simp only
    split
    · rename_i hc
      unfold Group.readSAs
      simp only [hc, and_self, if_true]
      exact setAt_getD_self _ _ _ _
    · rename_i hc
      simp only [Group.readSAs, Group.writeS_handler, hk, hc, if_false]
      exact Group.readS_writeS_self g v h

/-- A write leaves the other scalar registers, for every strand of the group. -/
theorem Group.readSAs_writeSAs_ne (g : Group) (x y : Nat) {r q : SReg} (v : DWord) (h : q ≠ r) :
    (g.writeSAs x r v).readSAs y q = g.readSAs y q := by
  unfold Group.writeSAs
  cases hk : g.handler with
  | none => simp [Group.readSAs, hk, Group.readS_writeS_ne g v h]
  | some k =>
    simp only
    split
    · rename_i hc
      simp only [Group.readSAs, hk]
      split
      · rename_i hq
        rw [setAt_getD_ne]
        have := sreg_ne h
        omega
      · rfl
    · simp only [Group.readSAs, Group.writeS_handler, hk]
      split
      · rfl
      · exact Group.readS_writeS_ne g v h

@[simp] theorem Here.readS_zero (h : Here) : h.readS 0 = 0 := Group.readSAs_zero _ _
@[simp] theorem Here.writeS_zero (h : Here) (v : DWord) : h.writeS 0 v = h := by
  unfold Here.writeS; rw [Group.writeSAs_zero]

theorem Here.readS_writeS_self (h : Here) {r : SReg} (v : DWord) (hr : r ≠ 0) : (h.writeS r v).readS r = v :=
  Group.readSAs_writeSAs_self _ _ _ hr

theorem Here.readS_writeS_ne (h : Here) {r q : SReg} (v : DWord) (hq : q ≠ r) : (h.writeS r v).readS q = h.readS q :=
  Group.readSAs_writeSAs_ne _ _ _ _ hq

@[simp] theorem Here.readP_zero (h : Here) : h.readP 0 = allLanes := rfl
@[simp] theorem Here.writeP_zero (h : Here) (v : Mask) : h.writeP 0 v = h := rfl

theorem Here.readP_writeP_self (h : Here) {p : PReg} (v : Mask) (hp : p ≠ 0) : (h.writeP p v).readP p = v := by
  unfold Here.readP Here.writeP
  rw [if_neg hp, if_neg hp]
  exact setAt_getD_self _ _ _ _

theorem Here.readP_writeP_ne (h : Here) {p q : PReg} (v : Mask) (hq : q ≠ p) : (h.writeP p v).readP q = h.readP q := by
  unfold Here.readP Here.writeP
  split
  · rfl
  · split
    · rfl
    · exact setAt_getD_ne _ _ _ fun e => hq (BitVec.eq_of_toNat_eq e)

/-! ## What updates of the strand's contents leave -/

@[simp] theorem Here.writeS_team (h : Here) (r : SReg) (v : DWord) : (h.writeS r v).team = h.team := rfl
@[simp] theorem Here.writeS_strand (h : Here) (r : SReg) (v : DWord) : (h.writeS r v).strand = h.strand := rfl
@[simp] theorem Here.retire_team (h : Here) (n : Nat) (w : List FwdWrite) : (h.retire n w).team = h.team := rfl
@[simp] theorem Here.retire_group (h : Here) (n : Nat) (w : List FwdWrite) : (h.retire n w).group = h.group.shorten h.strand.sid := rfl
@[simp] theorem Here.retire_strand (h : Here) (n : Nat) (w : List FwdWrite) : (h.retire n w).strand = h.strand.retired n w := rfl
@[simp] theorem Here.wait_team (h : Here) (c : Nat) (k : Hold) : (h.wait c k).team = h.team := rfl
@[simp] theorem Here.wait_group (h : Here) (c : Nat) (k : Hold) : (h.wait c k).group = h.group := rfl
@[simp] theorem Here.setPc_team (h : Here) (a : DWord) : (h.setPc a).team = h.team := rfl
@[simp] theorem Here.setPc_group (h : Here) (a : DWord) : (h.setPc a).group = h.group := rfl

/-- What a write of a scalar leaves in its group: all but the scalar file and a handler's bank. -/
theorem Group.writeSAs_frame (g : Group) (x : Nat) (r : SReg) (v : DWord) :
    ∃ f k, g.writeSAs x r v = { g with sregs := f, handler := k } ∧ k.map (fun a => { a with bank := [] }) =
      g.handler.map fun a => { a with bank := [] } := by
  unfold Group.writeSAs
  have hw : ∃ f, g.writeS r v = { g with sregs := f } := by
    unfold Group.writeS; split
    · exact ⟨g.sregs, rfl⟩
    · exact ⟨_, rfl⟩
  obtain ⟨f, hf⟩ := hw
  split
  · rename_i k hk
    split
    · exact ⟨g.sregs, _, rfl, by simp [hk]⟩
    · exact ⟨f, g.handler, hf, rfl⟩
  · exact ⟨f, g.handler, hf, rfl⟩

/-- What a write of a predicate leaves. -/
theorem Here.writeP_frame (h : Here) (p : PReg) (v : Mask) :
    ∃ f, h.writeP p v = { h with group := { h.group with preds := f } } := by
  unfold Here.writeP
  split
  · exact ⟨h.group.preds, rfl⟩
  · exact ⟨_, rfl⟩

/-- What shortening the windows leaves: all but the outstanding instructions, of which only windows change. -/
theorem Group.shorten_frame (g : Group) (x : Nat) :
    ∃ p d, g.shorten x = { g with pending := p, dbg := d } ∧ p.map (fun a => { a with windows := [] }) = g.pending.map fun a => { a with windows := [] } := by
  refine ⟨_, _, rfl, ?_⟩
  rw [List.map_map]
  refine List.map_congr_left fun a _ => ?_
  simp only [Function.comp]
  split <;> rfl

@[simp] theorem Group.shorten_readSAs (g : Group) (x y : Nat) (r : SReg) : (g.shorten x).readSAs y r = g.readSAs y r := rfl
@[simp] theorem Group.shorten_strands (g : Group) (x : Nat) : (g.shorten x).strands = g.strands := rfl
@[simp] theorem Group.shorten_num (g : Group) (x : Nat) : (g.shorten x).num = g.num := rfl

/-- A retired instruction leaves the registers. -/
@[simp] theorem Here.retire_readS (h : Here) (n : Nat) (w : List FwdWrite) (r : SReg) : (h.retire n w).readS r = h.readS r := rfl
@[simp] theorem Here.retire_readP (h : Here) (n : Nat) (w : List FwdWrite) (p : PReg) : (h.retire n w).readP p = h.readP p := rfl
@[simp] theorem Here.wait_readS (h : Here) (c : Nat) (k : Hold) (r : SReg) : (h.wait c k).readS r = h.readS r := rfl
@[simp] theorem Here.setPc_readS (h : Here) (a : DWord) (r : SReg) : (h.setPc a).readS r = h.readS r := rfl

/-! ## Finding the strand -/

/-- Where the strand executed for is found, and under which numbers. -/
theorem State.here_found {s : State} {h : Here} (e : s.here = some h) :
    ∃ c, s.cur = some c ∧ s.team? c.team = some h.team ∧ h.team.group? c.group = some h.group ∧ h.group.strand? c.sid = some h.strand := by
  unfold State.here at e
  cases hc : s.cur with
  | none => simp [hc] at e
  | some c =>
    simp only [hc, Option.bind_some, State.at, bind, pure] at e
    obtain ⟨t, ht, e⟩ := Option.bind_eq_some_iff.1 e
    obtain ⟨g, hg, e⟩ := Option.bind_eq_some_iff.1 e
    obtain ⟨x, hx, e⟩ := Option.bind_eq_some_iff.1 e
    cases e
    exact ⟨c, rfl, ht, hg, hx⟩

theorem State.team?_uid {s : State} {u : Nat} {t : Team} (h : s.team? u = some t) : t.info.uid = u := by
  simpa using List.find?_some h

theorem Team.group?_num {t : Team} {n : Nat} {g : Group} (h : t.group? n = some g) : g.num = n := by
  simpa using List.find?_some h

theorem Group.strand?_sid {g : Group} {n : Nat} {x : Strand} (h : g.strand? n = some x) : x.sid = n := by
  simpa using List.find?_some h

/-- Of a list in which the elements of one number are replaced, the first of that number is the replacement. -/
theorem find?_replace {α : Type} (id : α → Nat) (n : Nat) (f : α → α) (hf : ∀ x, id x = n → id (f x) = n) (xs : List α) :
    (xs.map fun x => if id x = n then f x else x).find? (fun x => id x == n) = (xs.find? fun x => id x == n).map f := by
  induction xs with
  | nil => rfl
  | cons x xs ih =>
    simp only [List.map_cons, List.find?_cons]
    by_cases h : id x = n
    · simp [h, hf x h]
    · simp only [h, if_false, ih]
      rw [beq_eq_false_iff_ne.2 h]

/-- The others are found as before. -/
theorem find?_replace_ne {α : Type} (id : α → Nat) (n m : Nat) (hm : m ≠ n) (f : α → α) (hf : ∀ x, id x = n → id (f x) = n) (xs : List α) :
    (xs.map fun x => if id x = n then f x else x).find? (fun x => id x == m) = xs.find? fun x => id x == m := by
  induction xs with
  | nil => rfl
  | cons x xs ih =>
    simp only [List.map_cons, List.find?_cons, ih]
    by_cases h : id x = n
    · have h1 : ¬ n = m := by omega
      have h2 : (n == m) = false := beq_eq_false_iff_ne.2 h1
      simp [h, hf x h, h2]
    · simp [h]

/-- The team that was put is found. -/
theorem State.team?_putTeam {s : State} {u : Nat} {t0 t : Team} (h : s.team? u = some t0) (ht : t.info.uid = u) :
    (s.putTeam t).team? u = some t := by
  unfold State.team? State.putTeam
  subst ht
  have := find?_replace (fun x : Team => x.info.uid) t.info.uid (fun _ => t) (fun _ _ => rfl) s.teams
  rw [this]
  unfold State.team? at h
  rw [h]; rfl

/-- Other teams are found as before. -/
theorem State.team?_putTeam_ne {s : State} {u : Nat} {t : Team} (hu : u ≠ t.info.uid) : (s.putTeam t).team? u = s.team? u :=
  find?_replace_ne (fun x : Team => x.info.uid) t.info.uid u hu (fun _ => t) (fun _ _ => rfl) s.teams

/-- The group that was put is found. -/
theorem Team.group?_putGroup {t : Team} {n : Nat} {g0 g : Group} (h : t.group? n = some g0) (hg : g.num = n) :
    (t.putGroup g).group? n = some g := by
  unfold Team.group? Team.putGroup Team.modGroup
  subst hg
  have := find?_replace (fun x : Group => x.num) g.num (fun _ => g) (fun _ _ => rfl) t.groups
  rw [this]
  unfold Team.group? at h
  rw [h]; rfl

/-- Other groups are found as before. -/
theorem Team.group?_putGroup_ne {t : Team} {n : Nat} {g : Group} (hn : n ≠ g.num) : (t.putGroup g).group? n = t.group? n :=
  find?_replace_ne (fun x : Group => x.num) g.num n hn (fun _ => g) (fun _ _ => rfl) t.groups

/-- The strand that was put is found. -/
theorem Group.strand?_put {g : Group} {n : Nat} {x0 x : Strand} (h : g.strand? n = some x0) (hx : x.sid = n) :
    (g.modStrand n fun _ => x).strand? n = some x := by
  unfold Group.strand? Group.modStrand
  have := find?_replace (fun y : Strand => y.sid) n (fun _ => x) (fun _ _ => hx) g.strands
  rw [this]
  unfold Group.strand? at h
  rw [h]; rfl

/-- Other strands are found as before. -/
theorem Group.strand?_put_ne {g : Group} {n m : Nat} {x : Strand} (hx : x.sid = n) (hm : m ≠ n) :
    (g.modStrand n fun _ => x).strand? m = g.strand? m :=
  find?_replace_ne (fun y : Strand => y.sid) n m hm (fun _ => x) (fun _ _ => hx) g.strands

/-- THE CONTENTS PUT BACK ARE FOUND AGAIN, when they keep their numbers and the group's list of strands still holds the strand. -/
theorem State.putHere_here {s : State} {h k : Here} (e : s.here = some h) (ht : k.team.info.uid = h.team.info.uid)
    (hT : k.team.group? h.group.num = some h.group) (hg : k.group.num = h.group.num) (hx : k.strand.sid = h.strand.sid)
    (hl : k.group.strands = h.group.strands) :
    (s.putHere k).here = some ⟨k.whole, k.grp, k.strand⟩ := by
  obtain ⟨c, hc, h1, h2, h3⟩ := State.here_found e
  have i1 := State.team?_uid h1
  have i2 := Team.group?_num h2
  have i3 := Group.strand?_sid h3
  have hs : k.group.strand? h.strand.sid = some h.strand := by
    unfold Group.strand?; rw [hl]; unfold Group.strand? at h3; rw [i3]; exact h3
  have hw : k.whole.info.uid = c.team := by rw [← i1]; exact ht
  have g1 : k.whole.group? c.group = some k.grp := by
    unfold Here.whole
    rw [← i2]
    exact Team.group?_putGroup hT (by show k.group.num = _; exact hg)
  have x1 : k.grp.strand? c.sid = some k.strand := by
    unfold Here.grp
    rw [← i3, hx]
    exact Group.strand?_put hs hx
  unfold State.here
  rw [putHere_cur, hc]
  simp only [Option.bind_some, State.at, bind, pure]
  have t1 : (s.putHere k).team? c.team = some k.whole := State.team?_putTeam h1 hw
  simp [t1, g1, x1]

/-- Running for the strand executed for. -/
theorem State.run_next {s : State} {h : Here} (e : s.here = some h) (f : Here → State) : s.run f = .next (f h) := by
  simp [State.run, e]

/-- Running answers a next state exactly when there is a strand. -/
theorem State.run_iff {s t : State} {f : Here → State} : s.run f = .next t ↔ ∃ h, s.here = some h ∧ t = f h := by
  unfold State.run
  cases s.here with
  | none => simp
  | some h => simp [eq_comm]

end Sys2Proof.Machine
end

