-- ==== Sys2Proof/Laws/Ops.lean ====
section
/-! SUPPORT. What each shared form of instruction does, said once: retirement and the writing of scalars and predicates, vector
instructions, long-latency issue, control transfer. -/

namespace Sys2Proof.Machine

open Sys2Proof Sys2Proof.Claims

/-! ## Contents put back -/

/-- The contents as they are found after they were put back. -/
def Here.back (k : Here) : Here := ⟨k.whole, k.grp, k.strand⟩

@[simp] theorem Here.back_readS (k : Here) (r : SReg) : k.back.readS r = k.readS r := rfl
@[simp] theorem Here.back_readP (k : Here) (p : PReg) : k.back.readP p = k.readP p := rfl
@[simp] theorem Here.back_strand (k : Here) : k.back.strand = k.strand := rfl

/-- What is left as it was when contents with the same numbers, groups and strands are put back. -/
theorem othersKept_put {s s1 : State} {h k : Here} (e1 : s1.teams = s.teams)
    (ht : k.team.info.uid = h.team.info.uid) (hgs : k.team.groups = h.team.groups) (hg : k.group.num = h.group.num)
    (hx : k.strand.sid = h.strand.sid) (hl : k.group.strands = h.group.strands) : OthersKept s (s1.putHere k) h k.back := by
  refine ⟨fun u hu => ?_, fun n hn => ?_, fun x hxx => ?_⟩
  · have : (s1.putHere k).team? u = s1.team? u := State.team?_putTeam_ne (by show u ≠ k.team.info.uid; rw [ht]; exact hu)
    rw [this]; unfold State.team?; rw [e1]
  · show k.whole.group? n = _
    have : k.whole.group? n = k.team.group? n := Team.group?_putGroup_ne (by show n ≠ k.group.num; rw [hg]; exact hn)
    rw [this]; unfold Team.group?; rw [hgs]
  · show k.grp.strand? x = _
    have : k.grp.strand? x = k.group.strand? x := Group.strand?_put_ne rfl (by rw [hx]; exact hxx)
    rw [this]; unfold Group.strand?; rw [hl]

/-- The strand executed for after contents with the same numbers, groups and strands were put back. -/
theorem here_put {s s1 : State} {h k : Here} (e : s.here = some h) (e1 : s1.teams = s.teams) (ec : s1.cur = s.cur)
    (ht : k.team.info.uid = h.team.info.uid) (hgs : k.team.groups = h.team.groups) (hg : k.group.num = h.group.num)
    (hx : k.strand.sid = h.strand.sid) (hl : k.group.strands = h.group.strands) : (s1.putHere k).here = some k.back := by
  have e' : s1.here = some h := by
    unfold State.here at e ⊢
    rw [ec]
    cases hc : s.cur with
    | none => rw [hc] at e; simp at e
    | some c =>
      rw [hc] at e
      simp only [Option.bind_some] at e ⊢
      unfold State.at State.team? at e ⊢
      rw [e1]; exact e
  obtain ⟨c, -, -, h2, -⟩ := State.here_found e
  have i2 := Team.group?_num h2
  refine State.putHere_here e' ht ?_ hg hx hl
  unfold Team.group?; rw [hgs, i2]; exact h2

/-- AN INSTRUCTION COMPLETES when `exec` puts back contents that have moved on. -/
theorem completes_put {s s1 : State} {h k : Here} {i : Instr} {n : Nat} {P : State → Here → Prop} (e : s.here = some h)
    (hx : exec i s = .next (s1.putHere k)) (e1 : s1.teams = s.teams) (ec : s1.cur = s.cur)
    (ht : k.team.info.uid = h.team.info.uid) (hgs : k.team.groups = h.team.groups) (hg : k.group.num = h.group.num)
    (hl : k.group.strands = h.group.strands) (hs : StrandKept h k) (hpc : k.strand.pc = h.strand.pc + BitVec.ofNat 64 (4 * n))
    (hh : k.strand.hold = none) (hP : P (s1.putHere k) k.back) : Completes s h i n P :=
  ⟨_, _, hx, here_put e e1 ec ht hgs hg hs.1 hl, hpc, hh, othersKept_put e1 ht hgs hg hs.1 hl, hs, hP⟩

/-- Shortened windows keep the outstanding instructions. -/
theorem shorten_ids (g : Group) (x : Nat) : (g.shorten x).pending.map (·.id) = g.pending.map (·.id) := by
  unfold Group.shorten Group.mapPending
  rw [List.map_map]
  refine List.map_congr_left fun p _ => ?_
  simp only [Function.comp]
  split <;> rfl

/-- AN INSTRUCTION WITHOUT EFFECT. -/
theorem passes_put {s : State} {h : Here} {i : Instr} {n : Nat} (e : s.here = some h) (hx : exec i s = .next (s.putHere (h.retire n []))) :
    Passes s h i n :=
  completes_put e hx rfl rfl rfl rfl rfl rfl ⟨rfl, rfl, rfl, rfl, rfl⟩ rfl rfl
    ⟨fun _ => rfl, fun _ => rfl, rfl, rfl, rfl, rfl, ⟨rfl, rfl, rfl⟩, rfl, rfl, rfl, rfl, rfl, shorten_ids _ _⟩

/-- AN INSTRUCTION BEFORE WHICH ITS STRAND IS HELD. -/
theorem heldBy_put {s : State} {h : Here} {i : Instr} {c : Hold} (e : s.here = some h) (hx : exec i s = .next (s.putHere (h.wait s.clock c))) :
    HeldBy s h i c :=
  ⟨_, _, hx, here_put (k := h.wait s.clock c) e rfl rfl rfl rfl rfl rfl rfl, rfl, rfl, othersKept_put rfl rfl rfl rfl rfl rfl,
    ⟨rfl, rfl, rfl, rfl, rfl⟩, fun _ => rfl, fun _ => rfl, rfl, rfl, rfl, rfl, ⟨rfl, rfl, rfl⟩, rfl, rfl, rfl, rfl, rfl, rfl⟩

/-! ## Scalar and predicate results -/

/-- A write of a scalar keeps the rest of the group. -/
theorem writeSAs_rest (g : Group) (x : Nat) (r : SReg) (v : DWord) :
    (g.writeSAs x r v).num = g.num ∧ (g.writeSAs x r v).strands = g.strands ∧ (g.writeSAs x r v).flags = g.flags ∧
    (g.writeSAs x r v).rng = g.rng ∧ (g.writeSAs x r v).rm = g.rm ∧ (g.writeSAs x r v).drscale = g.drscale ∧
    (g.writeSAs x r v).fmts = g.fmts ∧ (g.writeSAs x r v).preds = g.preds ∧ (g.writeSAs x r v).kind = g.kind ∧
    (g.writeSAs x r v).barrel = g.barrel ∧ (g.writeSAs x r v).slot = g.slot ∧ (g.writeSAs x r v).ended = g.ended ∧
    (g.writeSAs x r v).pending = g.pending ∧ (g.writeSAs x r v).due = g.due ∧ (g.writeSAs x r v).nextId = g.nextId ∧
    (g.writeSAs x r v).dbg = g.dbg := by
  obtain ⟨f, k, e, -⟩ := Group.writeSAs_frame g x r v
  rw [e]; exact ⟨rfl, rfl, rfl, rfl, rfl, rfl, rfl, rfl, rfl, rfl, rfl, rfl, rfl, rfl, rfl, rfl⟩

theorem writeP_rest (h : Here) (p : PReg) (v : Mask) :
    ∃ f, h.writeP p v = { h with group := { h.group with preds := f } } := Here.writeP_frame h p v

/-- The scalar written is the result. -/
theorem scalarIs_write (h : Here) (d : SReg) (v : DWord) (n : Nat) (w : List FwdWrite) : ScalarIs h ((h.writeS d v).retire n w).back d v := by
  constructor
  · show (h.writeS d v).readS d = _
    by_cases hd : d = 0
    · subst hd; rw [Here.writeS_zero, Here.readS_zero]; rfl
    · rw [if_neg hd]; exact Here.readS_writeS_self h v hd
  · intro r hr
    show (h.writeS d v).readS r = _
    exact Here.readS_writeS_ne h v hr

/-- The predicate written is the result. -/
theorem predIs_write (h : Here) (d : PReg) (v : Mask) (n : Nat) (w : List FwdWrite) : PredIs h ((h.writeP d v).retire n w).back d v := by
  constructor
  · show (h.writeP d v).readP d = _
    by_cases hd : d = 0
    · subst hd; rfl
    · rw [if_neg hd]; exact Here.readP_writeP_self h v hd
  · intro p hp
    show (h.writeP d v).readP p = _
    exact Here.readP_writeP_ne h v hp

/-- Contents retired after a change of scalars alone. -/
theorem quiet_writeS (s : State) (h : Here) (d : SReg) (v : DWord) (n : Nat) (w : List FwdWrite) :
    Quiet s (s.putHere ((h.writeS d v).retire n w)) h ((h.writeS d v).retire n w).back ∧ PredsKept h ((h.writeS d v).retire n w).back := by
  obtain ⟨a1, a2, a3, a4, a5, a6, a7, a8, a9, b1, b2, b3, b4, b5, b6, b7⟩ := writeSAs_rest h.group h.strand.sid d v
  refine ⟨⟨rfl, rfl, a3, a4, ⟨a5, a6, a7⟩, a9, a1, b1, b2, b3, ?_⟩, fun p => ?_⟩
  · show ((h.group.writeSAs h.strand.sid d v).shorten h.strand.sid).pending.map (·.id) = _
    rw [shorten_ids, b4]
  · show (h.writeS d v).readP p = _
    unfold Here.readP
    rw [show (h.writeS d v).group.preds = h.group.preds from a8]

/-- AN INSTRUCTION WITH ONE SCALAR RESULT. -/
theorem scalarOp_result {s : State} {h : Here} {i : Instr} {d : SReg} {f : Here → DWord} (e : s.here = some h)
    (hx : exec i s = s.scalarOp d f) : ScalarResult s h i d (f h) := by
  obtain ⟨a1, a2, -⟩ := writeSAs_rest h.group h.strand.sid d (f h)
  obtain ⟨q1, q2⟩ := quiet_writeS s h d (f h) 1 []
  exact completes_put (k := (h.writeS d (f h)).retire 1 []) e (hx.trans (State.run_next e _)) rfl rfl rfl rfl a1 a2
    ⟨rfl, rfl, rfl, rfl, rfl⟩ rfl rfl ⟨scalarIs_write h d _ 1 [], q2, q1⟩

/-- AN INSTRUCTION WITH ONE PREDICATE RESULT. -/
theorem predOp_result {s : State} {h : Here} {i : Instr} {d : PReg} {f : Here → Mask} (e : s.here = some h)
    (hx : exec i s = s.predOp d f) : PredResult s h i d (f h) := by
  have hp := predIs_write h d (f h) 1 []
  have hx' := hx.trans (State.run_next e _)
  obtain ⟨g, hg⟩ := writeP_rest h d (f h)
  rw [hg] at hx' hp
  refine completes_put e hx' rfl rfl rfl rfl rfl rfl ⟨rfl, rfl, rfl, rfl, rfl⟩ rfl rfl ⟨hp, fun r => rfl, rfl, rfl, rfl, rfl, ⟨rfl, rfl, rfl⟩,
    rfl, rfl, rfl, rfl, rfl, ?_⟩
  exact shorten_ids _ _

/-! ## Control -/

/-- A transfer to a recorded start. -/
theorem goTo_goes {s : State} {h : Here} {i : Instr} {a : DWord} (e : s.here = some h) (hs : s.isStart h.team.asid a = true)
    (hx : exec i s = .next (s.goTo h a id)) : GoesTo s h i a (ScalarsKept h) := by
  have hx' := hx
  simp only [State.goTo, hs, if_true, id] at hx'
  have hk : StrandKept h (h.jump a) := ⟨rfl, rfl, rfl, rfl, rfl⟩
  exact ⟨_, _, hx', here_put e rfl rfl rfl rfl rfl rfl rfl, rfl, rfl, othersKept_put rfl rfl rfl rfl rfl rfl, hk, fun p => rfl,
    ⟨rfl, rfl, rfl, rfl, ⟨rfl, rfl, rfl⟩, rfl, rfl, rfl, rfl, rfl, shorten_ids _ _⟩, fun r => rfl⟩

/-- A transfer that writes a link register. -/
theorem goTo_links {s : State} {h : Here} {i : Instr} {a : DWord} {d : SReg} {v : DWord} (e : s.here = some h)
    (hs : s.isStart h.team.asid a = true) (hx : exec i s = .next (s.goTo h a fun h => h.writeS d v)) :
    GoesTo s h i a fun k => ScalarIs h k d v := by
  simp only [State.goTo, hs, if_true] at hx
  obtain ⟨a1, a2, -⟩ := writeSAs_rest h.group h.strand.sid d v
  obtain ⟨q1, q2⟩ := quiet_writeS s h d v 0 []
  have q := scalarIs_write h d v 0 []
  have hk : StrandKept h ((h.writeS d v).jump a) := ⟨rfl, rfl, rfl, rfl, rfl⟩
  exact ⟨_, _, hx, here_put e rfl rfl rfl rfl a1 rfl a2, rfl, rfl, othersKept_put rfl rfl rfl a1 rfl a2, hk, q2,
    ⟨rfl, rfl, q1.2.2.1, q1.2.2.2.1, q1.2.2.2.2.1, q1.2.2.2.2.2⟩, q⟩

/-- A transfer to anything else takes BAD_TARGET. -/
theorem goTo_bad {s : State} {h : Here} {a : DWord} {f : Here → Here} (hs : s.isStart h.team.asid a = false) :
    s.goTo h a f = s.takeFault h cBadTarget := by simp [State.goTo, hs]

/-! ## Vector instructions -/

theorem writeReg_team (t : Team) (g : Group) (qs : SMap QueueReg) (m : Mask) (w : Nat × Lanes) :
    ∃ r p, (writeReg t g qs m w).1 = { t with rows := r, rowPoison := p } := by
  unfold writeReg
  split
  · exact ⟨t.rows, t.rowPoison, rfl⟩
  · unfold Team.putRowMasked
    split
    · exact ⟨_, _, rfl⟩
    · exact ⟨_, t.rowPoison, rfl⟩

/-- Writes of registers change rows of the team's run, their poison, and queues. -/
theorem writeRegs_team (t : Team) (g : Group) (qs : SMap QueueReg) (m : Mask) (ws : List (Nat × Lanes)) :
    ∃ r p, (writeRegs t g qs m ws).1 = { t with rows := r, rowPoison := p } := by
  unfold writeRegs
  induction ws generalizing t qs with
  | nil => exact ⟨t.rows, t.rowPoison, rfl⟩
  | cons w ws ih =>
    obtain ⟨r, p, h⟩ := writeReg_team t g qs m w
    obtain ⟨r', p', h'⟩ := ih (writeReg t g qs m w).1 (writeReg t g qs m w).2
    refine ⟨r', p', ?_⟩
    rw [List.foldl_cons, h', h]

/-- The writes of registers depend on the group only through its number and its role. -/
theorem writeReg_group {t : Team} {g g' : Group} (qs : SMap QueueReg) (m : Mask) (w : Nat × Lanes) (hn : g.num = g'.num)
    (hk : g.kind = g'.kind) : writeReg t g qs m w = writeReg t g' qs m w := by
  unfold writeReg regRow regB
  rw [hn, hk]

theorem writeRegs_group {t : Team} {g g' : Group} (qs : SMap QueueReg) (m : Mask) (ws : List (Nat × Lanes)) (hn : g.num = g'.num)
    (hk : g.kind = g'.kind) : writeRegs t g qs m ws = writeRegs t g' qs m ws := by
  unfold writeRegs
  induction ws generalizing t qs with
  | nil => rfl
  | cons w ws ih => rw [List.foldl_cons, List.foldl_cons, writeReg_group qs m w hn hk]; exact ih _

/-- A SHORT-LATENCY VECTOR INSTRUCTION that is ready: what it does in terms of what `f` computes, which changes neither the team nor
the strand nor the group's identity. -/
theorem vecOp_next {s : State} {h : Here} {i : Instr} {n : Nat} {g : Guard} {eph : Bool} {f : Here → Mask → List Lanes → VecRes}
    {vs : List Lanes} {qs : SMap QueueReg} (r : VecReady s h i (h.mask g) vs qs) :
    s.vecOp i n g eph f = .next (
      let v := f h (h.mask g) vs
      let w := if eph then (v.here.team, qs) else writeRegs v.here.team v.here.group qs (h.mask g) v.writes
      { s with queues := w.2 }.putHere ({ v.here with team := w.1 }.retire n (fwdEntry eph (h.mask g) v.writes))) := by
  obtain ⟨e, r1, r2, r3⟩ := r
  unfold State.vecOp State.issue
  rw [State.run_next e]
  simp only [r1, r2, r3]

/-- A ready short-latency vector instruction completes; `q` are the contents that `f` leaves. -/
theorem vecOp_completes {s : State} {h : Here} {i : Instr} {n : Nat} {g : Guard} {eph : Bool} {f : Here → Mask → List Lanes → VecRes}
    {vs : List Lanes} {qs : SMap QueueReg} {P : State → Here → Prop} (r : VecReady s h i (h.mask g) vs qs)
    (hx : exec i s = s.vecOp i n g eph f) (q : Here) (ws : List (Nat × Lanes)) (hf : f h (h.mask g) vs = ⟨q, ws⟩)
    (ht : q.team = h.team) (hq : q.strand = h.strand) (hk : q.group.kind = h.group.kind) (hn : q.group.num = h.group.num)
    (hl : q.group.strands = h.group.strands)
    (hP : ∀ k : Here, k.group = (q.group.shorten h.strand.sid).modStrand h.strand.sid (fun _ => k.strand) →
      k.strand = h.strand.retired n (fwdEntry eph (h.mask g) ws) →
      ∀ t, OnlyTeamsQueues s t → Wrote t h k qs (h.mask g) eph ws → P t k) : Completes s h i n P := by
  have hx' := hx.trans (vecOp_next r)
  rw [hf] at hx'
  obtain ⟨e, -⟩ := r
  have hw : ∀ w, (if eph then (q.team, qs) else writeRegs q.team q.group qs (h.mask g) w) =
      if eph then (h.team, qs) else writeRegs h.team h.group qs (h.mask g) w := fun w => by
    rw [ht, writeRegs_group qs (h.mask g) w hn hk]
  simp only [hw] at hx'
  generalize hW : (if eph then (h.team, qs) else writeRegs h.team h.group qs (h.mask g) ws) = W at hx'
  have hT : ∃ a b, W.1 = { h.team with rows := a, rowPoison := b } := by
    rw [← hW]
    split
    · exact ⟨h.team.rows, h.team.rowPoison, rfl⟩
    · exact writeRegs_team _ _ _ _ _
  obtain ⟨a, b, hT⟩ := hT
  generalize hK : ({ q with team := W.1 } : Here).retire n (fwdEntry eph (h.mask g) ws) = K at hx'
  have k1 : K.team = W.1 := by rw [← hK]; rfl
  have k2 : K.group = q.group.shorten h.strand.sid := by rw [← hK, ← hq]; rfl
  have k3 : K.strand = h.strand.retired n (fwdEntry eph (h.mask g) ws) := by rw [← hK, ← hq]; rfl
  refine completes_put (s1 := { s with queues := W.2 }) (k := K) e hx' rfl rfl ?_ ?_ ?_ ?_ ?_ ?_ ?_ (hP K.back ?_ k3 (State.putHere { s with queues := W.2 } K) rfl ⟨?_, ?_, ?_⟩)
  · rw [k1, hT]
  · rw [k1, hT]
  · rw [k2]; exact hn
  · rw [k2]; exact hl
  · refine ⟨?_, ?_, ?_, ?_, ?_⟩ <;> rw [k3] <;> rfl
  · rw [k3]; rfl
  · rw [k3]; rfl
  · show K.group.modStrand K.strand.sid (fun _ => K.strand) = (q.group.shorten h.strand.sid).modStrand h.strand.sid fun _ => K.strand
    rw [k2, k3]; rfl
  · simp only [hW]
    show K.team.putGroup K.grp = { W.1 with groups := (K.team.putGroup K.grp).groups }
    rw [k1]; rfl
  · simp only [hW]
    rfl
  · show K.strand.fwd = _
    rw [k3]; rfl

/-- A short-latency instruction whose whole effect is its vector result. -/
theorem vecOp_result {s : State} {h : Here} {i : Instr} {n : Nat} {g : Guard} {eph : Bool} {f : Here → Mask → List Lanes → VecRes}
    {vs : List Lanes} {qs : SMap QueueReg} (r : VecReady s h i (h.mask g) vs qs) (hx : exec i s = s.vecOp i n g eph f)
    (ws : List (Nat × Lanes)) (hf : f h (h.mask g) vs = ⟨h, ws⟩) : VecResult s h i n (h.mask g) qs eph ws := by
  refine vecOp_completes r hx h ws hf rfl rfl rfl rfl rfl fun k hk hks t ht hw => ⟨hw, fun a => ?_, fun p => ?_, ht, ?_, ?_, ?_, ?_⟩
  · show k.group.readSAs k.strand.sid a = _
    rw [hk, hks]; rfl
  · show (if p = 0 then allLanes else k.group.preds.getD p.toNat 0) = _
    rw [hk]; rfl
  · show k.group.flags = _
    rw [hk]; rfl
  · show k.group.rng = _
    rw [hk]; rfl
  · refine ⟨?_, ?_, ?_⟩ <;> rw [hk] <;> rfl
  · refine ⟨?_, ?_, ?_, ?_, ?_, ?_⟩ <;> rw [hk]
    iterate 5 rfl
    exact shorten_ids _ _

/-- An entry of a list made lane by lane. -/
theorem laneNumbers_getD {α : Type} (f : Nat → α) (d : α) {l : Nat} (hl : l < 64) : (laneNumbers.map f).getD l d = f l := by
  simp [laneNumbers, List.getD, hl]

/-- Raised flags, lane by lane. -/
theorem Group.flagsOf_raise (g : Group) (m : Mask) (f : Nat → Flags) {l : Nat} (hl : l < 64) :
    (g.raise m f).flagsOf l = if laneBit m l then g.flagsOf l ||| f l else g.flagsOf l := by
  show (laneNumbers.map fun l => if laneBit m l then g.flagsOf l ||| f l else g.flagsOf l).getD l 0 = _
  exact laneNumbers_getD _ _ hl

/-- Random state set, lane by lane. -/
theorem Group.rngOf_setRng (g : Group) (m : Mask) (f : Nat → Rng) {l : Nat} (hl : l < 64) :
    (g.setRng m f).rngOf l = if laneBit m l then f l else g.rngOf l := by
  show (laneNumbers.map fun l => if laneBit m l then f l else g.rngOf l).getD l ⟨0, 0, 0, 0⟩ = _
  exact laneNumbers_getD _ _ hl

/-- A short-latency instruction that raises flags and may draw. -/
theorem flagOp_result {s : State} {h : Here} {i : Instr} {n : Nat} {g : Guard} {eph : Bool} {ty : Fmt} {vd : VReg}
    {f : Here → List Lanes → Nat → Rng → LaneRes} {vs : List Lanes} {qs : SMap QueueReg} (r : VecReady s h i (h.mask g) vs qs)
    (hx : exec i s = s.flagOp i n g eph ty vd f) :
    VecFlagResult s h i n (h.mask g) qs eph ty vd (laneResults (h.mask g) h.group (f h vs)) := by
  refine vecOp_completes r hx { h with group := h.group.absorb (h.mask g) (laneResults (h.mask g) h.group (f h vs)) } _ rfl rfl rfl rfl rfl
    rfl fun k hk hks t ht hw => ⟨hw, fun a => ?_, fun p => ?_, fun l hl => ?_, fun l hl => ?_, ht, ?_, ?_⟩
  · show k.group.readSAs k.strand.sid a = _
    rw [hk, hks]; rfl
  · show (if p = 0 then allLanes else k.group.preds.getD p.toNat 0) = _
    rw [hk]; rfl
  · show k.group.flagsOf l = _
    rw [hk]
    show (h.group.raise (h.mask g) (flagsFrom (laneResults (h.mask g) h.group (f h vs)))).flagsOf l = _
    exact Group.flagsOf_raise _ _ _ hl
  · show k.group.rngOf l = _
    rw [hk]
    show (h.group.setRng (h.mask g) fun l => ((laneResults (h.mask g) h.group (f h vs)).getD l ⟨0, 0, ⟨0, 0, 0, 0⟩⟩).rng).rngOf l = _
    exact Group.rngOf_setRng _ _ _ hl
  · refine ⟨?_, ?_, ?_⟩ <;> rw [hk] <;> rfl
  · refine ⟨?_, ?_, ?_, ?_, ?_, ?_⟩ <;> rw [hk]
    iterate 5 rfl
    exact shorten_ids _ _

/-! ## Long-latency instructions -/

/-- ISSUE AS A LONG-LATENCY INSTRUCTION: `h1` is the strand's group with what the instruction already changes. -/
theorem launch_launches {s : State} {h : Here} {i : Instr} {n : Nat} {qs : SMap QueueReg} {p : Pending} {P : State → Here → Prop}
    (e : s.here = some h) (hc : h.group.outcnt < 32) (hp : p.instr = i) (s1 : State) (h1 : Here) (e1 : s1.teams = s.teams)
    (ec : s1.cur = s.cur) (es : s1 = { s with queues := qs, tlb := s1.tlb }) (hx : exec i s = .next (s1.launch h1 n p))
    (ht : h1.team = h.team) (hg : h1.group.num = h.group.num)
    (hl : h1.group.strands = h.group.strands) (hs : h1.strand = h.strand) (hpd : h1.group.pending = h.group.pending)
    (hr : ∀ r, h1.readS r = h.readS r) (hpr : h1.group.preds = h.group.preds) (hfl : h1.group.flags = h.group.flags)
    (hm : h1.group.rm = h.group.rm ∧ h1.group.drscale = h.group.drscale ∧ h1.group.fmts = h.group.fmts)
    (hP : ∀ k : Here, k.team = { h1.team with groups := k.team.groups } → k.group = { (h1.group.shorten h.strand.sid).modStrand h.strand.sid (fun _ => k.strand) with
        pending := (h1.group.shorten h.strand.sid).pending ++ [p], nextId := h1.group.nextId + 1 } →
      ∀ t : State, t = { s1 with uid := s.uid + 1, teams := t.teams } → P t k) : Launches s h i n qs p P := by
  have eq : s1.queues = qs := by rw [es]
  have eu : s1.uid = s.uid := by rw [es]
  have hgs : h1.team.groups = h.team.groups := by rw [ht]
  have hti : h1.team.info.uid = h.team.info.uid := by rw [ht]
  have ho : ¬ 32 ≤ h1.group.outcnt := by unfold Group.outcnt at hc ⊢; rw [hpd]; omega
  unfold State.launch at hx
  rw [if_neg ho] at hx
  have hsp : (h1.group.shorten h1.strand.sid).pending = (h.group.shorten h.strand.sid).pending := by
    unfold Group.shorten Group.mapPending; rw [hpd, hs]
  refine completes_put (s1 := { s1 with uid := s1.uid + 1 }) e hx e1 ec hti hgs hg hl ?_ ?_ rfl
    ⟨?_, ?_, ?_, ?_, fun r => ?_, fun q => ?_, ?_, ?_, hP _ ?_ ?_ _ ?_⟩
  · refine ⟨?_, ?_, ?_, ?_, ?_⟩ <;> (try simp only [Here.retire_strand]) <;> rw [hs] <;> rfl
  · show h1.strand.pc + _ = _; rw [hs]
  · show (h1.group.shorten h1.strand.sid).pending ++ [p] = _; rw [hsp]
  · show (p.instr.vwrites.map _ :: h1.strand.fwd).take 8 = _; rw [hs, hp]
  · rw [← eu, es]; rfl
  · show _ = _
    simp only [Here.back, Here.grp, Here.retire_group, Here.retire_strand, Group.modStrand, hs]
    rw [show ∀ l, (h1.retire n l).team = h.team from fun _ => ht]
    rfl
  · exact hr r
  · show (if q = 0 then allLanes else h1.group.preds.getD q.toNat 0) = _; rw [hpr]; rfl
  · exact hfl
  · exact hm
  · rfl
  · show _ = _
    simp only [Here.back, Here.grp, Here.retire_group, Here.retire_strand, Group.modStrand, hs]
    rfl
  · show State.putHere _ _ = _
    rw [← eu]; rfl

/-- A long-latency vector instruction that is ready issues. -/
theorem longOp_launches {s : State} {h : Here} {i : Instr} {n : Nat} {la : BitVec 4} {g : Guard}
    {f : Here → List Lanes → Pending → Here × Pending} {vs : List Lanes} {qs : SMap QueueReg} {p : Pending} {P : State → Here → Prop}
    (r : LongReady s h i (h.mask g) vs qs) (hm : h.mask g ≠ 0) (hx : exec i s = s.longOp i n la g f) (h1 : Here)
    (hf : f h vs (h.pend s.uid i la (h.mask g) vs) = (h1, p)) (hp : p.instr = i)
    (ht : h1.team = h.team) (hg : h1.group.num = h.group.num) (hl : h1.group.strands = h.group.strands) (hs : h1.strand = h.strand)
    (hpd : h1.group.pending = h.group.pending) (hr : ∀ r, h1.readS r = h.readS r) (hpr : h1.group.preds = h.group.preds)
    (hfl : h1.group.flags = h.group.flags)
    (hmd : h1.group.rm = h.group.rm ∧ h1.group.drscale = h.group.drscale ∧ h1.group.fmts = h.group.fmts)
    (hP : ∀ k : Here, k.team = { h.team with groups := k.team.groups } → k.group = { (h1.group.shorten h.strand.sid).modStrand h.strand.sid (fun _ => k.strand) with
        pending := (h1.group.shorten h.strand.sid).pending ++ [p], nextId := h1.group.nextId + 1 } →
      ∀ t : State, t = { s with queues := qs, uid := s.uid + 1, teams := t.teams } → P t k) : Launches s h i n qs p P := by
  obtain ⟨e, r1, r2, r3, r4⟩ := r
  have ho : ¬ 32 ≤ h.group.outcnt := by omega
  have hm' : ¬ (h.mask g = 0 ∧ (!i.vwrites.any isQueue) = true) := fun q => hm q.1
  have hx' : exec i s = .next ({ s with queues := qs }.launch h1 n p) := by
    rw [hx]
    unfold State.longOp State.issue
    rw [State.run_next e]
    simp only [r1, r2, r3, if_neg hm', if_neg ho, hf]
  exact launch_launches e r4 hp { s with queues := qs } h1 rfl rfl rfl hx' ht hg hl hs hpd hr hpr hfl hmd
    (fun k hk hk' t htt => hP k (by rw [hk, ht]) hk' t htt)

end Sys2Proof.Machine
end

