-- ==== Sys2Proof/Laws/Elements.lean ====
section
/-! SUPPORT. The elements of a lane value: what an operation applied element by element gives (Table 15-1, R222, R228). -/

namespace Sys2Proof.Machine

open Sys2Proof

/-- Codes laid side by side are found again, one after another. -/
theorem laneOfElems_aux (w : Nat) (hw : 0 < w) : ∀ (cs : List Nat) (o acc k : Nat), (∀ i, o * w ≤ i → acc.testBit i = false) →
    k < cs.length →
    (((cs.zip (List.range' o cs.length)).foldl (fun acc p => acc ||| (p.1 % 2 ^ w) <<< (p.2 * w)) acc) >>> ((o + k) * w)) % 2 ^ w = cs.getD k 0 % 2 ^ w := by
  intro cs
  induction cs with
  | nil => intro o acc k _ hk; simp at hk
  | cons c cs ih =>
    intro o acc k hacc hk
    simp only [List.length_cons, List.range'_succ, List.zip_cons_cons, List.foldl_cons]
    have key : ∀ (cs : List Nat) (o acc i : Nat), i < o * w → ((cs.zip (List.range' o cs.length)).foldl (fun acc p => acc ||| (p.1 % 2 ^ w) <<< (p.2 * w)) acc).testBit i = acc.testBit i := by
      intro cs
      induction cs with
      | nil => intros; rfl
      | cons c cs ih2 =>
        intro o acc i hi
        simp only [List.length_cons, List.range'_succ, List.zip_cons_cons, List.foldl_cons]
        rw [ih2 _ _ _ (by nlinarith)]
        simp [Nat.testBit_shiftLeft, show ¬ (o * w ≤ i) by omega]
    cases k with
    | zero =>
      apply Nat.eq_of_testBit_eq
      intro i
      simp only [Nat.testBit_mod_two_pow, Nat.testBit_shiftRight, List.getD_cons_zero, add_zero]
      by_cases hi : i < w
      · rw [key _ _ _ _ (by nlinarith)]
        simp [Nat.testBit_shiftLeft, hi, hacc]
      · simp [hi]
    | succ k =>
      have := ih (o + 1) (acc ||| (c % 2 ^ w) <<< (o * w)) k (by
        intro i hi
        have h1 : o * w + w ≤ i := by nlinarith
        simp [Nat.testBit_shiftLeft, hacc i (by omega)]
        intro _ h2
        omega) (by simpa using hk)
      rw [show o + (k + 1) = o + 1 + k by omega]
      simpa using this

/-- An element of a lane made of elements. -/
theorem elemOf_laneOfElems (ty : Fmt) (cs : List Nat) (hc : cs.length * ty.elemBits ≤ 64) (k : Nat) (hk : k < cs.length) :
    elemOf ty (laneOfElems ty cs) k = cs.getD k 0 % 2 ^ ty.elemBits := by
  have hw : 0 < ty.elemBits := by cases ty <;> simp [Fmt.elemBits]
  have := laneOfElems_aux ty.elemBits hw cs 0 0 k (by simp) hk
  rw [← this]
  unfold elemOf laneOfElems
  rw [BitVec.toNat_ofNat, List.range_eq_range', Nat.zero_add]
  apply Nat.eq_of_testBit_eq
  intro i
  simp only [Nat.testBit_mod_two_pow, Nat.testBit_shiftRight]
  by_cases hi : i < ty.elemBits
  · have : k * ty.elemBits + i < 64 := by nlinarith
    simp [hi, this]
  · simp [hi]

/-- An element of a lane computed element by element. -/
theorem elemOf_mapElems (ty : Fmt) (f : Nat → Nat → Nat → Nat) (a b c : DWord) (k : Nat) (hk : k < ty.count) :
    elemOf ty (mapElems ty f a b c) k = f (elemOf ty a k) (elemOf ty b k) (elemOf ty c k) % 2 ^ ty.elemBits := by
  unfold mapElems
  rw [elemOf_laneOfElems _ _ (by cases ty <;> simp [Fmt.count, Fmt.elemBits]) k (by simpa using hk)]
  simp [List.getD, hk]

/-- An active lane of a result computed lane by lane. -/
theorem laneOf_perLane (m : Mask) (f : Nat → DWord) (l : Nat) (hl : l < 64) (hm : laneBit m l = true) : laneOf (perLane m f) l = f l := by
  unfold laneOf perLane
  rw [laneNumbers_getD _ _ hl, if_pos hm]

/-- A result clamped or wrapped, as an integer. -/
theorem narrow_exact (signed : Bool) (n : Nat) (sat : Bool) (v : Int) :
    ((narrowInt signed n sat v % 2 ^ n : Nat) : Int) = (if sat then max (if signed then -(2 ^ (n - 1)) else 0) (min (if signed then 2 ^ (n - 1) - 1 else 2 ^ n - 1) v) else v) % 2 ^ n := by
  have h2 : (0 : Int) < 2 ^ n := by positivity
  have aux : ∀ x : Int, ((intCode n x % 2 ^ n : Nat) : Int) = x % 2 ^ n := by
    intro x
    unfold intCode
    have h0 := Int.emod_nonneg x (ne_of_gt h2)
    push_cast
    rw [Int.toNat_of_nonneg h0, Int.emod_emod_of_dvd _ (dvd_refl _)]
  unfold narrowInt
  cases sat
  · simp [aux]
  · simp only [if_true, aux, intRange]
    cases signed <;> simp

end Sys2Proof.Machine
end

