-- ==== Sys2Proof/Laws/PerInstr.lean ====
section
/-! SUPPORT. The family FirstWord, instruction by instruction: the length that the first word of an encoding tells (Table 11-1) is the number of
its words, so that a reader of an instruction stream always finds the next instruction. -/

namespace Sys2Proof.Laws

set_option Elab.async false

open Sys2Proof

/-- The first word tells how many words there are. -/
def TellsLength (ws : List Word) : Prop := ∀ w rest, ws = w :: rest → lengthOf w = some ws.length

theorem tellsLength_nil : TellsLength [] := by intro w rest h; simp at h

theorem lengthOf_append (x : BitVec 30) (y : BitVec 2) (n : Nat) (h : y.toNat < 3 ∧ n = y.toNat + 1) : lengthOf (x ++ y) = some n := by
  have e : ((x ++ y).extractLsb' 0 2).toNat = y.toNat := by
    simp only [BitVec.extractLsb'_toNat, BitVec.toNat_append]; rw [Nat.shiftRight_zero, Nat.or_mod_two_pow, Nat.shiftLeft_eq]
    simp [Nat.mod_eq_of_lt y.isLt]
  obtain ⟨h, rfl⟩ := h
  simp only [lengthOf, e]
  generalize y.toNat = m at h ⊢
  match m, h with | 0, _ => rfl | 1, _ => rfl | 2, _ => rfl

theorem tellsLength_packS (r : SRaw) : TellsLength [packS r] := by
  rintro w rest ⟨⟩
  exact lengthOf_append (r.m ++ r.b ++ r.a ++ r.d ++ r.op) 0 1 (by decide)

theorem tellsLength_packW (r : WRaw) : TellsLength (packW r) := by
  intro w rest h
  cases hl : r.long <;> simp only [packW, hl] at h ⊢ <;> simp only [List.cons.injEq, Bool.false_eq_true, if_true, if_false] at h ⊢ <;> rw [← h.1]
  · exact lengthOf_append (r.va ++ r.vd ++ r.op) 1 2 (by decide)
  · exact lengthOf_append (r.va ++ r.vd ++ r.op) 2 3 (by decide)

theorem tellsLength_wUnary (op : BitVec 8) (g : Guard) (eph : Bool) (la : BitVec 4) (sat : Bool) (rnd : Rnd) (ty : BitVec 6) (vd va ctl : VReg) :
    TellsLength (wUnary op g eph la sat rnd ty vd va ctl) := tellsLength_packW _

theorem tellsLength_wEngCtl (op : BitVec 8) (la : BitVec 4) (sat : Bool) (rnd : Rnd) (vd va : VReg) (ty : BitVec 6) (vb : VReg) :
    TellsLength (wEngCtl op la sat rnd vd va ty vb) := tellsLength_packW _

theorem tellsLength_wEng (op : BitVec 8) (la : BitVec 4) (sat : Bool) (rnd : Rnd) (vd va : VReg) (ty : BitVec 6) (vb : SReg) :
    TellsLength (wEng op la sat rnd vd va ty vb) := tellsLength_packW _

namespace FirstWord

/-- The first word of the encoding of `i` tells how many words it has. -/
def Statement (i : Instr) : Prop := TellsLength (encode i)

theorem nop : Statement .nop := tellsLength_packS _
theorem sadd (d a b : SReg) : Statement (.sadd d a b) := tellsLength_packS _
theorem ssub (d a b : SReg) : Statement (.ssub d a b) := tellsLength_packS _
theorem smul (d a b : SReg) : Statement (.smul d a b) := tellsLength_packS _
theorem smulh (u : Bool) (d a b : SReg) : Statement (.smulh u d a b) := tellsLength_packS _
theorem sdiv (u : Bool) (d a b : SReg) : Statement (.sdiv u d a b) := tellsLength_packS _
theorem srem (u : Bool) (d a b : SReg) : Statement (.srem u d a b) := tellsLength_packS _
theorem sand (d a b : SReg) : Statement (.sand d a b) := tellsLength_packS _
theorem sor (d a b : SReg) : Statement (.sor d a b) := tellsLength_packS _
theorem sxor (d a b : SReg) : Statement (.sxor d a b) := tellsLength_packS _
theorem sandn (d a b : SReg) : Statement (.sandn d a b) := tellsLength_packS _
theorem sshl (d a b : SReg) : Statement (.sshl d a b) := tellsLength_packS _
theorem sshr (d a b : SReg) : Statement (.sshr d a b) := tellsLength_packS _
theorem ssar (d a b : SReg) : Statement (.ssar d a b) := tellsLength_packS _
theorem smin (u : Bool) (d a b : SReg) : Statement (.smin u d a b) := tellsLength_packS _
theorem smax (u : Bool) (d a b : SReg) : Statement (.smax u d a b) := tellsLength_packS _
theorem sclz (d a : SReg) : Statement (.sclz d a) := tellsLength_packS _
theorem spopc (d a : SReg) : Statement (.spopc d a) := tellsLength_packS _
theorem sbfx (sx : Bool) (d a b : SReg) : Statement (.sbfx sx d a b) := tellsLength_packS _
theorem sbfi (d a b : SReg) : Statement (.sbfi d a b) := tellsLength_packS _
theorem slea (k : BitVec 4) (d a b : SReg) : Statement (.slea k d a b) := tellsLength_packS _
theorem scmp (c : Cond) (d a b : SReg) : Statement (.scmp c d a b) := tellsLength_packS _
theorem ssel (neg : Bool) (p : PReg) (d a b : SReg) : Statement (.ssel neg p d a b) := tellsLength_packS _
theorem saddi (d a : SReg) (imm : BitVec 10) : Statement (.saddi d a imm) := tellsLength_packS _
theorem sandi (d a : SReg) (imm : BitVec 10) : Statement (.sandi d a imm) := tellsLength_packS _
theorem sori (d a : SReg) (imm : BitVec 10) : Statement (.sori d a imm) := tellsLength_packS _
theorem sxori (d a : SReg) (imm : BitVec 10) : Statement (.sxori d a imm) := tellsLength_packS _
theorem sshli (d a : SReg) (k : BitVec 6) : Statement (.sshli d a k) := tellsLength_packS _
theorem sshri (d a : SReg) (k : BitVec 6) : Statement (.sshri d a k) := tellsLength_packS _
theorem ssari (d a : SReg) (k : BitVec 6) : Statement (.ssari d a k) := tellsLength_packS _
theorem smovi (d : SReg) (imm : BitVec 16) : Statement (.smovi d imm) := tellsLength_packS _
theorem smovhi (d : SReg) (imm : BitVec 16) : Statement (.smovhi d imm) := tellsLength_packS _
theorem pand (d a b : PReg) : Statement (.pand d a b) := tellsLength_packS _
theorem por (d a b : PReg) : Statement (.por d a b) := tellsLength_packS _
theorem pxor (d a b : PReg) : Statement (.pxor d a b) := tellsLength_packS _
theorem pandn (d a b : PReg) : Statement (.pandn d a b) := tellsLength_packS _
theorem pcnt (d : SReg) (a : PReg) : Statement (.pcnt d a) := tellsLength_packS _
theorem pfroms (d : PReg) (a : SReg) : Statement (.pfroms d a) := tellsLength_packS _
theorem ptos (d : SReg) (a : PReg) : Statement (.ptos d a) := tellsLength_packS _
theorem sld (la : BitVec 4) (sz : MSize) (acq : Bool) (sc : Scope) (d a : SReg) : Statement (.sld la sz acq sc d a) := tellsLength_packS _
theorem sst (la : BitVec 4) (sz : MSize) (rel : Bool) (sc : Scope) (d a : SReg) : Statement (.sst la sz rel sc d a) := tellsLength_packS _
theorem sldc (d a : SReg) (imm : BitVec 10) : Statement (.sldc d a imm) := tellsLength_packS _
theorem sldgot (d : SReg) (imm : BitVec 16) : Statement (.sldgot d imm) := tellsLength_packS _
theorem satom (la : BitVec 4) (op : Aop) (dbl : Bool) (sc : Scope) (d a : SReg) : Statement (.satom la op dbl sc d a) := tellsLength_packS _
theorem scas (la : BitVec 4) (dbl : Bool) (ord : MemOrd) (sc : Scope) (d a : SReg) : Statement (.scas la dbl ord sc d a) := tellsLength_packS _
theorem cwb (la : BitVec 4) (sc : Scope) (a b : SReg) : Statement (.cwb la sc a b) := tellsLength_packS _
theorem cinv (la : BitVec 4) (sc : Scope) (a b : SReg) : Statement (.cinv la sc a b) := tellsLength_packS _
theorem cwbinv (la : BitVec 4) (sc : Scope) (a b : SReg) : Statement (.cwbinv la sc a b) := tellsLength_packS _
theorem sptest (d a : SReg) : Statement (.sptest d a) := tellsLength_packS _
theorem spcast (w : Window) (d a b : SReg) : Statement (.spcast w d a b) := tellsLength_packS _
theorem bra (off : BitVec 16) : Statement (.bra off) := tellsLength_packS _
theorem brp (t : BrTest) (neg : Bool) (p : PReg) (off : BitVec 16) : Statement (.brp t neg p off) := tellsLength_packS _
theorem brd (neg : Bool) (p : PReg) (off : BitVec 16) : Statement (.brd neg p off) := tellsLength_packS _
theorem split (off : BitVec 16) : Statement (.split off) := tellsLength_packS _
theorem rejoin : Statement .rejoin := tellsLength_packS _
theorem jmps (a : SReg) : Statement (.jmps a) := tellsLength_packS _
theorem call (n : SReg) (off : BitVec 16) : Statement (.call n off) := tellsLength_packS _
theorem calls (d a : SReg) : Statement (.calls d a) := tellsLength_packS _
theorem ret (a : SReg) : Statement (.ret a) := tellsLength_packS _
theorem exit : Statement .exit := tellsLength_packS _
theorem sread (d : SReg) (r : SpecReg) : Statement (.sread d r) := tellsLength_packS _
theorem swrite (r : SpecReg) (d : SReg) : Statement (.swrite r d) := tellsLength_packS _
theorem fence (k : FKind) (sc : FScope) : Statement (.fence k sc) := tellsLength_packS _
theorem bar (b : BitVec 4) (n1 : BitVec 5) : Statement (.bar b n1) := tellsLength_packS _
theorem trap (t : BitVec 8) : Statement (.trap t) := tellsLength_packS _
theorem brk (v : BitVec 16) : Statement (.brk v) := tellsLength_packS _
theorem rett : Statement .rett := tellsLength_packS _
theorem xlock : Statement .xlock := tellsLength_packS _
theorem xfree : Statement .xfree := tellsLength_packS _
theorem waitcnt (c : BitVec 6) : Statement (.waitcnt c) := tellsLength_packS _
theorem vadd (g : Guard) (eph sat : Bool) (ty : Fmt) (vd va : VReg) (vb : Src) : Statement (.vadd g eph sat ty vd va vb) := tellsLength_packW _
theorem vsub (g : Guard) (eph sat : Bool) (ty : Fmt) (vd va : VReg) (vb : Src) : Statement (.vsub g eph sat ty vd va vb) := tellsLength_packW _
theorem vmul (g : Guard) (eph sat : Bool) (ty : Fmt) (vd va : VReg) (vb : Src) : Statement (.vmul g eph sat ty vd va vb) := tellsLength_packW _
theorem vmulh (g : Guard) (eph sat : Bool) (ty : Fmt) (vd va : VReg) (vb : Src) : Statement (.vmulh g eph sat ty vd va vb) := tellsLength_packW _
theorem vmad (g : Guard) (eph sat : Bool) (ty : Fmt) (vd va : VReg) (vb : Src) : Statement (.vmad g eph sat ty vd va vb) := tellsLength_packW _
theorem vand (g : Guard) (eph : Bool) (ty : Fmt) (vd va : VReg) (vb : Src) : Statement (.vand g eph ty vd va vb) := tellsLength_packW _
theorem vor (g : Guard) (eph : Bool) (ty : Fmt) (vd va : VReg) (vb : Src) : Statement (.vor g eph ty vd va vb) := tellsLength_packW _
theorem vxor (g : Guard) (eph : Bool) (ty : Fmt) (vd va : VReg) (vb : Src) : Statement (.vxor g eph ty vd va vb) := tellsLength_packW _
theorem vandn (g : Guard) (eph : Bool) (ty : Fmt) (vd va : VReg) (vb : Src) : Statement (.vandn g eph ty vd va vb) := tellsLength_packW _
theorem vshl (g : Guard) (eph : Bool) (ty : Fmt) (vd va : VReg) (vb : Src) : Statement (.vshl g eph ty vd va vb) := tellsLength_packW _
theorem vshr (g : Guard) (eph : Bool) (ty : Fmt) (vd va : VReg) (vb : Src) : Statement (.vshr g eph ty vd va vb) := tellsLength_packW _
theorem vsar (g : Guard) (eph : Bool) (ty : Fmt) (vd va : VReg) (vb : Src) : Statement (.vsar g eph ty vd va vb) := tellsLength_packW _
theorem vmin (g : Guard) (eph : Bool) (ty : Fmt) (vd va : VReg) (vb : Src) : Statement (.vmin g eph ty vd va vb) := tellsLength_packW _
theorem vmax (g : Guard) (eph : Bool) (ty : Fmt) (vd va : VReg) (vb : Src) : Statement (.vmax g eph ty vd va vb) := tellsLength_packW _
theorem vabsd (g : Guard) (eph sat : Bool) (ty : Fmt) (vd va : VReg) (vb : Src) : Statement (.vabsd g eph sat ty vd va vb) := tellsLength_packW _
theorem vcmp (g : Guard) (c : Cond) (ty : Fmt) (pd : PReg) (va : VReg) (vb : Src) : Statement (.vcmp g c ty pd va vb) := tellsLength_packW _
theorem vsel (g : Guard) (eph neg : Bool) (p : PReg) (ty : Fmt) (vd va : VReg) (vb : Src) : Statement (.vsel g eph neg p ty vd va vb) := tellsLength_packW _
theorem vmov (g : Guard) (eph : Bool) (ty : Fmt) (vd : VReg) (vb : Src) : Statement (.vmov g eph ty vd vb) := tellsLength_packW _
theorem vclz (g : Guard) (eph : Bool) (ty : Fmt) (vd va : VReg) : Statement (.vclz g eph ty vd va) := tellsLength_wUnary _ _ _ _ _ _ _ _ _ _
theorem vpopc (g : Guard) (eph : Bool) (ty : Fmt) (vd va : VReg) : Statement (.vpopc g eph ty vd va) := tellsLength_wUnary _ _ _ _ _ _ _ _ _ _
theorem vbfx (g : Guard) (eph : Bool) (ty : Fmt) (vd va : VReg) (vb : Src) : Statement (.vbfx g eph ty vd va vb) := tellsLength_packW _
theorem vbfi (g : Guard) (eph : Bool) (ty : Fmt) (vd va : VReg) (vb : Src) : Statement (.vbfi g eph ty vd va vb) := tellsLength_packW _
theorem vdot4 (g : Guard) (eph : Bool) (ty : Fmt) (vd va : VReg) (vb : Src) : Statement (.vdot4 g eph ty vd va vb) := tellsLength_packW _
theorem vfadd (g : Guard) (eph sat : Bool) (rnd : Rnd) (ty : Fmt) (vd va : VReg) (vb : Src) : Statement (.vfadd g eph sat rnd ty vd va vb) := tellsLength_packW _
theorem vfsub (g : Guard) (eph sat : Bool) (rnd : Rnd) (ty : Fmt) (vd va : VReg) (vb : Src) : Statement (.vfsub g eph sat rnd ty vd va vb) := tellsLength_packW _
theorem vfmul (g : Guard) (eph sat : Bool) (rnd : Rnd) (ty : Fmt) (vd va : VReg) (vb : Src) : Statement (.vfmul g eph sat rnd ty vd va vb) := tellsLength_packW _
theorem vfma (g : Guard) (eph sat : Bool) (rnd : Rnd) (ty : Fmt) (vd va : VReg) (vb : Src) : Statement (.vfma g eph sat rnd ty vd va vb) := tellsLength_packW _
theorem vfmin (g : Guard) (eph sat : Bool) (rnd : Rnd) (ty : Fmt) (vd va : VReg) (vb : Src) : Statement (.vfmin g eph sat rnd ty vd va vb) := tellsLength_packW _
theorem vfmax (g : Guard) (eph sat : Bool) (rnd : Rnd) (ty : Fmt) (vd va : VReg) (vb : Src) : Statement (.vfmax g eph sat rnd ty vd va vb) := tellsLength_packW _
theorem vfcmp (g : Guard) (c : FCond) (ty : Fmt) (pd : PReg) (va : VReg) (vb : Src) : Statement (.vfcmp g c ty pd va vb) := tellsLength_packW _
theorem vfclass (g : Guard) (eph : Bool) (ty : Fmt) (vd va : VReg) : Statement (.vfclass g eph ty vd va) := tellsLength_wUnary _ _ _ _ _ _ _ _ _ _
theorem vfrnd (g : Guard) (eph : Bool) (rnd : Rnd) (ty : Fmt) (vd va : VReg) : Statement (.vfrnd g eph rnd ty vd va) := tellsLength_wUnary _ _ _ _ _ _ _ _ _ _
theorem vfdiv (g : Guard) (la : BitVec 4) (sat : Bool) (rnd : Rnd) (ty : Fmt) (vd va : VReg) (vb : Src) : Statement (.vfdiv g la sat rnd ty vd va vb) := tellsLength_packW _
theorem vexp2 (g : Guard) (la : BitVec 4) (sat : Bool) (rnd : Rnd) (ty : Fmt) (vd va : VReg) : Statement (.vexp2 g la sat rnd ty vd va) := tellsLength_wUnary _ _ _ _ _ _ _ _ _ _
theorem vlog2 (g : Guard) (la : BitVec 4) (sat : Bool) (rnd : Rnd) (ty : Fmt) (vd va : VReg) : Statement (.vlog2 g la sat rnd ty vd va) := tellsLength_wUnary _ _ _ _ _ _ _ _ _ _
theorem vrcp (g : Guard) (la : BitVec 4) (sat : Bool) (rnd : Rnd) (ty : Fmt) (vd va : VReg) : Statement (.vrcp g la sat rnd ty vd va) := tellsLength_wUnary _ _ _ _ _ _ _ _ _ _
theorem vrsq (g : Guard) (la : BitVec 4) (sat : Bool) (rnd : Rnd) (ty : Fmt) (vd va : VReg) : Statement (.vrsq g la sat rnd ty vd va) := tellsLength_wUnary _ _ _ _ _ _ _ _ _ _
theorem vsqrt (g : Guard) (la : BitVec 4) (sat : Bool) (rnd : Rnd) (ty : Fmt) (vd va : VReg) : Statement (.vsqrt g la sat rnd ty vd va) := tellsLength_wUnary _ _ _ _ _ _ _ _ _ _
theorem vcvt (g : Guard) (eph sat : Bool) (rnd : Rnd) (src dst : Fmt) (vd va : VReg) : Statement (.vcvt g eph sat rnd src dst vd va) := tellsLength_wUnary _ _ _ _ _ _ _ _ _ _
theorem vpack (g : Guard) (eph sat : Bool) (rnd : Rnd) (src dst : Fmt) (vd va : VReg) : Statement (.vpack g eph sat rnd src dst vd va) := tellsLength_wUnary _ _ _ _ _ _ _ _ _ _
theorem vunpack (g : Guard) (eph : Bool) (src dst : Fmt) (vd va : VReg) : Statement (.vunpack g eph src dst vd va) := tellsLength_wUnary _ _ _ _ _ _ _ _ _ _
theorem vlns (g : Guard) (eph : Bool) (rnd : Rnd) (ty : Fmt) (vd va : VReg) (vb : Src) : Statement (.vlns g eph rnd ty vd va vb) := tellsLength_packW _
theorem vlin (g : Guard) (eph : Bool) (ty : Fmt) (vd va : VReg) (vb : Src) : Statement (.vlin g eph ty vd va vb) := tellsLength_packW _
theorem vlmul (g : Guard) (eph : Bool) (ty : Fmt) (vd va : VReg) (vb : Src) : Statement (.vlmul g eph ty vd va vb) := tellsLength_packW _
theorem vladd (g : Guard) (eph : Bool) (ty : Fmt) (vd va : VReg) (vb : Src) : Statement (.vladd g eph ty vd va vb) := tellsLength_packW _
theorem vrand (g : Guard) (eph : Bool) (op : RandOp) : Statement (.vrand g eph op) :=
  match op with
  | .draw _ => tellsLength_wUnary _ _ _ _ _ _ _ _ _ _
  | .unit _ => tellsLength_wUnary _ _ _ _ _ _ _ _ _ _
  | .seed _ => tellsLength_wUnary _ _ _ _ _ _ _ _ _ _
  | .state _ => tellsLength_wUnary _ _ _ _ _ _ _ _ _ _
theorem vflg (g : Guard) (eph : Bool) (op : FlgOp) : Statement (.vflg g eph op) :=
  match op with
  | .get _ => tellsLength_wUnary _ _ _ _ _ _ _ _ _ _
  | .set _ => tellsLength_wUnary _ _ _ _ _ _ _ _ _ _
  | .or _ => tellsLength_wUnary _ _ _ _ _ _ _ _ _ _
  | .clr _ => tellsLength_wUnary _ _ _ _ _ _ _ _ _ _
theorem vshuf (g : Guard) (eph : Bool) (ty : Fmt) (vd va : VReg) (vb : Src) : Statement (.vshuf g eph ty vd va vb) := tellsLength_packW _
theorem vbcast (g : Guard) (eph : Bool) (ty : Fmt) (vd va : VReg) (vb : Src) : Statement (.vbcast g eph ty vd va vb) := tellsLength_packW _
theorem vrdlane (g : Guard) (ty : Fmt) (sd : SReg) (va : VReg) (vb : Src) : Statement (.vrdlane g ty sd va vb) := tellsLength_packW _
theorem vwrlane (g : Guard) (eph : Bool) (ty : Fmt) (vd : VReg) (sa : SReg) (vb : Src) : Statement (.vwrlane g eph ty vd sa vb) := tellsLength_packW _
theorem vreduce (g : Guard) (la : BitVec 4) (rnd : Rnd) (ty : Fmt) (op : RedOp) (vd va : VReg) : Statement (.vreduce g la rnd ty op vd va) := tellsLength_wUnary _ _ _ _ _ _ _ _ _ _
theorem vscan (g : Guard) (la : BitVec 4) (rnd : Rnd) (ty : Fmt) (op : RedOp) (vd va : VReg) : Statement (.vscan g la rnd ty op vd va) := tellsLength_wUnary _ _ _ _ _ _ _ _ _ _
theorem vmatch (g : Guard) (la : BitVec 4) (ty : Fmt) (vd va vb : VReg) : Statement (.vmatch g la ty vd va vb) := tellsLength_wUnary _ _ _ _ _ _ _ _ _ _
theorem vcompact (g : Guard) (eph : Bool) (vd va : VReg) : Statement (.vcompact g eph vd va) := tellsLength_wUnary _ _ _ _ _ _ _ _ _ _
theorem tsort (g : Guard) (la : BitVec 4) (ty : Fmt) (desc : Bool) (k : BitVec 4) (vd va : VReg) : Statement (.tsort g la ty desc k vd va) := tellsLength_wUnary _ _ _ _ _ _ _ _ _ _
theorem assertu (g : Guard) (ty : Fmt) (va : VReg) : Statement (.assertu g ty va) := tellsLength_wUnary _ _ _ _ _ _ _ _ _ _
theorem vld (g : Guard) (la : BitVec 4) (acq : Bool) (sc : Scope) (ty : Fmt) (vd : VReg) (base : MBase) (off : Src) : Statement (.vld g la acq sc ty vd base off) := tellsLength_packW _
theorem vst (g : Guard) (la : BitVec 4) (rel : Bool) (sc : Scope) (ty : Fmt) (vd : VReg) (base : MBase) (off : Src) : Statement (.vst g la rel sc ty vd base off) := tellsLength_packW _
theorem vlds (g : Guard) (la : BitVec 4) (acq : Bool) (sc : Scope) (ty : Fmt) (vd : VReg) (base : MBase) (off : Src) : Statement (.vlds g la acq sc ty vd base off) := tellsLength_packW _
theorem vsts (g : Guard) (la : BitVec 4) (rel : Bool) (sc : Scope) (ty : Fmt) (vd : VReg) (base : MBase) (off : Src) : Statement (.vsts g la rel sc ty vd base off) := tellsLength_packW _
theorem vldt (g : Guard) (la : BitVec 4) (acq : Bool) (sc : Scope) (view : Fmt) (vd : VReg) (base : MBase) (off : Src) : Statement (.vldt g la acq sc view vd base off) := tellsLength_packW _
theorem vatom (g : Guard) (la : BitVec 4) (ord : MemOrd) (sc : Scope) (op : Aop) (ty : AType) (vd : VReg) (base : MBase) (off : Src) : Statement (.vatom g la ord sc op ty vd base off) := tellsLength_packW _
theorem vcas (g : Guard) (la : BitVec 4) (ord : MemOrd) (sc : Scope) (vd : VReg) (base : MBase) (off : Src) : Statement (.vcas g la ord sc vd base off) := tellsLength_packW _
theorem vpref (g : Guard) (level : BitVec 2) (base : MBase) (off : Src) : Statement (.vpref g level base off) := tellsLength_packW _
theorem tcfg (t : BitVec 3) (v : Src) : Statement (.tcfg t v) := tellsLength_packW _
theorem tld (la : BitVec 4) (sat : Bool) (rnd : Rnd) (m : MReg) (card : SReg) : Statement (.tld la sat rnd m card) := tellsLength_wEng _ _ _ _ _ _ _ _
theorem tst (la : BitVec 4) (sat : Bool) (rnd : Rnd) (t : BitVec 3) (card : SReg) : Statement (.tst la sat rnd t card) := tellsLength_wEng _ _ _ _ _ _ _ _
theorem tldr (la : BitVec 4) (pk : Bool) (t : BitVec 3) (ring : BitVec 3) : Statement (.tldr la pk t ring) := tellsLength_wEngCtl _ _ _ _ _ _ _ _
theorem tmov (la : BitVec 4) (op : TMovOp) : Statement (.tmov la op) :=
  match op with
  | .tt _ _ => tellsLength_wEngCtl _ _ _ _ _ _ _ _
  | .vt .. => tellsLength_wEng _ _ _ _ _ _ _ _
  | .tv .. => tellsLength_wEng _ _ _ _ _ _ _ _
theorem tzero (la : BitVec 4) (m : MReg) : Statement (.tzero la m) := tellsLength_wEngCtl _ _ _ _ _ _ _ _
theorem tmma (la : BitVec 4) (m : Metric) (acc : Bool) (a b : BitVec 3) (card : SReg) : Statement (.tmma la m acc a b card) := tellsLength_wEng _ _ _ _ _ _ _ _
theorem tdrain (la : BitVec 4) (sat : Bool) (rnd : Rnd) (clr : Bool) (acc : Bool) (dest : DrainDest) (card : SReg) : Statement (.tdrain la sat rnd clr acc dest card) :=
  match dest with
  | .mem _ => tellsLength_wEng _ _ _ _ _ _ _ _
  | .tile _ => tellsLength_wEng _ _ _ _ _ _ _ _
  | .vec .. => tellsLength_wEng _ _ _ _ _ _ _ _
theorem tbest (la : BitVec 4) (sat : Bool) (rnd : Rnd) (acc tie two max clr : Bool) (dist : Option Fmt) (vd : VReg) (par : SReg) : Statement (.tbest la sat rnd acc tie two max clr dist vd par) := tellsLength_wEng _ _ _ _ _ _ _ _
theorem tcupd (la : BitVec 4) (acc : Bool) (t : BitVec 3) (vi : VReg) : Statement (.tcupd la acc t vi) := tellsLength_wEngCtl _ _ _ _ _ _ _ _
theorem tcfin (la : BitVec 4) (sat : Bool) (rnd : Rnd) (t : BitVec 3) (acc clr : Bool) : Statement (.tcfin la sat rnd t acc clr) := tellsLength_wEngCtl _ _ _ _ _ _ _ _
theorem twait (la : BitVec 4) : Statement (.twait la) := tellsLength_wEngCtl _ _ _ _ _ _ _ _
theorem cpy (la : BitVec 4) (sat : Bool) (rnd : Rnd) (card : SReg) : Statement (.cpy la sat rnd card) := tellsLength_wEng _ _ _ _ _ _ _ _
theorem coll (la : BitVec 4) (sat : Bool) (rnd : Rnd) (card : SReg) : Statement (.coll la sat rnd card) := tellsLength_wEng _ _ _ _ _ _ _ _
theorem tagwait (all : Bool) (m : SReg) : Statement (.tagwait all m) := tellsLength_wEng _ _ _ _ _ _ _ _
theorem tagff (done : Bool) (d m : SReg) : Statement (.tagff done d m) := tellsLength_wEng _ _ _ _ _ _ _ _
theorem tagclr (m : SReg) : Statement (.tagclr m) := tellsLength_wEng _ _ _ _ _ _ _ _
theorem rinit (ring : BitVec 3) (b g : SReg) : Statement (.rinit ring b g) := tellsLength_wEng _ _ _ _ _ _ _ _
theorem racq (d : SReg) (ring : BitVec 3) : Statement (.racq d ring) := tellsLength_wEngCtl _ _ _ _ _ _ _ _
theorem rcommit (ring : BitVec 3) (m : SReg) : Statement (.rcommit ring m) := tellsLength_wEng _ _ _ _ _ _ _ _
theorem rwait (d : SReg) (ring : BitVec 3) : Statement (.rwait d ring) := tellsLength_wEngCtl _ _ _ _ _ _ _ _
theorem rrel (ring : BitVec 3) : Statement (.rrel ring) := tellsLength_wEngCtl _ _ _ _ _ _ _ _
theorem rsub (out sat : Bool) (rnd : Rnd) (ring : BitVec 3) (t g : SReg) : Statement (.rsub out sat rnd ring t g) := tellsLength_wEng _ _ _ _ _ _ _ _
theorem runsub (ring : BitVec 3) (g : SReg) : Statement (.runsub ring g) := tellsLength_wEng _ _ _ _ _ _ _ _
theorem qcfg (st : Bool) (q : BitVec 4) (b g : SReg) : Statement (.qcfg st q b g) := tellsLength_wEng _ _ _ _ _ _ _ _
theorem schrd (la : BitVec 4) (d : SReg) (k : BitVec 4) : Statement (.schrd la d k) := tellsLength_wEngCtl _ _ _ _ _ _ _ _
theorem schwr (la : BitVec 4) (a : SReg) (k : BitVec 4) : Statement (.schwr la a k) := tellsLength_wEngCtl _ _ _ _ _ _ _ _
theorem nexttile (la : BitVec 4) (d : SReg) : Statement (.nexttile la d) := tellsLength_wEngCtl _ _ _ _ _ _ _ _
theorem atomdone (la : BitVec 4) (d a : SReg) : Statement (.atomdone la d a) := tellsLength_wEngCtl _ _ _ _ _ _ _ _
theorem spawn (la : BitVec 4) (a : SReg) : Statement (.spawn la a) := tellsLength_wEngCtl _ _ _ _ _ _ _ _
theorem join : Statement .join := tellsLength_wEngCtl _ _ _ _ _ _ _ _
theorem longLatencyComplete (team group idx : Nat) : Statement (.longLatencyComplete team group idx) := tellsLength_nil
theorem breakpointStop (bp : Nat) : Statement (.breakpointStop bp) := tellsLength_nil
theorem debugHaltStop (team group : Nat) : Statement (.debugHaltStop team group) := tellsLength_nil
theorem governorWindow (die budget : Nat) : Statement (.governorWindow die budget) := tellsLength_nil
theorem jobAccept (job : Nat) : Statement (.jobAccept job) := tellsLength_nil
theorem jobStart (job : Nat) : Statement (.jobStart job) := tellsLength_nil
theorem jobComplete (job : Nat) : Statement (.jobComplete job) := tellsLength_nil
theorem jobFail (team : Nat) : Statement (.jobFail team) := tellsLength_nil
theorem expanderWatchdog (job : Nat) : Statement (.expanderWatchdog job) := tellsLength_nil
theorem commitPush (team ring : Nat) : Statement (.commitPush team ring) := tellsLength_nil
theorem stagerPush (team ring : Nat) : Statement (.stagerPush team ring) := tellsLength_nil
theorem stagerSlotWriteback (team ring : Nat) : Statement (.stagerSlotWriteback team ring) := tellsLength_nil
theorem runsubComplete (team ring : Nat) : Statement (.runsubComplete team ring) := tellsLength_nil
theorem queueStreamFill (core q : Nat) : Statement (.queueStreamFill core q) := tellsLength_nil
theorem queueStreamWrite (core q : Nat) : Statement (.queueStreamWrite core q) := tellsLength_nil
theorem launchDoorbell (q : Nat) (t : DWord) : Statement (.launchDoorbell q t) := tellsLength_nil
theorem lqstatStopClear (q : Nat) : Statement (.lqstatStopClear q) := tellsLength_nil
theorem lqstatRead (q : Nat) : Statement (.lqstatRead q) := tellsLength_nil
theorem recordRead (q : Nat) : Statement (.recordRead q) := tellsLength_nil
theorem recordAdmit (q : Nat) : Statement (.recordAdmit q) := tellsLength_nil
theorem teamToGallery (die : Nat) : Statement (.teamToGallery die) := tellsLength_nil
theorem teamPlace (core : Nat) : Statement (.teamPlace core) := tellsLength_nil
theorem taskSteal (core : Nat) : Statement (.taskSteal core) := tellsLength_nil
theorem teamEnd (team : Nat) : Statement (.teamEnd team) := tellsLength_nil
theorem gridComplete (grid : Nat) : Statement (.gridComplete grid) := tellsLength_nil
theorem gridFail (grid : Nat) : Statement (.gridFail grid) := tellsLength_nil
theorem loaderLoad (asid : Nat) : Statement (.loaderLoad asid) := tellsLength_nil
theorem loadComplete : Statement .loadComplete := tellsLength_nil
theorem loaderUnload (asid : Nat) : Statement (.loaderUnload asid) := tellsLength_nil
theorem waitProbeSend (sort : WaiterSort) (n : Nat) (place : Nat × Nat) : Statement (.waitProbeSend sort n place) := tellsLength_nil
theorem waitProbeArrive (idx : Nat) : Statement (.waitProbeArrive idx) := tellsLength_nil
theorem pageResponse (va : DWord) (asid : Nat) (success : Bool) : Statement (.pageResponse va asid success) := tellsLength_nil
theorem hostPageResponse (va : DWord) (asid : Nat) (success : Bool) : Statement (.hostPageResponse va asid success) := tellsLength_nil
theorem migrationCountDecay : Statement .migrationCountDecay := tellsLength_nil
theorem invalidateRange (asid : Nat) : Statement (.invalidateRange asid) := tellsLength_nil
theorem invalidateAsid (asid : Nat) : Statement (.invalidateAsid asid) := tellsLength_nil
theorem invalidateAll : Statement .invalidateAll := tellsLength_nil
theorem atsInvalidation (va : DWord) (len : Nat) (asid : Nat) : Statement (.atsInvalidation va len asid) := tellsLength_nil
theorem invalidationComplete : Statement .invalidationComplete := tellsLength_nil
theorem preemptGo (asid : Nat) (deadline : BitVec 32) : Statement (.preemptGo asid deadline) := tellsLength_nil
theorem preemptSwitch (asid : Nat) (deadline : BitVec 32) : Statement (.preemptSwitch asid deadline) := tellsLength_nil
theorem preemptResume (asid : Nat) : Statement (.preemptResume asid) := tellsLength_nil
theorem preemptDeadline (team : Nat) : Statement (.preemptDeadline team) := tellsLength_nil
theorem teamSave (team : Nat) : Statement (.teamSave team) := tellsLength_nil
theorem teamFlush (team : Nat) : Statement (.teamFlush team) := tellsLength_nil
theorem teamRestore (team core : Nat) : Statement (.teamRestore team core) := tellsLength_nil
theorem dieFailure (die : Nat) : Statement (.dieFailure die) := tellsLength_nil
theorem linkModulesLost (die n : Nat) : Statement (.linkModulesLost die n) := tellsLength_nil
theorem ualinkPortLost (port pkg : Nat) : Statement (.ualinkPortLost port pkg) := tellsLength_nil
theorem errorCorrectable (source : Nat) : Statement (.errorCorrectable source) := tellsLength_nil
theorem errorUncorrectable (site : ErrSite) : Statement (.errorUncorrectable site) := tellsLength_nil
theorem rds (die : Nat) : Statement (.rds die) := tellsLength_nil
theorem rdx (die : Nat) : Statement (.rdx die) := tellsLength_nil
theorem upg (die : Nat) : Statement (.upg die) := tellsLength_nil
theorem wb (die : Nat) : Statement (.wb die) := tellsLength_nil
theorem wt (die : Nat) : Statement (.wt die) := tellsLength_nil
theorem ack (die : Nat) : Statement (.ack die) := tellsLength_nil
theorem fdata (die : Nat) : Statement (.fdata die) := tellsLength_nil
theorem writtenBack (die : Nat) : Statement (.writtenBack die) := tellsLength_nil
theorem data (die : Nat) : Statement (.data die) := tellsLength_nil
theorem grant (die : Nat) : Statement (.grant die) := tellsLength_nil
theorem inv (die : Nat) : Statement (.inv die) := tellsLength_nil
theorem upd (die : Nat) : Statement (.upd die) := tellsLength_nil
theorem fwds (die : Nat) : Statement (.fwds die) := tellsLength_nil
theorem fwdx (die : Nat) : Statement (.fwdx die) := tellsLength_nil
theorem wback (die : Nat) : Statement (.wback die) := tellsLength_nil
theorem wtack (die : Nat) : Statement (.wtack die) := tellsLength_nil
theorem homeQueueServe (line : Nat) : Statement (.homeQueueServe line) := tellsLength_nil
theorem homeFillData (line : Nat) : Statement (.homeFillData line) := tellsLength_nil
theorem homeTransientRecord (line : Nat) : Statement (.homeTransientRecord line) := tellsLength_nil
theorem persistentRequest (core line : Nat) (write : Bool) : Statement (.persistentRequest core line write) := tellsLength_nil
theorem hostBar2Read (off n : Nat) : Statement (.hostBar2Read off n) := tellsLength_nil
theorem hostBar2Write (off : Nat) (bytes : List Byte) (ep : Bool) : Statement (.hostBar2Write off bytes ep) := tellsLength_nil
theorem ualinkRemoteAccess (r : RemoteReq) : Statement (.ualinkRemoteAccess r) := tellsLength_nil
theorem registerWrite (off : Nat) (v : DWord) : Statement (.registerWrite off v) := tellsLength_nil
theorem setTrapbase : Statement .setTrapbase := tellsLength_nil
theorem dbgSet : Statement .dbgSet := tellsLength_nil
theorem dbgResume : Statement .dbgResume := tellsLength_nil
theorem dbgRead : Statement .dbgRead := tellsLength_nil
theorem dbgWrite : Statement .dbgWrite := tellsLength_nil
theorem acctRead : Statement .acctRead := tellsLength_nil
theorem acctClear : Statement .acctClear := tellsLength_nil
theorem bbRead : Statement .bbRead := tellsLength_nil
theorem mrExtend : Statement .mrExtend := tellsLength_nil
theorem mrRead : Statement .mrRead := tellsLength_nil
theorem timeSet : Statement .timeSet := tellsLength_nil
theorem windowLengthChange : Statement .windowLengthChange := tellsLength_nil
theorem tsyncChange (ok : Bool) : Statement (.tsyncChange ok) := tellsLength_nil
theorem getVersion (i3c : Bool) : Statement (.getVersion i3c) := tellsLength_nil
theorem getCapabilities (i3c : Bool) : Statement (.getCapabilities i3c) := tellsLength_nil
theorem negotiateAlgorithms (i3c : Bool) : Statement (.negotiateAlgorithms i3c) := tellsLength_nil
theorem getDigests (i3c : Bool) : Statement (.getDigests i3c) := tellsLength_nil
theorem getCertificate (i3c : Bool) (slot : Nat) : Statement (.getCertificate i3c slot) := tellsLength_nil
theorem challenge (i3c : Bool) (slot : Nat) : Statement (.challenge i3c slot) := tellsLength_nil
theorem getMeasurements (i3c : Bool) (block : Nat) (signed : Bool) : Statement (.getMeasurements i3c block signed) := tellsLength_nil
theorem coldReset : Statement .coldReset := tellsLength_nil
theorem warmReset : Statement .warmReset := tellsLength_nil
theorem toardReady (verified : Bool) : Statement (.toardReady verified) := tellsLength_nil
theorem atriumReady (verified : Bool) : Statement (.atriumReady verified) := tellsLength_nil
theorem stackReady (stack : Nat) : Statement (.stackReady stack) := tellsLength_nil
theorem stackWaitTimeout : Statement .stackWaitTimeout := tellsLength_nil
theorem dieReady (die : Nat) (images : DieImages) : Statement (.dieReady die images) := tellsLength_nil
theorem dieReadyTimeout (die : Nat) : Statement (.dieReadyTimeout die) := tellsLength_nil
theorem ualinkPortTrained (port : Nat) : Statement (.ualinkPortTrained port) := tellsLength_nil
theorem tokenRequest (core line : Nat) (write : Bool) : Statement (.tokenRequest core line write) := tellsLength_nil
theorem atsTranslation (va : DWord) (asid : Nat) (answer : Option Nat) : Statement (.atsTranslation va asid answer) := tellsLength_nil
theorem stackFailure (stack : Nat) : Statement (.stackFailure stack) := tellsLength_nil

end FirstWord

end Sys2Proof.Laws
end

