-- ==== Sys2Proof/Laws/Settle.lean ====
section
/-! SUPPORT. What ending groups and completing barriers (R211, R215) leave as it was, and what the completion of an outstanding
instruction does to its team. -/

namespace Sys2Proof.Machine

open Sys2Proof Sys2Proof.Claims

/-- `b` is `a` but for its strands, its end and the windows of its outstanding instructions. -/
def Group.Same (a b : Group) : Prop :=
  ∃ st e pd db, b = { a with strands := st, ended := e, pending := pd, dbg := db } ∧ pd.map (·.id) = a.pending.map (·.id)

theorem Group.Same.refl (g : Group) : g.Same g := ⟨g.strands, g.ended, g.pending, g.dbg, rfl, rfl⟩

theorem Group.Same.trans {a b c : Group} (x : a.Same b) (y : b.Same c) : a.Same c := by
  obtain ⟨s, e, p, d, rfl, h⟩ := x
  obtain ⟨s', e', p', d', rfl, h'⟩ := y
  exact ⟨s', e', p', d', rfl, h'.trans h⟩

theorem Group.Same.shorten {a b : Group} (x : a.Same b) (sid : Nat) : a.Same (b.shorten sid) :=
  x.trans ⟨b.strands, b.ended, (b.shorten sid).pending, (b.shorten sid).dbg, rfl, shorten_ids b sid⟩

theorem Group.Same.modStrand {a b : Group} (x : a.Same b) (sid : Nat) (f : Strand → Strand) : a.Same (b.modStrand sid f) :=
  x.trans ⟨_, b.ended, b.pending, b.dbg, rfl, rfl⟩

theorem Group.same_passBar (g : Group) (b phase : Nat) : g.Same (g.passBar b phase) := by
  unfold Group.passBar
  generalize g.strands = xs
  have : ∀ (xs : List Strand) (k : Group), g.Same k → g.Same (xs.foldl (fun g x =>
      if x.arrived = some (b, phase) ∧ x.hold = some (.barrier b) then
        (g.shorten x.sid).modStrand x.sid fun y => { y.retired 1 [] with arrived := none }
      else g) k) := by
    intro xs
    induction xs with
    | nil => exact fun k h => h
    | cons x xs ih =>
      intro k h
      rw [List.foldl_cons]
      refine ih _ ?_
      split
      · exact (h.shorten x.sid).modStrand _ _
      · exact h
  exact this xs g (.refl g)

theorem Group.same_nextPhase (g : Group) (b phase : Nat) : g.Same (g.nextPhase b phase) := ⟨_, g.ended, g.pending, g.dbg, rfl, rfl⟩

/-- `b` is `a` but for its locks, its barriers and what `Group.Same` allows of its groups. -/
def Team.Same (a b : Team) : Prop :=
  ∃ (f : Group → Group) (lk : SMap Nat) (br : SMap Barrier), b = { a with groups := a.groups.map f, locks := lk, bars := br } ∧
    ∀ g : Group, g.Same (f g)

theorem Team.Same.refl (t : Team) : t.Same t := ⟨id, t.locks, t.bars, by simp, fun g => .refl g⟩

theorem Team.Same.trans {a b c : Team} (x : a.Same b) (y : b.Same c) : a.Same c := by
  obtain ⟨f, l, r, rfl, h⟩ := x
  obtain ⟨f', l', r', rfl, h'⟩ := y
  exact ⟨f' ∘ f, l', r', by simp, fun g => (h g).trans (h' (f g))⟩

theorem Team.Same.group? {a b : Team} (x : a.Same b) {n : Nat} {g : Group} (e : a.group? n = some g) :
    ∃ g', b.group? n = some g' ∧ g.Same g' := by
  obtain ⟨f, l, r, rfl, h⟩ := x
  refine ⟨f g, ?_, h g⟩
  unfold Team.group? at e ⊢
  show List.find? _ (a.groups.map f) = _
  rw [List.find?_map]
  have : ((fun g => g.num == n) ∘ f) = fun g : Group => g.num == n := by
    funext g
    obtain ⟨s, e, p, d, q, -⟩ := h g
    show ((f g).num == n) = _
    rw [q]
  rw [this, e]; rfl

theorem Team.same_unlock (t : Team) (g : Group) : t.Same (t.unlock g) := by
  unfold Team.unlock
  simp only
  split
  · exact .refl t
  · split
    · exact ⟨id, _, t.bars, by rw [List.map_id], fun g => .refl g⟩
    · exact ⟨id, _, t.bars, by rw [List.map_id], fun g => .refl g⟩

theorem Team.same_fillBar (t : Team) (b : Nat) (r : Barrier) : t.Same (t.fillBar b r) := by
  unfold Team.fillBar
  simp only
  split
  · refine ⟨fun g => if r.groups.contains g.num then g else g.nextPhase b r.phase, t.locks, _, rfl, fun g => ?_⟩
    dsimp only
    split
    · exact .refl g
    · exact Group.same_nextPhase _ _ _
  · exact ⟨id, t.locks, _, by rw [List.map_id], fun g => .refl g⟩

theorem Team.same_countBar (t : Team) (b n : Nat) : t.Same (t.countBar b n) := by
  unfold Team.countBar
  split
  · split <;> exact Team.same_fillBar _ _ _
  · exact .refl t

theorem Group.same_passes (b : Nat) (fs : List (Nat × List Nat)) (a g : Group) (h : a.Same g) :
    a.Same (fs.foldl (fun g f => if f.2.contains g.num then g.passBar b f.1 else g) g) := by
  induction fs generalizing g with
  | nil => exact h
  | cons f fs ih =>
    rw [List.foldl_cons]
    refine ih _ ?_
    split
    · exact h.trans (Group.same_passBar _ _ _)
    · exact h

theorem Team.same_passBars (t : Team) (b : Nat) : t.Same (t.passBars b) := by
  unfold Team.passBars
  split
  · exact .refl t
  · exact ⟨_, t.locks, _, rfl, fun g => Group.same_passes b _ g g (.refl g)⟩

theorem Team.same_foldl {α : Type} (f : Team → α → Team) (h : ∀ (t : Team) x, t.Same (f t x)) (xs : List α) (t : Team) : t.Same (xs.foldl f t) := by
  induction xs generalizing t with
  | nil => exact .refl t
  | cons x xs ih => exact (h t x).trans (ih _)

theorem Team.same_evalBar (t : Team) (b : Nat) : t.Same (t.evalBar b) :=
  (Team.same_foldl _ (fun t (g : Group) => Team.same_countBar t b g.num) _ _).trans (Team.same_passBars _ _)

/-- Ending groups and completing barriers keeps all else of a team. -/
theorem Team.same_settle (t : Team) : t.Same t.settle := by
  unfold Team.settle
  refine Team.Same.trans (Team.same_foldl (fun t (g : Group) => (t.modGroup g.num fun g => { g with ended := true }).unlock g)
    (fun t g => ?_) _ _) (Team.same_foldl _ Team.same_evalBar _ _)
  refine Team.Same.trans ⟨fun x => if x.num = g.num then { x with ended := true } else x, t.locks, t.bars, rfl, fun x => ?_⟩ (Team.same_unlock _ _)
  dsimp only
  split
  · exact ⟨x.strands, true, x.pending, x.dbg, rfl, rfl⟩
  · exact .refl x

/-- A changed team is found under its number, if the change keeps it. -/
theorem State.team?_modTeam {s : State} {u : Nat} {t : Team} (e : s.team? u = some t) (f : Team → Team)
    (hf : ∀ t, (f t).info.uid = t.info.uid) : (s.modTeam u f).team? u = some (f t) := by
  unfold State.team? State.modTeam at *
  simp only
  rw [List.find?_map]
  have : ((fun t : Team => t.info.uid == u) ∘ fun x => if x.info.uid = u then f x else x) = fun t : Team => t.info.uid == u := by
    funext t
    simp only [Function.comp]
    split
    · rw [hf]
    · rfl
  rw [this, e]
  have := List.find?_some e
  simp only [beq_iff_eq] at this
  simp [this]

/-- Another team is as before. -/
theorem State.team?_modTeam_ne {s : State} {u v : Nat} (h : v ≠ u) (f : Team → Team) (hf : ∀ t, (f t).info.uid = t.info.uid) :
    (s.modTeam u f).team? v = s.team? v := by
  unfold State.team? State.modTeam
  simp only
  rw [List.find?_map]
  have : ((fun t : Team => t.info.uid == v) ∘ fun x => if x.info.uid = u then f x else x) = fun t : Team => t.info.uid == v := by
    funext t
    simp only [Function.comp]
    split
    · rw [hf]
    · rfl
  rw [this]
  cases e : List.find? (fun t : Team => t.info.uid == v) s.teams with
  | none => rfl
  | some t =>
    have := List.find?_some e
    simp only [beq_iff_eq] at this
    have : t.info.uid ≠ u := by rw [this]; exact h
    simp [this]

/-! ## Completion of an outstanding instruction -/

/-- The writes of registers do not depend on a team's groups. -/
theorem writeReg_groups (t : Team) (gs : List Group) (g : Group) (qs : SMap QueueReg) (m : Mask) (w : Nat × Lanes) :
    writeReg { t with groups := gs } g qs m w = ({ (writeReg t g qs m w).1 with groups := gs }, (writeReg t g qs m w).2) := by
  unfold writeReg
  split
  · rfl
  · unfold Team.putRowMasked regRow regB
    split <;> rfl

theorem writeRegs_groups (t : Team) (gs : List Group) (g : Group) (qs : SMap QueueReg) (m : Mask) (ws : List (Nat × Lanes)) :
    writeRegs { t with groups := gs } g qs m ws = ({ (writeRegs t g qs m ws).1 with groups := gs }, (writeRegs t g qs m ws).2) := by
  unfold writeRegs
  induction ws generalizing t qs with
  | nil => rfl
  | cons w ws ih => rw [List.foldl_cons, writeReg_groups, List.foldl_cons]; exact ih _ _

theorem readSAs_zero (g : Group) (x : Nat) : g.readSAs x 0 = 0 := by
  unfold Group.readSAs
  split
  · rw [if_neg (fun h => absurd h.2 (by decide))]; rfl
  · rfl

/-- What delivering flags and a scalar does to a group. -/
theorem Group.given_is (g : Group) (p : Pending) (fl : Nat → Flags) (sc : Option (SReg × DWord)) :
    (g.given p fl sc).num = g.num ∧ (g.given p fl sc).kind = g.kind ∧ (g.given p fl sc).pending = g.pending ∧
    (g.given p fl sc).preds = g.preds ∧
    (∀ l, l < 64 → (g.given p fl sc).flagsOf l = if laneBit p.mask l then g.flagsOf l ||| fl l else g.flagsOf l) ∧
    (∀ r, (g.given p fl sc).readSAs p.sid r = match sc with
      | some (d, v) => if r = d ∧ d ≠ 0 then v else g.readSAs p.sid r
      | none => g.readSAs p.sid r) := by
  cases sc with
  | none => exact ⟨rfl, rfl, rfl, rfl, fun l hl => Group.flagsOf_raise g p.mask fl hl, fun r => rfl⟩
  | some q =>
    obtain ⟨d, v⟩ := q
    obtain ⟨a1, -, a3, -, -, -, -, a8, a9, -, -, -, b1, -⟩ := writeSAs_rest (g.raise p.mask fl) p.sid d v
    refine ⟨a1, a9, b1, a8, fun l hl => ?_, fun r => ?_⟩
    · rw [← Group.flagsOf_raise g p.mask fl hl]
      show ((g.raise p.mask fl).writeSAs p.sid d v).flagsOf l = _
      unfold Group.flagsOf
      rw [a3]
    · show ((g.raise p.mask fl).writeSAs p.sid d v).readSAs p.sid r = _
      simp only
      split
      · rename_i h; obtain ⟨rfl, h⟩ := h; exact Group.readSAs_writeSAs_self _ _ _ h
      · rename_i h
        by_cases hr : r = d
        · subst hr
          have : r = 0 := by by_cases q : r = 0; exact q; exact absurd ⟨rfl, q⟩ h
          subst this
          exact (readSAs_zero _ _).trans (readSAs_zero _ _).symm
        · exact (Group.readSAs_writeSAs_ne _ _ _ _ hr).trans rfl

/-- THE COMPLETION OF AN OUTSTANDING INSTRUCTION whose results are delivered, in a state `s1` with the same teams and queues. -/
theorem finishes_deliver {s s1 : State} {T G idx : Nat} {t0 : Team} {g0 : Group} {p : Pending} {ws : List (Nat × Lanes)}
    {fl : Nat → Flags} {sc : Option (SReg × DWord)} {P : State → Prop} (o : Outstanding s T G idx t0 g0 p)
    (hp : s.perform ⟨t0, g0, g0.strandFor p.sid⟩ p = .done (s1.deliver T G p ws fl sc)) (et : s1.teams = s.teams)
    (eq : s1.queues = s.queues) (hP : ∀ t : State, t = { s1 with teams := t.teams, queues := t.queues } → P t) :
    Finishes s T G idx t0 g0 p ws fl sc P := by
  obtain ⟨e1, e2, e3, e4⟩ := o
  have ho : s.owner T G p = some ⟨t0, g0, g0.strandFor p.sid⟩ := by simp [State.owner, e1, e2]
  have ho1 : s1.owner T G p = some ⟨t0, g0, g0.strandFor p.sid⟩ := by
    rw [← ho]; unfold State.owner State.team?; rw [et]
  have hu := State.team?_uid e1
  have hg := Team.group?_num e2
  obtain ⟨gn, gk, gp, gq, gf, gs⟩ := Group.given_is g0 p fl sc
  generalize hg2 : g0.given p fl sc = g2 at *
  have hd : s1.deliver T G p ws fl sc = { s1 with queues := (writeRegs t0 g0 s.queues p.mask ws).2 }.putTeam
      { (writeRegs t0 g0 s.queues p.mask ws).1 with groups := (t0.putGroup g2).groups } := by
    unfold State.deliver
    rw [ho1]
    simp only [hg2]
    rw [writeRegs_group s1.queues p.mask ws gn gk, eq]
    rw [show t0.putGroup g2 = { t0 with groups := (t0.putGroup g2).groups } from rfl, writeRegs_groups]
  obtain ⟨r, b, hw⟩ := writeRegs_team t0 g0 s.queues p.mask ws
  -- the state after
  have hx : exec (.longLatencyComplete T G idx) s = .next ((s1.deliver T G p ws fl sc).dropPending T G p.id) := by
    show execLongLatencyComplete T G idx s = _
    unfold execLongLatencyComplete
    simp only [e1, Option.bind_some, e2, e3, ho, e4, hp]
    rfl
  generalize hW : (writeRegs t0 g0 s.queues p.mask ws) = W at *
  generalize hT : ({ W.1 with groups := (t0.putGroup g2).groups } : Team) = T1 at *
  have u1 : T1.info.uid = T := by rw [← hT, hw]; exact hu
  have f1 : (s1.deliver T G p ws fl sc).team? T = some T1 := by
    rw [hd]
    have e1' : ({ s1 with queues := W.2 } : State).team? T = some t0 := by rw [← e1]; unfold State.team?; exact congrArg _ et
    rw [← u1]
    exact State.team?_putTeam (t0 := t0) (by rw [u1]; exact e1') rfl
  have fg : T1.group? G = some g2 := by
    rw [← hT]
    show (t0.putGroup g2).group? G = some g2
    exact Team.group?_putGroup e2 (gn.trans hg)
  let fd : Team → Team := fun t => t.modGroup G fun g => { g with pending := g.pending.filter fun q => q.id != p.id }
  have f2 := State.team?_modTeam f1 fd (fun _ => rfl)
  have sn : ∀ t : Team, t.settle.info.uid = t.info.uid := fun t => by
    obtain ⟨f, l, b, h, -⟩ := Team.same_settle t
    rw [h]
  have f3 := State.team?_modTeam f2 Team.settle sn
  have hgd : (fd T1).group? G = some { g2 with pending := g2.pending.filter fun q => q.id != p.id } := by
    have n2 := Team.group?_num fg
    unfold Team.group? at fg ⊢
    show List.find? _ (T1.groups.map _) = _
    rw [List.find?_map]
    have : ((fun g : Group => g.num == G) ∘ fun g => if g.num = G then { g with pending := g.pending.filter fun q => q.id != p.id } else g) =
        fun g : Group => g.num == G := by
      funext g; simp only [Function.comp]; split <;> rfl
    rw [this, fg]
    simp [n2]
  obtain ⟨g3, hg3, same⟩ := Team.Same.group? (Team.same_settle (fd T1)) hgd
  obtain ⟨st, en, pd, db, rfl, hids⟩ := same
  obtain ⟨ff, lk, br, hset, -⟩ := Team.same_settle (fd T1)
  refine ⟨_, _, _, hx, f3, hg3, ?_, ?_, ?_, ?_, fun l hl => ?_, fun r => ?_, ?_, fun u hu' => ?_, ?_⟩
  · show pd.map (·.id) = _
    rw [hids]
    show (g2.pending.filter _).map _ = _
    rw [gp, List.filter_map]
    rfl
  · rw [hset]; show T1.rows = _; rw [← hT, hW]
  · rw [hset]; show T1.rowPoison = _; rw [← hT, hW]
  · show (s1.deliver T G p ws fl sc).queues = _
    rw [hd, hW]; rfl
  · exact gf l hl
  · exact gs r
  · exact gq
  · have : (s1.deliver T G p ws fl sc).team? u = s.team? u := by
      rw [hd]
      have : s.team? u = ({ s1 with queues := W.2 } : State).team? u := by unfold State.team?; exact congrArg _ et.symm
      rw [this]
      exact State.team?_putTeam_ne (by rw [u1]; exact hu')
    rw [← this]
    show (((s1.deliver T G p ws fl sc).modTeam T fd).modTeam T Team.settle).team? u = _
    rw [State.team?_modTeam_ne hu' _ sn, State.team?_modTeam_ne hu' fd (fun _ => rfl)]
  · refine hP _ ?_
    rw [hd]
    rfl

end Sys2Proof.Machine
end

