-- ==== Sys2Proof/Laws/Stores.lean ====
section
/-! SUPPORT. What stores to UNCACHED device memory of the package leave. -/

namespace Sys2Proof.Machine

open Sys2Proof

/-- A store to UNCACHED memory of the package itself. -/
def Plain (w : Store) : Prop :=
  match w.1 with
  | .glob x => x.host = false ∧ x.bar0 = none ∧ remotePkg x.pa = none ∧ x.mt = 2
  | .store _ _ => False

theorem foldl_still {α β : Type} (f : α → β → α) (P : β → Prop) (h : ∀ a b, P b → f a b = a) (xs : List β) (hx : ∀ b ∈ xs, P b) (a : α) :
    xs.foldl f a = a := by
  induction xs generalizing a with
  | nil => rfl
  | cons b bs ih => rw [List.foldl_cons, h a b (hx b (by simp)), ih fun c hc => hx c (by simp [hc])]

theorem globCells_none {f : Xlat → Bool} {ws : List Store} (h : ∀ w ∈ ws, Plain w) (hf : ∀ x : Xlat, x.mt = 2 → f x = false) :
    globCells f ws = [] := by
  refine List.flatMap_eq_nil_iff.mpr fun w hw => ?_
  have := h w hw
  unfold Plain at this
  split <;> simp_all

theorem storeCells_none {u : Nat} {ws : List Store} (h : ∀ w ∈ ws, Plain w) : storeCells u ws = [] := by
  refine List.flatMap_eq_nil_iff.mpr fun w hw => ?_
  have := h w hw
  unfold Plain at this
  split <;> simp_all

theorem barCells_none {ws : List Store} (h : ∀ w ∈ ws, Plain w) : barCells ws = [] := by
  refine List.flatMap_eq_nil_iff.mpr fun w hw => ?_
  have := h w hw
  unfold Plain at this
  split <;> simp_all

theorem barRuns_none : ∀ {ws : List Store}, (∀ w ∈ ws, Plain w) → barRuns ws = []
  | [], _ => rfl
  | w :: rest, h => by
    rw [barRuns, barCells_none (ws := [w]) (by simpa using h w (by simp)), barRuns_none fun v hv => h v (by simp [hv])]
    rfl

theorem storePlaces_near {ws : List Store} (h : ∀ w ∈ ws, Plain w) : ∀ x ∈ storePlaces ws, x.host = false ∧ remotePkg x.pa = none := by
  intro x hx
  obtain ⟨w, hw, e⟩ := List.mem_filterMap.mp hx
  have := h w hw
  unfold Plain at this
  split at this
  · next e1 => rw [e1] at e; simp only [this.2.1, Option.isNone_none, if_true, Option.some.injEq] at e; subst e; exact ⟨this.1, this.2.2.1⟩
  · exact this.elim

theorem countHosts_near (s : State) (a : Agent) : ∀ (xs : List Xlat) (seen : List Nat), (∀ x ∈ xs, x.host = false) → s.countHosts a xs seen = s
  | [], _, _ => rfl
  | x :: xs, seen, h => by
    rw [State.countHosts, if_neg (by simp [State.fromHost, h x (by simp)]), countHosts_near s a xs seen fun y hy => h y (by simp [hy])]

theorem noteStores_near (s : State) (a : Agent) {ws : List Store} (h : ∀ w ∈ ws, Plain w) : s.noteStores a ws = s :=
  foldl_still _ (fun x : Xlat => x.host = false ∧ remotePkg x.pa = none) (fun s x hx => by simp [hx.1, hx.2]) _ (storePlaces_near h) s

/-- Stores to UNCACHED memory of the package change memory, and what of it is poisoned, and nothing else. -/
theorem storeAll_plain (s : State) (a : Agent) (ws : List Store) (h : ∀ w ∈ ws, Plain w) :
    ∃ m p, s.storeAll a ws = { s with mem := m, poison := p } := by
  unfold State.storeAll
  generalize hk : ws.filter _ = ks
  have hks : ∀ w ∈ ks, Plain w := fun w hw => h w (List.mem_filter.mp (hk ▸ hw)).1
  have h1 : globCells (fun x => x.bar0.isNone && x.mt == 1) ks = [] := globCells_none hks fun x e => by simp [e]
  have h0 : globCells (fun x => x.bar0.isNone && x.mt == 0) ks = [] := globCells_none hks fun x e => by simp [e]
  have hh : globCells (fun x => x.bar0.isNone && x.mt != 1 && x.host) ks = [] := by
    refine List.flatMap_eq_nil_iff.mpr fun w hw => ?_
    have := hks w hw
    unfold Plain at this
    split <;> simp_all
  have ht : (s.teams.map fun t => let cs := storeCells t.info.uid ks; if cs.isEmpty then t else t.putBytes cs) = s.teams := by
    simp [storeCells_none hks]
  simp only [h1, ht, linesOf, List.map_nil, sortNats, List.foldl_nil, barRuns_none hks,
    countHosts_near _ a _ _ fun x hx => (storePlaces_near hks x hx).1, noteStores_near _ a hks, State.homeStores, hh, h0]
  split
  · exact ⟨s.mem, s.poison, rfl⟩
  · exact ⟨_, _, rfl⟩

/-- A machine write whose places are UNCACHED memory of the package changes memory, and what of it is poisoned, and nothing else. -/
theorem machineWrite_plain (s : State) (a : Agent) (va : Nat) (bs : List Byte) {xs : List (Xlat × Nat)} {s1 : State}
    (e : s.machinePlaces a.asid .write (lineRuns va bs.length) = (some xs, s1))
    (h : ∀ x ∈ xs, x.1.host = false ∧ x.1.bar0 = none ∧ remotePkg x.1.pa = none ∧ x.1.mt = 2) :
    ∃ m p, s.machineWrite a va bs = some { s1 with mem := m, poison := p } := by
  have hc : ∀ (xs : List (Xlat × Nat)) bs, (∀ x ∈ xs, x.1.host = false ∧ x.1.bar0 = none ∧ remotePkg x.1.pa = none ∧ x.1.mt = 2) →
      ∀ w ∈ cutBytes xs bs, Plain w := by
    intro xs
    induction xs with
    | nil => simp [cutBytes]
    | cons x xs ih =>
      intro bs hx w hw
      rw [cutBytes, List.mem_cons] at hw
      rcases hw with rfl | hw
      · exact hx x (by simp)
      · exact ih _ (fun y hy => hx y (by simp [hy])) w hw
  obtain ⟨m, p, em⟩ := storeAll_plain s1 a (cutBytes xs bs) (hc xs bs h)
  have hl : ∀ x ∈ xs, s1.lost x.1 = false := fun x hx => by simp [State.lost, (h x hx).2.2.1]
  exact ⟨m, p, by simpa [State.machineWrite, e, em] using fun x n hx => hl (x, n) hx⟩

end Sys2Proof.Machine
end

