-- ==== Sys2Proof/Tests/Slice0.lean ====
section
/-! SUPPORT. Tests: ill-formed terms that each check of the encodings refuses, the words of the spec's listings, and single steps whose
results are worked out by hand from the spec. -/

namespace Sys2Proof.Tests

set_option Elab.async false

open Sys2Proof Sys2Proof.Machine

/-! ## Every check refuses a term or a word -/

/-- No guard: `(p0)` in every lane (R165). -/
def all : Guard := ⟨false, 0⟩

theorem test_field_waitcnt : (Instr.waitcnt 33).finding = some .field ∧ (Instr.waitcnt 32).finding = none := by decide
theorem test_field_call : (Instr.call 0 1).finding = some .field ∧ (Instr.call 1 1).finding = none := by decide
theorem test_field_nexttile : (Instr.nexttile 0 60).finding = some .field ∧ (Instr.nexttile 0 59).finding = none := by decide
theorem test_field_atomdone : (Instr.atomdone 0 1 61).finding = some .field ∧ (Instr.atomdone 0 1 60).finding = none := by decide
theorem test_field_level : (Instr.vpref all 3 (.sreg 1) (.vec 0)).finding = some .field := by decide
theorem test_kind_literal : (Instr.vlmul all false .lns16 4 5 (.lit 1)).finding = some .kind := by decide
theorem test_kind_tcfg : (Instr.tcfg 1 (.vec 4)).finding = some .kind := by decide
theorem test_rounding_reduce : (Instr.vreduce all 0 .rst .f32 .add 4 5).finding = some .rounding := by decide
theorem test_rounding_best : (Instr.tbest 0 true .dyn false false false false false none 4 5).finding = some .rounding := by decide
theorem test_type_float : (Instr.vadd all false false .f32 4 5 (.vec 6)).finding = some .type := by decide
theorem test_type_pack : (Instr.vpack all false false .rne .f32 .i16x2 4 5).finding = some .type := by decide
theorem test_eph_queue : (Instr.vmov all true .b32 1536 (.vec 5)).finding = some .eph := by decide
theorem test_special_readonly : (Instr.swrite .coreid 5).finding = some .specialReg ∧ (Instr.swrite .flags 5).finding = none := by decide
theorem test_register_lane : (Instr.vmov all false .b32 1552 (.vec 5)).finding = some .regNumber := by decide
theorem test_register_read : (Instr.vmov all false .b32 4 (.vec 1555)).finding = some .regNumber := by decide
theorem test_odd_pair : (Instr.vadd all false false .i64 5 6 (.vec 8)).finding = some .oddReg := by decide
theorem test_odd_scas : (Instr.scas 0 true .acq .package 11 4).finding = some .oddReg := by decide

/-- The finding that refuses words. -/
def found (ws : List Word) : Option Finding := match decodeWords ws with
  | .ok _ => none
  | .error f => some f

theorem test_length_code : found [0x00000003] = some .lengthCode := by decide
theorem test_opcode_unlisted : found [0x000000A0] = some .opcode := by decide
theorem test_field_not_zero : found [0x10000404] = some .field := by decide
theorem test_kind_11 : found [0x00801001, 0x00061005] = some .kind := by decide
theorem test_rounding_111 : found [0x01002101, 0x07004005] = some .rounding := by decide
theorem test_type_unlisted : found [0x00801001, 0x0000B805] = some .type := by decide
theorem test_eph_without_destination : found [0x00800C3D, 0x20801005] = some .eph := by decide
theorem test_truncated : found [0x00801001] = some .truncated := by decide
theorem test_special_unlisted : found [0x000D0580] = some .specialReg := by decide

/-! ## The words of the spec's listings (Tables 11-10, 13-8, 15-7, 17-11, 18-12, 20-7 and 22-7) -/

/-- The words are those of the instruction, and nothing is left. -/
def reads (ws : List Word) (i : Instr) : Prop := (decodeWords ws).toOption = some (i, [])

/-- `(p2)` -/
def p2 : Guard := ⟨false, 2⟩

theorem test_decode_sadd : reads [0x01C61404] (.sadd 5 6 7) := by unfold reads; decide
theorem test_decode_vadd : reads [0x00801001, 0x00001005] (.vadd all false false .i32 4 4 (.vec 5)) := by unfold reads; decide
theorem test_decode_vfadd_literal : reads [0x01002102, 0x01044000, 0x3FC00000] (.vfadd all false false .rne .f32 8 8 (.lit 0x3FC00000)) := by
  unfold reads; decide
theorem test_decode_smovi : reads [0x00002878] (.smovi 10 0) := by unfold reads; decide
theorem test_decode_scas : reads [0x0D8428D4] (.scas 0 true .acq .package 10 4) := by unfold reads; decide
theorem test_decode_scmp : reads [0x100A3054] (.scmp .ne 12 10 0) := by unfold reads; decide
theorem test_decode_pfroms : reads [0x000C0494] (.pfroms 1 12) := by unfold reads; decide
theorem test_decode_brp : reads [0xFFFA0504] (.brp .any false 1 (-6)) := by unfold reads; decide
theorem test_decode_sst : reads [0x0E8400C4] (.sst 0 .eight true .package 0 4) := by unfold reads; decide
theorem test_decode_sld : reads [0x2D8424C0] (.sld 2 .eight true .package 9 4) := by unfold reads; decide
theorem test_decode_vcmp : reads [0x00800C3D, 0x20001005] (.vcmp all .lt .i32 3 4 (.vec 5)) := by unfold reads; decide
theorem test_decode_vcvt : reads [0x0060313D, 0x06004009] (.vcvt all false false .rst .f32 .bf16 12 3) := by unfold reads; decide
theorem test_decode_vmatch : reads [0x02807A19, 0x00004014] (.vmatch all 0 .f32 30 20 20) := by unfold reads; decide
theorem test_decode_tsort : reads [0x02808221, 0x00004001] (.tsort all 0 .f32 false 1 32 20) := by unfold reads; decide
theorem test_decode_vld : reads [0x0100A281, 0x36023009] (.vld all 3 true .package .b32 40 (.pair 8) (.sreg 9)) := by unfold reads; decide
theorem test_decode_vatom : reads [0x80401A95, 0x0900600A] (.vatom all 0 .rel .die .add .f32 6 (.sreg 2) (.vec 10)) := by
  unfold reads; decide
theorem test_decode_tcfg : reads [0x00000B02, 0x00040000, 0x00024FC7] (.tcfg 2 (.lit 0x24FC7)) := by unfold reads; decide
theorem test_decode_tmma : reads [0x02200319, 0x20021006] (.tmma 2 .l2sq false 1 2 6) := by unfold reads; decide
theorem test_decode_tdrain_tile : reads [0x20200F1D, 0x01020007] (.tdrain 0 false .rne false true (.tile 3) 7) := by unfold reads; decide
theorem test_decode_tdrain_vector : reads [0x4000531D, 0x01027009] (.tdrain 0 false .rne false false (.vec 20 0 .lns16) 9) := by
  unfold reads; decide
theorem test_decode_tdrain_memory : reads [0x0000031D, 0x0102100C] (.tdrain 0 false .rne false false (.mem .i32) 12) := by
  unfold reads; decide
theorem test_decode_tbest : reads [0x0180A321, 0x10024008] (.tbest 1 false .dyn false false true false false (some .f32) 40 8) := by
  unfold reads; decide
theorem test_decode_tcupd : reads [0x00600725, 0x00000029] (.tcupd 0 true 3 41) := by unfold reads; decide
theorem test_decode_cpy : reads [0x00000381, 0x00020005] (.cpy 0 false .dyn 5) := by unfold reads; decide
theorem test_decode_tagwait : reads [0x00000389, 0x00020809] (.tagwait true 9) := by unfold reads; decide
theorem test_decode_rinit : reads [0x00800395, 0x00020005] (.rinit 0 4 5) := by unfold reads; decide
theorem test_decode_rwait : reads [0x000033A1, 0x00000000] (.rwait 12 0) := by unfold reads; decide
theorem test_decode_tldr : reads [0x0000070D, 0x00000000] (.tldr 0 false 1 0) := by unfold reads; decide
theorem test_decode_schwr : reads [0x02C003B9, 0x00000006] (.schwr 0 22 6) := by unfold reads; decide
theorem test_decode_nexttile : reads [0x000053BD, 0x30000000] (.nexttile 3 20) := by unfold reads; decide
theorem test_decode_atomdone : reads [0x02807FC1, 0x00000000] (.atomdone 0 31 20) := by unfold reads; decide
theorem test_decode_vldt : reads [0x81806291, 0x00107019] (.vldt p2 0 false .cluster .lns16 24 (.sreg 12) (.vec 25)) := by unfold reads; decide
theorem test_decode_vlmul : reads [0x03007551, 0x00107016] (.vlmul p2 false .lns16 29 24 (.vec 22)) := by unfold reads; decide
theorem test_decode_cwb : reads [0x03CA08D8] (.cwb 0 .package 10 15) := by unfold reads; decide
theorem test_decode_fence : reads [0x000C0188] (.fence .rel .package) := by unfold reads; decide
theorem test_decode_brk : reads [0x00070194] (.brk 7) := by unfold reads; decide
theorem test_decode_vfadd_packed : reads [0x00801101, 0x0100A805] (.vfadd all false false .rne .bf16x2 4 4 (.vec 5)) := by unfold reads; decide

end Sys2Proof.Tests
end

