-- ==== Sys2Proof/Tests/Worlds.lean ====
section
/-! SUPPORT. Small states in which the hypotheses of the statements are met. -/

namespace Sys2Proof.Tests

set_option Elab.async false

open Sys2Proof Sys2Proof.Machine Sys2Proof.Claims

/-- One VECTOR, one MATRIX and one COPY group, with extended registers, a row of stack and 4 KiB of scratchpad. -/
def hdr : Header := { fetchHeader with vx := 1, mn := 1, mb := 1, mx := 1, cn := 1, cb := 1, scratch := 4 }

/-- Their team on core 0, team number 0 of grid 0. -/
def crew : Team := Team.start ⟨1, 0, 0, hdr, 0, 0, 0, 0, none, 0, 0, 0⟩ 0 0 0 0 [0, 1, 2]

/-- A leaf that may be read, written and executed, over the low 128 MiB. -/
def leaf : TlbEntry := ⟨0, 0, 2 ^ 27, 0x10D, none⟩

/-- An UNCACHED leaf over the trap frames. -/
def frames : TlbEntry := ⟨0, 0x100000, 0x100000, 0x10012D, none⟩

/-- A package in which the team runs, everything is ready, and the strand of group `g` is executed for. -/
def world (g : Nat) : State :=
  { State.reset with
    teams := [crew]
    grids := [{ fetchGrid 0 with header := hdr }]
    segs := [⟨0, fetchAt, 64, [0, 4], [], [1], true⟩]
    ctxs := [(0, { Ctx.reset with root := 1, trapBase := 0x8004, frame := 0x100000, got := 0x40000 })]
    tlb := [frames, leaf]
    manage := { Manage.reset with ready := 0x7FFFFFFF, memSize := 2 ^ 36, mapFormed := true }
    cur := some ⟨1, g, 0⟩
    uid := 2 }

/-- A world whose strand, group and team have been changed. -/
def tweak (s : State) (f : Here → Here) : State :=
  match s.here with
  | some h => s.putHere (f h)
  | none => s

/-- The scalar registers `s1`, `s2` and `s3` of a strand hold three values. -/
def with3 (a b c : DWord) (s : State) : State := tweak s fun h => ((h.writeS 1 a).writeS 2 b).writeS 3 c

/-- The team of a strand, changed. -/
def inTeam (f : Team → Team) (s : State) : State := tweak s fun h => { h with team := f h.team }

/-- The group of a strand, changed. -/
def inGroup (f : Group → Group) (s : State) : State := tweak s fun h => { h with group := f h.group }

/-- A strand, changed. -/
def inStrand (f : Strand → Strand) (s : State) : State := tweak s fun h => { h with strand := f h.strand }

/-- A strand is executed for, of which `P` holds. -/
def At (s : State) (P : Here → Prop) : Prop := ∃ h, s.here = some h ∧ P h

/-- Some strand is executed for, and `P` holds of it. -/
theorem here_of {s : State} {P : Here → Prop} [DecidablePred P] (h : s.here.any (fun x => decide (P x)) = true) :
    At s P := by
  cases e : s.here with
  | none => simp [e] at h
  | some x => exact ⟨x, e, by simpa [e] using h⟩

/-- The contents of the strand executed for. -/
def me (s : State) : Here := s.here.getD ⟨crew, Group.start crew.info 0 0 0, ⟨0, 0, 0, 0, [], [], [], none, [], 0, none, none, none⟩⟩

/-- A value is there, and `P` holds of it. -/
theorem some_of {α : Type} {o : Option α} {P : α → Prop} [DecidablePred P] (h : o.any (fun x => decide (P x)) = true) :
    ∃ x, o = some x ∧ P x := by
  cases o with
  | none => simp at h
  | some x => exact ⟨x, rfl, by simpa using h⟩

/-- An instruction may issue as a short-latency one. -/
def readyFor (s : State) (h : Here) (m : Mask) (i : Instr) : Bool :=
  decide (s.here = some h) && (h.issueFault i).isNone && (s.pushStop h i.vwrites).isNone && (h.fetch m i.vreads s.queues).toOption.isSome

theorem ready_of {s : State} {h : Here} {m : Mask} {i : Instr} (e : readyFor s h m i = true) : ∃ vs qs, VecReady s h i m vs qs := by
  simp only [readyFor, Bool.and_eq_true, decide_eq_true_eq, Option.isNone_iff_eq_none] at e
  obtain ⟨⟨⟨e1, e2⟩, e3⟩, e4⟩ := e
  cases hf : h.fetch m i.vreads s.queues with
  | error x => simp [hf, Except.toOption] at e4
  | ok v => exact ⟨v.1, v.2, e1, e2, e3, hf⟩

theorem ready_all {s : State} {h : Here} {m : Mask} {is : List Instr} (e : is.all (readyFor s h m) = true) :
    ∀ i ∈ is, ∃ vs qs, VecReady s h i m vs qs := fun i hi => ready_of (List.all_eq_true.mp e i hi)

/-- An instruction may issue as a long-latency one. -/
def longFor (s : State) (h : Here) (m : Mask) (i : Instr) : Bool :=
  decide (s.here = some h) && (h.issueFault i).isNone && (s.ownQueues h i.vwrites).isNone &&
    (h.fetch m i.vreads s.queues).toOption.isSome && decide (h.group.outcnt < 32)

theorem long_of {s : State} {h : Here} {m : Mask} {i : Instr} (e : longFor s h m i = true) : ∃ vs qs, LongReady s h i m vs qs := by
  simp only [longFor, Bool.and_eq_true, decide_eq_true_eq, Option.isNone_iff_eq_none] at e
  obtain ⟨⟨⟨⟨e1, e2⟩, e3⟩, e4⟩, e5⟩ := e
  cases hf : h.fetch m i.vreads s.queues with
  | error x => simp [hf, Except.toOption] at e4
  | ok v => exact ⟨v.1, v.2, e1, e2, e3, hf, e5⟩

theorem long_all {s : State} {h : Here} {m : Mask} {is : List Instr} (e : is.all (longFor s h m) = true) :
    ∀ i ∈ is, ∃ vs qs, LongReady s h i m vs qs := fun i hi => long_of (List.all_eq_true.mp e i hi)

/-- An instruction is outstanding and may complete, and `P` holds of it. -/
def mayEnd (s : State) (T G idx : Nat) (P : Team → Group → Pending → Bool) : Bool :=
  match s.team? T with
  | none => false
  | some t => match t.group? G with
    | none => false
    | some g => match g.pending[idx]? with
      | none => false
      | some p => s.mayFinish ⟨t, g, g.strandFor p.sid⟩ p && P t g p

theorem end_of {s : State} {T G idx : Nat} {P : Team → Group → Pending → Bool} (e : mayEnd s T G idx P = true) :
    ∃ t g p, Outstanding s T G idx t g p ∧ P t g p = true := by
  unfold mayEnd at e
  split at e
  · simp at e
  · split at e
    · simp at e
    · split at e
      · simp at e
      · simp only [Bool.and_eq_true] at e
        exact ⟨_, _, _, ⟨‹_›, ‹_›, ‹_›, e.1⟩, e.2⟩

/-- The group of a strand with one outstanding instruction. -/
def pended (s : State) (f : Here → Pending) : State := tweak s fun h => { h with group := { h.group with pending := [f h] } }

/-- No die serves a persistent request. -/
theorem bars_none {s : State} (e : s.dies.all (fun x => x.served.isNone) = true) (c line : Nat) : s.slotBars c line = false := by
  have h : ∀ d, (s.die d).served = none := by
    intro d
    unfold State.die
    rw [List.getD_eq_getElem?_getD]
    cases hd : s.dies[d]? with
    | none => rfl
    | some x => simpa using List.all_eq_true.mp e x (List.mem_of_getElem? hd)
  simp [State.slotBars, h]

/-- What can be computed of `AtHome`, with no message under way at all. -/
def homely (s : State) (x : Xlat) (n : Nat) : Bool :=
  decide (x.host = false ∧ x.bar0 = none ∧ remotePkg x.pa = none ∧ x.mt ≠ 1 ∧ x.pa % 128 + n ≤ 128 ∧ s.poisoned (x.pa / 128) = false ∧
    (∀ c ∈ s.copies, c.line ≠ x.pa / 128) ∧ s.busyLines = []) && s.dies.all fun y => y.served.isNone

theorem home_of {s : State} {x : Xlat} {n : Nat} (e : homely s x n = true) : AtHome s (.glob x) x n := by
  simp only [homely, Bool.and_eq_true, decide_eq_true_eq] at e
  obtain ⟨⟨h1, h2, h3, h4, h5, h6, h7, h8⟩, h9⟩ := e
  exact ⟨rfl, h1, h2, h3, h4, h5, h6, h7, fun _ => ⟨by simp [h8], fun c => bars_none h9 c _⟩⟩

/-- What can be computed of `Reaches`, for global memory whose leaves name the addresses themselves. -/
def reachable (s : State) (t : Team) (write : Bool) (a : DWord) (n : Nat) : Bool :=
  s.live t.asid && decide (a.toNat + n ≤ 2 ^ 57) && (lineRuns a.toNat n).all fun r =>
    match s.tlb.find? (fun e => e.asid == t.asid && e.base ≤ r.1 && r.1 < e.base + e.size) with
    | some e => decide (a.toNat ≤ r.1) && homely s (e.place r.1) r.2 && decide ((e.place r.1).pa = r.1) && (!write || (e.leaf.getLsbD 2 &&
        s.segs.all fun q => !q.pages.contains (r.1 / 32768)))
    | none => false

theorem reaches_of {s : State} {t : Team} {g : Group} {write : Bool} {a : DWord} {n : Nat} (e : reachable s t write a n = true) :
    Reaches s t g write a n fun j => .mem (a.toNat + j) := by
  simp only [reachable, Bool.and_eq_true, decide_eq_true_eq, List.all_eq_true] at e
  obtain ⟨⟨h1, h2⟩, h3⟩ := e
  refine .inl ⟨h1, h2, fun r hr => ?_⟩
  have h := h3 r hr
  revert h
  cases hf : s.tlb.find? (fun e => e.asid == t.asid && e.base ≤ r.1 && r.1 < e.base + e.size) with
  | none => simp
  | some e =>
    intro h
    simp only [Bool.and_eq_true, Bool.or_eq_true, decide_eq_true_eq] at h
    obtain ⟨⟨⟨h4, h5⟩, h6⟩, h7⟩ := h
    refine ⟨e, rfl, home_of h5, fun hw => ?_, fun j _ => ?_⟩
    · obtain h7 | h7 := h7
      · simp [hw] at h7
      · refine ⟨h7.1, fun q hq => ?_⟩
        have := List.all_eq_true.mp h7.2 q hq
        rw [h6]
        simpa using this
    · show Spot.mem (a.toNat + (r.1 - a.toNat + j)) = Spot.mem ((e.place r.1).pa + j)
      rw [h6, ← Nat.add_assoc, Nat.add_sub_cancel' h4]

theorem readable_of {s : State} {t : Team} {a n : Nat} (h : a < 2 ^ 64) (e : reachable s t false (BitVec.ofNat 64 a) n = true) :
    Readable s t.asid a n fun j => s.mem.byte (a + j) := by
  have ha : (BitVec.ofNat 64 a).toNat = a := by simp; omega
  simp only [reachable, ha, Bool.and_eq_true, decide_eq_true_eq, List.all_eq_true] at e
  obtain ⟨⟨h1, h2⟩, h3⟩ := e
  refine ⟨h1, h2, fun r hr => ?_⟩
  have h := h3 r hr
  revert h
  cases hf : s.tlb.find? (fun e => e.asid == t.asid && e.base ≤ r.1 && r.1 < e.base + e.size) with
  | none => simp
  | some e =>
    intro h
    simp only [Bool.and_eq_true, decide_eq_true_eq] at h
    refine ⟨e, rfl, home_of h.1.1.2, fun j _ => ?_⟩
    show s.mem.byte (a + (r.1 - a + j)) = s.mem.byte ((e.place r.1).pa + j)
    rw [h.1.2, ← Nat.add_assoc, Nat.add_sub_cancel' h.1.1.1]

theorem writable_of {s : State} {t : Team} {a n : Nat} (h : a < 2 ^ 64) (e : reachable s t true (BitVec.ofNat 64 a) n = true) :
    Writable s t.asid a n fun j => a + j := by
  have ha : (BitVec.ofNat 64 a).toNat = a := by simp; omega
  simp only [reachable, ha, Bool.and_eq_true, decide_eq_true_eq, List.all_eq_true] at e
  obtain ⟨⟨h1, h2⟩, h3⟩ := e
  refine ⟨h1, h2, fun i j _ _ hij => Nat.add_left_cancel hij, fun r hr => ?_⟩
  have h := h3 r hr
  revert h
  cases hf : s.tlb.find? (fun e => e.asid == t.asid && e.base ≤ r.1 && r.1 < e.base + e.size) with
  | none => simp
  | some e =>
    intro h
    simp only [Bool.and_eq_true, Bool.or_eq_true, decide_eq_true_eq] at h
    obtain ⟨⟨⟨h4, h5⟩, h6⟩, h7⟩ := h
    obtain h7 | h7 := h7
    · simp at h7
    · refine ⟨e, rfl, home_of h5, h7.1, fun q hq => ?_, fun j _ => ?_⟩
      · have := List.all_eq_true.mp h7.2 q hq
        rw [h6]
        simpa using this
      · show a + (r.1 - a + j) = (e.place r.1).pa + j
        rw [h6, ← Nat.add_assoc, Nat.add_sub_cancel' h4]

/-- What can be computed of `Reached`, with no message under way at all. -/
def inReach (s : State) (x : Xlat) (n : Nat) : Bool :=
  decide (x.bar0 = none ∧ (∀ q ∈ remotePkg x.pa, x.host = false → q ∉ s.records.lostPackages) ∧ x.mt ≠ 1 ∧ placeOf x % 128 + n ≤ 128 ∧
    s.poisoned (placeOf x / 128) = false ∧ (∀ c ∈ s.copies, c.line ≠ placeOf x / 128) ∧ s.busyLines = [] ∧
    (x.host = true → s.prqRoom = false)) && s.dies.all fun y => y.served.isNone

theorem reach_of {s : State} {x : Xlat} {n : Nat} (e : inReach s x n = true) : Reached s (.glob x) x n := by
  simp only [inReach, Bool.and_eq_true, decide_eq_true_eq] at e
  obtain ⟨⟨h1, h2, h3, h4, h5, h6, h7, h8⟩, h9⟩ := e
  exact ⟨rfl, h1, fun q hx hq => h2 q hq hx, h3, h4, h5, h6, fun _ => ⟨by simp [h7], fun c => bars_none h9 c _⟩, fun hx => .inl (h8 hx)⟩

end Sys2Proof.Tests
end

