-- ==== Sys2Proof/Tests/Steps.lean ====
section
/-! SUPPORT. Single steps on small states; the expected results are worked out by hand from the rules named. -/

namespace Sys2Proof.Tests

set_option Elab.async false

open Sys2Proof Sys2Proof.Machine

/-- The state after an instruction. -/
def after (i : Instr) (s : State) : State := match exec i s with | .next t => t | _ => s

/-- A scalar register, a predicate and the pc after an instruction. -/
def sAfter (i : Instr) (s : State) (r : SReg) : DWord := (me (after i s)).readS r
def pAfter (i : Instr) (s : State) (p : PReg) : Mask := (me (after i s)).readP p
def pcAfter (i : Instr) (s : State) : DWord := (me (after i s)).strand.pc

/-- `s3` after an S instruction that reads `a` in `s1` and `b` in `s2`. -/
def s3 (i : Instr) (a b : DWord) : DWord := sAfter i (with3 a b 7 (world 2)) 3

/-! ## Scalars (R189 to R195) -/

theorem test_sadd_wraps : s3 (.sadd 3 1 2) 0xFFFFFFFFFFFFFFFF 2 = 1 := by decide +kernel
theorem test_ssub_order : s3 (.ssub 3 1 2) 5 7 = 0xFFFFFFFFFFFFFFFE := by decide +kernel
theorem test_smulh_signed : s3 (.smulh false 3 1 2) 0xFFFFFFFFFFFFFFFF 0xFFFFFFFFFFFFFFFF = 0 := by decide +kernel
theorem test_smulh_unsigned : s3 (.smulh true 3 1 2) 0xFFFFFFFFFFFFFFFF 0xFFFFFFFFFFFFFFFF = 0xFFFFFFFFFFFFFFFE := by decide +kernel
theorem test_sdiv_toward_zero : s3 (.sdiv false 3 1 2) 0xFFFFFFFFFFFFFFF9 2 = 0xFFFFFFFFFFFFFFFD := by decide +kernel
theorem test_sdiv_by_zero : s3 (.sdiv true 3 1 2) 5 0 = 0xFFFFFFFFFFFFFFFF := by decide +kernel
theorem test_sdiv_overflow : s3 (.sdiv false 3 1 2) 0x8000000000000000 0xFFFFFFFFFFFFFFFF = 0x8000000000000000 := by decide +kernel
theorem test_srem_sign : s3 (.srem false 3 1 2) 0xFFFFFFFFFFFFFFF9 2 = 0xFFFFFFFFFFFFFFFF := by decide +kernel
theorem test_sandn_order : s3 (.sandn 3 1 2) 0xF0 0x30 = 0xC0 := by decide +kernel
theorem test_sshl_amount : s3 (.sshl 3 1 2) 1 65 = 2 := by decide +kernel
theorem test_ssar_sign : s3 (.ssar 3 1 2) 0x8000000000000000 63 = 0xFFFFFFFFFFFFFFFF := by decide +kernel
theorem test_sclz_zero : s3 (.sclz 3 1) 0 0 = 64 := by decide +kernel
theorem test_sbfx_sign : s3 (.sbfx true 3 1 2) 0xF0 0x304 = 0xFFFFFFFFFFFFFFFF := by decide +kernel
theorem test_sbfx_cut : s3 (.sbfx false 3 1 2) 0x8000000000000000 0x3F3F = 1 := by decide +kernel
theorem test_sbfi_keeps : s3 (.sbfi 3 1 2) 0 0x101 = 1 := by decide +kernel
theorem test_slea : s3 (.slea 3 3 1 2) 0x100 5 = 0x128 := by decide +kernel
theorem test_scmp_signed : s3 (.scmp .lt 3 1 2) 0xFFFFFFFFFFFFFFFF 0 = 1 := by decide +kernel
theorem test_scmp_unsigned : s3 (.scmp .ltu 3 1 2) 0xFFFFFFFFFFFFFFFF 0 = 0 := by decide +kernel
theorem test_smin_signed : s3 (.smin false 3 1 2) 0xFFFFFFFFFFFFFFFF 0 = 0xFFFFFFFFFFFFFFFF := by decide +kernel
theorem test_saddi_negative : s3 (.saddi 3 1 0x3FF) 5 0 = 4 := by decide +kernel
theorem test_smovi_negative : s3 (.smovi 3 0x8000) 0 0 = 0xFFFFFFFFFFFF8000 := by decide +kernel
theorem test_smovhi : s3 (.smovhi 3 0x4567) 0 0 = 0x74567 := by decide +kernel
theorem test_s0_ignored : sAfter (.smovi 0 5) (world 2) 0 = 0 := by decide +kernel
theorem test_pfroms : pAfter (.pfroms 2 1) (with3 0xA5 0 0 (world 2)) 2 = 0xA5 := by decide +kernel
theorem test_p0_ignored : pAfter (.pfroms 0 1) (with3 0xA5 0 0 (world 2)) 0 = 0xFFFFFFFFFFFFFFFF := by decide +kernel

/-! ## Control and the system (R206, R210, R216) -/

theorem test_bra : pcAfter (.bra 1) (world 2) = 0x8004 := by decide +kernel
theorem test_bra_no_start : ((me (after (.bra 2) (world 2))).group.handler.map fun k => k.hpc) = some 0x8000 := by decide +kernel
theorem test_call_links : sAfter (.call 9 1) (world 2) 9 = 0x8004 := by decide +kernel
theorem test_trap_enters : pcAfter (.trap 9) (world 2) = 0x8004 ∧
    ((me (after (.trap 9) (world 2))).group.handler.map fun k => k.hpc) = some 0x8004 := by decide +kernel
theorem test_swrite_mode : ((me (after (.swrite .mode 1) (with3 3 0 0 (world 2)))).group.rm) = 3 := by decide +kernel

/-! ## Lanes (R222 to R253) -/

/-- Registers of every lane. -/
def setV (ws : List (Nat × (Nat → Word))) (s : State) : State :=
  tweak s fun h => { h with team := (writeRegs h.team h.group [] allLanes (ws.map fun w => (w.1, laneNumbers.map w.2))).1 }

/-- A register's lane of the present strand. -/
def vLane (s : State) (r l : Nat) : Word :=
  match (me s).fetch allLanes [r] s.queues with
  | .ok (v :: _, _) => v.getD l 0
  | _ => 0

/-- Lane 1 of `v4` after an instruction that reads `a` in `v2` and `b` in `v3`. -/
def v4 (i : Instr) (a b : Word) : Word := vLane (after i (setV [(2, fun _ => a), (3, fun _ => b), (4, fun _ => 7)] (world 2))) 4 1

/-- Lane 1's flags after it. -/
def fl (i : Instr) (a b : Word) : Flags := (me (after i (setV [(2, fun _ => a), (3, fun _ => b)] (world 2)))).group.flagsOf 1

abbrev un : Guard := ⟨false, 0⟩

theorem test_vadd_wraps : v4 (.vadd un false false .i32 4 2 (.vec 3)) 0x7FFFFFFF 1 = 0x80000000 := by decide +kernel
theorem test_vadd_saturates : v4 (.vadd un false true .i32 4 2 (.vec 3)) 0x7FFFFFFF 1 = 0x7FFFFFFF := by decide +kernel
theorem test_vadd_packed : v4 (.vadd un false false .i8x4 4 2 (.vec 3)) 0x7FFF0001 0x01010101 = 0x80000102 := by decide +kernel
theorem test_vmulh_signed : v4 (.vmulh un false false .i32 4 2 (.vec 3)) 0xFFFFFFFF 1 = 0xFFFFFFFF := by decide +kernel
theorem test_vmad_adds : v4 (.vmad un false false .i32 4 2 (.vec 3)) 3 5 = 22 := by decide +kernel
theorem test_vshl_amount : v4 (.vshl un false .b32 4 2 (.vec 3)) 1 33 = 2 := by decide +kernel
theorem test_vsar_sign : v4 (.vsar un false .i32 4 2 (.vec 3)) 0x80000000 31 = 0xFFFFFFFF := by decide +kernel
theorem test_vabsd : v4 (.vabsd un false false .i32 4 2 (.vec 3)) 0x7FFFFFFF 0x80000000 = 0xFFFFFFFF := by decide +kernel
theorem test_vabsd_saturates : v4 (.vabsd un false true .i32 4 2 (.vec 3)) 0x7FFFFFFF 0x80000000 = 0x7FFFFFFF := by decide +kernel
theorem test_vdot4 : v4 (.vdot4 un false .i8x4 4 2 (.vec 3)) 0xFF000002 0x03000005 = 14 := by decide +kernel
theorem test_guard_keeps : v4 (.vmov ⟨false, 1⟩ false .b32 4 (.lit 9)) 0 0 = 7 := by decide +kernel
theorem test_vmov_literal : v4 (.vmov un false .b32 4 (.lit 9)) 0 0 = 9 := by decide +kernel

-- 1.5 + 1.5 = 3; 1 + 2^-24 is halfway between 1 and its successor
theorem test_vfadd : v4 (.vfadd un false false .rne .f32 4 2 (.vec 3)) 0x3FC00000 0x3FC00000 = 0x40400000 := by decide +kernel
theorem test_vfadd_tie_even : v4 (.vfadd un false false .rne .f32 4 2 (.vec 3)) 0x3F800000 0x33800000 = 0x3F800000 := by decide +kernel
theorem test_vfadd_up : v4 (.vfadd un false false .rup .f32 4 2 (.vec 3)) 0x3F800000 0x33800000 = 0x3F800001 := by decide +kernel
theorem test_vfadd_inexact : fl (.vfadd un false false .rne .f32 4 2 (.vec 3)) 0x3F800000 0x33800000 = 1 := by decide +kernel
theorem test_vfsub_zero_down : v4 (.vfsub un false false .rdn .f32 4 2 (.vec 3)) 0x3F800000 0x3F800000 = 0x80000000 := by decide +kernel
theorem test_vfmul_invalid : fl (.vfmul un false false .rne .f32 4 2 (.vec 3)) 0x7F800000 0 = 0x10 := by decide +kernel
theorem test_vfmin_zeros : v4 (.vfmin un false false .rne .f32 4 2 (.vec 3)) 0 0x80000000 = 0x80000000 := by decide +kernel
theorem test_vfmax_nan : v4 (.vfmax un false false .rne .f32 4 2 (.vec 3)) 0x7FC00000 0x3F800000 = 0x3F800000 := by decide +kernel
theorem test_vfclass_subnormal : v4 (.vfclass un false .f32 4 2) 0x80000001 0 = 0x10 := by decide +kernel
theorem test_vfrnd_keeps_sign : v4 (.vfrnd un false .rne .f32 4 2) 0xBF000000 0 = 0x80000000 := by decide +kernel
theorem test_vcvt_tie_even : v4 (.vcvt un false false .rne .f32 .bf16 4 2) 0x3F808000 0 = 0x3F80 := by decide +kernel

-- lane l of v2 is l
theorem test_vbcast : vLane (after (.vbcast un false .b32 4 2 (.lit 5)) (setV [(2, fun l => BitVec.ofNat 32 l)] (world 2))) 4 1 = 5 := by decide +kernel
theorem test_vrdlane_beyond : sAfter (.vrdlane un .b32 3 2 (.lit 64)) (with3 0 0 9 (setV [(2, fun l => BitVec.ofNat 32 l)] (world 2))) 3 = 0 := by
  decide +kernel
theorem test_vcmp_lanes : pAfter (.vcmp un .lt .i32 2 2 (.lit 3)) (setV [(2, fun l => BitVec.ofNat 32 l)] (world 2)) 2 = 7 := by decide +kernel

/-- The state after an instruction has issued and completed at once. -/
def done (i : Instr) (s : State) : State := after (.longLatencyComplete 1 2 0) (after i s)

theorem test_vreduce : vLane (done (.vreduce un 0 .dyn .i32 .add 4 2) (setV [(2, fun l => BitVec.ofNat 32 l)] (world 2))) 4 1 = 2016 := by decide +kernel
theorem test_vscan : vLane (done (.vscan un 0 .dyn .i32 .add 4 2) (setV [(2, fun l => BitVec.ofNat 32 l)] (world 2))) 4 3 = 6 := by decide +kernel
theorem test_vfdiv : vLane (done (.vfdiv un 0 false .rne .f32 4 2 (.vec 3)) (setV [(2, fun _ => 0x3F800000), (3, fun _ => 0)] (world 2))) 4 1 = 0x7F800000 := by
  decide +kernel

/-! ## Memory (R196 to R199, R256) -/

/-- Eight bytes at 0x20000. -/
def bytes8 (s : State) : State := { s with mem := Memory.setAll [] (cellsAt 0x20000 (bytesOfNum 8 0x8877665544332211)) }

theorem test_sld_little_endian : (me (done (.sld 0 .two false .package 3 1) (bytes8 (with3 0x20002 0 0 (world 2))))).readS 3 = 0x4433 := by decide +kernel
theorem test_sst_bytes : (done (.sst 0 .two false .package 2 1) (bytes8 (with3 0x20002 0xABCD 0 (world 2)))).mem.byte 0x20003 = 0xAB ∧
    (done (.sst 0 .two false .package 2 1) (bytes8 (with3 0x20002 0xABCD 0 (world 2)))).mem.byte 0x20004 = 0x55 := by decide +kernel
theorem test_sld_misaligned : ((me (after (.sld 0 .two false .package 3 1) (with3 0x20001 0 0 (world 2)))).group.handler.map fun k => k.hpc) = some 0x8000 := by
  decide +kernel

end Sys2Proof.Tests
end

