-- ==== Sys2Proof/Tests/Witness1.lean ====
section
/-! SUPPORT. The hypotheses of the statements about scalar instructions, control transfer, waits and exceptions are met: one theorem for
each statement, with a state for each of its clauses. -/

namespace Sys2Proof.Tests

set_option Elab.async false

open Sys2Proof Sys2Proof.Machine Sys2Proof.Claims

/-- The strand of the VECTOR group. -/
abbrev here0 : State := world 2

theorem witness_Division :
    At (with3 7 0 0 here0) (fun h => h.readS 2 = 0) ∧
    At (with3 (2 ^ 63) (2 ^ 64 - 1) 0 here0) (fun h => (h.readS 1).toInt = -2 ^ 63 ∧ (h.readS 2).toInt = -1) ∧
    At (with3 7 2 0 here0) (fun h => h.readS 2 ≠ 0 ∧ ¬((h.readS 1).toInt = -2 ^ 63 ∧ (h.readS 2).toInt = -1)) :=
  ⟨here_of (by decide +kernel), here_of (by decide +kernel), here_of (by decide +kernel)⟩

theorem witness_IntegerResults : At here0 fun _ => True := here_of (by decide +kernel)

/-- A generic address that SPTEST takes for one. -/
def validAddr (n : Nat) : Prop :=
  let top := n / 2 ^ 60
  (top = 0x0 ∧ n < 2 ^ 57) ∨ (top = 0xA ∧ n % 2 ^ 60 < 2 ^ 24) ∨ (top = 0xB ∧ n % 2 ^ 60 / 2 ^ 47 = 0 ∧ n % 2 ^ 36 / 2 ^ 24 = 0) ∨
    (top = 0xC ∧ n % 2 ^ 60 / 2 ^ 43 = 0 ∧ n % 2 ^ 40 / 2 ^ 28 = 0)

/-- An address of the core 0 that the team runs on, or of its gallery. -/
def localAddr (n : Nat) : Prop :=
  (n / 2 ^ 60 = 0xB → n / 2 ^ 36 % 2048 = 0) ∧ (n / 2 ^ 60 = 0xC → n / 2 ^ 40 % 8 = 0)

theorem witness_AddressesAndTests :
    At (with3 0 0 0 here0) (fun h => h.team.aliases = [] ∧ (h.readS 2).getLsbD 0 = false) ∧
    At (with3 0 1 0 here0) (fun h => h.team.aliases = [] ∧ (h.readS 2).getLsbD 0 = true) ∧
    (∀ n ∈ [0, 2 ^ 57 - 1, 0xA * 2 ^ 60 + 2 ^ 24 - 1, 0xB * 2 ^ 60 + 2 ^ 24 - 1, 0xC * 2 ^ 60 + 2 ^ 28 - 1], validAddr n ∧ localAddr n) ∧
    (∀ n ∈ [0xB * 2 ^ 60 + 2 ^ 47 - 2 ^ 36, 0xC * 2 ^ 60 + 2 ^ 43 - 2 ^ 40], validAddr n ∧ ¬localAddr n) ∧
    (∀ n ∈ [2 ^ 57, 0xA * 2 ^ 60 + 2 ^ 24, 0xB * 2 ^ 60 + 2 ^ 47, 0xC * 2 ^ 60 + 2 ^ 28, 2 ^ 64 - 1], ¬validAddr n) ∧
    (0xC * 2 ^ 60 / 2 ^ 60 = Window.code .shared) ∧ Compares .eq 0 0 ∧ ¬Compares .ne 0 0 ∧
    (∃ l, l < 64 ∧ laneBit allLanes l = true) :=
  ⟨here_of (by decide +kernel), here_of (by decide +kernel), by simp only [validAddr, localAddr]; decide +kernel, by simp only [validAddr, localAddr]; decide +kernel,
    by simp only [validAddr]; decide +kernel, by decide +kernel, rfl, fun h => h rfl, 0, by decide +kernel, by decide⟩

theorem witness_Immediates : At here0 fun _ => True := here_of (by decide +kernel)

theorem witness_Predicates : At here0 fun _ => True := here_of (by decide +kernel)

/-- The strand with a predicate `p1` of lane 0 alone. -/
def half : State := tweak here0 fun h => h.writeP 1 1

/-- The top entry of the split stack. -/
def top : SplitEntry := ⟨0x8000, 5⟩

theorem witness_ControlTransfer :
    At here0 (fun h => here0.isStart h.team.asid (h.strand.pc + 4 * BitVec.ofInt 64 (1 : BitVec 16).toInt) = true ∧
      h.readP 0 &&& h.strand.exec ≠ 0 ∧ h.readP 0 &&& h.strand.exec = h.strand.exec ∧ ~~~h.readP 0 &&& h.strand.exec = 0 ∧
      here0.isStart h.team.asid (h.strand.pc + 4 * BitVec.ofInt 64 (2 : BitVec 16).toInt) = false) ∧
    At half (fun h => half.isStart h.team.asid (h.strand.pc + 4 * BitVec.ofInt 64 (1 : BitVec 16).toInt) = true ∧
      h.readP 1 &&& h.strand.exec ≠ 0 ∧ h.readP 1 &&& h.strand.exec ≠ h.strand.exec ∧ h.strand.stack = []) ∧
    At (with3 0x8004 0x8005 0 here0) (fun h => here0.isStart h.team.asid (h.readS 1) = true ∧ here0.isStart h.team.asid (h.readS 2) = false) ∧
    At (inStrand (fun x => { x with stack := List.replicate 16 top }) here0) (fun h => 16 ≤ h.strand.stack.length) :=
  ⟨here_of (by decide +kernel), here_of (by decide +kernel), here_of (by decide +kernel), here_of (by decide +kernel)⟩

/-- Another strand of the group. -/
def other (h : Here) (stack : List SplitEntry) : Strand := { h.strand with sid := 1, stack := stack, lanes := 2 }

theorem witness_DivergenceAndRejoin :
    At (tweak half fun h => { h with strand := { h.strand with stack := [top] } }) (fun h =>
      half.isStart h.team.asid (h.strand.pc + 4 * BitVec.ofInt 64 (1 : BitVec 16).toInt) = true ∧
      h.readP 1 &&& h.strand.exec ≠ 0 ∧ h.readP 1 &&& h.strand.exec ≠ h.strand.exec ∧ h.strand.stack.getLast? = some top ∧
      h.group.strands.length < 16) ∧
    At (tweak half fun h => { h with
        strand := { h.strand with stack := [top] }
        group := { h.group with strands := h.strand :: (List.range 15).map fun n => { h.strand with sid := n + 1 } } }) (fun h =>
      h.readP 1 &&& h.strand.exec ≠ 0 ∧ h.readP 1 &&& h.strand.exec ≠ h.strand.exec ∧ h.strand.stack.getLast? = some top ∧
      16 ≤ h.group.strands.length) ∧
    At (inStrand (fun x => { x with stack := List.replicate 15 top }) here0) (fun h => h.strand.stack.length < 16) ∧
    At here0 (fun h => h.strand.stack = [] ∧ h.group.handler = none ∧ h.group.ended = false) ∧
    At (inStrand (fun x => { x with stack := [⟨0x8004, 5⟩] }) here0) (fun h =>
      h.strand.stack.getLast? = some ⟨0x8004, 5⟩ ∧ (0x8004 : DWord) ≠ h.strand.pc) ∧
    At (tweak here0 fun h => { h with
        strand := { h.strand with stack := [top] }
        group := { h.group with strands := [h.strand, other h [top]] } }) (fun h =>
      h.strand.stack.getLast? = some top ∧ top.addr = h.strand.pc ∧ h.strand.parked = [] ∧
      ∃ x ∈ h.group.strands.filter (fun x => x.sid != h.strand.sid), x.carries top.id = true ∧ x.atRejoin top.id = false) ∧
    At (tweak here0 fun h => { h with
        strand := { h.strand with stack := [top] }
        group := { h.group with strands := [h.strand, other h []] } }) (fun h =>
      h.strand.stack.getLast? = some top ∧ top.addr = h.strand.pc ∧ h.strand.parked = [] ∧ here0.jobs = [] ∧ h.team.fails = [] ∧
      ∀ x ∈ h.group.strands.filter (fun x => x.sid != h.strand.sid), x.carries top.id = false) :=
  ⟨here_of (by decide +kernel), here_of (by decide +kernel), here_of (by decide +kernel), here_of (by decide +kernel), here_of (by decide +kernel), here_of (by decide +kernel),
    here_of (by decide +kernel)⟩

/-- The strand, which carries the entry, with another that has stopped at its REJOIN. -/
def meeting (stack : List SplitEntry) : State := tweak here0 fun h => { h with
  strand := { h.strand with stack := stack }
  group := { h.group with strands := [{ h.strand with stack := stack }, { other h [top] with hold := some (.rejoin top) }] } }

/-- The strand at its REJOIN, with lanes parked. -/
def parking (ps : List Parked) : State := inStrand (fun x => { x with stack := [top], parked := ps }) here0

/-- The strand as its group's handler strand. -/
def handling : State := inGroup (fun g => { g with handler := some ⟨0, List.replicate 8 0, 0x101, 0x8000, true, [], [], 0⟩ }) here0

theorem witness_DivergenceAndRejoin_meeting :
    At (meeting [top]) (fun h => h.strand.stack.getLast? = some top ∧ top.addr = h.strand.pc ∧ h.strand.parked = [] ∧
      (∃ x ∈ h.group.strands.filter (fun x => x.sid != h.strand.sid), x.carries top.id = true) ∧
      ∀ x ∈ h.group.strands.filter (fun x => x.sid != h.strand.sid), x.carries top.id = true → x.atRejoin top.id = true) ∧
    At (parking [⟨2, 2, 0x8004, top⟩]) (fun h => h.strand.stack.getLast? = some top ∧ top.addr = h.strand.pc ∧
      h.strand.parked = [] ++ [⟨2, 2, 0x8004, top⟩] ∧ (0x8004 : DWord) ≠ top.addr) ∧
    At (parking [⟨2, 2, 0x8000, top⟩]) (fun h => h.strand.stack.getLast? = some top ∧ top.addr = h.strand.pc ∧ h.strand.parked ≠ [] ∧
      (∀ q ∈ h.strand.parked, q.entry = top ∧ q.target = top.addr) ∧
      ∀ x ∈ h.group.strands.filter (fun x => x.sid != h.strand.sid), x.carries top.id = false) ∧
    At (meeting [top]) (fun h => h.team.bars = [] ∧ h.strand.stack = [top] ∧ h.group.handler = none ∧
      (∃ x ∈ h.group.strands.filter (fun x => x.sid != h.strand.sid), x.carries top.id = true) ∧
      ∀ x ∈ h.group.strands.filter (fun x => x.sid != h.strand.sid), x.carries top.id = true → x.atRejoin top.id = true) ∧
    At handling (fun h => h.team.bars = [] ∧ h.strand.stack = [] ∧ ∃ q ∈ h.group.handler, q.sid = h.strand.sid) :=
  ⟨here_of (by decide +kernel), here_of (by decide +kernel), here_of (by decide +kernel), here_of (by decide +kernel), here_of (by decide +kernel)⟩

theorem witness_SpecialRegisters :
    At here0 (fun h => h.inHandler = false ∧ (15 : BitVec 4).toNat < h.group.fmts.length ∧
      (h.group.fmts[(15 : BitVec 4).toNat]?).isSome = true ∧ (h.team.tiles[(7 : BitVec 3).toNat]?).isSome = true ∧
      (here0.dies[h.team.core / 128]?).isSome = true) ∧
    At handling (fun h => h.group.handler.isSome = true ∧ h.inHandler = true) :=
  ⟨here_of (by decide +kernel), here_of (by decide +kernel)⟩

/-- A load of the strand, outstanding. -/
def aLoad (h : Here) : Pending := h.pend 9 (.sld 0 .four false .cluster 4 1) 0 allLanes []

/-- A write of the extended register 16, outstanding. -/
def aWide (h : Here) : Pending := h.pend 9 (.vsqrt ⟨false, 0⟩ 0 false .rne .f32 16 0) 0 allLanes []

/-- The lock of the group's extended set is held by a group. -/
def locked (g : Nat) : State := inTeam (fun t => { t with locks := t.locks.insert (t.info.header.setOf 2) g }) here0

theorem witness_WaitsAndBarriers :
    At here0 (fun h => h.group.pending.length ≤ (0 : BitVec 6).toNat ∧ h.grp.memPending h.strand.sid = false ∧ here0.tsync = true ∧
      here0.records.remote.find? (fun p => p.1 == h.team.info.uid) = none ∧ regX h.team h.group ≠ 0 ∧
      h.team.locks.find (h.team.info.header.setOf h.group.num) = none) ∧
    At (tweak here0 fun h => { h with group := { h.group with pending := [aLoad h] } }) (fun h =>
      (0 : BitVec 6).toNat < h.group.pending.length ∧ h.grp.memPending h.strand.sid = true) ∧
    At { here0 with records := { here0.records with remote := [(1, 0, [8])], lostPackages := [8] } } (fun h =>
      h.grp.memPending h.strand.sid = false ∧ here0.tsync = true ∧
      ({ here0 with records := { here0.records with remote := [(1, 0, [8])], lostPackages := [8] } } : State).remoteLost h.team.info.uid = true) ∧
    At { here0 with manage := { here0.manage with ready := 0 } } (fun _ =>
      ({ here0 with manage := { here0.manage with ready := 0 } } : State).tsync = false) ∧
    At (world 1) (fun h => regX h.team h.group = 0) ∧
    At (locked 2) (fun h => regX h.team h.group ≠ 0 ∧ h.team.locks.find (h.team.info.header.setOf h.group.num) = some h.group.num ∧
      (∀ p ∈ h.group.pending, p.instr.vwrites.any (extended h.team h.group) = false) ∧
      ∀ g ∈ h.team.groups, g.num ≠ h.group.num → h.team.info.header.setOf g.num = h.team.info.header.setOf h.group.num →
        ∀ x ∈ g.strands, x.hold ≠ some .xlock) ∧
    At (tweak (locked 2) fun h => { h with group := { h.group with pending := [aWide h] } }) (fun h =>
      ∃ p ∈ h.group.pending, p.instr.vwrites.any (extended h.team h.group) = true) ∧
    At (locked 0) (fun h => h.team.locks.find (h.team.info.header.setOf h.group.num) = some 0 ∧ 0 ≠ h.group.num) ∧
    At (tweak here0 fun h => { h with team := { h.team with groups := [h.group] } }) (fun h => h.team.groups = [h.group] ∧
      h.group.strands = [h.strand] ∧ h.group.ended = false ∧ h.strand.arrived = none ∧ h.team.bars = [] ∧
      h.group.outstanding.any (fun p => Instr.isMem p.instr) = false) :=
  ⟨here_of (by decide +kernel), here_of (by decide +kernel), here_of (by decide +kernel), here_of (by decide +kernel), here_of (by decide +kernel), here_of (by decide +kernel),
    here_of (by decide +kernel), here_of (by decide +kernel), here_of (by decide +kernel)⟩

/-- A store of a word by the strand to the row that holds its group's first extended register, outstanding. -/
def aStore (h : Here) : Pending :=
  { h.pend 9 (.sst 0 .four false .cluster 4 1) 0 allLanes [] with
    locs := [(0, .store h.team.info.uid (256 * h.team.info.header.extAt (h.team.info.header.setOf h.group.num)))] }

/-- Two groups of one extended set, of which the second, in XLOCK, waits for the first's lock. -/
def partners : State := tweak (locked 2) fun h => { h with team := { h.team with
  info := { h.team.info with header := { h.team.info.header with vn := 2 } }
  groups := [h.group, { h.group with num := 3, strands := [{ h.strand with hold := some .xlock }] }] } }

/-- The team has written to the package 8, which covers it at `due`. -/
def covering (due : Nat) (next : Option (Nat × Nat)) : State :=
  { here0 with records := { here0.records with remote := [(1, due, [8])], nextWindow := next } }

/-- The strand has arrived at the barrier 5 and waits there. -/
def standing (x : Strand) : Strand := { x with arrived := some (5, 7), hold := some (.barrier 5) }

/-- Two groups, of which the other one waits at the barrier. -/
def twoGroups : State := tweak here0 fun h =>
  let a := { h.group with num := 1, strands := [standing h.strand] }
  { h with team := { h.team with groups := [a, h.group], bars := [(5, ⟨7, 2, [1], []⟩)] } }

/-- One group of two strands, of which the other one waits at the barrier. -/
def twoStrands : State := tweak here0 fun h =>
  let g := { h.group with strands := [standing { h.strand with sid := 1 }, h.strand] }
  { h with team := { h.team with groups := [g], bars := [(5, ⟨7, 1, [], []⟩)] }, group := g }

theorem witness_WaitsAndBarriers_meeting :
    At (tweak (locked 2) fun h => { h with group := { h.group with pending := [aStore h] } }) (fun h =>
      regX h.team h.group ≠ 0 ∧ h.team.locks.find (h.team.info.header.setOf h.group.num) = some h.group.num ∧
      ∃ p ∈ h.group.pending, Instr.isStore p.instr = true ∧
        (0, Loc.store h.team.info.uid (256 * h.team.info.header.extAt (h.team.info.header.setOf h.group.num))) ∈ p.locs) ∧
    At partners (fun h => regX h.team h.group ≠ 0 ∧ h.team.locks.find (h.team.info.header.setOf h.group.num) = some h.group.num ∧
      h.group.pending = [] ∧ ∃ w ∈ h.team.groups, w.num ≠ h.group.num ∧
        h.team.info.header.setOf w.num = h.team.info.header.setOf h.group.num ∧ (∃ x ∈ w.strands, x.hold = some .xlock) ∧
        ∀ g ∈ h.team.groups, h.team.info.header.setOf g.num = h.team.info.header.setOf h.group.num → g.num = h.group.num ∨ g.num = w.num) ∧
    At (covering 5000 none) (fun h => h.grp.memPending h.strand.sid = false ∧ (covering 5000 none).tsync = true ∧
      (covering 5000 none).remoteLost h.team.info.uid = false ∧
      (covering 5000 none).records.remote.find? (fun p => p.1 == h.team.info.uid) = some (h.team.info.uid, 5000, [8])) ∧
    (let s := covering (3 * 1000000000) (some (64, 2))
     At s (fun h => h.grp.memPending h.strand.sid = false ∧ s.tsync = true ∧ s.remoteLost h.team.info.uid = false ∧
      s.records.remote.find? (fun p => p.1 == h.team.info.uid) = some (h.team.info.uid, 3 * 1000000000, [8]) ∧
      2 * 1000000000 < 3 * 1000000000 ∧ 2 * 1000000000 + 2 * (64 * 500) < 2 ^ 64)) ∧
    At twoGroups (fun h => h.strand.arrived = none ∧ h.group.strands = [h.strand] ∧ h.group.ended = false ∧
      h.group.outstanding.any (fun p => Instr.isMem p.instr) = false ∧
      ∃ a ∈ h.team.groups, a.num ≠ h.group.num ∧ h.team.groups = [a, h.group] ∧ a.ended = false ∧
        a.outstanding.any (fun p => Instr.isMem p.instr) = false ∧ h.team.bars = [(5, ⟨7, 2, [a.num], []⟩)] ∧
        ∃ x ∈ a.strands, a.strands = [x] ∧ x.arrived = some (5, 7) ∧ x.hold = some (.barrier 5)) ∧
    At twoStrands (fun h => h.strand.arrived = none ∧ h.team.groups = [h.group] ∧ h.group.ended = false ∧
      h.group.outstanding.any (fun p => Instr.isMem p.instr) = false ∧ h.team.bars = [(5, ⟨7, 1, [], []⟩)] ∧
      ∃ x ∈ h.group.strands, h.group.strands = [x, h.strand] ∧ x.sid ≠ h.strand.sid ∧ x.arrived = some (5, 7) ∧
        x.hold = some (.barrier 5)) :=
  ⟨here_of (by decide +kernel), here_of (by decide +kernel), here_of (by decide +kernel), here_of (by decide +kernel), here_of (by decide +kernel),
    here_of (by decide +kernel)⟩

end Sys2Proof.Tests
end

