-- ==== Sys2Proof/Tests/Witness2.lean ====
section
/-! SUPPORT. The hypotheses of the statements about exceptions, returns and breakpoints are met. -/

namespace Sys2Proof.Tests

set_option Elab.async false

open Sys2Proof Sys2Proof.Machine Sys2Proof.Claims

/-- The strand of the VECTOR group. -/
abbrev calm : State := world 2

/-- Its frame, written for a report. -/
abbrev framedBy (s : State) (r : Report) (pc : DWord) (cs : List Pending) : Option State :=
  s.machineWrite (me s).team.agent (s.frameAddr (me s).team (me s).grp) (frameBytes r (me s).grp (me s).strand pc cs)

theorem witness_ExceptionEntry :
    (calm.here = some (me calm) ∧ (me calm).group.handler = none ∧ (me calm).group.dbg = none ∧
      (calm.ctx (me calm).team.asid).trapBase ≠ 0 ∧ (∀ p ∈ (me calm).group.pending, p.job = none) ∧ (me calm).group.pending.length ≤ 16) ∧
    (∃ s1, framedBy calm (Report.fault 0x33 (some 63) 7) (me calm).strand.pc (me calm).group.pending = some s1 ∧
      (s1.teams = calm.teams ∧ s1.cur = calm.cur)) ∧
    ∃ s1, framedBy calm (Report.trap cTrap 255) ((me calm).strand.pc + 4) [] = some s1 ∧ (s1.teams = calm.teams ∧ s1.cur = calm.cur) :=
  ⟨by decide +kernel, some_of (by decide +kernel), some_of (by decide +kernel)⟩

/-- A load, outstanding since before the present instruction. -/
def loadingHere : State := pended calm fun h => h.pend 1 (.sld 0 .four false .cluster 4 1) 0 allLanes []

/-- The present instruction is a TRAP that waits since the clock 1 of issues. -/
def trapping : State := inStrand (fun x => { x with hold := some (.trap 1) }) loadingHere

/-- A message of the frame's first line is under way. -/
def moving (s : State) : State := s.sendUp 0 (.ack (s.frameAddr (me s).team (me s).group / 128))

theorem witness_ExceptionEntry_captures :
    (loadingHere.here = some (me loadingHere) ∧ (me loadingHere).group.handler = none ∧ (me loadingHere).group.dbg = none ∧
      (loadingHere.ctx (me loadingHere).team.asid).trapBase ≠ 0 ∧ (me loadingHere).group.pending.length = 1 ∧
      (∀ p ∈ (me loadingHere).group.pending, p.capturable = true) ∧
      loadingHere.runBusy 0 (loadingHere.frameAddr (me loadingHere).team (me loadingHere).grp) 0x5400 = false) ∧
    (∃ s1, framedBy loadingHere (Report.fault 0x10 none 7) (me loadingHere).strand.pc (me loadingHere).group.pending = some s1 ∧
      (s1.teams = loadingHere.teams ∧ s1.cur = loadingHere.cur)) ∧
    ((me loadingHere).strand.hold = none ∧ ∃ p ∈ (me loadingHere).group.pending, Instr.beforeTrap p.instr = true ∧ p.seq < loadingHere.uid) ∧
    (trapping.here = some (me trapping) ∧ (me trapping).group.handler = none ∧ (me trapping).group.dbg = none ∧
      (me trapping).strand.hold = some (.trap 1) ∧ (∀ p ∈ (me trapping).group.pending, ¬p.seq < 1) ∧
      trapping.runBusy 0 (trapping.frameAddr (me trapping).team (me trapping).grp) 0x5400 = false) ∧
    ∃ s1, framedBy trapping (Report.trap cTrap 0) ((me trapping).strand.pc + 4) [] = some s1 ∧
      (s1.teams = trapping.teams ∧ s1.cur = trapping.cur) :=
  ⟨by decide +kernel, some_of (by decide +kernel), by decide +kernel, by decide +kernel, some_of (by decide +kernel)⟩

/-- Strand `sid` as its group's handler strand, after a fault or a trap. -/
def handled (sid : Nat) (fault : Bool) : State :=
  inGroup (fun g => { g with handler := some ⟨sid, List.replicate 8 0, 0x101, 0x8000, fault, [], [], 0⟩ }) calm

/-- The handler strand, with a frame whose PC is 0x8004. -/
def ready : State :=
  { handled 0 true with mem := calm.mem.setAll (cellsAt (calm.frameAddr (me calm).team (me calm).group + 8) [0x04, 0x80]) }

/-- The frame, read. -/
abbrev frameOf (s : State) : Except Code (List Byte) × State :=
  s.machineRead (me s).team.agent (s.frameAddr (me s).team (me s).group) 0x5200

/-- The frame's PC. -/
abbrev framePc (s : State) : Option DWord := (frameOf s).1.toOption.map fun fr => dwordOf ((fr.drop 8).take 8)

theorem witness_StopsFramesAndReturn :
    ((handled 0 true).here = some (me (handled 0 true)) ∧ (me (handled 0 true)).inHandler = true ∧
      ((handled 0 true).grid? (me (handled 0 true)).team.info.grid).any (fun g => g.failed.isNone) = true) ∧
    ((handled 1 true).here = some (me (handled 1 true)) ∧ (me (handled 1 true)).inHandler = false ∧
      (me (handled 1 true)).group.handler ≠ none) ∧
    (({ calm with ctxs := [] } : State).here = some (me calm) ∧ (({ calm with ctxs := [] } : State).ctx 0).trapBase = 0) ∧
    (calm.here = some (me calm) ∧ (me calm).inHandler = false) ∧
    (framePc (handled 0 false) = some 0 ∧ (frameOf (handled 0 false)).2.isStart 0 0 = false ∧
      (frameOf (handled 0 false)).2.teams = (handled 0 false).teams ∧ (frameOf (handled 0 false)).2.cur = (handled 0 false).cur) ∧
    (framePc ready = some 0x8004 ∧ (frameOf ready).2.isStart 0 0x8004 = true ∧ (frameOf ready).2.teams = ready.teams ∧
      (frameOf ready).2.cur = ready.cur) :=
  ⟨by decide +kernel, by decide +kernel, by decide +kernel, by decide +kernel, by decide +kernel, by decide +kernel⟩

/-- The handler strand of a group of two strands after a fault, with a frame whose PC is 0x8004 and whose first replay entry is VALID. -/
def returning : State :=
  let s := inGroup (fun g =>
    let xs := g.strands ++ g.strands.map fun x => { x with sid := 1 }
    { g with
      strands := xs
      handler := some ⟨0, List.replicate 8 0, 0x101, 0x8000, true, xs,
        [(me calm).pend 1 (.sld 0 .four false .cluster 4 1) 0 allLanes []], 0⟩ }) calm
  { s with mem := calm.mem.setAll (cellsAt (calm.frameAddr (me calm).team (me calm).group + 8) [0x04, 0x80] ++
      cellsAt (calm.frameAddr (me calm).team (me calm).group + 0x1200 + 12) [1]) }

/-- The same, while a message of the frame's first line is under way, in COHERENT memory. -/
def returningBusy : State := moving { returning with tlb := [leaf] }

theorem witness_StopsFramesAndReturn_frame :
    (let va := returning.frameAddr (me returning).team (me returning).group
     returning.here = some (me returning) ∧ (me returning).inHandler = true ∧
     (∃ q, (me returning).group.handler = some q ∧ (q.fault = true ∧ q.captured.length = 1 ∧ q.table.map (·.sid) = [0, 1] ∧
       (me returning).group.strands.map (·.sid) = [0, 1])) ∧
     (∃ f, Readable returning (me returning).team.asid va 0x5200 f) ∧
     returning.isStart 0 (dwordOf ((List.range 8).map fun j => returning.mem.byte (va + (8 + j)))) = true ∧
     (returning.mem.byte (va + (0x1200 + 12))).getLsbD 0 = true) ∧
    (let va := calm.frameAddr (me calm).team (me calm).group
     (∃ f, Readable calm (me calm).team.asid va 0x5200 f) ∧
     calm.isStart 0 (dwordOf ((List.range 8).map fun j => calm.mem.byte (va + (8 + j)))) = false) ∧
    (returningBusy.here = some (me returningBusy) ∧ (me returningBusy).inHandler = true ∧
      returningBusy.runBusy 0 (returningBusy.frameAddr (me returningBusy).team (me returningBusy).group) 0x5200 = true) :=
  ⟨⟨by decide +kernel, by decide +kernel, some_of (by decide +kernel),
    ⟨_, readable_of (by decide +kernel) (t := (me returning).team) (by decide +kernel)⟩, by decide +kernel, by decide +kernel⟩,
    ⟨⟨_, readable_of (by decide +kernel) (t := (me calm).team) (by decide +kernel)⟩, by decide +kernel⟩, by decide +kernel⟩

/-- Breakpoints are enabled. -/
def broken : State := calm.modCtx 0 fun c => { c with dbgCtl := 1 }

theorem witness_Break :
    (calm.here = some (me calm) ∧ (calm.ctx (me calm).team.asid).dbgCtl.getLsbD 0 = false) ∧
    (broken.here = some (me broken) ∧ (broken.ctx (me broken).team.asid).dbgCtl.getLsbD 0 = true ∧
      (me broken).strand.skipStop ≠ some (me broken).strand.pc ∧ (me broken).group.handler = none ∧ (me broken).group.dbg = none ∧
      (∀ p ∈ (me broken).group.pending, p.job = none) ∧ (me broken).group.pending.length ≤ 16) ∧
    ∃ s1, framedBy broken (Report.dbg (0xFFFF : BitVec 16).toNat) (me broken).strand.pc (me broken).group.pending = some s1 ∧
      (s1.teams = broken.teams ∧ s1.cur = broken.cur ∧ s1.ctxs = broken.ctxs) :=
  ⟨by decide +kernel, by decide +kernel, some_of (by decide +kernel)⟩

/-- Breakpoints are enabled, and the strand resumes at the one where it stands. -/
def resumed : State := inStrand (fun x => { x with skipStop := some x.pc }) broken

/-- Breakpoints are enabled, and a load is outstanding. -/
def brokenLoading : State := loadingHere.modCtx 0 fun c => { c with dbgCtl := 1 }

theorem witness_Break_captures :
    (resumed.here = some (me resumed) ∧ (me resumed).strand.skipStop = some (me resumed).strand.pc) ∧
    (brokenLoading.here = some (me brokenLoading) ∧ (brokenLoading.ctx 0).dbgCtl.getLsbD 0 = true ∧
      (me brokenLoading).strand.skipStop = none ∧ (me brokenLoading).group.handler = none ∧ (me brokenLoading).group.dbg = none ∧
      (me brokenLoading).group.pending.length = 1 ∧ (∀ p ∈ (me brokenLoading).group.pending, p.capturable = true) ∧
      brokenLoading.runBusy 0 (brokenLoading.frameAddr (me brokenLoading).team (me brokenLoading).grp) 0x5400 = false) ∧
    ∃ s1, framedBy brokenLoading (Report.dbg 1) (me brokenLoading).strand.pc (me brokenLoading).group.pending = some s1 ∧
      (s1.teams = brokenLoading.teams ∧ s1.cur = brokenLoading.cur ∧ s1.ctxs = brokenLoading.ctxs) :=
  ⟨by decide +kernel, by decide +kernel, some_of (by decide +kernel)⟩

end Sys2Proof.Tests
end

