-- ==== Sys2Proof/Tests/Witness3.lean ====
section
/-! SUPPORT. The hypotheses of the statements about vector instructions are met. -/

namespace Sys2Proof.Tests

set_option Elab.async false

open Sys2Proof Sys2Proof.Machine Sys2Proof.Claims

/-- The strand of the VECTOR group, and its contents. -/
abbrev wide : State := world 2
abbrev wideMe : Here := me wide

/-- No guard, and a guard that no lane meets. -/
abbrev gAll : Guard := ⟨false, 0⟩
abbrev gNone : Guard := ⟨true, 0⟩

/-! ## Short-latency instructions -/

/-- The integer and logic instructions, in forms that issue. -/
def integerForms : List Instr :=
  [.vadd gAll false true .i32 4 5 (.vec 15), .vsub gAll true false .i64 4 6 (.vec 8), .vmul gAll false false .b8x4 4 5 (.lit 7),
    .vmulh gAll false false .i16x2 4 5 (.sreg 1), .vmad gAll false false .i32 4 5 (.vec 6), .vmin gAll false .i32 4 5 (.vec 6),
    .vmax gAll false .b32 4 5 (.vec 6), .vabsd gAll false false .i32 4 5 (.vec 6), .vand gAll false .b32 4 5 (.vec 6),
    .vor gAll false .b64 4 6 (.vec 8), .vxor gAll false .b32 4 5 (.vec 6), .vandn gAll false .b32 4 5 (.vec 6),
    .vshl gAll false .b32 4 5 (.lit 63), .vshr gAll false .b16x2 4 5 (.vec 6), .vsar gAll false .i32 4 5 (.vec 6),
    .vclz gAll false .b32 4 5, .vpopc gAll false .b64 4 6, .vbfx gAll false .i32 4 5 (.vec 6), .vbfi gAll false .b32 4 5 (.vec 6),
    .vdot4 gAll false .i8x4 4 5 (.vec 6), .vsel gAll false false 1 .b32 4 5 (.vec 6), .vmov gAll false .b32 4 (.vec 15)]

theorem witness_VectorIntegerAndLogic : ∀ i ∈ integerForms, ∃ vs qs, VecReady wide wideMe i (wideMe.mask gAll) vs qs :=
  ready_all (by decide +kernel)

theorem witness_VectorCompare : ∀ i ∈ [Instr.vcmp gAll .lt .i32 3 4 (.vec 5), .vfcmp gAll .un .f32 3 4 (.lit 0)],
    ∃ vs qs, VecReady wide wideMe i (wideMe.mask gAll) vs qs := ready_all (by decide +kernel)

/-- The float instructions, in forms that issue. -/
def floatForms : List Instr :=
  [.vfadd gAll false false .rst .f32 4 5 (.vec 6), .vfsub gAll false true .dyn .bf16x2 4 5 (.vec 6), .vfmul gAll true false .rne .f16x2 4 5 (.vec 6),
    .vfma gAll false false .rna .f32 4 5 (.vec 6), .vfmin gAll false false .dyn .f32 4 5 (.vec 6), .vfmax gAll false false .dyn .f32 4 5 (.vec 6),
    .vfrnd gAll false .rtz .f32 4 5, .vfclass gAll false .f32 4 5]

theorem witness_VectorFloat :
    (∀ i ∈ floatForms, ∃ vs qs, VecReady wide wideMe i (wideMe.mask gAll) vs qs) ∧
    (fmtFp32.value 0x7FC00000).isNaN = true ∧ (fmtFp32.value 0x3F800000).isNaN = false ∧
    ((fmtFp32.value 0x3F800000).lt (fmtFp32.value 0x40000000) = true ∧ (fmtFp32.value 0x40000000).lt (fmtFp32.value 0x3F800000) = false) ∧
    ((fmtFp32.value 0x80000000).isZero = true ∧ (fmtFp32.value 0).isZero = true ∧ (fmtFp32.value 0x80000000).neg = true ∧
      (fmtFp32.value 0).neg = false) :=
  ⟨ready_all (by decide +kernel), by decide +kernel, by decide +kernel, by decide +kernel, by decide +kernel⟩

/-- Conversions and logarithmic arithmetic, in forms that issue. -/
def conversionForms : List Instr :=
  [.vcvt gAll false true .rst .f32 .bf16 4 5, .vcvt gAll false false .rne .f32 .mxi8 4 5, .vpack gAll false false .rne .f32 .bf16x2 4 5,
    .vunpack gAll false .i8x4 .i32 4 8, .vlns gAll false .rne .lns16 4 5 (.vec 6), .vlin gAll false .lns8 4 5 (.vec 6),
    .vlmul gAll false .lns16 4 5 (.vec 6), .vladd gAll false .lns16 4 5 (.vec 6)]

theorem witness_VectorConversions : ∀ i ∈ conversionForms, ∃ vs qs, VecReady wide wideMe i (wideMe.mask gAll) vs qs :=
  ready_all (by decide +kernel)

/-- An unsigned narrow format of four exponent and four mantissa bits. -/
def fmtUnsigned : FloatFmt := ⟨4, 4, 7, false, .oneNaN, false, true⟩

theorem witness_VectorConversions_values :
    -- a code, an exact sum between two codes, an overflow with saturation, and a negative number for an unsigned target
    (fmtFp32.sign = true ∧ 0x7F7FFFFF ≤ fmtFp32.maxCode ∧ (-1200 : Int) ≤ fmtFp32.qMin ∧
      (fmtFp32.roundTo (.exact true 3 (-151)) .rup false).2 &&& fOF = 0 ∧ (fmtFp32.roundTo (.exact false 1 0) .rna false).2 &&& fOF = 0) ∧
    ((fmtFp32.roundTo (.exact false 1 128) .rne true).2 &&& fOF ≠ 0 ∧ fmtFp32.satEff true = true) ∧
    (fmtUnsigned.sign = false ∧ fmtUnsigned.spec ≠ .finiteOnly) ∧
    -- fields of elements and blocks
    (Fmt.count .i8x4 = 4 ∧ (255 < 2 ^ 8) ∧ (∃ y ∈ ([((.nan false, 0), .rne)] : List ((Sys2Proof.Num × Flags) × RMode)), y.1.1.isFin = false)) ∧
    ((Fmt.floatFmt .f16x2).value 0x3C00).isFin = true ∧
    -- logarithms: in range, above and below it, of zero and of a number
    ((-(2 ^ 14 - 1) ≤ nearestLog 9 1 0 ∧ nearestLog 9 1 0 ≤ 2 ^ 14 - 1) ∧ (2 ^ 14 - 1 < nearestLog 9 1 100) ∧
      (nearestLog 9 1 (-100) < -(2 ^ 14 - 1))) ∧
    (signedOf 15 (lnsCode 16 true none) = -(2 ^ 14) ∧ signedOf 15 (lnsCode 16 false (some 5)) ≠ -(2 ^ 14)) ∧
    ((signedOf 15 (lnsCode 16 false (some 512)) + 0) % 2 ^ lnsFrac 16 = 0) := by
  decide +kernel

/-- Random state, flags and lane movement, in forms that issue. -/
def laneForms : List Instr :=
  [.vrand gAll false (.draw 4), .vrand gAll false (.unit 15), .vrand gAll false (.seed 12), .vrand gAll false (.state 12),
    .vflg gAll false (.get 4), .vflg gAll false (.set 4), .vflg gAll false (.or 4), .vflg gAll false (.clr 4),
    .vshuf gAll false .b32 4 5 (.vec 6), .vbcast gAll false .b32 4 5 (.lit 63), .vrdlane gAll .i32 4 5 (.lit 63),
    .vwrlane gAll false .b32 4 5 (.lit 64), .vcompact gAll false 4 5, .assertu gAll .b32 4]

/-- Register 4 differs in lane 63. -/
def uneven : State := inTeam (fun t => t.putRow (t.info.header.baseAt 2 + 4) ((List.range 64).map fun l => if l = 63 then 1 else 0)) wide

theorem witness_LanesAndRandomState :
    (∀ i ∈ laneForms, ∃ vs qs, VecReady wide wideMe i (wideMe.mask gAll) vs qs) ∧
    (∀ i ∈ [Instr.assertu gAll .b32 4], ∃ vs qs, VecReady uneven (me uneven) i ((me uneven).mask gAll) vs qs) ∧
    ((me uneven).fetch allLanes [4] []).toOption.any (fun r =>
      let x := laneVals .b32 r.1
      laneOf x 63 != laneOf x 0 && (List.range 63).all fun j => laneOf x j == laneOf x 0) = true :=
  ⟨ready_all (by decide +kernel), ready_all (by decide +kernel), by decide +kernel⟩

/-- A store stream's queue 0 of the group, with room for one more vector, or none. -/
def storeQueue (taken : Nat) : QueueReg := ⟨1, 2, true, 0, 1, 4, none, [], [], 0, taken, none, none, []⟩

theorem witness_RegistersAndForwarding :
    (zeroRow.length = 64 ∧ isQueue 31 = false ∧ isQueue 1536 = true) ∧
    (∀ n ∈ [0, 1], ∃ q, (SMap.find [(queueKey 0 0, storeQueue n)] (queueKey 0 (1536 - 1536))) = some q ∧ q.fault = none ∧
      (n = 0 → q.taken < q.count) ∧ (n = 1 → q.count ≤ q.taken)) ∧
    ((world 0).here = some (me (world 0)) ∧ 1 < (encode (.vmov gAll false .b32 4 (.vec 5))).length ∧
      (me (world 0)).group.kind ∈ Instr.roles (.vmov gAll false .b32 4 (.vec 5)) ∧
      (me (world 1)).group.kind ∉ Instr.roles (.tzero 0 (.acc false))) ∧
    (wideMe.group.kind ∈ Instr.roles (.vmov gAll false .b32 31 (.vec 5)) ∧ wideMe.team.xHeld wideMe.group = false ∧
      (∃ r ∈ Instr.named (.vmov gAll false .b32 31 (.vec 5)), regB wideMe.team wideMe.group ≤ r ∧
        r < regB wideMe.team wideMe.group + regX wideMe.team wideMe.group)) ∧
    (∃ r ∈ Instr.named (.vmov gAll false .b32 32 (.vec 5)), regB wideMe.team wideMe.group + regX wideMe.team wideMe.group ≤ r ∧ r < 1536) ∧
    (¬∃ r ∈ Instr.named (.vmov gAll false .b32 32 (.vec 5)), regB wideMe.team wideMe.group ≤ r ∧
        r < regB wideMe.team wideMe.group + regX wideMe.team wideMe.group) ∧
    (((⟨wideMe.team, wideMe.group, { wideMe.strand with fwd := [[⟨4, none⟩], [⟨5, some (1, zeroRow)⟩]] }⟩ : Here).strand.fwd
      = [] ++ [⟨4, none⟩] :: [[⟨5, some (1, zeroRow)⟩]]) ∧
     ([⟨4, none⟩] : List FwdWrite).find? (fun y => y.reg == 4) = some ⟨4, none⟩ ∧
     ([⟨5, some (1, zeroRow)⟩] : List FwdWrite).find? (fun y => y.reg == 5) = some ⟨5, some (1, zeroRow)⟩) :=
  ⟨by decide +kernel, by
    intro n hn
    simp only [List.mem_cons, List.not_mem_nil, or_false] at hn
    obtain rfl | rfl := hn <;> exact ⟨_, rfl, rfl, by decide, by decide⟩,
    by decide +kernel, by decide +kernel, by decide +kernel, by decide +kernel, by decide +kernel⟩

/-! ## Long-latency instructions -/

/-- The long-latency instructions, in forms that issue. -/
def longForms (g : Guard) : List Instr :=
  [.vfdiv g 0 false .rst .f32 4 5 (.vec 6), .vexp2 g 15 false .dyn .f32 4 5, .vlog2 g 0 false .rne .f32 4 5, .vrcp g 0 true .rne .bf16x2 4 5,
    .vrsq g 0 false .rne .f32 4 5, .vsqrt g 0 false .rne .f32 4 5, .vreduce g 0 .rne .f32 .add 4 5, .vscan g 0 .dyn .i32 .min 4 5,
    .vmatch g 0 .i64 4 6 8, .tsort g 0 .i32 true 1 4 6]

/-- A group with as many outstanding instructions as it may have. -/
def crowded : State := tweak wide fun h => { h with group := { h.group with
  pending := (List.range 32).map fun n => h.pend n (.vsqrt gAll 0 false .rne .f32 4 5) 0 allLanes [] } }

theorem witness_VectorLongIssue :
    (wideMe.mask gAll ≠ 0 ∧ wideMe.mask gNone = 0) ∧
    (∀ i ∈ longForms gAll, ∃ vs qs, LongReady wide wideMe i (wideMe.mask gAll) vs qs) ∧
    (∀ i ∈ longForms gNone, (∃ vs qs, LongReady wide wideMe i (wideMe.mask gNone) vs qs) ∧ i.vwrites.any isQueue = false) ∧
    (crowded.here = some (me crowded) ∧ (me crowded).group.pending.length = 32 ∧
      ∀ i ∈ longForms gAll, (me crowded).issueFault i = none ∧ crowded.ownQueues (me crowded) i.vwrites = none ∧
        ((me crowded).fetch allLanes i.vreads crowded.queues).toOption.isSome = true) :=
  ⟨by decide +kernel, long_all (by decide +kernel), fun i hi => ⟨long_all (by decide +kernel) i hi, by revert i; decide +kernel⟩,
    by decide +kernel⟩

/-- One of them, issued: its operands are rows of zeros. -/
def issued (i : Instr) : State := pended wide fun h => h.pend 9 i 0 allLanes [zeroRow, zeroRow, zeroRow, zeroRow]

theorem witness_VectorLongResults :
    (∀ i ∈ longForms gAll, ∃ t g p, Outstanding (issued i) 1 2 0 t g p ∧ decide (p.instr = i) = true) ∧
    (scanLanes .add .f32 .rne (laneVals .f32 [zeroRow]) allLanes).getLast?.isSome = true ∧
    (([(0, 5), (63, 5)] : List (Nat × Nat)).map fun x => x.1).Pairwise (· < ·) := by
  have h : (longForms gAll).all (fun i => mayEnd (issued i) 1 2 0 fun _ _ p => decide (p.instr = i)) = true := by decide +kernel
  exact ⟨fun i hi => end_of (List.all_eq_true.mp h i hi), by decide +kernel, by decide⟩

end Sys2Proof.Tests
end

