-- ==== Sys2Proof/Tests/Witness4.lean ====
section
/-! SUPPORT. The hypotheses of the statements about addresses, translation and memory instructions are met. -/

namespace Sys2Proof.Tests

set_option Elab.async false

open Sys2Proof Sys2Proof.Machine Sys2Proof.Claims

/-- The strand of the VECTOR group, with `s1` naming data in COHERENT memory. -/
abbrev mem0 : State := with3 0x20000 0 0 (world 2)
abbrev memMe : Here := me mem0
abbrev whole : Guard := ⟨false, 0⟩
abbrev nobody : Guard := ⟨true, 0⟩

/-! ## Addresses and translation -/

/-- A page table of four levels, of whose entries `es` are there. -/
def walked (es : List Nat) : State :=
  let e := fun (a v : Nat) => cellsAt a (bytesOfNum 8 v)
  { mem0 with
    tlb := []
    ctxs := [(0, { Ctx.reset with root := 0x10001 })]
    mem := Memory.setAll [] (([0x10000, 0x18000, 0x20000, 0x28000].zip es).map fun p => e p.1 p.2).flatten }

/-- The entries of the walk for address 0. -/
def entries (es : List Nat) : List DWord := [0x10000, 0x18000, 0x20000, 0x28000].map (walked es).pte

/-- Leaves of 32 KiB, 2 MiB and 1 GiB that may be written, and one of the host's. -/
abbrev leaves : List (DWord × Nat × Nat) := [(0x40105, 0, 15), (0x200505, 1, 21), (0x40000905, 2, 30), (0x40305, 0, 15)]

/-- The team shares 2 KiB with its gallery. -/
abbrev shares : Team := { memMe.team with info := { memMe.team.info with header := { hdr with shared := 2 } } }

theorem witness_AddressesAndTranslation :
    let t := memMe.team
    let g := memMe.group
    let rows := regB t g + regX t g + t.info.header.stack
    -- the last byte of window 0x0, of the private window and of the scratchpad, and one byte more
    ((2 ^ 57 - 1) + 1 ≤ 2 ^ 57 ∧ 2 ^ 57 < (2 ^ 57 - 1) + 2 ∧ (0xA * 2 ^ 60 + (256 * rows - 1)) / 2 ^ 24 = 0xA000000000 ∧
      (0xA * 2 ^ 60 + (256 * rows - 1)) % 2 ^ 24 + 1 ≤ 256 * rows ∧ 256 * rows < (0xA * 2 ^ 60 + 256 * rows) % 2 ^ 24 + 1 ∧
      (0xA * 2 ^ 60 + 2 ^ 24) / 2 ^ 24 ≠ 0xA000000000 ∧ 0xC051FF + 1 ≤ 0xC05200 ∧
      (0xB * 2 ^ 60 + 4095) / 2 ^ 24 = 0xB000000000 + 4096 * 0 ∧ coreNamed 0 = true ∧ t.answers 0 = true ∧
      (0xB * 2 ^ 60 + 4095) % 2 ^ 24 + 1 ≤ 1024 * t.info.header.scratch ∧ 1024 * t.info.header.scratch < (0xB * 2 ^ 60 + 4096) % 2 ^ 24 + 1 ∧
      (0xB * 2 ^ 60 + 1419 * 2 ^ 36) / 2 ^ 24 = 0xB000000000 + 4096 * 1419 ∧ coreNamed 1419 = true ∧ t.answers 1419 = false ∧
      coreNamed 12 = false ∧ coreNamed 1536 = false ∧ (0xB * 2 ^ 60 + 2 ^ 47) / 2 ^ 47 % 2 ^ 13 ≠ 0 ∧ (0xB * 2 ^ 60 + 2 ^ 24) / 2 ^ 24 % 2 ^ 12 ≠ 0 ∧
      (0xC * 2 ^ 60 + 2 ^ 43) / 2 ^ 43 % 2 ^ 17 ≠ 0 ∧ (0xC * 2 ^ 60 + 2 ^ 28) / 2 ^ 28 % 2 ^ 12 ≠ 0 ∧
      ∀ v ∈ [2 ^ 57, 0x9 * 2 ^ 60 + 2 ^ 60 - 1, 0xD * 2 ^ 60], 2 ^ 57 ≤ v ∧ v / 2 ^ 60 ≠ 0xA ∧ v / 2 ^ 60 ≠ 0xB ∧ v / 2 ^ 60 ≠ 0xC) ∧
    -- in window 0xC: a member of the gallery with its last shared byte and one more, one beyond the last member, and nobody's
    (let s := { mem0 with teams := [shares] }
     s.teams = [shares] ∧ coreGallery shares.core = 0 ∧ coreMember shares.core = 0 ∧
       (0xC * 2 ^ 60 + 2047) / 2 ^ 24 = 0xC000000000 + 65536 * 0 + 0 ∧ 2047 + 1 ≤ 1024 * shares.info.header.shared ∧
       1024 * shares.info.header.shared < 2048 + 1 ∧ (0xC * 2 ^ 60 + 12 * 2 ^ 24) / 2 ^ 24 = 0xC000000000 + 65536 * 0 + 12 ∧
       (0xC * 2 ^ 60 + 7 * 2 ^ 40 + 11 * 2 ^ 24) / 2 ^ 24 = 0xC000000000 + 65536 * 7 + 11 ∧
       ∀ w ∈ s.teams, ∀ c ∈ w.core :: w.aliases, coreGallery c = 0 ∧ coreMember c = 0) ∧
    -- a checked address: aligned, misaligned, in an extended register with the lock and without it
    (let x := 0xA * 2 ^ 60 + 256 * regB t g
     let held := inTeam (fun t => { t with locks := t.locks.insert (t.info.header.setOf g.num) g.num }) mem0
     (mem0.resolve t g false (BitVec.ofNat 64 x) 4).toOption.isSome = true ∧ x / 2 ^ 24 = 0xA000000000 ∧
       (me held).team.locks.find ((me held).team.info.header.setOf g.num) = some g.num ∧ t.locks.find (t.info.header.setOf g.num) ≠ some g.num ∧
       (0x20000 % 4 = 0 ∧ 0x20002 % 4 ≠ 0) ∧ (mem0.resolve t g false (2 ^ 57) 4).toOption = none) ∧
    (({ mem0 with ctxs := [] } : State).live 0 = false ∧ mem0.live 0 = true ∧ (walked [0]).live 0 = true ∧
      (mem0.tlb.find? (fun e => e.asid == 0 && e.base ≤ 2 ^ 27 - 1 && 2 ^ 27 - 1 < e.base + e.size)).isSome = true ∧
      (walked [0]).tlb.find? (fun e => e.asid == 0 && e.base ≤ 0 && 0 < e.base + e.size) = none) ∧
    (entries [] = [0, 0, 0, 0] ∧ entries [0x18001] = [0x18001, 0, 0, 0] ∧ entries [0x18003] = [0x18003, 0, 0, 0] ∧
      entries [0x18001, 0x20001] = [0x18001, 0x20001, 0, 0] ∧ entries [0x18001, 0x21001] = [0x18001, 0x21001, 0, 0] ∧
      entries [0x18001, 0x20001, 0x28001] = [0x18001, 0x20001, 0x28001, 0] ∧
      ∀ e ∈ leaves, (e.2.1 = 2 ∧ entries [0x18001, 0x20001, e.1.toNat] = [0x18001, 0x20001, e.1, 0]) ∨
        (e.2.1 ≠ 2 ∧ entries [0x18001, 0x20001, 0x28001, e.1.toNat] = [0x18001, 0x20001, 0x28001, e.1])) ∧
    (∀ e ∈ leaves, e.1.getLsbD 0 = true ∧ e.1.toNat / 2 ^ 52 = 0 ∧ e.1.toNat / 2 ^ 12 % 8 = 0 ∧ e.1.getLsbD 1 = false ∧ e.1.getLsbD 8 = true ∧
      e.1.toNat / 2 ^ 4 % 4 ≠ 3 ∧ e.1.toNat / 2 ^ 10 % 4 = e.2.1 ∧ e.1.toNat / 2 ^ 15 % 2 ^ 37 * 2 ^ 15 % 2 ^ e.2.2 = 0 ∧ e.1.getLsbD 2 = true ∧
      e.1.toNat / 2 ^ 15 % 2 ^ 37 * 2 ^ 15 + 2 ^ e.2.2 ≤ mem0.manage.memSize) ∧
    ((∀ g ∈ mem0.segs, 0x40000 / 32768 ∉ g.pages) ∧ ∃ g ∈ mem0.segs, 0x8000 / 32768 ∈ g.pages) :=
  ⟨by decide +kernel, by decide +kernel, by decide +kernel, by decide +kernel, by decide +kernel, by decide +kernel, by decide +kernel⟩

/-! ## Issue -/

/-- An access finds its places, and nothing else changes. -/
theorem finds_of {r : Except Stop (SMap Loc) × State} {s : State} (h : (r.1.toOption.isSome && decide (r.2 = s)) = true) :
    ∃ ls e, r = (.ok ls, { s with tlb := e }) := by
  obtain ⟨a, b⟩ := r
  simp only [Bool.and_eq_true, decide_eq_true_eq] at h
  obtain ⟨h1, rfl⟩ := h
  cases a with
  | error x => simp [Except.toOption] at h1
  | ok ls => exact ⟨ls, b.tlb, rfl⟩

/-- A scalar access by the strand at `s1`. -/
abbrev scalarAt (s : State) (a : Access) (reads atomic : Bool) (n : Nat) : Except Stop (SMap Loc) × State :=
  s.decide (me s) a reads atomic false n (me s).strand.refused [(0, (me s).readS 1)]

theorem witness_ScalarMemoryIssue :
    (mem0.here = some memMe ∧ memMe.group.outcnt < 32 ∧ mem0.remoteLost memMe.team.info.uid = false) ∧
    (∃ ls e, scalarAt mem0 .read true false 8 = (.ok ls, { mem0 with tlb := e })) ∧
    (∃ ls e, scalarAt mem0 .write false false 1 = (.ok ls, { mem0 with tlb := e })) ∧
    (∃ ls e, scalarAt mem0 .write true true 8 = (.ok ls, { mem0 with tlb := e })) ∧
    -- what stops one: an address outside every window, a page with no leaf, one that was refused, a page of code, lost writes
    (let bad := with3 (2 ^ 57) 0 0 (world 2)
     let far := with3 (2 ^ 27) 0 0 (world 2)
     let told := inStrand (fun x => { x with refused := [4096] }) far
     let code := with3 0x8000 0 0 (world 2)
     let lost : State := { mem0 with records := { mem0.records with remote := [(1, 0, [8])], lostPackages := [8] } }
     (bad.here = some (me bad) ∧ (match bad.checkAddr (me bad) ((me bad).readS 1) 4 with | .error _ => true | .ok _ => false) = true) ∧
     (far.here = some (me far) ∧ (far.checkAddr (me far) ((me far).readS 1) 4).toOption = some (.glob (2 ^ 27)) ∧
       (far.translate 0 (2 ^ 27) .read).1 = .miss 4096 false ∧ 4096 ∉ (me far).strand.refused) ∧
     (told.here = some (me told) ∧ (told.checkAddr (me told) ((me told).readS 1) 4).toOption = some (.glob (2 ^ 27)) ∧
       (told.translate 0 (2 ^ 27) .read).1 = .miss 4096 false ∧ 4096 ∈ (me told).strand.refused) ∧
     (code.here = some (me code) ∧ (code.checkAddr (me code) ((me code).readS 1) 4).toOption = some (.glob 0x8000) ∧
       (code.translate 0 0x8000 .write).1 = .bad cPerm) ∧
     (scalarAt lost .write false false 8).1.toOption.isSome = true ∧ (scalarAt lost .write false false 8).2.remoteLost 1 = true) :=
  ⟨by decide +kernel, finds_of (by decide +kernel), finds_of (by decide +kernel), finds_of (by decide +kernel), by decide +kernel⟩

/-- Vector memory instructions whose base is `s1`. -/
def vectorForms (g : Guard) : List Instr :=
  [.vld g 0 true .system .i8 4 (.sreg 1) (.vec 8), .vlds g 0 false .die .b64 4 (.sreg 1) (.lit 8), .vst g 0 false .package .b32 4 (.sreg 1) (.vec 8),
    .vsts g 0 false .cluster .b16 4 (.sreg 1) (.lit 8), .vldt g 0 false .die .lns16 4 (.sreg 1) (.vec 8),
    .vatom g 0 .ar .package .add .i64 4 (.sreg 1) (.lit 0), .vcas g 0 .rlx .die 4 (.sreg 1) (.lit 4)]

/-- Their lanes' addresses. -/
abbrev lanesAt (off : DWord) : List (Nat × DWord) := (laneNumbers.filter (laneBit allLanes)).map fun l => (l, memMe.readS 1 + off)

theorem witness_VectorMemoryIssue :
    (∀ i ∈ vectorForms whole, ∃ vs qs, LongReady mem0 memMe i (memMe.mask whole) vs qs) ∧
    (∀ i ∈ vectorForms nobody, ∃ vs qs, LongReady mem0 memMe i (memMe.mask nobody) vs qs) ∧
    (memMe.mask whole ≠ 0 ∧ memMe.mask nobody = 0 ∧ (∀ i ∈ vectorForms nobody, i.vwrites.any isQueue = false) ∧
      mem0.remoteLost memMe.team.info.uid = false) ∧
    (∃ ls e, mem0.decide memMe .read true false true 8 memMe.strand.refused (lanesAt 8) = (.ok ls, { mem0 with tlb := e })) ∧
    (∃ ls e, mem0.decide memMe .write false false true 2 memMe.strand.refused (lanesAt 8) = (.ok ls, { mem0 with tlb := e })) ∧
    (∃ ls e, mem0.decide memMe .write true true true 8 memMe.strand.refused (lanesAt 0) = (.ok ls, { mem0 with tlb := e })) :=
  ⟨long_all (by decide +kernel), long_all (by decide +kernel), by decide +kernel, finds_of (by decide +kernel), finds_of (by decide +kernel),
    finds_of (by decide +kernel)⟩

/-! ## Results -/

/-- A place in COHERENT memory, the last eight bytes of a line. -/
abbrev spot : Xlat := ⟨0x20078, 0, 0, false⟩

/-- Places of another package, of the host, and of BAR0. -/
abbrev away : Xlat := ⟨2 ^ 51 + 2 ^ 39 + 0x78, 0, 0, false⟩
abbrev outside : Xlat := ⟨0x20078, 2, 0, true⟩
abbrev mapped : Xlat := ⟨0xF000000000 + 0x40, 2, 0, false⟩

theorem atHome_spot {s : State} (h : s.poison = []) (hc : s.copies = []) (hb : s.busyLines = [])
    (hd : s.dies.all (fun y => y.served.isNone) = true) : AtHome s (.glob spot) spot 8 :=
  ⟨rfl, rfl, by decide, by decide, by decide, by decide, by simp [State.poisoned, h], by simp [hc], fun _ => ⟨by simp [hb], fun c => bars_none hd c _⟩⟩

/-- The page-request ring is full, so that no migration is asked for. -/
abbrev ringFull : State := { mem0 with manage := { mem0.manage with prqTail := 64 } }

/-- A scalar memory instruction that has issued at the place. -/
def sent (i : Instr) (v w : DWord) (l : Loc) : State :=
  pended ringFull fun h => { h.pend 9 i 0 allLanes [zeroRow, zeroRow, zeroRow, zeroRow] with locs := [(0, l)], sd := v, sb := w }

/-- The scalar memory instructions. -/
def scalarForms : List Instr := [.sld 0 .eight false .package 4 1, .sst 0 .one false .package 4 1, .satom 0 .add true .package 4 1,
  .scas 0 true .rlx .package 4 1]

theorem witness_ScalarMemoryResults :
    (∀ i ∈ scalarForms, ∀ l ∈ [Loc.glob spot, .glob away, .glob outside, .store 1 0, .store 1 0x1FF8], ∃ t g p,
      Outstanding (sent i 0 5 l) 1 2 0 t g p ∧
      decide (p.instr = i ∧ p.replayed = false ∧ p.locs = [(0, l)] ∧ p.through = [] ∧ p.release = false ∧ t.rowPoison = []) = true) ∧
    (∀ i, ∀ x ∈ [spot, away, outside], Reached (sent i 0 5 (.glob x)) (.glob x) x 8 ∧ NoView (sent i 0 5 (.glob x)) x) ∧
    remotePkg away.pa = some 1 ∧
    -- a compare and swap that finds what it expects, and one that does not
    (∀ j, j < 8 → mem0.mem.byte (spot.pa + j) = 0) ∧ (0 : Nat) = (0 : DWord).toNat % 2 ^ 64 ∧ (0 : Nat) ≠ (1 : DWord).toNat % 2 ^ 64 ∧
    (mem0.teams.map fun x => x.info.uid).Nodup ∧
    (∀ i ∈ [Instr.sld 0 .eight false .package 4 1, .sst 0 .eight false .package 4 1], ∃ t g p, Outstanding (sent i 0 5 (.glob mapped)) 1 2 0 t g p ∧
      decide (p.instr = i ∧ p.replayed = false ∧ p.locs = [(0, .glob mapped)] ∧ p.through = [] ∧ p.release = false) = true) ∧
    mapped.bar0 = some 0x40 ∧ mapped.mt = 2 ∧ 0x40 % 8 = 0 ∧ 0x40 / 8 % 8 ≠ 5 := by
  have h : scalarForms.all (fun i => [Loc.glob spot, .glob away, .glob outside, .store 1 0, .store 1 0x1FF8].all fun l =>
      mayEnd (sent i 0 5 l) 1 2 0 fun t _ p =>
        decide (p.instr = i ∧ p.replayed = false ∧ p.locs = [(0, l)] ∧ p.through = [] ∧ p.release = false ∧ t.rowPoison = [])) = true := by
    decide +kernel
  have b : [Instr.sld 0 .eight false .package 4 1, .sst 0 .eight false .package 4 1].all (fun i => mayEnd (sent i 0 5 (.glob mapped)) 1 2 0 fun _ _ p =>
      decide (p.instr = i ∧ p.replayed = false ∧ p.locs = [(0, .glob mapped)] ∧ p.through = [] ∧ p.release = false)) = true := by decide +kernel
  have r : ∀ x ∈ [spot, away, outside], ∀ i, inReach (sent i 0 5 (.glob x)) x 8 = true ∧
      ((sent i 0 5 (.glob x)).dirLine (placeOf x / 128)).vs = false := by
    intro x hx i
    have e : inReach (sent i 0 5 (.glob x)) x 8 = inReach ringFull x 8 ∧
      ((sent i 0 5 (.glob x)).dirLine (placeOf x / 128)).vs = (ringFull.dirLine (placeOf x / 128)).vs := ⟨rfl, rfl⟩
    rw [e.1, e.2]
    exact (show ∀ x ∈ [spot, away, outside], inReach ringFull x 8 = true ∧ (ringFull.dirLine (placeOf x / 128)).vs = false by decide +kernel) x hx
  refine ⟨fun i hi l hl => end_of (List.all_eq_true.mp (List.all_eq_true.mp h i hi) l hl),
    fun i x hx => ⟨reach_of (r x hx i).1, fun _ => (r x hx i).2⟩, by decide +kernel, by decide +kernel, by decide +kernel, by decide +kernel,
    by decide +kernel, fun i hi => end_of (List.all_eq_true.mp b i hi), by decide +kernel⟩

/-- A vector memory instruction that has issued for lanes 0 and 63. -/
def fanned (i : Instr) : State :=
  pended mem0 fun h => { h.pend 9 i 0 (1 + 2 ^ 63) [zeroRow, zeroRow, zeroRow, zeroRow] with locs := [(0, .glob spot), (63, .glob spot)] }

/-- The same for two words of the core store. -/
def stored (i : Instr) : State :=
  pended mem0 fun h => { h.pend 9 i 0 (1 + 2 ^ 63) [zeroRow, zeroRow, zeroRow, zeroRow] with locs := [(0, .store 1 0), (63, .store 1 0x1FFC)] }

/-- A load and a store of lanes that may complete there. -/
def storedForms : List Instr := [.vld whole 0 false .system .i8 4 (.sreg 1) (.vec 8), .vst whole 0 false .package .b32 4 (.sreg 1) (.vec 8)]

theorem witness_VectorMemoryResults :
    (∀ i ∈ vectorForms whole, ∃ t g p, Outstanding (fanned i) 1 2 0 t g p ∧
      decide (p.instr = i ∧ p.replayed = false ∧ p.locs = [(0, spot), (63, spot)].map (fun z => (z.1, .glob z.2)) ∧ p.through = [] ∧
        p.release = false) = true) ∧
    (∀ i ∈ storedForms, ∃ t g p, Outstanding (stored i) 1 2 0 t g p ∧
      decide (p.instr = i ∧ p.replayed = false ∧ p.locs = [(0, 0), (63, 0x1FFC)].map (fun z => (z.1, .store 1 z.2)) ∧ p.release = false ∧
        t.rowPoison = []) = true) ∧
    ((([(0, spot), (63, spot)] : List (Nat × Xlat)).map fun z => z.1).Pairwise (· < ·) ∧
      ∀ z ∈ ([(0, spot), (63, spot)] : List (Nat × Xlat)), z.1 < 64) ∧
    (∀ i, ∀ z ∈ ([(0, spot), (63, spot)] : List (Nat × Xlat)), AtHome (fanned i) (.glob z.2) z.2 8 ∧ NoView (fanned i) z.2) := by
  have h : (vectorForms whole).all (fun i => mayEnd (fanned i) 1 2 0 fun _ _ p =>
      decide (p.instr = i ∧ p.replayed = false ∧ p.locs = [(0, spot), (63, spot)].map (fun z => (z.1, .glob z.2)) ∧ p.through = [] ∧
        p.release = false)) = true := by decide +kernel
  have b : storedForms.all (fun i => mayEnd (stored i) 1 2 0 fun t _ p =>
      decide (p.instr = i ∧ p.replayed = false ∧ p.locs = [(0, 0), (63, 0x1FFC)].map (fun z => (z.1, .store 1 z.2)) ∧ p.release = false ∧
        t.rowPoison = [])) = true := by decide +kernel
  refine ⟨fun i hi => end_of (List.all_eq_true.mp h i hi), fun i hi => end_of (List.all_eq_true.mp b i hi), by decide +kernel, fun i z hz => ?_⟩
  simp only [List.mem_cons, List.not_mem_nil, or_false] at hz
  obtain rfl | rfl := hz <;> exact ⟨atHome_spot rfl rfl rfl rfl, fun _ => rfl⟩

/-- A line of MANUAL memory that the core has in its L1, with one dirty byte; the same of host memory. -/
abbrev page : Xlat := ⟨0x20000, 1, 0, false⟩
abbrev hostPage : Xlat := { page with host := true }
def copy (x : Xlat) : Copy := ⟨.l1 0, placeOf x / 128, 0, List.replicate 128 7, 1, false⟩

/-- An instruction outstanding on it, through a MANUAL leaf; `q` are the ways that its class has in die 0 and in the LLC. -/
def kept (x : Xlat) (q : Nat) (i : Instr) : State :=
  { pended ringFull (fun h => { h.pend 9 i 0 allLanes [] with locs := [(0, .glob x)], sa := 0x20000, sb := 128 }) with
    copies := [copy x]
    tlb := [if x.host then ⟨0, 0x20000, 0x8000, 0x31D, some 0x20000⟩ else ⟨0, 0, 2 ^ 27, 0x11D, none⟩]
    manage := { ringFull.manage with wayq := List.replicate 13 (BitVec.ofNat 64 q) } }

/-- What the statement wants of it. -/
def keptOk (x : Xlat) (q : Nat) (i : Instr) : Bool :=
  let s := kept x q i
  let line := placeOf x / 128
  mayEnd s 1 2 0 fun t _ p => decide (p.instr = i ∧ p.replayed = false ∧ p.through = [] ∧ p.locs = [(0, .glob x)] ∧ p.release = false ∧
    s.copyAt (.l1 t.core) line = some (copy x) ∧
    s.manualRuns t.asid p.sa.toNat (p.sa.toNat + p.sb.toNat) = [(line, line, x.cls, x.host)] ∧
    s.rangeMisses t.asid p.sa.toNat (p.sa.toNat + p.sb.toNat) p.refused = [] ∧ (∀ r ∈ s.owedRuns t.core p.seq, ¬(r.1 ≤ line ∧ line ≤ r.2))) &&
    decide (s.copyAt (.die (t.core / 128)) line = none ∧ s.copyAt .llc line = none ∧ s.poisoned line = false ∧ (s.dirLine line).dies = [] ∧
    s.copies.length < 16 ∧ s.quota (t.core / 128) x.cls = q ∧
    s.quota 12 x.cls = q)

/-- A CINV of a line that an outstanding CWB of another group is to write back. -/
def owing : State := inTeam (fun t => { t with groups := t.groups.map fun g =>
  if g.num = 0 then { g with pending := [{ memMe.pend 8 (.cwb 0 .package 1 2) 0 allLanes [] with sa := 0x20000, sb := 128 }] } else g })
  (kept page 1 (.cinv 0 .package 1 2))

theorem witness_ManualCopies :
    (∀ i ∈ [Instr.sld 0 .four false .cluster 4 1, .sst 0 .two false .cluster 4 1, .cwb 0 .package 1 2, .cwb 0 .die 1 2, .cinv 0 .cluster 1 2,
      .cwbinv 0 .package 1 2], keptOk page 1 i = true) ∧
    keptOk page 0 (.cwb 0 .cluster 1 2) = true ∧
    (∀ i ∈ [Instr.cwb 0 .package 1 2, .cwb 0 .system 1 2, .cwb 0 .die 1 2], keptOk hostPage 1 i = true) ∧
    mayEnd owing 1 2 0 (fun t _ p => decide (p.instr = .cinv 0 .package 1 2 ∧
      ∃ r ∈ owing.owedRuns t.core p.seq, r.1 ≤ placeOf page / 128 ∧ placeOf page / 128 ≤ r.2)) = true ∧
    (page.bar0 = none ∧ remotePkg page.pa = none ∧ page.pa < 2 ^ 52 ∧ page.mt = 1 ∧ (copy page).poison = false ∧ (copy page).dirty ≠ 0 ∧
      (copy page).bytes.length = 128 ∧ page.pa % 128 + 8 ≤ 128) ∧
    (let s := { kept page 1 (.cwb 0 .package 1 2) with schedule := [.evict (.l1 0) 0x400] }
     mayEnd s 1 2 0 (fun t _ _ => decide (t.core = 0 ∧ s.copyAt (.l1 0) (page.pa / 128) = some (copy page))) = true ∧ page.pa / 128 = 0x400) :=
  ⟨by decide +kernel, by decide +kernel, by decide +kernel, by decide +kernel, by decide +kernel, by decide +kernel⟩

/-- A GOT entry that is not bound, and a binder of it. -/
def unbound : State := { with3 0 0 0 (world 2) with mem := [(0x40000, 1)] }
def binder (team : Nat) : GotBinding := ⟨0x40000, 0, team, 2, 0⟩

/-- SLDC or SLDGOT finds its place. -/
abbrev constAt (s : State) (v : DWord) : Except Stop (SMap Loc) × State := s.decide (me s) .read false false false 8 (me s).strand.refused [(0, v)]

theorem witness_RangesConstantsAndPrefetch :
    (At (with3 0x20000 0 0 (world 2)) fun h => h.readS 2 = 0) ∧
    (At (with3 (2 ^ 57 - 1) 2 0 (world 2)) fun h => h.readS 2 ≠ 0 ∧ 2 ^ 57 < (h.readS 1).toNat + (h.readS 2).toNat) ∧
    (At (with3 (2 ^ 57 - 1) 1 0 (world 2)) fun h => h.readS 2 ≠ 0 ∧ (h.readS 1).toNat + (h.readS 2).toNat ≤ 2 ^ 57 ∧ h.group.outcnt < 32) ∧
    (memMe.issueFault (.vpref whole 2 (.sreg 1) (.vec 15)) = none ∧
      (memMe.fetch (memMe.mask whole) (Instr.vreads (.vpref whole 2 (.sreg 1) (.vec 15))) mem0.queues).toOption.isSome = true) ∧
    (∃ e, constAt mem0 0x20078 = (.ok [(0, .glob spot)], { mem0 with tlb := e })) ∧
    AtHome mem0 (.glob spot) spot 8 ∧
    ((0x20078 : DWord) = memMe.readS 1 + BitVec.ofInt 64 (8 * (15 : BitVec 10).toInt) ∧
      (0x20078 : DWord) = ({ Ctx.reset with got := 0x20078 } : Ctx).got + BitVec.ofNat 64 (8 * (0 : BitVec 16).toNat) ∧
      ∀ p ∈ memMe.grp.pendingOf memMe.strand.sid, p.before (.glob spot) 8 = false) ∧
    (unbound.here = some (me unbound) ∧ ((constAt unbound 0x40000).1.toOption.isSome && decide ((constAt unbound 0x40000).2 = unbound)) = true ∧
      (unbound.mem.byte 0x40000).getLsbD 0 = true ∧ (mem0.mem.byte 0x40000).getLsbD 0 = false ∧
      unbound.binds.find? (fun b => b.va == 0x40000 && b.asid == 0) = none ∧
      ([binder 1].find? fun b => b.va == 0x40000 && b.asid == 0) = some ⟨0x40000, (me unbound).team.asid, (me unbound).team.info.uid,
        (me unbound).group.num, (me unbound).strand.sid⟩ ∧
      ([binder 7].find? fun b => b.va == 0x40000 && b.asid == 0) = some (binder 7) ∧ binder 7 ≠ binder 1) ∧
    -- a miss on a page, and one that was refused
    (let far := with3 (2 ^ 27) 0 0 (world 2)
     let told := inStrand (fun x => { x with refused := [4096] }) far
     ∀ s ∈ [far, told], s.here = some (me s) ∧ (s.checkAddr (me s) (2 ^ 27) 8).toOption = some (.glob (2 ^ 27)) ∧
       (s.translate 0 (2 ^ 27) .read).1 = .miss 4096 false ∧ ((me s).strand.refused = [] ∨ (me s).strand.refused = [4096])) :=
  ⟨here_of (by decide +kernel), here_of (by decide +kernel), here_of (by decide +kernel), by decide +kernel,
    ⟨mem0.tlb, by
      have h : (constAt mem0 0x20078).1.toOption = some [(0, .glob spot)] ∧ (constAt mem0 0x20078).2 = mem0 := by decide +kernel
      obtain ⟨h1, h2⟩ := h
      revert h1 h2
      generalize constAt mem0 0x20078 = r
      obtain ⟨a, b⟩ := r
      rintro h1 rfl
      cases a with
      | error x => simp [Except.toOption] at h1
      | ok ls => simpa [Except.toOption] using h1⟩,
    atHome_spot rfl rfl rfl rfl, by decide +kernel, by decide +kernel, by decide +kernel⟩

end Sys2Proof.Tests
end

