-- ==== Sys2Proof/Tests/Witness5.lean ====
section
/-! SUPPORT. The hypotheses of the statements about the matrix engine and jobs are met. -/

namespace Sys2Proof.Tests

set_option Elab.async false

open Sys2Proof Sys2Proof.Machine Sys2Proof.Claims

/-- The strand of the MATRIX group, whose tiles are of one row of 32 I8 elements, with a ring 0 of two stages of one row, one of them full. -/
abbrev aRing : Ring := ⟨true, false, 0, 0, 1, 0, 1, 0, 2, 0, [], none⟩
abbrev eng : State := inTeam (fun t => { t with rings := t.rings.insert 0 aRing }) (with3 (0xB * 2 ^ 60) 0xFF 0 (world 0))
abbrev engMe : Here := me eng

/-- A control word that a tile register takes (R264). -/
def fitsTcfg (x : Word) : Bool :=
  decide (x.toNat < 2 ^ 20) && (match Fmt.ofCode (x.extractLsb' 14 6) with
    | some f => isMatrixFmt f && decide ((x.toNat / 64 % 256 + 1) * ((32 * (x.toNat % 64 + 1) * (f.num engMe.group.fmts).bits + 7) / 8) ≤ 32768)
    | none => false)

/-- Engine instructions without a card. -/
def engineForms : List Instr :=
  [.tzero 0 (.tile 7), .tzero 0 (.acc true), .tmov 0 (.vt 0 8 7 1), .tmov 0 (.tv 8 0 7 1), .tmov 0 (.tt 1 0), .tldr 0 false 0 0,
    .tldr 15 true 0 0, .tbest 0 false .rne false false true false true (some .f32) 8 2, .tcupd 0 false 0 14, .tcfin 0 false .rne 0 true true,
    .twait 0]

theorem witness_EngineIssue :
    (∀ i ∈ engineForms, ∃ vs qs, LongReady eng engMe i engMe.strand.exec vs qs) ∧
    (engMe.issueFault (.tcfg 7 (.lit 0xFFFC0)) = none ∧ (7 : BitVec 3).toNat < engMe.team.tiles.length ∧
      fitsTcfg 0x03FC0 = true ∧ fitsTcfg 0x03FFF = false ∧ fitsTcfg 0xFC000 = false ∧ fitsTcfg 0x100000 = false ∧ (engMe.shape 0).isSome = true ∧
      (engMe.shape 0).any (fun p => decide (p.rows ≤ 128 ∧ p.cols ≤ 256)) = true ∧
      (engMe.readS 2).toNat % 256 + (engMe.readS 2).toNat / 256 % 256 ≤ 255) ∧
    (engMe.team.rings.find 0 = some aRing ∧ aRing.active = true ∧
      (engMe.shape 0).any (fun p => decide (aRing.fmt = (engMe.ctl 0).extractLsb' 14 6 ∧ p.image ≤ 256 * (aRing.ssize + 1))) = true) ∧
    (let bad := inTeam (fun t => { t with tiles := t.tiles.set 2 { bytes := [], scales := [], ctl := 0xFC000, poison := false } }) eng
     bad.here = some (me bad) ∧ (me bad).shape 2 = none ∧ ∀ i ∈ [Instr.tzero 0 (.tile 2), .tmov 0 (.tt 1 2)],
      (me bad).issueFault i = none ∧ ((me bad).fetch (me bad).strand.exec i.vreads bad.queues).toOption.isSome = true ∧
      bad.ownQueues (me bad) i.vwrites = none) :=
  ⟨long_all (by decide +kernel), by decide +kernel, by decide +kernel, by decide +kernel⟩

/-! ## Cards -/

/-- A card's regions 0 and 1 (Table 09-5): intents and lengths. -/
def lens (i0 n0 i1 n1 : Nat) : DWord := BitVec.ofNat 64 (n0 + i0 * 2 ^ 30 + n1 * 2 ^ 32 + i1 * 2 ^ 62)

/-- The cards of a raw copy, a load, a store, a product, a drain to a tile, a loaded accumulator and a collective. -/
def copyCard (c0 : DWord) : List DWord := [c0, 0x0008000000000000, 0x20000, 0x21000, 0, 0, lens 1 64 2 64, 0]
def loadCard : List DWord := [0, 0, 0x20000, 0, 0, 0, lens 1 32 0 0, 0]
def storeCard : List DWord := [0, 0, 0x20000, 0, 0, 0, lens 2 32 0 0, 0]
def productCard : List DWord := [0, 0, 0, 0, 0, 0, 0, 0]
def drainCard : List DWord := [0, 31 * 2 ^ 34, 0, 0, 0, 0, 0, 0]
def accCard : List DWord := [0, 2 * 2 ^ 34, 0x20000, 0, 0, 0, lens 1 4 0 0, 0]
def collCard : List DWord := [0, 2 * 2 ^ 58 + 2 * 2 ^ 52 + 2 ^ 49, 0x20000, 0x21000, 0, 0, lens 1 64 3 64, 0]
def packedCard : List DWord := [0, 2 ^ 33, 0x20000, 0, 0, 0, lens 1 32 0 0, 0]

/-- The state with a card at the scratchpad's first byte, its address in `s1`. -/
def carded (g : Nat) (ws : List DWord) : State :=
  inTeam (fun t => t.putBytes (cellsAt (t.scratchOff 0) (ws.flatMap fun w => bytesOfNum 8 w.toNat))) (with3 (0xB * 2 ^ 60) 0 0 (world g))

/-- The card is read at issue, and passes the checks `codes`. -/
def cardOk (g : Nat) (i : Instr) (ws : List DWord) (codes : State → Here → List Code) : Bool :=
  let s := carded g ws
  let h := me s
  decide (s.here = some h) && (h.issueFault i).isNone && (s.ownQueues h i.vwrites).isNone &&
    decide ((s.readCard h (h.readS 1)).toOption = some ws) && decide (s.cardCodes h ws ++ codes s h = []) && decide (h.group.outcnt < 32) &&
    decide (cardTag ws = some 0 ∧ h.team.tagsFly.getLsbD 0 = false)

theorem witness_CardIssue :
    cardOk 0 (.tld 0 false .rne (.tile 0) 1) loadCard (fun _ _ => tileCardCodes true loadCard) = true ∧
    cardOk 0 (.tld 0 false .rne (.acc true) 1) accCard (fun _ _ => accCardCodes accCard) = true ∧
    cardOk 0 (.tst 0 false .rne 0 1) storeCard (fun _ _ => tileCardCodes false storeCard) = true ∧
    cardOk 0 (.tmma 0 .dot false 0 1 1) productCard (fun _ h => mmaCodes h 0 1 productCard) = true ∧
    cardOk 0 (.tdrain 0 false .rne false false (.tile 0) 1) drainCard (fun _ h => drainCodes h (.tile 0) drainCard) = true ∧
    cardOk 1 (.cpy 0 false .rne 1) (copyCard 0) (fun s h => s.cpyCodes h (copyCard 0)) = true ∧
    cardOk 1 (.coll 0 false .rne 1) collCard (fun s h => s.collCodes h collCard) = true ∧
    -- the pair of TMMA, a card with a reserved bit, and a tag in flight
    (mmaPair .i8 .i8 = true ∧ ((me (carded 0 productCard)).shape 0).isSome = true) ∧
    (cBadCard ∈ (carded 1 (copyCard 1)).cardCodes (me (carded 1 (copyCard 1))) (copyCard 1) ∧
      ((carded 1 (copyCard 1)).readCard (me (carded 1 (copyCard 1))) ((me (carded 1 (copyCard 1))).readS 1)).toOption = some (copyCard 1)) ∧
    (cardTag (copyCard (63 * 2 ^ 46)) = some 63 ∧
      (inTeam (fun t => { t with tagsFly := 2 ^ 63 }) (carded 1 (copyCard (63 * 2 ^ 46)))).here.any (fun h => h.team.tagsFly.getLsbD 63) = true) := by
  decide +kernel

/-! ## Results -/

/-- An engine instruction that has issued. -/
def begun (i : Instr) : State :=
  pended eng fun h => { h.pend 9 i 0 allLanes (List.replicate 8 zeroRow) with sb := 0, stage := (0, 0, 256) }

/-- A packed tile whose only block is zero stands in the stage of a TLDR.pk. -/
def packedStage : State :=
  inTeam (fun t => t.putBytes (cellsAt (t.scratchOff 0) (bytesOfNum 8 (32 * 2 ^ 34 + 31 * 2 ^ 23)))) (begun (.tldr 15 true 0 0))

/-- The stage holds a packed tile, and one that ends failed. -/
def stageOk (s : State) (good : Bool) : Bool :=
  mayEnd s 1 0 0 fun t _ p => match p.shape 0 with
    | some sh => !t.rowsBad (t.scratchOff p.stage.2.1) p.stage.2.2 &&
      (match packedHeader sh (t.bytes (t.scratchOff p.stage.2.1) 16) with
        | some (size, _) => good && decide (size ≤ p.stage.2.2) && (expandPacked sh (t.bytes (t.scratchOff p.stage.2.1) size)).isSome
        | none => !good)
    | none => false

theorem witness_EngineResults_packed : stageOk packedStage true = true ∧ stageOk (begun (.tldr 15 true 0 0)) false = true := by decide +kernel

theorem witness_EngineResults : ∀ i ∈ engineForms, ∃ t g p, Outstanding (begun i) 1 0 0 t g p ∧
    decide (p.instr = i ∧ t.tiles.all (fun x => !x.poison) = true ∧ (t.acc false).poison = false ∧ (p.shape 0).isSome = true ∧
      (p.shape 0).any (fun q => decide (q.cols ≤ 256)) = true ∧ p.mask ≠ 0 ∧ t.rowsBad (t.scratchOff p.stage.2.1) 32 = false) = true := by
  have h : engineForms.all (fun i => mayEnd (begun i) 1 0 0 fun t _ p => decide (p.instr = i ∧
      t.tiles.all (fun x => !x.poison) = true ∧ (t.acc false).poison = false ∧ (p.shape 0).isSome = true ∧
      (p.shape 0).any (fun q => decide (q.cols ≤ 256)) = true ∧ p.mask ≠ 0 ∧ t.rowsBad (t.scratchOff p.stage.2.1) 32 = false)) = true := by
    decide +kernel
  exact fun i hi => end_of (List.all_eq_true.mp h i hi)

/-- A job of a group, in a phase. -/
def jobOf (g : Nat) (i : Instr) (ws : List DWord) (ph : JobPhase) (fail : Option Nat) : Job :=
  { (me (world g)).job 7 i .rne 0 ws with phase := ph, fail := fail }

/-- A state with the job. -/
def atWork (g : Nat) (i : Instr) (ws : List DWord) (ph : JobPhase) (fail : Option Nat) : State := { world g with jobs := [jobOf g i ws ph fail] }

/-- The job's strand. -/
abbrev worker (g : Nat) (j : Job) : Here := ⟨crew, (me (world g)).group, (me (world g)).group.strandFor j.sid⟩

/-- The job, its team and its group are found, and `P` holds. -/
def jobThere (g : Nat) (i : Instr) (ws : List DWord) (ph : JobPhase) (fail : Option Nat) (P : State → Job → Here → Bool) : Bool :=
  let s := atWork g i ws ph fail
  let j := jobOf g i ws ph fail
  decide (s.job? 7 = some j) && decide (s.team? j.team = some crew) && decide (crew.group? j.group = some (me (world g)).group) &&
    P s j (worker g j)

/-- A job may start whatever units it takes: its die's budget is whole (R389). -/
def mayBegin (s : State) (j : Job) (h : Here) : Bool := s.couldStart j h && decide (256 ≤ (s.die (coreDie j.core)).budget)

theorem starts_of {s : State} {j : Job} {h : Here} (e : mayBegin s j h = true) : s.mayStart j h = true := by
  simp only [mayBegin, Bool.and_eq_true, decide_eq_true_eq] at e
  have h : ¬(s.die (coreDie j.core)).budget < min 256 (Config.occupancy j.uid + 1) := by omega
  simp [State.mayStart, State.governed, Job.units, e.1, h]

/-- The packed image of a tile whose only block is zero. -/
def packedBytes : List (Nat × Byte) := cellsAt 0x20000 (bytesOfNum 8 (32 * 2 ^ 34 + 31 * 2 ^ 23))

/-- A team whose first failure is for a strand that is held, and whose second can be delivered. -/
def failing2 : Team := { crew with
  fails := [⟨0, 0, 0x17, 62, 0⟩, ⟨2, 0, 0x17, 63, 0⟩]
  groups := crew.groups.map fun g => if g.num = 0 then { g with strands := g.strands.map fun x => { x with hold := some (.page [4096] 0) } } else g }

/-- A team with a failure to deliver. -/
def failing : Team := { crew with fails := [⟨2, 0, 0x17, 63, 0⟩] }

theorem witness_JobsRun :
    jobThere 1 (.cpy 0 false .rne 1) (copyCard 0) .waiting none (fun s j _ => s.mayAccept j crew) = true ∧
    jobThere 1 (.cpy 0 false .rne 1) (copyCard 0) .accepted none (fun s j h => mayBegin s j h && (match (s.work h j (h.jobPending j)).1 with
      | .ok u => decide (u.job? 7 = some j) | .error _ => false)) = true ∧
    jobThere 0 (.tld 0 false .rne (.tile 0) 1) packedCard .accepted none (fun s j h => mayBegin s j h &&
      (match s.work h j (h.jobPending j) with | (.error (.fault _ _ _), u) => decide (u.job? 7 = some j) | _ => false)) = true ∧
    jobThere 1 (.cpy 0 false .rne 1) [0, 0x0008000000000000, 0x8000000, 0x21000, 0, 0, lens 1 64 2 64, 0] .accepted none (fun s j h =>
      mayBegin s j h && (match s.work h j (h.jobPending j) with | (.error (.miss _ _), u) => decide (u.job? 7 = some j) | _ => false)) = true ∧
    jobThere 1 (.cpy 0 false .rne 1) (copyCard 0) .started (some 0x17) (fun s j _ => decide (j.scope = 0) && s.tsync) = true ∧
    (let s : State := { atWork 0 (.tld 0 false .rne (.tile 0) 1) packedCard .accepted none with mem := Memory.setAll [] packedBytes }
     let j := jobOf 0 (.tld 0 false .rne (.tile 0) 1) packedCard .accepted none
     s.job? 7 = some j ∧ mayBegin s j (worker 0 j) = true ∧ (cardWord j.words 1).getLsbD 33 = true ∧
       (j.shape 0).any (fun p => decide (0 < p.rows) && (s.packedOf (worker 0 j) j p).any fun bs => (expandPacked p bs).isSome) = true) ∧
    (let s : State := { world 2 with teams := [failing] }
     s.team? 1 = some failing ∧ (failing.receiver ⟨2, 0, 0x17, 63, 0⟩).any (fun r =>
       (s.stopHold (Here.mk { failing with fails := [] } r.1 r.2) 1).isNone && s.ready ⟨failing, r.1, r.2⟩) = true) ∧
    ({ failing with groups := failing.groups.map fun g => { g with strands := [] } } : Team).receiver ⟨2, 0, 0x17, 63, 0⟩ = none ∧
    (let s : State := { world 2 with teams := [failing2] }
     s.team? 1 = some failing2 ∧ failing2.fails.all (fun q => (failing2.receiver q).isSome) = true ∧
       (failing2.receiver ⟨0, 0, 0x17, 62, 0⟩).any (fun r => decide (r.1.num = 0) && !s.ready ⟨failing2, r.1, r.2⟩) = true ∧
       (failing2.receiver ⟨2, 0, 0x17, 63, 0⟩).any (fun r => decide (r.1.num = 2) && (s.stopHold ⟨failing2, r.1, r.2⟩ 1).isNone &&
         s.ready ⟨failing2, r.1, r.2⟩) = true) ∧
    (packedStage.job? 9 = none ∧ (packedStage.bySeq 9).any (fun z => decide (packedStage.team? z.1.team.info.uid = some z.1.team ∧
      z.2.instr = .tldr 15 true 0 0) && packedStage.mayFinish z.1 z.2) = true) := by
  decide +kernel

/-- A run that lies in a card's region, and whose bytes can be accessed. -/
def runOk (s : State) (j : Job) (write : Bool) (a n : Nat) : Bool :=
  inRegion j.words write (BitVec.ofNat 64 a, n) && reachable s crew write (BitVec.ofNat 64 a) n

/-- The bytes from an address on are all different. -/
def spotsFrom (a n : Nat) : Bool := decide ((List.range n).map fun i => Spot.mem (a + i)).Nodup

/-- Cards of a drain to memory, of a drain to vector registers, and of a copy that converts. -/
def memCard : List DWord := [0, 31 * 2 ^ 34, 0x20000, 0, 0, 0, lens 2 128 0 0, 0]
def vecCard : List DWord := [0, 63 * 2 ^ 34, 0, 0, 0, 0, 0, 0]
def convCard : List DWord := [0, 2 * 2 ^ 58 + 2 * 2 ^ 52, 0x20000, 0x21000, 0, 0, lens 1 64 2 64, 0]

/-- The job is there and may start, and `P` holds. -/
def startable (g : Nat) (i : Instr) (ws : List DWord) (P : State → Job → Bool) : Bool :=
  jobThere g i ws .accepted none fun s j h => mayBegin s j h && !crew.enginePoison [0, 1] [false] && P s j

theorem witness_JobResults :
    startable 0 (.tmma 0 .dot false 0 1 1) productCard (fun _ j => match j.shape 0, j.shape 1 with
        | some _, some q => decide ((cardWord j.words 1).toNat / 2 ^ 49 % 256 + q.rows ≤ 256) | _, _ => false) = true ∧
    jobThere 1 (.cpy 0 false .rne 1) (copyCard 0) .accepted none (fun s j h => mayBegin s j h && cpyRaw j.words &&
      (let r := s.jobAccess h j.words j.refused [(cardWord j.words 2, (cardRegion j.words 0).len)]
          [(cardWord j.words 3, (cardRegion j.words 1).len)] false
       decide (r.1.toOption = some ([[(.glob ⟨0x20000, 0, 0, false⟩, 64)]], [[(.glob ⟨0x21000, 0, 0, false⟩, 64)]])) && decide (r.2 = s)) &&
      homely s ⟨0x20000, 0, 0, false⟩ 64 && homely s ⟨0x21000, 0, 0, false⟩ 64) = true ∧
    ((world 0).teams.map fun x => x.info.uid).Nodup ∧
    -- a load and a store of one row of 32 bytes, and a load of one element into an accumulator
    startable 0 (.tld 0 false .rne (.tile 0) 1) loadCard (fun s j => (memFmt j.words).any (fun m => (m.num j.fmts).bits == 8) &&
      (j.shape 0).any (fun p => decide (p.rows = 1 ∧ p.cols = 32)) && runOk s j false 0x20000 32) = true ∧
    startable 0 (.tst 0 false .rne 0 1) storeCard (fun s j => (memFmt j.words).any (fun m => (m.num j.fmts).bits == 8) &&
      (j.shape 0).any (fun p => decide (p.rows = 1 ∧ p.cols = 32)) && runOk s j true 0x20000 32 && spotsFrom 0x20000 32) = true ∧
    startable 0 (.tld 0 false .rne (.acc true) 1) accCard (fun s j => (memFmt j.words).any (fun m => (m.num j.fmts).bits == 32) &&
      decide ((cardWord j.words 1).toNat / 2 ^ 10 % 128 = 0 ∧ (cardWord j.words 1).toNat / 2 ^ 2 % 256 = 0) && runOk s j false 0x20000 4) = true ∧
    -- drains of row 0: 32 columns to memory and to a tile, 64 to a vector register
    startable 0 (.tdrain 0 false .rne true false (.mem .f32) 1) memCard (fun s j => runOk s j true 0x20000 128 && spotsFrom 0x20000 128) = true ∧
    startable 0 (.tdrain 0 false .rne true false (.tile 0) 1) drainCard (fun _ j => (j.shape 0).any fun p => decide (p.rows = 1 ∧ p.cols = 32)) =
      true ∧
    startable 0 (.tdrain 0 false .rne true false (.vec 8 0 .f32) 1) vecCard (fun _ _ => true) = true ∧
    -- copies of 64 bytes, as they are and converted, and a collective
    startable 1 (.cpy 0 false .rne 1) (copyCard 0) (fun s j => runOk s j false 0x20000 64 && runOk s j true 0x21000 64 && spotsFrom 0x21000 64) =
      true ∧
    startable 1 (.cpy 0 false .rne 1) convCard (fun s j => !(cardWord j.words 1).getLsbD 51 && (cpySrc j.words).any (fun a => (a.num j.fmts).bits == 32) &&
      (cpyDst j.words).any (fun b => (b.num j.fmts).bits == 32) && runOk s j false 0x20000 64 && runOk s j true 0x21000 64) = true ∧
    startable 1 (.coll 0 false .rne 1) collCard (fun s j => (cpySrc j.words).any (fun a => (a.num j.fmts).bits == 32 && !(a.num j.fmts).isMx) &&
      (collType (cpyDst j.words)).any (fun ty => !ty.is64) && runOk s j false 0x20000 64 && runOk s j true 0x21000 64 && runOk s j false 0x21000 64) =
      true :=
  ⟨by decide +kernel, by decide +kernel, by decide +kernel, by decide +kernel, by decide +kernel, by decide +kernel, by decide +kernel,
    by decide +kernel, by decide +kernel, by decide +kernel, by decide +kernel, by decide +kernel⟩

/-- What `runOk` computes is what the statement wants of a run. -/
theorem run_of {s : State} {j : Job} {write : Bool} {a n : Nat} {g : Group} (e : runOk s j write a n = true) :
    inRegion j.words write (BitVec.ofNat 64 a, n) = true ∧
      Reaches s crew g write (BitVec.ofNat 64 a) n fun i => .mem ((BitVec.ofNat 64 a).toNat + i) := by
  simp only [runOk, Bool.and_eq_true] at e
  exact ⟨e.1, reaches_of e.2⟩

end Sys2Proof.Tests
end

