-- ==== Sys2Proof/Tests/Witness6.lean ====
section
/-! SUPPORT. The hypotheses of the statements about tags, rings, streams and schedules are met. -/

namespace Sys2Proof.Tests

set_option Elab.async false

open Sys2Proof Sys2Proof.Machine Sys2Proof.Claims

/-- The next instruction is one of a strand's, and takes no fault at issue. -/
def fits (s : State) (is : List Instr) : Bool :=
  decide (s.here = some (me s)) && is.all fun i => ((me s).issueFault i).isNone

theorem witness_TagsAndRings :
    -- tags
    (let s := inTeam (fun t => { t with tagsDone := 5 }) (with3 5 2 7 (world 0))
     fits s [.tagwait true 1, .tagwait false 1, .tagff true 2 3, .tagclr 3] = true ∧ (me s).team.tagsDone &&& 5 = 5 ∧ (me s).team.tagsDone &&& 2 ≠ 2 ∧
       (me s).team.tagsDone &&& 2 = 0) ∧
    -- ring instructions: a new ring, one of a bad size, one with a stage full, one whose stages are all full, one of a stager
    (let s := with3 0 (2 ^ 9) 0 (world 1)
     fits s [.rinit 0 1 2, .rinit 0 1 3, .racq 4 0] = true ∧ (me s).team.rings.find 0 = none ∧ s.coreRings (me s).team.core < 8 ∧
       (Fmt.ofCode 0).any isMatrixFmt = true ∧ 256 * 2 ≤ 1024 * (me s).team.info.header.scratch) ∧
    (let one : Ring := ⟨true, false, 0, 0, 1, 0, 1, 0, 2, 0, [], none⟩
     let at_ := fun (g : Nat) (r : Ring) => inTeam (fun t => { t with rings := t.rings.insert 0 r }) (world g)
     fits (at_ 1 one) [.racq 4 0, .rcommit 0 1, .rinit 0 1 2] = true ∧ fits (at_ 0 one) [.rwait 4 0, .rrel 0] = true ∧ (me (at_ 1 one)).team.stageFree 0 one = true ∧
     one.phase.getLsbD 0 = false ∧ (me (at_ 0 one)).grp.outstanding = [] ∧
     (let full := { one with pcur := 2, phase := 0 }
      fits (at_ 1 full) [.racq 4 0] = true ∧ (me (at_ 1 full)).team.stageFree 0 full = false) ∧
     (let none_ := { one with pcur := 0, phase := 3 }
      fits (at_ 0 none_) [.rwait 4 0, .rrel 0] = true ∧ none_.phase.getLsbD 0 = true) ∧
     fits (at_ 1 { one with stg := true }) [.racq 4 0, .rcommit 0 1] = true) := by
  decide +kernel

/-- The words of a tensor of one tile of 32 I8 elements at 0x21000. -/
def tensor : List DWord := [0x21000, 0x100000020, 32, 0, 0, 0, 0, 0]

/-- A ring and its stager's subscription, and a state whose team has it, with the tensor's descriptor in memory. -/
def sub0 : Subscription := ⟨0, false, 0x20000, tensor, 0, 1, 0, 0, 0, .rne, false, (Group.start crew.info 0 0 0).fmts, 1, 0, none, 0, none, []⟩
def ring0 (b : Option Subscription) : Ring := ⟨true, b.isSome, 0, 0, 1, 0, 0, 0, 3, 0, [], b⟩
def staging (r : Ring) : State :=
  { inTeam (fun t => { t with rings := t.rings.insert 0 r }) (with3 0x20000 7 0x20008 (world 1)) with
    mem := Memory.setAll [] (cellsAt 0x20000 (tensor.flatMap fun w => bytesOfNum 8 w.toNat)) }

/-- A ring 0 of the strand's team. -/
abbrev teamOf (s : State) : Team := (me s).team

theorem witness_StagersAndStreams :
    -- RSUB and RUNSUB
    (let s := staging (ring0 none)
     let h := me s
     let q := s.decide h .read true false false 8 h.strand.refused ((List.range 8).map fun i => (i, (0x20000 : DWord) + BitVec.ofNat 64 (8 * i)))
     let m := q.2.machineRead h.team.agent 0x20000 64
     fits s [.rsub false false .rne 0 1 2, .rsub true true .rtz 0 3 2, .runsub 0 2] = true ∧ h.team.rings.find 0 = some (ring0 none) ∧ q.1.toOption.isSome = true ∧
       q.2 = { s with tlb := q.2.tlb } ∧ (m.1.toOption.map fun bs => dwordsOf bs 8) = some tensor ∧ m.2.teams = s.teams ∧ m.2.cur = s.cur ∧
       rsubCodes h.group.fmts (ring0 none) tensor = [] ∧ s.runBusy h.team.asid 0x20000 64 = false) ∧
    -- a descriptor with a reserved word, one of tiles larger than a slot, and a ring that is bound
    (let f := (me (staging (ring0 none))).group.fmts
     ((tensor.set 5 1).getD 5 0).toNat ≠ 0 ∧ (Fmt.ofCode (ring0 none).fmt).all (fun x => decide (256 * ((ring0 none).ssize + 1) <
         Shape.image ⟨x, x.num f, ((tensor.set 3 (31 * 2 ^ 23)).getD 3 0).toNat / 2 ^ 23 % 256 + 1, 32⟩)) = true ∧ (ring0 (some sub0)).stg = true ∧
       [tensor.set 5 1, tensor.set 3 (31 * 2 ^ 23), tensor].all (fun (ws : List DWord) => let s := { staging (ring0 none) with
           mem := Memory.setAll [] (cellsAt 0x20000 (ws.flatMap fun (w : DWord) => bytesOfNum 8 w.toNat)) }
         ((s.machineRead (me s).team.agent 0x20000 64).1.toOption.map fun bs => dwordsOf bs 8) == some ws) = true) ∧
    (let s := staging (ring0 (some sub0))
     fits s [.runsub 0 2] = true ∧ (teamOf s).tagsFly.getLsbD 7 = false ∧
       (inTeam (fun t => { t with tagsFly := 0x80 }) s).here.any (fun h => h.team.tagsFly.getLsbD 7) = true) ∧
    -- the background
    (let r : Ring := { ring0 none with commits := [⟨[], 9, 1, 0⟩] }
     let s := staging r
     s.team? 1 = some (teamOf s) ∧ s.commitMet (teamOf s) ⟨[], 9, 1, 0⟩ = true ∧ (teamOf s).stageFree 0 r = true) ∧
    (let b : Subscription := { sub0 with out := true }
     (teamOf (staging (ring0 (some b)))).mayStage 0 (ring0 (some b)) b = true) ∧
    (let s := staging (ring0 (some sub0))
     s.team? 1 = some (teamOf s) ∧ (teamOf s).mayStage 0 (ring0 (some sub0)) sub0 = true ∧ (tensorShape sub0.fmts sub0.words 0).any (fun sh =>
       let q := s.stageTile (teamOf s) sub0 sh
       q.1.toOption.isSome && decide (q.2.team? 1 = some (teamOf s))) = true) ∧
    (let b : Subscription := { sub0 with out := true, pushed := 2, rrels := 1 }
     let r : Ring := { ring0 (some b) with pcur := 2, ccur := 1, phase := 0 }
     let s := staging r
     (teamOf s).mayWriteBack 0 r b = true ∧ r.again b = false ∧ (tensorShape b.fmts b.words 0).any (fun sh =>
       let q := s.unstageTile (teamOf s) r b sh
       q.1.toOption.isSome && decide (q.2.team? 1 = some (teamOf s))) = true) ∧
    -- queues: bound anew, bound again, drained, of another group; and their streams at work
    (let b := fun (k : QueueReg) => { with3 0x20000 (2 ^ 32 + 4 * 2 ^ 16) 0 (world 2) with queues := [(3, k)] }
     let k : QueueReg := ⟨1, 2, false, 0x20000, 2, 4, none, [], [], 0, 0, none, none, []⟩
     let s := b k
     let h := me s
     fits { s with queues := [] } [.qcfg false 3 1 2, .qcfg true 3 1 2, .qcfg false 3 1 3] = true ∧ fits s [.qcfg false 3 1 2] = true ∧
       foreign h.team h.group k = false ∧ foreign h.team h.group { k with group := 0 } = true ∧ h.group.pushesTo 1539 = false ∧
       s.streamHere k = some { h with group := { h.group with handler := none } } ∧
       (∀ a ∈ [Access.read, .write], let p := s.streamPlaces { h with group := { h.group with handler := none } } k a
         p.1.2 = ([], []) ∧ p.1.1.map (·.1) = List.range 64 ∧ p.2 = { s with tlb := p.2.tlb } ∧
         p.1.1.all (fun z => match z.2 with
           | .glob x => homely s x 4
           | .store _ _ => false) = true)) := by
  decide +kernel

/-- The schedule of a grid of 8 atoms in tiles of 4, its map at 0x20000, its tuner team 0's group 1. -/
def sched0 : Sched :=
  ⟨[0, 8, 1, 1, 1, 0, 4, 1, 1, 1, 0, 0, 0x20000, 0, 0x8001000000000000, 0], [], 0, []⟩

/-- A package whose grid has it, and a header which MAXDEPTH lets be spawned. -/
def tiled : State :=
  let s := with3 0x8000 9 2 (world 1)
  let d : Header := { hdr with addr := 0x8000, maxDepth := 3 }
  { inTeam (fun t => { t with info := { t.info with header := d } }) s with
    grids := [{ fetchGrid 0 with header := d, sched := some sched0 }]
    segs := [⟨0, fetchAt, 64, [0, 4], [d], [1], true⟩] }

/-- The same with an open claim. -/
def claimed (n : Nat) : State :=
  tiled.putSched 0 { sched0 with claims := List.replicate n ⟨1, [0, 0, 0, 0], 0, 15, [4, 1, 1, 1]⟩ }

theorem witness_ScheduleIssue :
    (fits tiled [.schrd 0 4 6, .schwr 0 3 6, .schwr 0 1 15, .nexttile 0 4, .atomdone 0 4 1, .spawn 0 1, .join] = true ∧ (me tiled).group.outcnt < 32 ∧
      tiled.sched? (teamOf tiled).info.grid = some sched0 ∧ sched0.tuner (teamOf tiled).info.number (me tiled).group.num = true ∧
      (((me tiled).grp.schedAfter sched0).write 6 2).withStaged.valid = true ∧ (((me tiled).grp.schedAfter sched0).write 15 0x8000).withStaged.valid = true ∧
      tiled.openClaims (teamOf tiled) < 8 ∧ (tiled.nextTile (teamOf tiled).info.grid 1 []).1.toOption = some [15, 0, 0, 0, 0x01010104] ∧
      (tiled.atomDone (teamOf tiled).info.grid 1 0x8000 (originOf 9 2) 0 []).1.toOption = some 0 ∧
      tiled.spawnCodes (me tiled) 0x8000 2 = [] ∧ tiled.hasChildren 1 = false) ∧
    (fits (world 2) [.schwr 0 3 6] = true ∧ (world 2).sched? 0 = none) ∧
    (fits (claimed 8) [.nexttile 0 4] = true ∧ 8 ≤ (claimed 8).openClaims (me (claimed 8)).team) ∧
    (fits (world 1) [.spawn 0 1] = true ∧ ((world 1).grid? crew.info.grid).any (fun g => g.header.maxDepth < crew.info.depth + 1) = true) ∧
    (let s := { tiled with tasks := [⟨{ crew.info with uid := 5, parent := some 1, depth := 1 }, .die 0, false⟩] }
     fits s [.join] = true ∧ s.hasChildren 1 = true) ∧
    -- a register that none may write, a tile of no atoms, no header, and one child too many
    (((11 : BitVec 4).toNat = 11 ∧ (4 : BitVec 4).toNat < 5) ∧ (((me tiled).grp.schedAfter sched0).write 6 0).withStaged.valid = false ∧
      ((sched0.reg 0).getLsbD 4 = false ∧ ({ sched0 with regs := sched0.regs.set 0 0x10 } : Sched).valid = false) ∧
      tiled.header? (teamOf tiled).asid 9 = none ∧ 1048575 < (1048576 : DWord).toNat) := by
  decide +kernel

/-- An instruction that has issued in a tiled grid with one claim. -/
def tasked (i : Instr) : State :=
  pended (claimed 1) fun h => { h.pend 9 i 0 1 [] with sa := 0x8000, sb := 0, sd := 2 }

theorem witness_ScheduleResults :
    (∀ i ∈ [Instr.schrd 0 4 6, .schwr 0 3 6, .schwr 0 3 15, .nexttile 0 4, .atomdone 0 4 1, .spawn 0 1], ∃ t g p, Outstanding (tasked i) 1 1 0 t g p ∧
      decide (p.instr = i ∧ ((tasked i).grid? t.info.grid).any (fun g => g.sched.isSome) = true ∧ p.stage = (0, 0, 0) ∧
        t.groups.all (fun q => !q.memBefore p.seq) = true) = true) ∧
    (let s := tasked (.nexttile 0 4)
     let q := s.nextTile (teamOf s).info.grid 1 []
     (q.1.toOption.map List.length) = some 5 ∧ q.2.teams = s.teams ∧ s.openClaims (teamOf s) < 8) ∧
    (let s := tasked (.atomdone 0 4 1)
     let q := s.atomDone (teamOf s).info.grid 1 3 [0, 0, 0, 0] 0 []
     q.1.toOption = some 3 ∧ q.2.teams = s.teams ∧ q.2.queues = s.queues) ∧
    (let s := tasked (.spawn 0 1)
     (s.header? 0 0x8000).any (fun d => (s.bindClass d.contract 0).any fun c => (s.childPlace (teamOf s).core c).isSome) = true ∧
       2 ≤ s.taskCap - s.entries ∧ ((s.grid? (teamOf s).info.grid).any fun g => g.failed.isNone) = true) ∧
    -- the walk and the commit: two bytes of map, the first tile with all its atoms, the last one passed, a rewrite that is staged
    (let s := claimed 1
     let c : Sched := { sched0 with claims := [⟨1, [0, 0, 0, 0], 0, 15, [4, 1, 1, 1]⟩] }
     s.sched? 0 = some c ∧ c.valid = true ∧ c.regs.length = 16 ∧ (s.grid? 0).any (fun g => g.failed.isNone && g.asid == 0) = true ∧
       [0, 1].all (fun i => reachable s (teamOf s) true (0x20000 + BitVec.ofNat 64 i) 1) = true ∧ s.mem.byte 0x20000 = 0 ∧
       (c.reg 1).toNat % 2 ^ 32 = 8 ∧ (c.reg 6).toNat % 2 ^ 7 = 4 ∧ (c.reg 15).getLsbD 1 = false ∧ c.cursor = 0 ∧
       (let d := { c with staged := [(6, 2)] }
        d.staged ≠ [] ∧ d.staged.rising = true ∧ d.staged.find 11 = none ∧ (∀ q ∈ d.staged, q.1 < 16) ∧ d.valid = true) ∧
       ({ c with cursor := 2 } : Sched).cursor ≤ 2 ∧ (15 : DWord).getLsbD 3 = true) := by
  refine ⟨?_, by decide +kernel, by decide +kernel, by decide +kernel, by decide +kernel⟩
  have h : [Instr.schrd 0 4 6, .schwr 0 3 6, .schwr 0 3 15, .nexttile 0 4, .atomdone 0 4 1, .spawn 0 1].all (fun i =>
      mayEnd (tasked i) 1 1 0 fun t _ p => decide (p.instr = i ∧ ((tasked i).grid? t.info.grid).any (fun g => g.sched.isSome) = true ∧
        p.stage = (0, 0, 0) ∧ t.groups.all (fun q => !q.memBefore p.seq) = true)) = true := by decide +kernel
  exact fun i hi => end_of (List.all_eq_true.mp h i hi)

end Sys2Proof.Tests
end

