-- ==== Sys2Proof/Tests/Witness7.lean ====
section
/-! SUPPORT. The hypotheses of the statements about dispatch, the loader, probes, pages and pre-emption are met. -/

namespace Sys2Proof.Tests

set_option Elab.async false

open Sys2Proof Sys2Proof.Machine Sys2Proof.Claims

/-- The bytes of doublewords. -/
def bare (w : List DWord) : List Byte := w.flatMap fun x => bytesOfNum 8 x.toNat

/-- Records: a grid of one team, one with a reserved bit, one of an unknown header, one of a bad shape, one with a schedule set, each with its check word
(Table 07-4); and one whose check word is wrong. -/
def goodRec : List DWord := [0x8000, 7, 0, 0x2000, 0, 0, 0, 0xe4129f51]
def resRec : List DWord := [0x8000, 7, 0, 1, 0, 0, 0, 0xfbbea965]
def lostRec : List DWord := [0x8040, 7, 0, 0, 0, 0, 0, 0xf0a49959]
def shapeRec : List DWord := [0x8000, 7, 0, 0, 0, 0, 0, 0x1c61879ae]
def tiledRec : List DWord := [0x8000, 7, 0x22000, 2 ^ 40 + 2 ^ 12, 0, 0, 0, 0x84bb174d]

def wrongRec : List DWord := [0x8000, 7, 0, 0x2000, 0, 0, 0, 0]

/-- A schedule set of 8 atoms in tiles of 4 (Table 07-6). -/
def goodSet : List DWord := [0, 8, 1, 1, 1, 0, 4, 1, 1, 1, 0, 0, 0x23000, 0, 0, 0]

/-- A package with no team running, a recorded header, and a queue 0 with one record to read. -/
def launching (bs : List Byte) (set : List DWord) : State :=
  { world 0 with
    teams := []
    grids := []
    cur := none
    segs := [⟨0, fetchAt, 64, [0, 4], [{ hdr with addr := 0x8000 }], [1], true⟩]
    lqs := [(0, { LaunchQueue.reset with base := 0x20000, cfg := 2 ^ 63, tail := 1 })]
    mem := Memory.setAll [] (cellsAt 0x20000 bs ++ cellsAt 0x22000 (bare set)) }

/-- What a record's read comes to. -/
def readsAs (w : List DWord) (good : Bool) (P : State → Bool) : Bool :=
  let s := launching (bare w) goodSet
  s.mayRead 0 && s.live 0 && (match s.atriumFetch 0 [] (lineRuns 0x20000 64) with
    | (.ok cs _, u) => decide (cs = bare w) && P u
    | _ => false) && decide (dwordsOf (bare w) 8 = w) && (decide ((crc32c ((bare w).take 56)).toNat = (w.getD 7 0).toNat % 2 ^ 32) == good)

/-- A record held for admission. -/
def held (w : List DWord) (ctr : DWord) : State :=
  { launching [] [] with
    lqs := [(0, { LaunchQueue.reset with cfg := 2 ^ 63, tail := 1, head := 1, got := some (w, []) })]
    counters := [(0, ctr)] }

/-- A record with one dependence, that counter 0 is at least 3. -/
def depRec : List DWord := [0x8000, 7, 0, 2 ^ 14, 3, 0, 0, 0]

/-- A team that waits, of the grid 0. -/
def waiting (h : Header) (pl : Place) (bad : Bool) : State :=
  { world 0 with teams := [], cur := none, tasks := [⟨{ crew.info with uid := 5, header := h }, pl, bad⟩] }

theorem witness_QueuesAndRecords :
    (let s := launching (bare goodRec) []
     s.manage.ready.getLsbD 1 = true ∧ (s.lq 0).size = 16 ∧ (s.lq 0).stop = false) ∧
    (launching (bare goodRec) []).mayRead 0 = true ∧
    ({ launching (bare goodRec) [] with ctxs := [] }.mayRead 0 = true ∧ { launching (bare goodRec) [] with ctxs := [] }.live 0 = false) ∧
    (let s := { launching (bare goodRec) [] with poison := [0x400] }
     s.mayRead 0 = true ∧ s.live 0 = true ∧ (s.atriumFetch 0 [] (lineRuns 0x20000 64)).1 = .bad 0x20000) ∧
    readsAs wrongRec false (fun _ => true) = true ∧
    readsAs resRec true (fun _ => recReserved resRec) = true ∧
    readsAs lostRec true (fun u => !recReserved lostRec && (u.header? 0 0x8040).isNone) = true ∧
    readsAs shapeRec true (fun u => !recReserved shapeRec && (u.header? 0 0x8000).isSome && recShapeBad shapeRec) = true ∧
    readsAs goodRec true (fun u => !recReserved goodRec && (u.header? 0 0x8000).isSome && !recShapeBad goodRec && !(goodRec.getD 3 0).getLsbD 12) = true ∧
    readsAs tiledRec true (fun u => !recReserved tiledRec && (u.header? 0 0x8000).isSome && !recShapeBad tiledRec && (tiledRec.getD 3 0).getLsbD 12 &&
      (match u.atriumFetch 0 [] (lineRuns 0x22000 128) with
        | (.ok cs _, _) => !setBad (dwordsOf cs 16) && setBad ((dwordsOf cs 16).set 6 0) | _ => false)) = true ∧
    (let s := held depRec 3
     s.mayAdmit 0 = true ∧ (s.header? 0 0x8000).isSome = true ∧ s.depFailed depRec = false ∧ (s.bindClass 0 0).isSome = true) ∧
    ((held depRec (2 ^ 63)).mayAdmit 0 = true ∧ (held depRec (2 ^ 63)).depFailed depRec = true) ∧
    (let s := { held depRec 3 with manage := { (world 0).manage with ready := 3 } }
     s.mayAdmit 0 = true ∧ s.depFailed depRec = false ∧ s.bindClass 0 0 = none) ∧
    -- a record whose page nothing translates, one whose line the home is at work on, and one rewritten since its tail write
    (let s := { launching (bare goodRec) [] with tlb := [] }
     s.mayRead 0 = true ∧ s.live 0 = true ∧ (match s.atriumFetch 0 [] (lineRuns 0x20000 64) with | (.miss p h, v) => p == 4 && !h && v.misses.isEmpty | _ => false) = true) ∧
    (let s := { launching (bare goodRec) [] with dir := [(0x400, { DirLine.reset with trans := .fill })] }
     s.mayRead 0 = true ∧ (match s.atriumFetch 0 [] (lineRuns 0x20000 64) with | (.busy, _) => true | _ => false) = true) ∧
    (let l := { (launching (bare goodRec) []).lq 0 with seen := [(0, bare resRec)] }
     l.seen.get (bare goodRec) l.head.toNat = bare resRec ∧ bare resRec ≠ bare goodRec) := by
  decide +kernel

theorem witness_GridsBeginAndEnd :
    (let s := { launching [] [] with grids := [fetchGrid 0] }
     s.grid? 0 = some (fetchGrid 0) ∧ s.gridHasTeams 0 = false ∧ (fetchGrid 0).failed = none) ∧
    (let s := waiting { hdr with coloc := 1 } (.die 0) false
     (s.tasks.map fun k => k.info.uid).Nodup ∧ (s.toGallery? 0).any (fun k => !k.1.poisoned && !k.1.info.inBlock) = true ∧
       (s.steal? 0).any (fun k => !k.poisoned) = true ∧ s.copies = []) ∧
    (let s := waiting { hdr with coloc := 1 } (.die 0) true
     (s.toGallery? 0).any (fun k => k.1.poisoned) = true ∧ (s.steal? 0).any (fun k => k.poisoned) = true) ∧
    -- a core of another die of the class, which steals a team that may move
    (let s := waiting { hdr with coloc := 1, migr := true } (.die 0) false
     (s.steal? 128).any (fun k => !k.poisoned && k.place == .die 0) = true) ∧
    ((waiting hdr (.gallery 0 0) true).place? 0).any (fun ps => (ps.find? fun p => p.2.poisoned).isSome) = true ∧
    ((waiting hdr (.gallery 0 0) false).place? 0).any (fun ps => ps.length == 1 && ps.all fun p => !p.2.poisoned) = true ∧
    (waiting hdr (.gallery 0 0) false).copies = [] := by
  decide +kernel

theorem witness_TeamsBeginAndEnd :
    (let t : Team := { crew with groups := crew.groups.map fun g => { g with ended := true } }
     let s := { world 0 with teams := [t] }
     s.team? 1 = some t ∧ t.mode ≠ .flushing ∧ t.groups.all (·.ended) = true ∧ s.jobs = [] ∧ t.rings = [] ∧ s.queues = [] ∧
       s.hasChildren 1 = false ∧ s.grid? t.info.grid ≠ none) := by
  decide +kernel

/-- A segment of one header of a VECTOR group, and sixteen EXIT instructions. -/
def image : List Byte :=
  bare ([1, 0, 0, 0, 0, 0, 0, 0, 0x8, 2 ^ 40 + 2 ^ 46, 2 ^ 20, 128, 0, 0, 0, 0]) ++
    (List.replicate 16 ((encode .exit).headD 0)).flatMap fun w => bytesOfNum 4 w.toNat

/-- A loader at work. -/
def loading (bs : List Byte) (unload : Bool) : State :=
  { launching [] [] with
    mem := Memory.setAll [] (cellsAt 0x20000 bs)
    loader := { Loader.reset with base := 0x20000, len := 192, atBase := 0x20000, atLen := 192, busy := true, unload := unload } }

theorem witness_LoaderWorks :
    (loaderPass 0x20000 image).diags = [] ∧ (loaderPass 0x20000 (image.set 0 2)).diags ≠ [] ∧
    (let s := loading image false
     s.live s.loader.asid = true ∧ s.loader.park = none ∧ (match s.atriumFetch 0 [] (lineRuns 0x20000 192) with
       | (.ok bs _, u) => decide (bs = image) && decide (u.loader = s.loader) | _ => false) = true) ∧
    (let s := { loading image false with poison := [0x401] }
     (match s.atriumFetch 0 [] (lineRuns 0x20000 192) with | (.bad a, u) => decide (a = 0x20080) && decide (u.loader = s.loader) | _ => false) = true) ∧
    { loading image false with ctxs := [] }.live 0 = false ∧
    (let s := { loading image true with loader := { (loading image true).loader with busy := false, base := 0x8000 } }
     s.loader.busy = false ∧ s.segUsed 0 0x8000 = false ∧ { s with grids := [fetchGrid 0] }.segUsed 0 0x8000 = true) ∧
    -- an unload at work, an image of 63 bytes, a page that nothing translates, and a line that the home is at work on
    (let s := loading image true
     s.loader.busy = true ∧ s.loader.unload = true ∧ s.segUsed 0 0x20000 = false ∧
       (let t := { s with loader := { s.loader with atBase := 0x8000 }, grids := [fetchGrid 0] }
        t.segUsed 0 0x8000 = true)) ∧
    (63 < 64 ∧ 2 ^ 24 < 2 ^ 24 + 1) ∧
    (let s := { loading image false with tlb := [] }
     s.live 0 = true ∧ (match s.atriumFetch 0 [] (lineRuns 0x20000 192) with | (.miss _ _, _) => true | _ => false) = true) ∧
    (let s := { loading image false with dir := [(0x401, { DirLine.reset with trans := .fill })] }
     (match s.atriumFetch 0 [] (lineRuns 0x20000 192) with | (.busy, _) => true | _ => false) = true) := by
  decide +kernel

/-- A team whose strands are held before a JOIN, for a child that waits in a queue; and a probe of it on its way. -/
def stuck : State :=
  { world 2 with
    teams := [{ crew with groups := crew.groups.map fun g => { g with strands := g.strands.map fun x => { x with hold := some .join } } }]
    tasks := [⟨{ crew.info with uid := 5, parent := some 1, depth := 1 }, .die 0, false⟩]
    clock := 2 ^ 40 }
def probe0 (u : ProbeUnit) : Probe := ⟨7, .strand 1 2 0, 1, [stuck.unitId (me stuck).probeUnit], u⟩
def probing (u : ProbeUnit) : State := { stuck with probes := [probe0 u] }

theorem witness_ProbesStopsAndGovernor :
    ((stuck.at ⟨1, 2, 0⟩) = some (me stuck) ∧ (stuck.maySend (me stuck)).isSome = true) ∧
    (let u := (me stuck).probeUnit
     (probing u).at ⟨1, 2, 0⟩ = some (me stuck) ∧ (probing u).onCycle ((probe0 u).path.headD 0) = false ∧ (probing u).blocked (me stuck) = true ∧
       (me stuck).strand.waitCycle = none) ∧
    (let s := { probing (.strand 1 0 0) with tasks := [] }
     s.unitAwaits (.strand 1 0 0) = none ∧ s.at ⟨1, 2, 0⟩ = some (me stuck) ∧ ProbeUnit.strand 1 0 0 ≠ (me stuck).probeUnit) ∧
    (((probing (.task 5)).unitAwaits (.task 5)).isSome = true ∧ ProbeUnit.task 5 ≠ (me stuck).probeUnit) ∧
    -- a breakpoint at the strand's instruction, and HALT
    (let s := { world 2 with ctxs := [(0, { (world 2).ctx 0 with dbgCtl := 5, dbgBp := [0x8001, 0, 0, 0] })] }
     let h := me s
     s.here = some h ∧ (s.ctx 0).dbgCtl.getLsbD 0 = true ∧ ((s.ctx 0).dbgBp.getD 0 0).getLsbD 0 = true ∧ h.strand.pc = 0x8000 ∧
       h.strand.skipStop = none ∧ h.group.handler = none ∧ h.group.dbg = none ∧ h.group.pending = [] ∧ (s.ctx 0).dbgCtl.getLsbD 2 = true ∧
       (s.machineWrite h.team.agent (s.frameAddr h.team h.grp) (frameBytes (Report.dbg 0) h.grp h.strand h.strand.pc [])).any (fun u =>
         decide (u.teams = s.teams) && decide (u.cur = s.cur)) = true ∧ s.runBusy h.team.asid (s.frameAddr h.team h.grp) 0x5400 = false) ∧
    -- the record that a launch queue holds, whose counter is not there yet, and a probe of it that is back
    (let s := { held depRec 0 with clock := 2 ^ 40 }
     (s.lq 0).got.isSome = true ∧ 3 * s.wcprobe ≤ 4 * (s.clock - (s.lq 0).since) ∧ (s.unitAwaits ((s.lq 0).heldUnit 0)).isSome = true ∧
       (let p : Probe := ⟨7, .launch 0, 1, [s.unitId ((s.lq 0).heldUnit 0)], (s.lq 0).heldUnit 0⟩
        let t := { s with probes := [p] }
        t.onCycle (p.path.headD 0) = false ∧ p.target = (t.lq 0).heldUnit 0 ∧ ProbeUnit.counter 0 ≠ (t.lq 0).heldUnit 0)) ∧
    (let s := { world 2 with clock := 256 }
     ((s.die 0).window < s.clock / 256 ∧ ¬s.clock / 256 ≤ (s.die 0).window) ∧ 224 + 32 = (s.die 0).budget) ∧
    ((world 2).dies.length = 12 ∧ ((world 2).teams.map fun t => t.info.uid).Nodup ∧ ((world 2).die 0).budget ≤ 256) := by
  decide +kernel

/-- A page that is awaited, of device memory or of the host's, its request posted or not. -/
def awaited (host posted : Bool) : State :=
  { world 2 with
    misses := [⟨0, 0x1000, .read, posted, host, false, false⟩]
    tlb := frames :: leaf :: (world 2).tlb }

theorem witness_PagesAndInvalidation :
    ((awaited true true).misses.any (fun m => m.asid == 0 && m.page == 0x1000 && m.host && m.posted && !m.denied) = true ∧
      (let ms : List Miss := [⟨0, 0x1000, .read, false, true, false, true⟩]
       ms.any (fun m => m.ranged) = true) ∧
      (let s := { awaited true false with misses := (List.range 64).map fun i => ⟨1, i, .read, true, true, true, false⟩ }
       64 ≤ s.priOut) ∧ (awaited true false).priOut < 64) ∧
    (awaited false true).manage.ready.getLsbD 1 = true ∧ (awaited false true).misses = [⟨0, 0x1000, .read, true, false, false, false⟩] ∧
    (let s := { awaited true false with
       ctxs := [(0, { (world 2).ctx 0 with root := 0x40001 })]
       mem := Memory.setAll [] (cellsAt 0x40000 (bytesOfNum 8 0x48001) ++ cellsAt 0x48000 (bytesOfNum 8 0x50001) ++
                  cellsAt 0x50008 (bytesOfNum 8 0x58001) ++ cellsAt 0x58000 (bytesOfNum 8 0x301)) }
     s.misses = [⟨0, 0x1000, .read, false, true, false, false⟩] ∧ (s.hostLeaf 0 (0x1000 * 2 ^ 15)).isSome = true) ∧
    (world 2).migDecays ≤ (world 2).clock / 786432 ∧ { world 2 with clock := 786432 }.migDecays < 786432 / 786432 ∧
    ((world 2).tlb.all fun e => decide (e.base < 2 ^ 57 ∧ 0 < e.size)) = true ∧ (world 2).invals = [] ∧
    (let s := { world 2 with invals := [⟨some 0, 0, 64, false, 9⟩] }
     s.jobs = [] ∧ s.teams.all (fun t => t.groups.all fun g => g.outstanding.isEmpty) = true) ∧
    (let s := { pended (world 2) (fun h => { h.pend 3 .nop 0 0 [] with locs := [(0, .store 1 0)] }) with invals := [⟨some 0, 0, 64, false, 9⟩] }
     s.teams.any (fun t => t.asid == 0 && t.groups.any fun g => g.outstanding.any fun p => decide (p.seq < 9 ∧ p.locs ≠ []))) = true := by
  decide +kernel

/-- A team in a mode. -/
def moded (m : TeamMode) : State :=
  { inTeam (fun t => { t with mode := m }) (world 2) with
    segs := []
    ctxs := [(0, { (world 2).ctx 0 with save := 0x120000, saveLen := 0x20000 })] }

theorem witness_PreemptCommands :
    ((world 2).manage.ready.getLsbD 1 = true ∧ (world 2).manage.preempt.busy = false ∧ (world 2).teams ≠ []) ∧
    (let t : Team := { crew with spawned := true }
     t.mode = .running ∧ t.asid = 0) ∧
    ((world 2).grid? crew.info.grid).any (fun g => g.ended == 0) = true ∧
    (let g := { fetchGrid 0 with ended := 2, runTime := 10 }
     g.runTime / g.ended ≤ 5) := by
  decide +kernel

theorem witness_TeamsMove :
    ((moded (.drain 0)).team? 1).any (fun t => t.mode == .drain 0) = true ∧
    (let s := moded .saving
     let t := (me s).team
     s.team? 1 = some t ∧ s.saveReady t = true ∧ (s.grid? t.info.grid).any (fun g => g.failed.isNone) = true ∧
       (s.rebound t.info).removed.getLsbD (s.rebound t.info).cls = false) ∧
    (let s := { moded .saving with ctxs := [] }
     s.saveReady (me s).team = true ∧ (s.ctx 0).saveLen.toNat < s.saveUsed 0 + hdr.saveSize) ∧
    (let s := moded .flushing
     s.settled (me s).team = true ∧ s.classUp (s.rebound (me s).team.info).cls = true) ∧
    (let t : Team := { crew with groups := crew.groups.map fun g => { g with pending := [] } }
     let s := { world 2 with teams := [], cur := none, saved := [t] }
     s.savedTeam? 1 = some t ∧ t.info.inBlock = false ∧ t.frames = [] ∧ coreNamed 3 = true ∧ s.dieUp (coreDie 3) = true ∧
       dieClass (coreDie 3) = t.info.cls ∧ s.restorable t = true ∧ s.fitsSaved 3 t = true ∧ (t.bound.map (·.1)).Nodup ∧
       t.groups.all (fun g => g.handler.isNone && g.dbg.isNone) = true) ∧
    -- teams at rest, one before its deadline and one at it, one whose class is removed, and one whose grid has failed
    (let s := moded .saving
     let t := (me s).team
     s.jobs = [] ∧ t.groups.all (fun g => g.pending.isEmpty) = true ∧ t.rings = [] ∧ s.busyLines = [] ∧ s.queues = [] ∧
       s.saveUsed t.asid + t.info.header.saveSize ≤ (s.ctx t.asid).saveLen.toNat ∧ (0 ≤ s.clock ∧ s.clock < 1) ∧
       (let u := { s with grids := [{ fetchGrid 0 with removed := 15 }] }
        (u.rebound t.info).removed.getLsbD (u.rebound t.info).cls = true) ∧
       (let u := { moded .flushing with grids := [{ fetchGrid 0 with failed := some 1 }] }
        u.flushReady (me u).team = true)) ∧
    (moded .flushing).flushReady (me (moded .flushing)).team = true := by
  decide +kernel

theorem lineRuns_in {va n : Nat} {r : Nat × Nat} (h : r ∈ lineRuns va n) (hn : 0 < n) : va ≤ r.1 ∧ r.1 < va + n := by
  simp only [lineRuns, List.mem_map, List.mem_range] at h
  obtain ⟨i, hi, rfl⟩ := h
  omega

/-- A run under an UNCACHED leaf that is held first and gives each address as it is. -/
theorem writable_leaf {s : State} {asid a n : Nat} {e : TlbEntry} {rest : List TlbEntry} (hl : s.live asid = true) (ht : s.tlb = e :: rest)
    (ha : e.asid = asid) (hw : e.leaf.getLsbD 2 = true) (hs : s.segs = []) (hh : e.hostBase = none) (hm : pteMt e.leaf = 2)
    (hf : pteFrame e.leaf = e.base) (hb : e.base + e.size ≤ bar0At ∧ e.base ≤ a ∧ a + n ≤ e.base + e.size ∧ 0 < n) (hp : s.poison = [])
    (hc : s.copies = []) : Writable s asid a n fun j => a + j := by
  have hk : bar0At ≤ 2 ^ 57 := by decide
  refine ⟨hl, by omega, fun i j _ _ h => Nat.add_left_cancel h, fun r hr => ?_⟩
  have hi := lineRuns_in hr hb.2.2.2
  have hx : (e.place r.1).pa = r.1 := by simp only [TlbEntry.place, hh, hf]; omega
  have hr2 : r.1 % 128 + r.2 ≤ 128 := by
    simp only [lineRuns, List.mem_map, List.mem_range] at hr
    obtain ⟨i, hi, rfl⟩ := hr
    omega
  have hq : bar0At < remoteAt := by decide
  have hlow : r.1 < bar0At := by omega
  have hmt : (e.place r.1).mt = 2 := hm
  refine ⟨e, by simp [ht, ha]; omega, ⟨rfl, by simp [TlbEntry.place, hh], ?_, ?_, by simp [hmt], by rw [hx]; exact hr2, by simp [State.poisoned, hp],
    by simp [hc], by simp [hmt]⟩, hw, by simp [hs], fun j _ => ?_⟩
  · exact if_neg fun q => by rw [hx] at q; omega
  · exact if_neg fun q => by rw [hx] at q; omega
  · show a + (r.1 - a + j) = (e.place r.1).pa + j
    rw [hx, ← Nat.add_assoc, Nat.add_sub_cancel' hi.1]

/-- A saved team of which group 2 was stopped, and the state that holds it. -/
def framed : Team := { crew with
  groups := crew.groups.map fun g => if g.num = 2 then { g with dbg := some ⟨0, false, none, [], []⟩ } else g
  frames := [(2, List.replicate 0x5200 7)] }
def restoring : State := { world 2 with teams := [], cur := none, saved := [framed], segs := [] }

/-- Where the save area of a team and the frame of a group that is restored lie, no byte at two places. -/
theorem witness_TeamsMove_places :
    (let s := moded .saving
     let t := (me s).team
     Writable s t.asid 0x120000 t.info.header.saveSize (fun j => 0x120000 + j) ∧ (s.ctx t.asid).save.toNat + s.saveUsed t.asid = 0x120000) ∧
    (let moved := framed.resumed 0 restoring.clock (restoring.slotsHeld 0)
     ∃ gu, moved.group? 2 = some gu ∧ Writable restoring framed.asid (restoring.frameAddr moved gu) 0x5200
       (fun j => restoring.frameAddr moved gu + j) ∧ restoring.framesBusy moved = false ∧ (List.replicate 0x5200 (7 : Byte)).length = 0x5200 ∧
       restoring.savedTeam? 1 = some framed ∧ restoring.fitsSaved 0 framed = true ∧ restoring.restorable framed = true) := by
  refine ⟨⟨writable_leaf (e := frames) (rest := [leaf]) (by decide +kernel) (by decide +kernel) rfl (by decide +kernel) rfl (by decide)
    (by decide +kernel) (by decide) (by decide +kernel) rfl rfl, by decide +kernel⟩, ?_⟩
  have h : ∃ gu, (framed.resumed 0 restoring.clock (restoring.slotsHeld 0)).group? 2 = some gu ∧
      restoring.frameAddr (framed.resumed 0 restoring.clock (restoring.slotsHeld 0)) gu = 0x100000 + 0x5400 * 1 := some_of (by decide +kernel)
  obtain ⟨gu, e, h1⟩ := h
  refine ⟨gu, e, ?_, by decide +kernel, List.length_replicate, rfl, by decide +kernel, by decide +kernel⟩
  rw [h1]
  exact writable_leaf (e := frames) (rest := [leaf]) (by decide +kernel) rfl rfl (by decide +kernel) rfl rfl (by decide +kernel) (by decide)
    (by decide) rfl rfl

end Sys2Proof.Tests
end

