-- ==== Sys2Proof/Tests/Witness8.lean ====
section
/-! SUPPORT. The hypotheses of the statements about failures, coherence, the host, Toard, and steps are met. -/

namespace Sys2Proof.Tests

set_option Elab.async false

open Sys2Proof Sys2Proof.Machine Sys2Proof.Claims

/-! ## Failures and errors -/

/-- A core with a tile and an accumulator, a task that waits, a dirty and a clean copy. -/
def frail : State :=
  { world 0 with
    tasks := [⟨{ crew.info with uid := 5 }, .die 3, false⟩]
    copies := [⟨.die 0, 9, 0, List.replicate 128 0, 1, false⟩, ⟨.die 0, 10, 0, List.replicate 128 0, 0, false⟩]
    dir := [(20, { DirLine.reset with dies := [(0, .m, none)] })] }

/-- The same with a team that may run again. -/
def agile : State :=
  { frail with
    teams := [{ crew with info := { crew.info with header := { hdr with idem := true } } }]
    tasks := [] }

theorem witness_FailuresAndErrors :
    (agile.teams.all (fun t => coreDie t.core == 0 && !agile.over t && t.info.header.coloc < 2 && t.info.header.idem && !t.spawned &&
        t.info.parent.isNone && t.info.grid == 0) = true ∧ (agile.grids.map (·.uid)).Nodup ∧ agile.saved = [] ∧
      (agile.grid? 0).any (fun g => g.failed.isNone && g.cls == dieClass 0 && !g.removed.getLsbD (dieClass 4)) = true ∧
      agile.dieUp 4 = true ∧ dieClass 4 ≠ dieClass 0) ∧
    (frail.dies.length = 12 ∧ frail.manage.fenced.getLsbD 0 = false ∧ { frail with manage := { frail.manage with fenced := 1 } }.manage.fenced.getLsbD 0 = true ∧
      (frail.die 0).modules = 40 ∧ ((frail.dirLine 20).of 0).1 = .m ∧
      (frail.teams.any fun t => coreDie t.core == 0 && !frail.over t && !t.info.header.idem && ((frail.grid? t.info.grid).any fun g => g.failed.isNone)) = true) ∧
    (frail.manage.fenced.getLsbD 12 = false ∧ { frail with manage := { frail.manage with fenced := 0x1000 } }.manage.fenced.getLsbD 12 = true) ∧
    (frail.team? 1 = some crew ∧ 0 < crew.tiles.length ∧ 0 < crew.accs.length ∧
      (frail.tasks.find? fun x => x.info.uid == 5).isSome = true ∧ (frail.dieKnows 0 9).state = .i ∧
      (frail.copyAt (.die 0) 9).any (fun c => decide (c.dirty ≠ 0)) = true ∧ (frail.copyAt (.die 0) 10).any (fun c => decide (c.dirty = 0)) = true) := by
  decide +kernel

/-! ## Coherence -/

/-- Messages to a die that holds line 7 in a state. -/
def toDie (st : DirState) (buf : Bool) (m : DownMsg) : State :=
  { world 2 with dies := (world 2).dies.set 0 { DieState.reset with down := [m], lines := [(7, { DieLine.reset with state := st, inBuffer := buf })] } }

/-- A core with a load of line 0x400 outstanding. -/
def reader : State := pended (world 2) fun h => { h.pend 9 (.sld 0 .eight false .package 4 1) 0 allLanes [] with
  locs := [(0, .glob ⟨0x20000, 0, 0, false⟩)] }

theorem witness_CoherenceAtDie :
    (∀ m ∈ [DownMsg.data 7 .s none, .grant 7, .inv 7, .upd 7, .fwds 7, .fwdx 7, .wback 7, .wtack 7],
      0 < (toDie .e false m).dies.length ∧ ((toDie .e false m).die 0).down = m :: []) ∧
    -- tokens: held, asked of the home, asked already, and a core's request after four that failed
    (let s := fun st => toDie st false (.inv 8)
     coreNamed 0 = true ∧ coreDie 0 < (s .e).dies.length ∧ ((s .e).dieKnows 0 7).view = none ∧ ((s .e).dieKnows 0 7).state = .e ∧
       ((s .e).dieKnows 0 7).tokens.held < 128 ∧ (s .e).dieUp 0 = true ∧ ((s .e).die 0).persistent = [] ∧
       ((s .i).dieKnows 0 7).state = .i ∧ ((s .i).dieKnows 0 7).want = none ∧ (s .i).manage.fenced.getLsbD 0 = false) ∧
    (let x : DieState := { DieState.reset with tries := [(0, (0x400, 4))], lines := [(7, { DieLine.reset with want := some (.rdx 7) })] }
     let s := { reader with dies := reader.dies.set 0 x }
     (s.dieKnows 0 7).want ≠ none ∧ (s.die 0).tries.get (0, 0) 0 = (0x400, 4) ∧ s.accessesTo 0 0x400 ≠ [] ∧ s.dieUp 0 = true ∧
       (let t := { s with dies := reader.dies.set 0 { x with persistent := [⟨0, 0x400, false⟩], served := some 0 } }
        t.slotBars 0 0x400 = false ∧ t.slotBars 1 0x400 = true ∧ ({ t with teams := [] } : State).accessesTo 0 0x400 = [])) ∧
    ((toDie .o false (.fwds 7)).dieKnows 0 7).state = .o ∧ ((toDie .o false (.fwds 7)).dieKnows 0 7).inBuffer = false ∧
    ((toDie .e true (.fwds 7)).dieKnows 0 7).inBuffer = true := by
  decide +kernel

/-- A message of die 0 about line 7, whose directory entry is `x`. -/
def toHome (m : UpMsg) (x : DirLine) : State :=
  { world 2 with dies := (world 2).dies.set 0 { DieState.reset with up := [m] }, dir := [(7, x)] }

/-- The message waits for the home, which is at rest about its line. -/
def restful (m : UpMsg) (ds : SMap (DirState × Option View)) (P : DirLine → Bool) : Bool :=
  let s := { toHome m { DirLine.reset with dies := ds, queue := [(0, 0, m)] } with clock := 3 }
  let x := s.dirLine 7
  decide ((s.die 0).up = [m] ∧ 0 < s.dies.length ∧ s.manage.fenced.getLsbD 0 = false ∧ x.trans = .stable ∧ x.queue = [(0, 0, m)] ∧
    0 < s.atriumNow ∧ (x.dies.map (·.1)).Nodup ∧ s.poisoned 7 = false) && P x

/-- The holders but die 0. -/
def others (x : DirLine) : SMap (DirState × Option View) := x.dies.filter fun p => p.1 != 0

theorem witness_CoherenceAtHome :
    (let s := toHome (.rds 7 none) { DirLine.reset with trans := .fill }
     (s.die 0).up = [.rds 7 none] ∧ (s.dirLine 7).trans ≠ .stable) ∧
    restful (.rds 7 none) [(1, .s, none)] (fun x => decide (others x ≠ [] ∧ (others x).all (fun p => !owned p.2) = true)) = true ∧
    restful (.rds 7 none) [(1, .m, none)] (fun x => decide ((others x).find? (fun p => owned p.2) = some (1, .m, none))) = true ∧
    restful (.rds 7 none) [] (fun x => decide (others x = [])) = true ∧
    restful (.rdx 7) [(1, .s, some ⟨0, 0, 1, 0⟩)] (fun x => decide (others x ≠ [] ∧ (others x).all (fun p => !owned p.2 && !fullHeld p.2) = true)) = true ∧
    restful (.rdx 7) [(1, .s, none), (2, .s, none)] (fun x => decide ((others x).all (fun p => !owned p.2 && fullHeld p.2) = true)) = true ∧
    restful (.upg 7) [(0, .s, none)] (fun x => fullHeld (x.of 0) && (others x).isEmpty) = true ∧
    restful (.wt 7 4 [(896, 1), (1023, 2)]) [(0, .s, none)] (fun x => (others x).all (fun p => p.2.2.isNone)) = true ∧
    (([(896, 1), (1023, 2)] : List (Nat × Byte)).map (·.1)).Nodup ∧ 896 / 128 = 7 ∧ 1023 / 128 = 7 ∧
    restful (.wt 7 4 [(896, 1)]) [(0, .s, none), (1, .s, some ⟨0, 0, 1, 0⟩)] (fun x => (others x).all fun p => p.1 < 12) = true ∧
    restful (.wb 7) [(0, .m, none)] (fun x => x.of 0 == (.m, none)) = true ∧
    (let x : DirLine := { DirLine.reset with dies := [(0, .s, none)], trans := .fan, serving := some (1, .rdx 7), acks := [(0, true)] }
     ((toHome (.ack 7) x).die 0).up = [.ack 7] ∧ (toHome (.ack 7) x).dirLine 7 = x) ∧
    (let x : DirLine := { DirLine.reset with dies := [(0, .s, none), (2, .s, none)], trans := .fan, serving := some (1, .rdx 7), acks := [(0, true), (2, true)] }
     ((toHome (.ack 7) x).die 0).up = [.ack 7] ∧ (toHome (.ack 7) x).dirLine 7 = x) ∧
    (∀ m ∈ [UpMsg.fdata 7, .writtenBack 7], ∀ q ∈ [UpMsg.rds 7 none, .rdx 7],
      let x : DirLine := { DirLine.reset with dies := [(0, .m, none)], trans := .fwd, serving := some (1, q), owner := some 0 }
      ((toHome m x).die 0).up = [m] ∧ (toHome m x).dirLine 7 = x) ∧
    -- homes at work
    (let x : DirLine := { DirLine.reset with queue := [(0, 0, .rdx 7)] }
     (toHome (.ack 9) x).dirLine 7 = x ∧ (UpMsg.rdx 7).line = 7) ∧
    (let x : DirLine := { DirLine.reset with trans := .fill, serving := some (0, .rds 7 none) }
     let s := { toHome (.ack 9) x with clock := 100000 }
     s.dirLine 7 = x ∧ x.dies = [] ∧ 3 * 65536 < 4 * (s.clock - x.since)) ∧
    -- a store of the atrium, with a message of the line under way and without one
    (let x : DirLine := { DirLine.reset with queue := [(0, 12, .wt 7 4 [(896, 1)])] }
     (toHome (.ack 9) x).onLink 7 = false ∧ (toHome (.ack 7) x).onLink 7 = true ∧ { toHome (.ack 9) x with clock := 3 }.atriumNow = 4) := by
  decide +kernel

/-! ## The host and Toard -/

theorem witness_OutsideAccesses :
    (world 2).poison = [] ∧ (world 2).busyLines = [] ∧ 7 ∈ (toHome (.ack 7) DirLine.reset).busyLines ∧ 0x1000 + 8 ≤ (world 2).manage.memSize ∧ (world 2).manage.memSize < 2 ^ 39 ∧ ([1, 2, 3] : List Byte).length = 3 := by
  decide +kernel

theorem witness_RegisterWrites :
    (world 2).manage.ready.getLsbD 1 = true ∧ (world 2).ctxBusy 5 = false ∧ (world 2).ctxBusy 0 = true ∧ ((world 2).lq 0).enabled = false ∧
    ({ world 2 with lqs := [(0, { LaunchQueue.reset with cfg := 2 ^ 63 })] }.lq 0).enabled = true ∧ State.reset.manage.ready.getLsbD 1 = false := by
  decide +kernel

/-- The mailbox has taken a command. -/
def told (n : Nat) (args : List DWord) : State :=
  { world 2 with manage := { (world 2).manage with mbox := ⟨some (BitVec.ofNat 8 n), args, 0x900, 0⟩ } }

/-- The same for a group that has stopped for the debugger, with its frame in memory. -/
def halted (n : Nat) (args : List DWord) (inH : Bool) : State :=
  let s := told n args
  let t : Team := { crew with groups := crew.groups.map fun g => if g.num = 2 then { g with dbg := some ⟨0, inH, none, g.strands, []⟩ } else g }
  { s with
    teams := [t]
    mem := Memory.setAll [] (cellsAt (s.frameAddr t ((t.group? 2).getD (me s).group) + 8) (bytesOfNum 8 0x8000)) }

/-- The arguments that name group 2, with a fourth one. -/
def ofGroup (n : Nat) : List DWord := [0, 0, BitVec.ofNat 64 (((crew.group? 2).map fun g => 16 * g.barrel + g.slot).getD 0), BitVec.ofNat 64 n]

theorem witness_MailboxCommands :
    (State.reset.manage.ready.getLsbD 0 = false ∧ (told 1 [0, 0x8000, 0, 0]).manage.ready.getLsbD 0 = true ∧
      (told 1 [0, 0x8000, 0, 0]).manage.mbox.cmd = some (BitVec.ofNat 8 (0 + 1)) ∧ (told 1 [0, 0x8000, 0, 0]).records.mr.length = 24) ∧
    ((told 1 [0, 0x8000, 0, 0]).signedStart 0 0x8000).isSome = true ∧ (told 1 [0, 0x8040, 0, 0]).signedStart 0 0x8040 = none ∧
    (told 3 [0, 0, 0, 0]).stopped = none ∧
    (let s := halted 3 (ofGroup 0) false
     s.stopped.any (fun x => !x.2.2.inHandler && !s.runBusy x.1.asid (s.frameAddr x.1 x.2.1) 0x5200 &&
       (let r := s.machineRead x.1.agent (s.frameAddr x.1 x.2.1) 16
       match r.1 with
       | .ok fr => r.2.isStart x.1.asid (dwordOf ((fr.drop 8).take 8)) && decide (r.2.manage = s.manage)
       | .error _ => false)) = true ∧
     (halted 3 (ofGroup 0) true).stopped.any (fun x => x.2.2.inHandler && decide (s.team? x.1.info.uid ≠ none)) = true ∧
     { s with tlb := [leaf], dir := [(0x2000, { DirLine.reset with trans := .fill })] }.runBusy 0 0x100000 0x5200 = true) ∧
    -- the last eight bytes of a private window, eight bytes past it, the end of the window 0xA, and the frame
    (let s := fun off : Nat => halted 4 (ofGroup (off + 8 * 2 ^ 32)) false
     (s 0).stopped.any (fun x =>
       let rows := 256 * (regB x.1 x.2.1 + regX x.1 x.2.1 + x.1.info.header.stack)
       decide (8 ≤ rows ∧ (s (rows - 8)).window x.1 x.2.1 ≠ none ∧ (s (rows - 7)).window x.1 x.2.1 = none ∧ (s (2 ^ 24 - 7)).window x.1 x.2.1 = none ∧
         ((List.range 8).map fun j => privateOff x.1 x.2.1 (rows - 8 + j)).Nodup)) = true ∧
     (s 0).stopped.any (fun x => decide ((s 0).frameAddr x.1 x.2.1 % 128 = 0 ∧ (s 0).frameAddr x.1 x.2.1 + 0x5200 < 2 ^ 64) &&
       reachable (s 0) x.1 true (BitVec.ofNat 64 ((s 0).frameAddr x.1 x.2.1 + 0x51F8)) 8) = true) := by
  decide +kernel

theorem witness_RecordsAndTime :
    (∀ n ∈ [6, 7, 8, 9, 10, 11], (told n [4, 4, 0, 0]).manage.ready.getLsbD 0 = true ∧ (told n [4, 4, 0, 0]).manage.mbox.cmd = some (BitVec.ofNat 8 n) ∧
      (told n [4, 4, 0, 0]).records.mr.length = 24 ∧ (told n [4, 4, 0, 0]).records.bb.length ≤ 8192) ∧
    (let s := { told 11 [4, 4, 0, 0] with records := { Records.reset with nextWindow := some (8, 3) } }
     s.records.nextWindow = some (8, 3) ∧ 3 * 1000000000 < 2 ^ 64) ∧
    ((world 2).manage.ready.getLsbD 30 = true ∧ State.reset.manage.ready.getLsbD 30 = false) := by
  decide +kernel

theorem witness_Attestation :
    (let s := fun (x : Spdm) (n : Nat) => { State.reset with manage := { Manage.reset with ready := 1 }, records := { Records.reset with spdmPcie := x, leaves := n } }
     (s ⟨true, true, true⟩ 0).manage.ready.getLsbD 0 = true ∧ (s ⟨true, true, true⟩ 0).records.leaves = 0 ∧
       0 < (s ⟨true, true, true⟩ 9).records.leaves ∧ (s ⟨true, false, false⟩ 9).records.spdmPcie.caps = false) := by
  decide +kernel

/-- A package that has booted so far. -/
def booting (ready fenced : DWord) (formed : Bool) : State :=
  { State.reset with manage := { Manage.reset with ready := ready, fenced := fenced, mapFormed := formed } }

theorem witness_ResetsAndBoot :
    ((booting 0 0 false).manage.ready.getLsbD 0 = false ∧ (booting 0 0 false).manage.chainStopped = false ∧ (booting 0 0 false).manage.mbox.cmd = none ∧
      (booting 0 0 false).records.mr.length = 24) ∧
    (let s := fun r => booting r 0 false
     let up := fun (s : State) => (List.range 8).filter fun i => s.manage.ready.getLsbD (14 + i) && !s.manage.fenced.getLsbD (12 + i)
     (s 0x3FC001).manage.ready.getLsbD 1 = false ∧ (up (s 0x3FC001)).length = 8 ∧ (up (s 0x1FC003)).length = 7 ∧ (s 0x1FC003).manage.ready.getLsbD 21 = false ∧
       (s 0x1FC003).manage.fenced.getLsbD 19 = false ∧ (s 0x1FC003).manage.ready.getLsbD 1 = true) ∧
    ((booting 3 0 true).manage.ready.getLsbD 2 = false ∧ (booting 3 0 true).manage.fenced.getLsbD 0 = false ∧ (booting 3 1 true).manage.fenced.getLsbD 0 = true ∧
      (booting 3 0 true).manage.ready.getLsbD 22 = false ∧ (world 2).manage.ready.getLsbD 22 = true) := by
  decide +kernel

/-! ## Encodings and steps -/

theorem witness_EncodingsRoundTrip : (Instr.sadd 3 1 2).hasWords = true ∧ (Instr.sadd 3 1 2).wf = true ∧
    (decodeWords [0x0D8428D4, 0]).toOption.isSome = true := by
  decide +kernel

/-- A package whose next turn is the issue of the one word at 0x8000. -/
def turning (pc : DWord) : State :=
  { State.reset.fetchReady 32 0x0D8428D4 with
    teams := (State.reset.fetchReady 32 0x0D8428D4).teams.map fun t =>
      { t with groups := t.groups.map fun g => { g with strands := g.strands.map fun x => { x with pc := pc } } } }

/-- What holds of a state and the strand whose turn it is, when the turn has begun. -/
def turned (s : State) (P : State → Here → Bool) : Bool :=
  let s0 : State := { s with schedule := [] }
  match s0.nextTurn with
  | none => false
  | some k => match (s0.beginTurn k).here with
    | none => false
    | some h => h.strand.waitCycle.isNone && h.failure.isNone && !(s.ctx h.team.asid).dbgCtl.getLsbD 0 && !(s.ctx h.team.asid).dbgCtl.getLsbD 2 && P s h

/-- The strand's instruction word is there to be fetched. -/
def wordThere (s : State) (h : Here) (w : Word) : Bool :=
  s.live h.team.asid &&
  match s.tlb.find? (fun e => e.asid == h.team.asid && e.base ≤ 0x8000 && 0x8000 < e.base + e.size) with
  | none => false
  | some e =>
    let k := (e.place 0x8000).key
    e.hostBase.isNone && e.leaf.getLsbD 3 && !s.lost (e.place 0x8000) && !s.poisoned (k / 128) &&
      decide (wordOfBytes (s.mem.byte k) (s.mem.byte (k + 1)) (s.mem.byte (k + 2)) (s.mem.byte (k + 3)) = w)

theorem witness_StepRuns :
    (turning 0x8000).schedule = [.issue] ∧
    turned (turning 0x8000) (fun s h => h.strand.pc == 0x8000 && s.recorded h.team.asid h.strand.pc && wordThere s h 0x0D8428D4) = true ∧
    (decodeWords [0x0D8428D4]).toOption = some (.scas 0 true .acq .package 10 4, []) ∧
    turned (turning 0x8004) (fun s h => !s.recorded h.team.asid h.strand.pc) = true ∧
    turned { turning 0x8000 with
        tlb := [⟨0, 0, 2 ^ 27, 0x101, none⟩]
        segs := (turning 0x8000).segs.map fun g => { g with pages := [] } } (fun s h => s.recorded h.team.asid h.strand.pc && s.live h.team.asid &&
      s.tlb.any (fun e => !e.leaf.getLsbD 3 && e.asid == h.team.asid && s.segs.all fun g => !g.pages.contains ((e.place 0x8000).key / 32768))) = true ∧
    State.reset.nextTurn = none ∧ State.reset.schedule = [] ∧ (State.reset.agenda.all fun i => (State.reset.effective i).isNone) = true ∧
    (told 1 [0, 0, 0, 0]).schedule = [] ∧ ((told 1 [0, 0, 0, 0]).agenda.any fun i => ((told 1 [0, 0, 0, 0]).effective i).isSome) = true ∧
    decodeTableWord 32 0x0D8428D4 = some (.scas 0 true .acq .package 10 4) := by
  decide +kernel

theorem witness_MemoryFormKept : (turning 0x8000).mem.wf = true ∧ ∃ t, step (turning 0x8000) = .next t := by
  refine ⟨by decide +kernel, ?_⟩
  have h : (match step (turning 0x8000) with | .next _ => true | _ => false) = true := by decide +kernel
  split at h
  · exact ⟨_, ‹_›⟩
  · simp at h

theorem witness_SizesKept : ((turning 0x8000).dies.length = 12 ∧ (turning 0x8000).records.mr.length = 24 ∧ (turning 0x8000).records.bb.length ≤ 8192 ∧
    ((turning 0x8000).tlb.all fun e => decide (e.base < 2 ^ 57 ∧ 0 < e.size)) = true) ∧ ∃ t, step (turning 0x8000) = .next t :=
  ⟨by decide +kernel, witness_MemoryFormKept.2⟩

theorem witness_NumbersKept : ((turning 0x8000).teams.map (fun t => t.info.uid) = [1] ∧ (turning 0x8000).saved = [] ∧ (turning 0x8000).tasks = [] ∧
    1 < (turning 0x8000).uid) ∧ ∃ t, step (turning 0x8000) = .next t :=
  ⟨by decide +kernel, witness_MemoryFormKept.2⟩

end Sys2Proof.Tests
end

section
/-! The shared form of SDIV and SREM: what an instruction leaves that writes one scalar and keeps its group off its next three turns
(R84, R190). -/

namespace Sys2Proof.Machine

open Sys2Proof Sys2Proof.Claims

/-- A write of a scalar leaves the clock at which the group's next turn is due. -/
@[simp] theorem Here.writeS_due (h : Here) (r : SReg) (v : DWord) : (h.writeS r v).group.due = h.group.due := by
  obtain ⟨f, k, hframe, -⟩ := Group.writeSAs_frame h.group h.strand.sid r v
  show (h.group.writeSAs h.strand.sid r v).due = _
  rw [hframe]

/-- The contents of the strand, with the group's next turn `n` clocks later. -/
def Here.delay (h : Here) (n : Nat) : Here := { h with group := { h.group with due := h.group.due + n } }

/-- SDIV and SREM put back the retired result with the group's next turn three turns later. -/
theorem divOp_next {s : State} {h : Here} (e : s.here = some h) (d : SReg) (f : Here → DWord) :
    s.divOp d f = .next (s.putHere (((h.writeS d (f h)).retire 1 []).delay (3 * 16))) :=
  State.run_next e _

/-- The instruction's whole effect is one scalar result `v` and that the group's next turn is due three turns later (R84, R190). -/
def DivResult (s : State) (h : Here) (i : Instr) (d : SReg) (v : DWord) : Prop :=
  Completes s h i 1 fun t k => ScalarIs h k d v ∧ PredsKept h k ∧ Quiet s t h k ∧ k.group.due = h.group.due + 3 * 16

/-- AN INSTRUCTION WITH ONE SCALAR RESULT AND THREE TURNS WITHOUT ISSUE. -/
theorem divOp_result {s : State} {h : Here} {i : Instr} {d : SReg} {f : Here → DWord} (e : s.here = some h)
    (hx : exec i s = s.divOp d f) : DivResult s h i d (f h) := by
  obtain ⟨hnum, hstrands, -⟩ := writeSAs_rest h.group h.strand.sid d (f h)
  obtain ⟨⟨-, -, hflags, hrng, hmodes, hgroup⟩, hpreds⟩ := quiet_writeS s h d (f h) 1 []
  have hdue : (h.writeS d (f h)).group.due + 3 * 16 = h.group.due + 3 * 16 := by rw [Here.writeS_due]
  exact completes_put (k := ((h.writeS d (f h)).retire 1 []).delay (3 * 16)) e (hx.trans (divOp_next e d f)) rfl rfl rfl rfl
    hnum hstrands ⟨rfl, rfl, rfl, rfl, rfl⟩ rfl rfl
    ⟨scalarIs_write h d _ 1 [], hpreds, ⟨rfl, rfl, hflags, hrng, hmodes, hgroup⟩, hdue⟩

end Sys2Proof.Machine
end

section
/-! The numbers of R190: the quotient toward zero and its remainder, with the corner cases. -/

namespace Sys2Proof.Machine

open Sys2Proof

theorem divS_zero (u : Bool) (x : DWord) : divS u x 0 = 0xFFFFFFFFFFFFFFFF := rfl

theorem remS_zero (u : Bool) (x : DWord) : remS u x 0 = x := rfl

theorem divS_unsigned (x : DWord) {y : DWord} (hy : y ≠ 0) : divS true x y = BitVec.ofNat 64 (x.toNat / y.toNat) := by
  rw [← BitVec.udiv_def]
  exact if_neg hy

theorem remS_unsigned (x : DWord) {y : DWord} (hy : y ≠ 0) : remS true x y = BitVec.ofNat 64 (x.toNat % y.toNat) := by
  rw [← BitVec.umod_def]
  exact if_neg hy

theorem divS_signed (x : DWord) {y : DWord} (hy : y ≠ 0) : divS false x y = BitVec.ofInt 64 (x.toInt.tdiv y.toInt) :=
  if_neg hy

theorem remS_signed (x : DWord) {y : DWord} (hy : y ≠ 0) : remS false x y = BitVec.ofInt 64 (x.toInt.tmod y.toInt) :=
  if_neg hy

theorem ne_zero_of_toInt_neg_one {y : DWord} (hy : y.toInt = -1) : y ≠ 0 := by
  rintro rfl
  simp at hy

/-- The one quotient that 64 bits do not hold, 2^63, wraps to the dividend. -/
theorem divS_overflow {x y : DWord} (hx : x.toInt = -2 ^ 63) (hy : y.toInt = -1) : divS false x y = x := by
  rw [divS_signed x (ne_zero_of_toInt_neg_one hy), hx, hy, ← BitVec.ofInt_toInt (x := x), hx]
  decide

theorem remS_overflow {x y : DWord} (hx : x.toInt = -2 ^ 63) (hy : y.toInt = -1) : remS false x y = 0 := by
  rw [remS_signed x (ne_zero_of_toInt_neg_one hy), hx, hy]
  decide

/-- A negative quotient toward zero has operands of different signs. -/
theorem neg_iff_pos_of_tdiv_neg {x y : Int} (h : x.tdiv y < 0) : x < 0 ↔ 0 < y := by
  constructor
  · intro hx
    by_contra hy
    exact absurd (Int.tdiv_nonneg_of_nonpos_of_nonpos (by omega) (by omega : y ≤ 0)) (not_le.2 h)
  · intro hy
    by_contra hx
    exact absurd (Int.tdiv_nonneg (by omega : 0 ≤ x) (by omega : 0 ≤ y)) (not_le.2 h)

/-- A positive quotient toward zero has operands of the same sign. -/
theorem neg_iff_neg_of_tdiv_pos {x y : Int} (h : 0 < x.tdiv y) : x < 0 ↔ y < 0 := by
  have hneg : (x.tdiv (-y)) < 0 := by rw [Int.tdiv_neg]; omega
  rw [neg_iff_pos_of_tdiv_neg hneg]
  omega

/-- A remainder that is not zero has the sign of the dividend. -/
theorem tmod_neg_iff {x y : Int} (h : x.tmod y ≠ 0) : x.tmod y < 0 ↔ x < 0 := by
  rw [← Int.sign_eq_neg_one_iff_neg, ← Int.sign_eq_neg_one_iff_neg, Int.sign_tmod,
    if_neg fun hdvd => h (Int.tmod_eq_zero_of_dvd hdvd)]

end Sys2Proof.Machine
end

section
/-! SDIV and SREM (R190). -/

namespace Sys2Proof.Machine

open Sys2Proof Sys2Proof.Claims

theorem sdiv_result {s : State} {h : Here} (e : s.here = some h) (u : Bool) (d a b : SReg) :
    DivResult s h (.sdiv u d a b) d (divS u (h.readS a) (h.readS b)) :=
  divOp_result (f := fun h => divS u (h.readS a) (h.readS b)) e rfl

theorem srem_result {s : State} {h : Here} (e : s.here = some h) (u : Bool) (d a b : SReg) :
    DivResult s h (.srem u d a b) d (remS u (h.readS a) (h.readS b)) :=
  divOp_result (f := fun h => remS u (h.readS a) (h.readS b)) e rfl

/-- Settles O1: each case of R190 is one equation about the quotient and one about the remainder. -/
theorem division : Obligations.Division := by
  intro s h u d a b e x y result
  have hdiv : result (.sdiv u d a b) (divS u x y) := sdiv_result e u d a b
  have hrem : result (.srem u d a b) (remS u x y) := srem_result e u d a b
  refine ⟨rfl, rfl, fun hy => ?zero, fun hu hx hy => ?overflow, fun hy hu => ?unsigned, fun hy hu _ => ?signed⟩
  case zero =>
    rw [hy, divS_zero] at hdiv
    rw [hy, remS_zero] at hrem
    exact ⟨hdiv, hrem⟩
  case overflow =>
    subst hu
    exact ⟨divS_overflow hx hy ▸ hdiv, remS_overflow hx hy ▸ hrem⟩
  case unsigned =>
    subst hu
    exact ⟨divS_unsigned x hy ▸ hdiv, remS_unsigned x hy ▸ hrem⟩
  case signed =>
    subst hu
    have hr : x.toInt.tmod y.toInt = x.toInt - x.toInt.tdiv y.toInt * y.toInt := by rw [Int.tmod_def, Int.mul_comm]
    exact ⟨x.toInt.tdiv y.toInt, x.toInt.tmod y.toInt,
      ⟨Int.natAbs_tdiv _ _, neg_iff_pos_of_tdiv_neg, neg_iff_neg_of_tdiv_pos⟩, hr, tmod_neg_iff,
      divS_signed x hy ▸ hdiv, remS_signed x hy ▸ hrem⟩

end Sys2Proof.Machine
end

section
/-! The words of the immediate instructions (subformats S-I and S-X). -/

namespace Sys2Proof

/-- The word of subformat S-I holds the immediate in one piece, above `a` and `d`. -/
theorem sImm10_eq (op : BitVec 8) (n : BitVec 10) (a d : BitVec 6) : sImm10 op n a d = [n ++ a ++ d ++ op ++ (0 : BitVec 2)] := by
  have hsplit : n.extractLsb' 6 4 ++ n.extractLsb' 0 6 = n := BitVec.extractLsb'_append_extractLsb' (w := 4) (len := 6)
  exact congrArg (fun m : BitVec 10 => [m ++ a ++ d ++ op ++ (0 : BitVec 2)]) hsplit

/-- The word of subformat S-X holds the immediate in one piece, above `d`. -/
theorem sImm16_eq (op : BitVec 8) (n : BitVec 16) (d : BitVec 6) : sImm16 op n d = [n ++ d ++ op ++ (0 : BitVec 2)] := by
  have hsplit : (n.extractLsb' 12 4 ++ n.extractLsb' 6 6) ++ n.extractLsb' 0 6 = n := by
    rw [BitVec.extractLsb'_append_extractLsb'_eq_extractLsb' (rfl : 12 = 6 + 6),
      BitVec.extractLsb'_append_extractLsb'_eq_extractLsb' (rfl : 6 = 0 + 6)]
    exact BitVec.extractLsb'_eq_self
  exact congrArg (fun m : BitVec 16 => [m ++ d ++ op ++ (0 : BitVec 2)]) hsplit

/-- A shift amount in the field `b`, with no modifier, is the immediate of ten bits that it zero-extends to. -/
theorem sWord_shift (op : BitVec 8) (k a d : BitVec 6) : sWord op 0 k a d = [k.zeroExtend 10 ++ a ++ d ++ op ++ (0 : BitVec 2)] := by
  have hext : (0 : BitVec 4) ++ k = k.zeroExtend 10 := (BitVec.setWidth_eq_append (by decide)).symm
  exact congrArg (fun m : BitVec 10 => [m ++ a ++ d ++ op ++ (0 : BitVec 2)]) hext

end Sys2Proof
end

section
/-! The numbers of R193 and R194. -/

namespace Sys2Proof.Machine

open Sys2Proof

theorem imm10_eq (i : BitVec 10) : imm10 i = BitVec.ofInt 64 i.toInt := rfl

theorem shiftLeft_eq_ofNat (x : DWord) (k : Nat) : x <<< k = BitVec.ofNat 64 (x.toNat * 2 ^ k) := by
  apply BitVec.eq_of_toNat_eq
  simp [Nat.shiftLeft_eq]

theorem ushiftRight_eq_ofNat (x : DWord) (k : Nat) : x >>> k = BitVec.ofNat 64 (x.toNat / 2 ^ k) := by
  rw [← Nat.shiftRight_eq_div_pow, ← BitVec.toNat_ushiftRight, BitVec.ofNat_toNat, BitVec.setWidth_eq]

theorem sshiftRight_eq_ofInt (x : DWord) (k : Nat) : x.sshiftRight k = BitVec.ofInt 64 (x.toInt / 2 ^ k) := by
  have hdiv : x.toInt >>> k = x.toInt / 2 ^ k := by simp [Int.shiftRight_eq_div_pow]
  rw [← hdiv]
  rfl

/-- The sixteen bits moved in fill the zeros of the shift, so that OR is addition. -/
theorem movhi_eq_ofNat (x : DWord) (w : BitVec 16) :
    x <<< 16 ||| w.zeroExtend 64 = BitVec.ofNat 64 (x.toNat * 65536 + w.toNat) := by
  have hdisjoint : x <<< 16 &&& w.zeroExtend 64 = 0 := by
    ext j hj
    by_cases hlow : j < 16
    · simp [hlow]
    · simp [BitVec.getLsbD_of_ge w j (by omega)]
  rw [← BitVec.add_eq_or_of_and_eq_zero _ _ hdisjoint, shiftLeft_eq_ofNat]
  apply BitVec.eq_of_toNat_eq
  simp

end Sys2Proof.Machine
end

section
/-! The immediate instructions (R193, R194). -/

namespace Sys2Proof.Machine

open Sys2Proof Sys2Proof.Claims

/-- Settles O4: the words are those of the subformats, each result that of one equation between bit vectors. -/
theorem immediates : Obligations.Immediates := by
  intro s h d a i k w e x imm
  have result {j : Instr} {f : Here → DWord} {v : DWord} (hx : exec j s = s.scalarOp d f) (hv : f h = v) :
      ScalarResult s h j d v := hv ▸ scalarOp_result e hx
  exact ⟨sImm10_eq _ _ _ _, sImm10_eq _ _ _ _, sImm10_eq _ _ _ _, sImm10_eq _ _ _ _,
    sWord_shift _ _ _ _, sWord_shift _ _ _ _, sWord_shift _ _ _ _, sImm16_eq _ _ _, sImm16_eq _ _ _,
    result rfl (congrArg (x + ·) (imm10_eq i)), result rfl (congrArg (x &&& ·) (imm10_eq i)),
    result rfl (congrArg (x ||| ·) (imm10_eq i)), result rfl (congrArg (x ^^^ ·) (imm10_eq i)),
    result rfl (shiftLeft_eq_ofNat _ _), result rfl (ushiftRight_eq_ofNat _ _), result rfl (sshiftRight_eq_ofInt _ _),
    result rfl rfl, result rfl (movhi_eq_ofNat _ _)⟩

end Sys2Proof.Machine
end
